-- ==== Sys2Proof/Word.lean ====
section
/-! DEFINITION. The 16-bit word of the SC-2420's registers, FIFOs, List Store and cells (spec/00_scope.md,
"Conventions": a word is 16 bits). -/

namespace Sys2Proof

/-- A word: the unit of the host bus, the FIFOs, the List Store and the stations' cells. -/
abbrev Word := BitVec 16

/-- A bit of a numbered register, as the manual numbers it (bit 15 is the most significant, section 11.7). -/
abbrev Word.bit (w : Word) (k : Nat) : Bool := w.getLsbD k

/-- The field of `n` bits whose least significant bit is bit `lo` of the register. -/
abbrev Word.field (w : Word) (lo n : Nat) : BitVec n := w.extractLsb' lo n

/-- A set of stations 1 to 30: station `k` is bit `k - 1` (R143, R144 and the layouts of section 11.7). -/
abbrev StationSet := BitVec 30

end Sys2Proof
end

