-- ==== Sys2Proof/Syntax.lean ====
section
/-! DEFINITION. The commands of the block: one constructor of `Instr` for each row of spec/opcode_table.json,
with the operands the event carries (the value of a register write, the bits a station drives). -/

namespace Sys2Proof

/-- The owner of a run sequencer: the Direct Unit or the List Engine (R25, R26). -/
inductive Owner where
  | direct
  | list
deriving DecidableEq, Repr

/-- The two span registers a SPAN_WRITE may address (R67). -/
inductive SpanReg where
  | spbnd
  | spmap
deriving DecidableEq, Repr

/-- The two route registers a RTE_WRITE may address (R170). -/
inductive RouteReg where
  | rte0
  | rte1
deriving DecidableEq, Repr

/-- The commands. A host write carries the 16-bit value written (R180); where a row names one command of a
command register (GO of DCMD, FLUSH-OUT of FCMD), the write carries that command alone, and a write that
carries several is a `registerWrite` of the same address. -/
inductive Instr where
  /-- The supply becomes valid (R181). -/
  | powerOnReset
  /-- INIT has cleared the last word of the List Store (R181). -/
  | initEnd
  /-- RESET becomes asserted (R182). -/
  | pinReset
  /-- RESET is released (R182). -/
  | resetRelease
  /-- A CTL write with SRST = 1 (R183, R184). -/
  | softReset
  /-- A CTL write with SEGEN = 1 and neither CENSUS-NOW nor SRST (R19, R183). -/
  | segenSet
  /-- A CTL write with SEGEN = 0 and neither CENSUS-NOW nor SRST (R18, R183). -/
  | segenClear
  /-- A CTL write with CENSUS-NOW = 1 and SRST = 0; `segen` is the SEGEN bit the same write carries (R135, R183). -/
  | censusNow (segen : Bool)
  /-- ATN becomes asserted (R133, R134). -/
  | atnAsserted
  /-- ATN stops being asserted (R133). -/
  | atnReleased
  /-- The last bit of the frame going out is sent (R13). -/
  | frameSent
  /-- A reply taken whole in AWAIT ends; `bits` are the line levels at the bit times after the sync pattern, in
  the order received, `true` for the level 1; bits not listed read as the idle line (R3, R4, R188). -/
  | replyEnd (bits : List Bool)
  /-- The reply timeout expires; `partialSync` says whether the receiver holds the opening bits of a sync pattern
  that is not yet complete (R3, R14). -/
  | replyTimeout (partialSync : Bool)
  /-- A reply arrives while the Segment Master is not in AWAIT (R16). -/
  | discardedReply
  /-- Slot 30 of a census ends; `slots` are the line levels of slots 1 to 30 in station order, each as its three bit
  times with the first one most significant; slots not listed are undriven (R7, R188). -/
  | censusSlotsEnd (slots : List (BitVec 3))
  /-- The running gap ends (R17). -/
  | gapEnd
  /-- A write of TIM0 (R8, R9). -/
  | tim0Write (v : Word)
  /-- A DCMD write with GO alone (R81 to R85). -/
  | dcmdGo
  /-- A DCMD write with ABORT (R81, R86). -/
  | dcmdAbort
  /-- The persist timer of the owner's run expires (R42, R43). -/
  | persistExpiry (o : Owner)
  /-- The stall timer of the owner's run expires (R44). -/
  | runStallExpiry (o : Owner)
  /-- The data or the room the owner's stalled run waits for is there (R32, R33). -/
  | runStallEnd (o : Owner)
  /-- A write of ODAT (R52). -/
  | odatWrite (v : Word)
  /-- A read of IDAT (R53). -/
  | idatRead
  /-- A FCMD write with FLUSH-OUT alone (R62). -/
  | flushOut
  /-- A FCMD write with FLUSH-IN alone (R62). -/
  | flushIn
  /-- A write of FMKI (R59, R60). -/
  | fmkiWrite (v : Word)
  /-- A write of FMKO (R61). -/
  | fmkoWrite (v : Word)
  /-- A write of SPBND or SPMAP (R67). -/
  | spanWrite (reg : SpanReg) (v : Word)
  /-- A SPCTL write with EN = 1 (R71, R72). -/
  | spanEnable
  /-- A SPCTL write with EN = 0 (R72, R73). -/
  | spanDisable
  /-- A read of LDAT (R96). -/
  | ldatRead
  /-- A write of LDAT (R97). -/
  | ldatWrite (v : Word)
  /-- A LCMD write with START and without ABORT (R114, R115). -/
  | lcmdStart
  /-- A LCMD write with RESUME alone (R114, R116). -/
  | lcmdResume
  /-- A LCMD write with ABORT (R114, R118). -/
  | lcmdAbort
  /-- The List Engine stalled on NQ attempts its posting again (R124). -/
  | markPostRetry
  /-- The FIFO Pair grants the claim request the List Engine has waiting (R56). -/
  | listClaimGranted
  /-- The List Engine's own stall timer expires (R126). -/
  | listStallExpiry
  /-- The pause timer expires (R123). -/
  | pauseExpiry
  /-- The holdoff timer expires (R141). -/
  | holdoffExpiry
  /-- A BKCMD write of READ (R151). -/
  | bkcmdRead
  /-- A BKCMD write of BOOK (R152). -/
  | bkcmdBook
  /-- A BKCMD write of UNBOOK (R153). -/
  | bkcmdUnbook
  /-- A BKCMD write of ARM (R154). -/
  | bkcmdArm
  /-- A BKCMD write of DISARM (R155). -/
  | bkcmdDisarm
  /-- The service waiting in RESERVING attempts its reservation again (R160). -/
  | reservationRetry
  /-- A write of NQADV (R178). -/
  | nqadv
  /-- A write of CND (R168). -/
  | cndWrite (v : Word)
  /-- A write of RTE0 or RTE1 (R170). -/
  | rteWrite (reg : RouteReg) (v : Word)
  /-- A write of LEN (R171). -/
  | lenWrite (v : Word)
  /-- A write of LOCK (R185). -/
  | lockWrite (v : Word)
  /-- A host write of `v` to the register at address `addr` (R180); every address of the map of section 11.6. -/
  | registerWrite (addr : BitVec 6) (v : Word)
  /-- In AWAIT the receiver takes in the complete sync pattern (R3). -/
  | replyStart
  /-- The partly received sync pattern that outlived the timeout breaks off (R3). -/
  | syncBreakOff
deriving DecidableEq, Repr

end Sys2Proof
end

