-- ==== Sys2Proof/Decode.lean ====
section
/-! DEFINITION. What command a word spells. spec/opcode_table.json gives none of its 55 rows any bits ("fields" is
empty in every row and no row has "fixed"): the rows are host accesses, wire events and timer expiries, not encoded
words. So no word spells a command. -/

namespace Sys2Proof

/-- The command spelled by the `nbits` bits of `w`: none, since no row of the table gives bits. -/
def decodeTableWord (_nbits _w : Nat) : Option Instr := none

end Sys2Proof
end

