-- ==== Sys2Proof/Config.lean ====
section
/-! DEFINITION. What the manual leaves to the hardware: the order in which two things that fall together are taken
("either may be taken first"), where one command of this model holds both of them. -/

namespace Sys2Proof

/-- FREE VALUE. The manual's "either may be taken first": whether, at the `n`-th such choice since reset, the one
named first in the place that asks is taken first. Nothing is known of it (log entry 2). -/
opaque Config.firstTaken : Nat → Bool

end Sys2Proof
end

