-- ==== Sys2Proof/Machine/State.lean ====
section
/-! DEFINITION. Everything the SC-2420 holds, block by block as spec/00_scope.md divides it, the queue of waiting
commands, and the reset values. Counts, stations, cells and addresses that the manual only counts and compares are
`Nat`; what it writes as a field of a register is a bit vector of that field's width. -/

namespace Sys2Proof.Machine

/-- How the block can stop with a fault. It has no constructor: the manual gives every command an effect, and no
state in which the part stops. -/
inductive Fault where
deriving DecidableEq, Repr

/-- How a command can be refused by the model. -/
inductive Refusal where
  /-- Raised by an arm of `exec` whose command has no meaning yet; safe, since nothing is claimed of it. No arm
  of this model raises it. (A command that the PART refuses is an effect: it sets REFUSE and RSN, R187.) -/
  | notModelled (mnemonic : String)
deriving DecidableEq, Repr

/-! ## The vocabulary of runs (spec/02_runs.md) -/

/-- The verb field, its unused fourth code included (R1, R25, R79). -/
inductive Verb where
  | fetch
  | store
  | trigger
  | unused
deriving DecidableEq, Repr

/-- R25. -/
inductive Form where
  | station
  | window
deriving DecidableEq, Repr

/-- R25. -/
inductive Advance where
  | fixed
  | step
deriving DecidableEq, Repr

/-- The wait policy field, its unused fourth code included (R25, R79). -/
inductive WaitPolicy where
  | halt
  | skip
  | persist
  | unused
deriving DecidableEq, Repr

/-- R25, R26. -/
inductive DataMode where
  | noData
  | register
  | fifo
  | inline
deriving DecidableEq, Repr

/-- The codes of the outcome fields of DOUT and LOUT (section 11.7). -/
inductive Result where
  | noOutcome
  | inProgress
  | complete
  | wait
  | refused
  | silent
  | corrupt
  | deadline
  | starved
  | unmapped
  | cellEnd
  | offline
  | aborted
  | illegal
  | claimed
  | malformed
deriving DecidableEq, Repr

/-- R40. -/
inductive LastReply where
  | noReply
  | done
  | wait
  | refused
deriving DecidableEq, Repr

/-- Section 2.2 and R110. -/
inductive StallReason where
  | noStall
  | fifoData
  | fifoRoom
  | claim
  | nq
deriving DecidableEq, Repr

/-- The sub-states of a run (section 2.2). -/
inductive SubState where
  | preparing
  | requesting
  | inFlight
  | stalled
  | aborting
  | ended
deriving DecidableEq, Repr

/-- A run description (R25). `start` is the start cell or the start window address. -/
structure RunDesc where
  form : Form
  station : Nat
  start : Nat
  verb : Verb
  count : Nat
  advance : Advance
  wait : WaitPolicy
  tolerant : Bool
  retries : Nat
  mode : DataMode
deriving DecidableEq, Repr

/-- The description of a sequencer that carries no run. -/
def RunDesc.blank : RunDesc :=
  { form := .station, station := 0, start := 0, verb := .fetch, count := 0, advance := .fixed, wait := .halt,
    tolerant := false, retries := 0, mode := .noData }

/-- A run sequencer (section 2.2). What its owner shows of the run (DOUT, DWDN, DWSK, DLST; the per-entry fields of
the List Engine's context) is read from here, during the run and after it. A timer is the duration it was started
with while it runs: milliseconds for `persist` and `stallTimer`. -/
structure Run where
  desc : RunDesc
  sub : SubState
  index : Nat
  done : Nat
  skipped : Nat
  lastReply : LastReply
  lastStation : Nat
  lastCell : Nat
  fullSeen : Bool
  stall : StallReason
  persist : Option Nat
  held : Bool
  stallTimer : Option Nat
deriving DecidableEq, Repr

/-- The sequencer's values at a start (R27) and after a reset (R48), with no run under way. -/
def Run.fresh : Run :=
  { desc := RunDesc.blank, sub := .ended, index := 0, done := 0, skipped := 0, lastReply := .noReply,
    lastStation := 0, lastCell := 0, fullSeen := false, stall := .noStall, persist := none, held := false,
    stallTimer := none }

/-! ## The Segment Master (spec/01_the_segment_and_the_segment_master.md) -/

/-- The outcomes of attempts, transactions and service actions (R4, R14, R20, R161). -/
inductive Ending where
  | done
  | wait
  | refused
  | silent
  | corrupt
  | offline
deriving DecidableEq, Repr

/-- The three requesters of the rotation (R22); CENSUS stands outside it. -/
inductive Client where
  | service
  | direct
  | list
deriving DecidableEq, Repr

/-- Where a STORE's data is taken from at the grant (R26, R34, R12). -/
inductive DataSource where
  /-- FETCH and TRIGGER carry no data. -/
  | noData
  /-- A service action's own data (R161). -/
  | word (w : Word)
  /-- The Direct Unit's data word (R80). -/
  | dataWord
  /-- The List Store word at this address (R103). -/
  | inline (addr : Nat)
  /-- A copy of the head of the Outbound FIFO (R34). -/
  | outboundHead
deriving DecidableEq, Repr

/-- A request of SERVICE, DIRECT or LIST at the arbiter (R12, R34, R161). -/
structure Request where
  station : Nat
  verb : Verb
  cell : Nat
  retries : Nat
  source : DataSource
deriving DecidableEq, Repr

/-- What the Segment Master read in one census slot (R7). -/
inductive SlotResult where
  | absent
  | quiet
  | attention
  | garbled
deriving DecidableEq, Repr

/-- The transaction record of a SERVICE, DIRECT or LIST transaction (R11); `final` marks the attempt after which
R18 allows no retry. -/
structure WordTx where
  client : Client
  station : Nat
  verb : Verb
  cell : Nat
  data : Option Word
  retryLimit : Nat
  retriesUsed : Nat
  latest : Option Ending
  final : Bool
deriving DecidableEq, Repr

/-- The transaction record, which also says who holds the current grant (R11). A census record holds its slot
results. -/
inductive Tx where
  | census (slots : List SlotResult)
  | word (w : WordTx)
deriving DecidableEq, Repr

/-- The five states of the Segment Master (R11). -/
inductive SmPhase where
  | off
  | idle
  | send
  | await
  | gap
deriving DecidableEq, Repr

/-- The three gaps (R10). -/
inductive GapKind where
  | interFrame
  | broadcast
  | recovery
deriving DecidableEq, Repr

/-- What the end of the running gap brings (R15, R17, R18). -/
inductive AfterGap where
  /-- IDLE or OFF; the outcome has been delivered, or a reset has abandoned the transaction. -/
  | rest
  /-- Another attempt of the transaction in the record. -/
  | retry
  /-- Delivery of the record's final SILENT or CORRUPT, then IDLE or OFF. -/
  | deliver
deriving DecidableEq, Repr

/-- The Segment Master and its arbiter. `rate` and `timeout` are the values sampled at the latest entry to SEND
(R8, R9); `tim0Rate` and `tim0Timeout` are TIM0. -/
structure Sm where
  segen : Bool
  phase : SmPhase
  tx : Option Tx
  gap : Option GapKind
  after : AfterGap
  rate : BitVec 2
  timeout : BitVec 8
  timing : Bool
  replyStarted : Bool
  partialSync : Bool
  tim0Rate : BitVec 2
  tim0Timeout : BitVec 8
  pendCensus : Bool
  pendService : Option Request
  pendDirect : Option Request
  pendList : Option Request
  pointer : Client
deriving DecidableEq, Repr

/-! ## Direct Unit, List Engine, FIFO Pair, Span Decoder -/

/-- The Direct Unit (spec/05_direct_requests.md). It is BUSY exactly while its run is not ended. The snapshot of R82
is `run.desc` and `word`. -/
structure Du where
  dtgt : Word
  dcel : BitVec 12
  dcnt : BitVec 12
  dmod : Word
  ddat : Word
  word : Word
  outcome : Result
  run : Run
deriving DecidableEq, Repr

/-- One of the two FIFOs. -/
inductive FifoSide where
  | outbound
  | inbound
deriving DecidableEq, Repr

/-- What the List Engine itself is at; with the run's sub-state it gives the six states of R111. -/
inductive Activity where
  | idle
  /-- An entry's run is under way. -/
  | running
  /-- STALLED, reason CLAIM: a request for this FIFO's claim waits at the FIFO Pair (R56). -/
  | waitClaim (f : FifoSide)
  /-- STALLED, reason NQ (R124). -/
  | waitNq
  | pausing
  | halted
deriving DecidableEq, Repr

/-- A word memory: (address, word) pairs, addresses strictly rising, no word 0000h listed; an unlisted address reads
0000h (log entry 20). -/
abbrev Memory := List (Nat × Word)

/-- The List Engine (spec/06, spec/07). The per-entry fields of the context (word index, counts, last reply, last
station and cell, stall reason) are those of `run` (R110). `entryLen`, `inlineBase` and `tag` are what the engine read
of the current entry (R99). `pauseTimer` runs in units of 100 µs, `stallTimer` (the engine's own stalls) in ms. -/
structure Le where
  store : Memory
  lptr : BitVec 12
  lsta : BitVec 12
  activity : Activity
  cursor : Nat
  outcome : Result
  resumable : Bool
  run : Run
  entryLen : Nat
  inlineBase : Nat
  tag : Word
  pauseTimer : Option Nat
  stallTimer : Option Nat
deriving DecidableEq, Repr

/-- R54. -/
inductive Claim where
  | unclaimed
  | direct
  | list
deriving DecidableEq, Repr

/-- One FIFO, head first, with its claim and the word accounting of R51 since the last reset. -/
structure Fifo where
  words : List Word
  claim : Claim
  joined : Nat
  removed : Nat
  flushed : Nat
deriving DecidableEq, Repr

/-- The FIFO Pair and its marks (spec/03_the_fifo_pair.md). -/
structure Fp where
  out : Fifo
  inb : Fifo
  resumeMark : BitVec 6
  idrqMark : BitVec 7
  odrqMark : BitVec 6
deriving DecidableEq, Repr

/-- A span (R65): the upper boundary in units of 64 addresses, the station, the base in units of 64 cells. -/
structure Span where
  upper : Nat
  station : BitVec 5
  base : BitVec 6
deriving DecidableEq, Repr

/-- The Span Decoder (spec/04). `bad` is the check-failure index BAD, `none` for NONE. -/
structure Sd where
  spans : Vector Span 8
  en : Bool
  bad : Option Nat
  sel : BitVec 3
deriving DecidableEq, Repr

/-! ## Attention Unit and Booking Unit -/

/-- The states of the Attention Unit (spec/08). -/
inductive AuState where
  | quiet
  | requested
  | census
  | holdoff
deriving DecidableEq, Repr

/-- The Attention Unit, with the level of its input ATN. `timer` is the running holdoff in units of 100 µs. -/
structure Au where
  atn : Bool
  state : AuState
  attention : StationSet
  presence : StationSet
  mask : StationSet
  setting : BitVec 8
  timer : Option Nat
deriving DecidableEq, Repr

/-- R148. -/
inductive BookState where
  | unbooked
  | armed
  | queued
  | inService
  | disarmed
deriving DecidableEq, Repr

/-- R148. -/
inductive BookClass where
  | notify
  | repeat
  | once
deriving DecidableEq, Repr

/-- R148. -/
inductive PendingMark where
  | noMark
  | disarm
  | unbook
deriving DecidableEq, Repr

/-- An action record; an absent action is `Action.absent`, which reads 0000h in both its words (R148). -/
structure Action where
  verb : Verb
  cell : BitVec 12
  data : Word
deriving DecidableEq, Repr

def Action.absent : Action := { verb := .fetch, cell := 0, data := 0 }

/-- A Booking Table entry (R148). -/
structure Booking where
  state : BookState
  cls : BookClass
  clear : Action
  disarm : Action
  tag : Word
  count : BitVec 8
  mark : PendingMark
deriving DecidableEq, Repr

/-- An entry after a power-on or pin reset (R165). -/
def Booking.blank : Booking :=
  { state := .unbooked, cls := .notify, clear := .absent, disarm := .absent, tag := 0, count := 0, mark := .noMark }

/-- The states of the service context (section 9.4). -/
inductive SvcState where
  | idle
  | reserving
  | action1
  | action2
  | posting
deriving DecidableEq, Repr

/-- The Booking Unit (spec/09): table (entry of station `k` at index `k - 1`), Service Queue head first, service
context, staging registers, TIM2. -/
structure Bu where
  table : Vector Booking 30
  queue : List Nat
  ctx : SvcState
  station : Nat
  outcome : Ending
  value : Option Word
  bksel : BitVec 5
  bkcls : BitVec 2
  bka1v : Word
  bka1d : Word
  bka2v : Word
  bka2d : Word
  bktag : Word
  bkcnt : Word
  tim2 : BitVec 3
deriving DecidableEq, Repr

/-! ## Report Unit and Host Port -/

/-- The nine conditions (section 10). -/
inductive Condition where
  | ldone
  | lhalt
  | ddone
  | svflt
  | cnflt
  | unbk
  | hosterr
  | lockw
  | refuse
deriving DecidableEq, Repr

/-- The four routes (R170). -/
inductive Route where
  | noRoute
  | irq
  | alert
  | queue
deriving DecidableEq, Repr

/-- A notification record (R174). `value` is the fetched value when data-valid is set. -/
inductive Record where
  | service (station : Nat) (tag : Word) (outcome : Ending) (count : BitVec 8) (value : Option Word)
  | mark (addr : Nat) (tag : Word)
  | condition (c : Condition)
deriving DecidableEq, Repr

/-- A slot of the Notification Queue: an occupied record or the Booking Unit's reservation (R173). -/
inductive Slot where
  | reserved
  | occupied (r : Record)
deriving DecidableEq, Repr

/-- The Report Unit (spec/10). Flag and spill mark of condition number `k` are bit `k`; `len` holds the enables of
NQNE, IDRQ and ODRQ at bits 0, 1 and 2; the queue's head comes first. -/
structure Ru where
  flags : BitVec 9
  spills : BitVec 9
  rte0 : BitVec 16
  rte1 : BitVec 2
  len : BitVec 3
  nq : List Slot
deriving DecidableEq, Repr

/-- The refusal reasons of RSN (R187). -/
inductive Reason where
  | noRefusal
  | directBusy
  | listBusy
  | notResumable
  | flushClaimed
  | spanEnabled
  | spanInvalid
  | bookingBusy
  | notBooked
  | badStation
  | badClass
  | nqEmpty
  | segmentOff
deriving DecidableEq, Repr

/-- The Host Port (spec/11): INIT, the level of the RESET input, the lock, RSN. `initCleared` is set when INIT has
cleared the store while RESET was still asserted (R181). `resetEdge` is the model's own: RESET has just been asserted, and
the host access that can fall together with the assertion has not come yet (R109, log entry 29). `readData` is the model's own: what the data lines carried at
the latest read of IDAT or LDAT, and 0 after a power-on or pin reset (DESIGN CHOICE, log entry 7). -/
structure Hp where
  initRunning : Bool
  initCleared : Bool
  resetAsserted : Bool
  resetEdge : Bool
  lock : Bool
  rsn : Reason
  readData : Word
deriving DecidableEq, Repr

/-- The whole part. `deadline` and `stallLimit` are TIM1 (R42, R44), in ms. `choices` is the MODEL's own: how many
orders of events that fell together have been taken (log entry 2). -/
structure Block where
  hp : Hp
  sm : Sm
  du : Du
  le : Le
  fp : Fp
  sd : Sd
  au : Au
  bu : Bu
  ru : Ru
  deadline : BitVec 8
  stallLimit : BitVec 8
  choices : Nat
deriving DecidableEq, Repr

/-- The part and the queue of the commands that wait, first in, first out. -/
structure State where
  block : Block
  pending : List Instr
deriving DecidableEq, Repr

/-! ## Reset values -/

/-- R23, with TIM0 at 250 kbit/s and n = 20 (R8, R9). -/
def Sm.reset : Sm :=
  { segen := false, phase := .off, tx := none, gap := none, after := .rest, rate := 0, timeout := 20,
    timing := false, replyStarted := false, partialSync := false, tim0Rate := 0, tim0Timeout := 20,
    pendCensus := false, pendService := none, pendDirect := none, pendList := none, pointer := .list }

/-- R91. -/
def Du.reset : Du :=
  { dtgt := 0, dcel := 0, dcnt := 0, dmod := 0, ddat := 0, word := 0, outcome := .noOutcome, run := Run.fresh }

/-- R109, R131. -/
def Le.reset : Le :=
  { store := [], lptr := 0, lsta := 0, activity := .idle, cursor := 0, outcome := .noOutcome, resumable := false,
    run := Run.fresh, entryLen := 0, inlineBase := 0, tag := 0, pauseTimer := none, stallTimer := none }

/-- R51, R54, R63. -/
def Fifo.reset : Fifo := { words := [], claim := .unclaimed, joined := 0, removed := 0, flushed := 0 }

/-- R63. -/
def Fp.reset : Fp :=
  { out := Fifo.reset, inb := Fifo.reset, resumeMark := 32, idrqMark := 16, odrqMark := 48 }

/-- R77. -/
def Sd.reset : Sd :=
  { spans := Vector.replicate 8 { upper := 0, station := 0, base := 0 }, en := false, bad := none, sel := 0 }

/-- R146. The level of the input ATN is log entry 5's. -/
def Au.reset : Au :=
  { atn := false, state := .quiet, attention := 0, presence := 0, mask := 0, setting := 10, timer := none }

/-- R165. -/
def Bu.reset : Bu :=
  { table := Vector.replicate 30 Booking.blank, queue := [], ctx := .idle, station := 0, outcome := .done,
    value := none, bksel := 0, bkcls := 0, bka1v := 0, bka1d := 0, bka2v := 0, bka2d := 0, bktag := 0, bkcnt := 0,
    tim2 := 2 }

/-- R179. -/
def Ru.reset : Ru := { flags := 0, spills := 0, rte0 := 0, rte1 := 0, len := 0, nq := [] }

/-- R181, R185, R187: INIT runs, the lock is clear, RSN reads NONE. -/
def Hp.reset : Hp :=
  { initRunning := true, initCleared := false, resetAsserted := false, resetEdge := false, lock := false, rsn := .noRefusal,
    readData := 0 }

/-- The part right after a power-on reset (R181), with TIM1 at 50 ms and 100 ms (R42, R44). -/
def Block.reset : Block :=
  { hp := Hp.reset, sm := Sm.reset, du := Du.reset, le := Le.reset, fp := Fp.reset, sd := Sd.reset, au := Au.reset,
    bu := Bu.reset, ru := Ru.reset, deadline := 50, stallLimit := 100, choices := 0 }

/-- The machine right after reset: the power-on reset has been taken, INIT runs, and no command waits. -/
def State.reset : State := { block := Block.reset, pending := [] }

end Sys2Proof.Machine
end

