-- ==== Sys2Proof/Machine/Operands.lean ====
section
/-! DEFINITION. The formats of section 11.7 and of the wire: field codes, DMOD, list entries, segment frames, the check
code, replies and census slots. -/

namespace Sys2Proof.Machine

/-! ## Field codes (section 11.7) -/

/-- The verb codes of DMOD, the entry header, BKA1V and BKA2V, and the wire (section 11.7, R188). -/
def Verb.ofCode (c : BitVec 2) : Verb :=
  if c = 0 then .fetch else if c = 1 then .store else if c = 2 then .trigger else .unused

def Verb.code : Verb → BitVec 2
  | .fetch => 0
  | .store => 1
  | .trigger => 2
  | .unused => 3

def WaitPolicy.ofCode (c : BitVec 2) : WaitPolicy :=
  if c = 0 then .halt else if c = 1 then .skip else if c = 2 then .persist else .unused

/-- The data mode codes of DMOD. -/
def DataMode.ofCode (c : BitVec 2) : DataMode :=
  if c = 0 then .noData else if c = 1 then .register else if c = 2 then .fifo else .inline

def Form.ofBit (b : Bool) : Form := if b then .window else .station

def Advance.ofBit (b : Bool) : Advance := if b then .step else .fixed

def Result.code : Result → BitVec 4
  | .noOutcome => 0
  | .inProgress => 1
  | .complete => 2
  | .wait => 3
  | .refused => 4
  | .silent => 5
  | .corrupt => 6
  | .deadline => 7
  | .starved => 8
  | .unmapped => 9
  | .cellEnd => 10
  | .offline => 11
  | .aborted => 12
  | .illegal => 13
  | .claimed => 14
  | .malformed => 15

def LastReply.code : LastReply → BitVec 2
  | .noReply => 0
  | .done => 1
  | .wait => 2
  | .refused => 3

/-- The result of a run whose transaction ended without a DONE that goes on (R36, R38, R39). -/
def Ending.result : Ending → Result
  | .done => .complete
  | .wait => .wait
  | .refused => .refused
  | .silent => .silent
  | .corrupt => .corrupt
  | .offline => .offline

/-- The outcome codes of a service record (NQ0). -/
def Ending.code : Ending → BitVec 3
  | .done => 1
  | .wait => 2
  | .refused => 3
  | .silent => 4
  | .corrupt => 5
  | .offline => 6

def Reason.code : Reason → BitVec 4
  | .noRefusal => 0
  | .directBusy => 1
  | .listBusy => 2
  | .notResumable => 3
  | .flushClaimed => 4
  | .spanEnabled => 5
  | .spanInvalid => 6
  | .bookingBusy => 7
  | .notBooked => 8
  | .badStation => 9
  | .badClass => 10
  | .nqEmpty => 11
  | .segmentOff => 12

def Condition.number : Condition → Nat
  | .ldone => 0
  | .lhalt => 1
  | .ddone => 2
  | .svflt => 3
  | .cnflt => 4
  | .unbk => 5
  | .hosterr => 6
  | .lockw => 7
  | .refuse => 8

def Route.ofCode (c : BitVec 2) : Route :=
  if c = 0 then .noRoute else if c = 1 then .irq else if c = 2 then .alert else .queue

def BookState.code : BookState → BitVec 3
  | .unbooked => 0
  | .armed => 1
  | .queued => 2
  | .inService => 3
  | .disarmed => 4

def BookClass.code : BookClass → BitVec 2
  | .notify => 0
  | .repeat => 1
  | .once => 2

/-- The class a code of BKCLS names, if any. -/
def BookClass.ofCode (c : BitVec 2) : Option BookClass :=
  if c = 0 then some .notify else if c = 1 then some .repeat else if c = 2 then some .once else none

def PendingMark.code : PendingMark → BitVec 2
  | .noMark => 0
  | .disarm => 1
  | .unbook => 2

def Claim.code : Claim → BitVec 2
  | .unclaimed => 0
  | .direct => 1
  | .list => 2

def SmPhase.code : SmPhase → BitVec 3
  | .off => 0
  | .idle => 1
  | .send => 2
  | .await => 3
  | .gap => 4

def AuState.code : AuState → BitVec 2
  | .quiet => 0
  | .requested => 1
  | .census => 2
  | .holdoff => 3

def SvcState.code : SvcState → BitVec 3
  | .idle => 0
  | .reserving => 1
  | .action1 => 2
  | .action2 => 3
  | .posting => 4

/-! ## The direct request (R79, R82) -/

/-- The run description a GO builds from the request registers (R82, layout of DMOD). -/
def Du.describe (d : Du) : RunDesc :=
  let form := Form.ofBit (d.dmod.bit 15)
  { form := form
    station := match form with
      | .station => d.dtgt.toNat % 32
      | .window => 0
    start := match form with
      | .station => d.dcel.toNat
      | .window => d.dtgt.toNat
    verb := Verb.ofCode (d.dmod.field 13 2)
    count := d.dcnt.toNat
    advance := Advance.ofBit (d.dmod.bit 12)
    wait := WaitPolicy.ofCode (d.dmod.field 10 2)
    tolerant := d.dmod.bit 9
    retries := (d.dmod.field 6 3).toNat
    mode := DataMode.ofCode (d.dmod.field 4 2) }

/-! ## List entries (R100 to R108) -/

/-- What the engine reads at its cursor (R99, R108). A run entry carries its description, its length in words and the
address of word 0 of its inline area. -/
inductive Entry where
  | run (desc : RunDesc) (len inlineBase : Nat)
  | pause (duration : Nat)
  | mark (tag : Word)
  | endOfList
  | malformed
deriving DecidableEq, Repr

/-- The description of a SINGLE or RUN entry from its header and words 1 and 2 (R101, R102). -/
def headerDesc (h w1 w2 : Word) (count : Nat) (advance : Advance) (mode : DataMode) : RunDesc :=
  let form := Form.ofBit (h.bit 12)
  { form := form
    station := match form with
      | .station => w1.toNat % 32
      | .window => 0
    start := match form with
      | .station => w2.toNat % 4096
      | .window => w1.toNat
    verb := Verb.ofCode (h.field 10 2)
    count := count
    advance := advance
    wait := WaitPolicy.ofCode (h.field 8 2)
    tolerant := h.bit 7
    retries := (h.field 4 3).toNat
    mode := mode }

/-- The data mode of an entry's run: `own` for FETCH and STORE, none for TRIGGER and the fourth code (R101, R102). -/
def entryMode (v : Verb) (own : DataMode) : DataMode :=
  match v with
  | .fetch => own
  | .store => own
  | .trigger => .noData
  | .unused => .noData

/-- The SINGLE entry at address `a`, whose words are read by `rd` (R101, R103). -/
def singleEntry (rd : Nat → Word) (a : Nat) : Entry :=
  let h := rd a
  let mode := entryMode (Verb.ofCode (h.field 10 2)) .inline
  .run (headerDesc h (rd (a + 1)) (rd (a + 2)) 1 .fixed mode) 4 (a + 3)

/-- The RUN entry at address `a`, or `malformed` for its count and its area (R102, R103, R107, R108). -/
def runEntry (rd : Nat → Word) (a : Nat) : Entry :=
  let h := rd a
  let count := (rd (a + 3)).toNat
  let own := if h.bit 2 then DataMode.fifo else DataMode.inline
  let mode := entryMode (Verb.ofCode (h.field 10 2)) own
  let len := if mode = .inline then 4 + count else 4
  if count = 0 ∨ 4096 ≤ count then .malformed
  else if 4096 < a + len then .malformed
  else .run (headerDesc h (rd (a + 1)) (rd (a + 2)) count (Advance.ofBit (h.bit 3)) mode) len (a + 4)

/-- The entry at cursor `a` (R100, R104 to R108). -/
def entryAt (rd : Nat → Word) (a : Nat) : Entry :=
  let kind := (rd a).field 13 3
  if 4096 ≤ a then .malformed
  else if kind = 0 then .endOfList
  else if kind = 1 then (if 4093 ≤ a then .malformed else singleEntry rd a)
  else if kind = 2 then (if 4093 ≤ a then .malformed else runEntry rd a)
  else if kind = 3 then
    (if 4095 ≤ a ∨ rd (a + 1) = 0 then .malformed else .pause (rd (a + 1)).toNat)
  else if kind = 4 then (if 4095 ≤ a then .malformed else .mark (rd (a + 1)))
  else .malformed

/-! ## Frames, the check and replies (R2 to R7, R188) -/

/-- The bits of a field in the order they are sent, most significant first (R188). -/
def bitsMsbFirst {n : Nat} (v : BitVec n) : List Bool := (List.range n).map v.getMsbD

/-- The value of a field received most significant bit first (R188). -/
def ofBitsMsbFirst (n : Nat) (bits : List Bool) : BitVec n :=
  BitVec.ofNat n (bits.foldl (fun acc b => 2 * acc + b.toNat) 0)

/-- One bit taken into the check register (R5, steps 1 to 3). -/
def checkStep (r : BitVec 8) (b : Bool) : BitVec 8 :=
  if r.msb ^^ b then (r <<< 1) ^^^ 0x2D#8 else r <<< 1

/-- The check over the given bits (R5). -/
def checkOf (bits : List Bool) : BitVec 8 := bits.foldl checkStep 0xFF#8

/-- The sync pattern (R188). -/
def syncPattern : BitVec 8 := 0x1B#8

/-- The bits of a request frame that its check covers (R2, R5). -/
def requestBody (station : Nat) (verb : Verb) (cell : Nat) (data : Option Word) : List Bool :=
  bitsMsbFirst (BitVec.ofNat 5 station) ++ bitsMsbFirst verb.code ++ bitsMsbFirst (BitVec.ofNat 12 cell) ++
    (match data with
      | some w => bitsMsbFirst w
      | none => [])

/-- A request frame (R2, R188). -/
def requestFrame (station : Nat) (verb : Verb) (cell : Nat) (data : Option Word) : List Bool :=
  let body := requestBody station verb cell data
  bitsMsbFirst syncPattern ++ body ++ bitsMsbFirst (checkOf body)

/-- The frame of the transaction in the record; the census frame is the broadcast FETCH of cell 0 (R2, R7). -/
def Tx.frame : Tx → List Bool
  | .census _ => requestFrame 31 .fetch 0 none
  | .word w => requestFrame w.station w.verb w.cell w.data

/-- The line level at bit time `k` after sync; the line idles at 1 (R4, R188). -/
def lineAt (bits : List Bool) (k : Nat) : Bool := bits.getD k true

/-- The `n` line levels from bit time `lo` after sync. -/
def lineSlice (bits : List Bool) (lo n : Nat) : List Bool := (List.range n).map (fun k => lineAt bits (lo + k))

/-- The outcome of an attempt whose reply has ended, with the fetched value of a DONE to a FETCH (R3, R4, R188). -/
def judgeReply (verb : Verb) (bits : List Bool) : Ending × Word :=
  let code := ofBitsMsbFirst 2 (lineSlice bits 0 2)
  let withData := code = 1 ∧ verb = .fetch
  let covered := if withData then 18 else 2
  let good := checkOf (lineSlice bits 0 covered) = ofBitsMsbFirst 8 (lineSlice bits covered 8)
  if ¬ good then (.corrupt, 0)
  else if code = 1 then
    (.done, if verb = .fetch then ofBitsMsbFirst 16 (lineSlice bits 2 16) else 0)
  else if code = 2 then (.wait, 0)
  else if code = 3 then (.refused, 0)
  else (.corrupt, 0)

/-- One census slot, judged from its three line levels (R7, R188). -/
def judgeSlot (levels : BitVec 3) : SlotResult :=
  if levels = 0b111#3 then .absent
  else if levels = 0b011#3 then .quiet
  else if levels = 0b001#3 then .attention
  else .garbled

/-- The 30 slot results in station order (R7). -/
def judgeSlots (slots : List (BitVec 3)) : List SlotResult :=
  (List.range 30).map (fun k => judgeSlot (slots.getD k 0b111#3))

/-- The stations whose slot satisfies `p` (R137). -/
def stationsOf (slots : List SlotResult) (p : SlotResult → Bool) : StationSet :=
  BitVec.ofFnLE (fun k : Fin 30 => p (slots.getD k.val .absent))

/-- Whether station `k` is in the set. -/
def hasStation (set : StationSet) (k : Nat) : Bool := 1 ≤ k && set.getLsbD (k - 1)

end Sys2Proof.Machine
end

