-- ==== Sys2Proof/Machine/Ops.lean ====
section
/-! DEFINITION. The shared operations over the part's state: the List Store, the FIFOs, the span table, the condition
flags and the Notification Queue, refusals, the Booking Table, and the choice between two orders. -/

namespace Sys2Proof.Machine

/-! ## When the part takes events (R181, R182) -/

/-- INIT is over and RESET is released: host accesses are decoded, and the blocks are not held at their reset values. -/
def Block.operating (b : Block) : Bool := !b.hp.initRunning && !b.hp.resetAsserted

/-- What a held part keeps of an access or event that it ignores: no later one can fall together with the assertion of
RESET (log entry 29). -/
def Block.ignored (b : Block) : Block := { b with hp := { b.hp with resetEdge := false } }

/-- A host write or an event of the wire or of a timer, which reaches the blocks only while they operate (log entry 25; for
LDAT see `Block.accessLdat`). -/
def Block.whenOperating (f : Block → Block) (b : Block) : Block := if b.operating then f b else b.ignored

/-- A command's effect on the part; the queue stays as it is. -/
def State.onBlock (f : Block → Block) (s : State) : State := { s with block := f s.block }

/-- The outcome of a command: every command of this part answers a next state. -/
def State.become (f : Block → Block) (s : State) : Host.Outcome State Fault Refusal := .next (s.onBlock f)

/-- Takes one of the choices the manual leaves free: whether the first of two events that fell together is taken
first (log entry 2). -/
def Block.choose (b : Block) : Bool × Block :=
  (Config.firstTaken b.choices, { b with choices := b.choices + 1 })

/-- The running limit of a timer: 0 starts no timer (R42, R44, R141). -/
def limitOf (n : BitVec 8) : Option Nat := if n = 0 then none else some n.toNat

/-! ## The List Store (R94) -/

/-- The word at an address; an unlisted one holds 0000h. -/
def Memory.read : Memory → Nat → Word
  | [], _ => 0
  | (k, w) :: rest, a => if k = a then w else Memory.read rest a

/-- The memory after a write below its end, in canonical form. -/
def Memory.insert : Memory → Nat → Word → Memory
  | [], a, w => if w = 0 then [] else [(a, w)]
  | (k, v) :: rest, a, w =>
    if a < k then (if w = 0 then (k, v) :: rest else (a, w) :: (k, v) :: rest)
    else if a = k then (if w = 0 then rest else (a, w) :: rest)
    else (k, v) :: Memory.insert rest a w

/-- A write; the store has addresses 0 to 4095 (R94). -/
def Memory.write (m : Memory) (a : Nat) (w : Word) : Memory := if a < 4096 then m.insert a w else m

/-- The canonical form: addresses strictly rising and below 4096, no 0000h listed. -/
abbrev Memory.wf (m : Memory) : Prop :=
  m.Pairwise (fun p q => p.1 < q.1) ∧ ∀ p ∈ m, p.1 < 4096 ∧ p.2 ≠ 0

/-- The List Store's word at `a`. -/
def Block.storeAt (b : Block) (a : Nat) : Word := b.le.store.read a

def Block.storePut (b : Block) (a : Nat) (w : Word) : Block :=
  { b with le := { b.le with store := b.le.store.write a w } }

/-! ## The FIFOs (R49 to R51) -/

def Fifo.level (f : Fifo) : Nat := f.words.length

/-- A word joins at the tail. A full FIFO takes none (R51; log entry 14). -/
def Fifo.join (f : Fifo) (w : Word) : Fifo :=
  if f.level < 64 then { f with words := f.words ++ [w], joined := f.joined + 1 } else f

/-- The head word leaves, by a transaction's outcome or a host read. -/
def Fifo.leave (f : Fifo) : Fifo :=
  match f.words with
  | [] => f
  | _ :: rest => { f with words := rest, removed := f.removed + 1 }

/-- A flush (R62): the words count as flushed. -/
def Fifo.flush (f : Fifo) : Fifo := { f with words := [], flushed := f.flushed + f.level }

def Fifo.withClaim (f : Fifo) (c : Claim) : Fifo := { f with claim := c }

def Block.fifo (b : Block) : FifoSide → Fifo
  | .outbound => b.fp.out
  | .inbound => b.fp.inb

def Block.setFifo (b : Block) (side : FifoSide) (f : Fifo) : Block :=
  match side with
  | .outbound => { b with fp := { b.fp with out := f } }
  | .inbound => { b with fp := { b.fp with inb := f } }

def Block.setClaim (b : Block) (side : FifoSide) (c : Claim) : Block :=
  b.setFifo side ((b.fifo side).withClaim c)

/-- The FIFO a run asks the claim of, if any (R54). -/
def RunDesc.fifoSide (d : RunDesc) : Option FifoSide :=
  match d.mode, d.verb with
  | .fifo, .store => some .outbound
  | .fifo, .fetch => some .inbound
  | _, _ => none

/-! ## The span table (R68, R70) -/

/-- Decodes `a` against the spans from one whose lower boundary is `lower` units: the first span whose upper boundary
lies above the address (R68). -/
def decodeFrom (lower : Nat) : List Span → Nat → Option (Nat × Nat)
  | [], _ => none
  | sp :: rest, a =>
    if a < 64 * sp.upper then some (sp.station.toNat, 64 * sp.base.toNat + (a - 64 * lower))
    else decodeFrom sp.upper rest a

/-- The Span Decoder's answer for a window address: station and cell, or `none` for UNMAPPED (R68). -/
def Sd.decode (d : Sd) (a : Nat) : Option (Nat × Nat) :=
  if d.en then decodeFrom 0 d.spans.toList a else none

/-- Whether a span whose lower boundary is `lower` fails the enable check (R70). -/
def Span.fails (lower : Nat) (sp : Span) : Bool :=
  decide (sp.upper < lower) ||
    (decide (lower < sp.upper) &&
      (decide (sp.station = 0) || decide (sp.station = 31) || decide (64 < sp.base.toNat + (sp.upper - lower))))

/-- The lowest failing index among the spans, the first of which has index `k` (R70). -/
def checkFrom (lower k : Nat) : List Span → Option Nat
  | [] => none
  | sp :: rest => if sp.fails lower then some k else checkFrom sp.upper (k + 1) rest

/-- The enable check's result: the lowest failing index, or `none` (R70). -/
def Sd.check (d : Sd) : Option Nat := checkFrom 0 0 d.spans.toList

/-! ## Condition flags and the Notification Queue (R167 to R176) -/

def Ru.flag (r : Ru) (c : Condition) : Bool := r.flags.getLsbD c.number

def Ru.spilled (r : Ru) (c : Condition) : Bool := r.spills.getLsbD c.number

/-- The route of a condition, from RTE0 and RTE1 (R170). -/
def Ru.route (r : Ru) (c : Condition) : Route :=
  match c with
  | .refuse => Route.ofCode r.rte1
  | _ => Route.ofCode (r.rte0.extractLsb' (2 * c.number) 2)

/-- Occupied slots of the Notification Queue. -/
def Ru.occupied (r : Ru) : Nat := r.nq.countP (· ≠ .reserved)

/-- Reserved slots of the Notification Queue. -/
def Ru.reservedSlots (r : Ru) : Nat := r.nq.count .reserved

/-- A slot is free: neither occupied nor reserved (R173). -/
def Ru.hasFree (r : Ru) : Bool := r.nq.length < 16

def Ru.join (r : Ru) (slot : Slot) : Ru := { r with nq := r.nq ++ [slot] }

/-- The flag of the condition as a mask. -/
def Condition.mask (c : Condition) : BitVec 9 := BitVec.twoPow 9 c.number

/-- A block reports an event of this condition (R167, R176). -/
def Ru.setCondition (r : Ru) (c : Condition) : Ru :=
  if r.flag c then r
  else
    let set := { r with flags := r.flags ||| c.mask }
    if r.route c = .queue then
      (if r.hasFree then set.join (.occupied (.condition c)) else { set with spills := r.spills ||| c.mask })
    else set

/-- The service record takes the place of the reservation (R162, R173). -/
def fillReservation (rec : Record) : List Slot → List Slot
  | [] => []
  | .reserved :: rest => .occupied rec :: rest
  | .occupied r :: rest => .occupied r :: fillReservation rec rest

def Block.setCondition (b : Block) (c : Condition) : Block := { b with ru := b.ru.setCondition c }

/-- Whether an event of this condition would ask for a slot of the Notification Queue now (R175). -/
def Block.wouldPost (b : Block) (c : Condition) : Bool := !b.ru.flag c && decide (b.ru.route c = .queue)

/-- A block refuses a host command: REFUSE is set and RSN takes the reason (R187). -/
def Block.refuse (b : Block) (reason : Reason) : Block :=
  { b with hp := { b.hp with rsn := reason }, ru := b.ru.setCondition .refuse }

/-- A write to the locked group: with the lock set it is ignored and sets LOCKW alone (R186). -/
def Block.lockedWrite (f : Block → Block) (b : Block) : Block :=
  if b.hp.lock then b.setCondition .lockw else f b

/-! ## The Booking Table (R148) -/

/-- The entry of a station; number 0 is no station and has none. -/
def Bu.entry (u : Bu) : Nat → Booking
  | 0 => Booking.blank
  | k + 1 => u.table[k]?.getD Booking.blank

def Bu.setEntry (u : Bu) (station : Nat) (e : Booking) : Bu :=
  match station with
  | 0 => u
  | k + 1 => { u with table := u.table.setIfInBounds k e }

/-- The entry of a station with another state. -/
def Bu.setState (u : Bu) (station : Nat) (st : BookState) : Bu :=
  u.setEntry station { u.entry station with state := st }

/-- The station leaves the Service Queue; the others keep their order (R157). -/
def Bu.dequeue (u : Bu) (station : Nat) : Bu := { u with queue := u.queue.filter (· ≠ station) }

/-! ## The two run sequencers -/

def Block.run (b : Block) : Owner → Run
  | .direct => b.du.run
  | .list => b.le.run

def Block.setRun (b : Block) (o : Owner) (r : Run) : Block :=
  match o with
  | .direct => { b with du := { b.du with run := r } }
  | .list => { b with le := { b.le with run := r } }

end Sys2Proof.Machine
end

