-- ==== Sys2Proof/Machine/Reports.lean ====
section
/-! DEFINITION. The host's side of the Report Unit (spec/10): CND, the routes, LEN. -/

namespace Sys2Proof.Machine

/-- A write of CND: each flag written with 1 is cleared with its spill mark (R168). -/
def Block.writeCnd (b : Block) (v : Word) : Block :=
  let keep := ~~~ (v.field 0 9)
  { b with ru := { b.ru with flags := b.ru.flags &&& keep, spills := b.ru.spills &&& keep } }

/-- A write of RTE0 or RTE1 (R170, R186). -/
def Block.writeRoute (b : Block) (reg : RouteReg) (v : Word) : Block :=
  b.lockedWrite fun b => match reg with
    | .rte0 => { b with ru := { b.ru with rte0 := v } }
    | .rte1 => { b with ru := { b.ru with rte1 := v.field 0 2 } }

/-- A write of LEN (R171). -/
def Block.writeLen (b : Block) (v : Word) : Block := { b with ru := { b.ru with len := v.field 0 3 } }

end Sys2Proof.Machine
end

