-- ==== Sys2Proof/Machine/Spans.lean ====
section
/-! DEFINITION. The host's side of the Span Decoder (spec/04): writes of SPBND, SPMAP and SPCTL. -/

namespace Sys2Proof.Machine

def Sd.setSelected (d : Sd) (f : Span → Span) : Sd :=
  { d with spans := d.spans.setIfInBounds d.sel.toNat (f (d.spans[d.sel.toNat])) }

/-- The upper boundary stored for a written field: above 1024 as 1024 (R67). -/
def boundStored (x : BitVec 11) : Nat := min x.toNat 1024

/-- The field or fields of the selected span that a span register sets (R67). -/
def spanField (reg : SpanReg) (v : Word) (sp : Span) : Span :=
  match reg with
  | .spbnd => { sp with upper := boundStored (v.field 0 11) }
  | .spmap => { sp with station := v.field 0 5, base := v.field 8 6 }

/-- A write of SPBND or SPMAP: the lock, then EN, then stored (R67). -/
def Block.writeSpan (b : Block) (reg : SpanReg) (v : Word) : Block :=
  b.lockedWrite fun b =>
    if b.sd.en then b.refuse .spanEnabled
    else { b with sd := b.sd.setSelected (spanField reg v) }

/-- EN = 1 written with the lock clear (R71, R72). -/
def Block.enableSpans (b : Block) : Block :=
  if b.sd.en then b
  else match b.sd.check with
    | none => { b with sd := { b.sd with en := true, bad := none } }
    | some k => ({ b with sd := { b.sd with bad := some k } }).refuse .spanInvalid

/-- A write of SPCTL (R71, R72). -/
def Block.writeSpctl (b : Block) (en : Bool) : Block :=
  b.lockedWrite fun b => if en then b.enableSpans else { b with sd := { b.sd with en := false } }

end Sys2Proof.Machine
end

