-- ==== Sys2Proof/Machine/Flags.lean ====
section
/-! DEFINITION. What the part shows: the level sources, the interrupt lines, the states that follow from other state,
and the value a host read of each register returns (sections 11.6 and 11.7). -/

namespace Sys2Proof.Machine

/-! ## Level sources and lines -/

/-- IDRQ (R60). -/
def Block.idrq (b : Block) : Bool := b.fp.idrqMark.toNat ≤ b.fp.inb.level

/-- ODRQ (R61). -/
def Block.odrq (b : Block) : Bool := b.fp.out.level ≤ b.fp.odrqMark.toNat

/-- NQNE: the head of the Notification Queue is an occupied record (R171, R173). -/
def Block.nqne (b : Block) : Bool :=
  match b.ru.nq with
  | .occupied _ :: _ => true
  | _ => false

def allConditions : List Condition :=
  [.ldone, .lhalt, .ddone, .svflt, .cnflt, .unbk, .hosterr, .lockw, .refuse]

/-- IRQ is asserted (R172); it is released during INIT and RESET (R181, R182). -/
def Block.irq (b : Block) : Bool :=
  b.operating &&
    (allConditions.any (fun c => b.ru.flag c && decide (b.ru.route c = .irq)) ||
      (b.ru.len.getLsbD 0 && b.nqne) || (b.ru.len.getLsbD 1 && b.idrq) || (b.ru.len.getLsbD 2 && b.odrq))

/-- ALERT is asserted (R172). -/
def Block.alert (b : Block) : Bool :=
  b.operating &&
    (allConditions.any (fun c => b.ru.flag c && decide (b.ru.route c = .alert)) ||
      allConditions.any (fun c => b.ru.spilled c))

/-- STE, the transmit enable, is asserted while the Segment Master is in SEND (section 11.1). -/
def Block.ste (b : Block) : Bool := b.sm.phase = .send

/-- The frame going out on STX while the Segment Master is in SEND (R2, R7, R11). -/
def Block.frameOut (b : Block) : Option (List Bool) := if b.sm.phase = .send then b.sm.tx.map Tx.frame else none

/-! ## States that follow from other state -/

/-- The six states of the List Engine (section 7.1). -/
inductive LeState where
  | idle
  | running
  | stalled
  | pausing
  | aborting
  | halted
deriving DecidableEq, Repr

/-- R111. -/
def Le.state (l : Le) : LeState :=
  match l.activity with
  | .idle => .idle
  | .halted => .halted
  | .pausing => .pausing
  | .waitNq => .stalled
  | .waitClaim _ => .stalled
  | .running => match l.run.sub with
    | .stalled => .stalled
    | .aborting => .aborting
    | .preparing => .running
    | .requesting => .running
    | .inFlight => .running
    | .ended => .running

/-- The Direct Unit carries a run (R83, R88). -/
def Du.busy (d : Du) : Bool := d.run.sub ≠ .ended

/-- The code of the requester that holds the current grant: 0 none, 1 CENSUS, 2 SERVICE, 3 DIRECT, 4 LIST (R11). -/
def Sm.grantCode (s : Sm) : BitVec 3 :=
  match s.tx with
  | none => 0
  | some (.census _) => 1
  | some (.word w) => match w.client with
    | .service => 2
    | .direct => 3
    | .list => 4

/-! ## Register values -/

/-- A field placed at bit `lo` of a register. -/
def place {n : Nat} (v : BitVec n) (lo : Nat) : Word := v.setWidth 16 <<< lo

def bitAt (x : Bool) (lo : Nat) : Word := place (BitVec.ofBool x) lo

def Block.regSta (b : Block) : Word := place b.sm.phase.code 0 ||| place b.sm.grantCode 3

def Block.regTim0 (b : Block) : Word := place b.sm.tim0Timeout 0 ||| place b.sm.tim0Rate 8

def Block.regTim1 (b : Block) : Word := place b.deadline 0 ||| place b.stallLimit 8

/-- The record at the head of the Notification Queue, if the head is occupied (R177). -/
def Ru.head (r : Ru) : Option Record :=
  match r.nq with
  | .occupied rec :: _ => some rec
  | _ => none

def Record.nq0 : Record → Word
  | .service _ _ e n v => place (1 : BitVec 2) 14 ||| place e.code 11 ||| bitAt v.isSome 10 ||| place n 0
  | .mark _ _ => place (2 : BitVec 2) 14
  | .condition _ => place (3 : BitVec 2) 14

def Record.nq1 : Record → Word
  | .service st _ _ _ _ => place (BitVec.ofNat 12 st) 0
  | .mark a _ => place (BitVec.ofNat 12 a) 0
  | .condition c => place (BitVec.ofNat 12 c.number) 0

def Record.nq2 : Record → Word
  | .service _ tag _ _ _ => tag
  | .mark _ tag => tag
  | .condition _ => 0

def Record.nq3 : Record → Word
  | .service _ _ _ _ v => v.getD 0
  | .mark _ _ => 0
  | .condition _ => 0

def Block.regNqlv (b : Block) : Word :=
  place (BitVec.ofNat 5 b.ru.occupied) 0 ||| place (BitVec.ofNat 1 b.ru.reservedSlots) 8 ||| bitAt b.nqne 15

/-- The fields DOUT and LOUT share: outcome, last reply, last station. -/
def statusFields (outcome : Result) (r : Run) : Word :=
  place outcome.code 12 ||| place r.lastReply.code 10 ||| place (BitVec.ofNat 5 r.lastStation) 0

/-- The stall reason codes of DOUT. -/
def StallReason.directCode : StallReason → BitVec 2
  | .fifoData => 1
  | .fifoRoom => 2
  | .noStall => 0
  | .claim => 0
  | .nq => 0

/-- The stall reason codes of LOUT. -/
def StallReason.listCode : StallReason → BitVec 2
  | .fifoData => 0
  | .fifoRoom => 1
  | .claim => 2
  | .nq => 3
  | .noStall => 0

def Block.regDout (b : Block) : Word :=
  statusFields b.du.outcome b.du.run ||| place b.du.run.stall.directCode 8 ||| bitAt b.du.busy 5

/-- The engine state codes of LOUT; the resumable flag is shown as state 6 (section 11.7). -/
def Le.stateCode (l : Le) : BitVec 3 :=
  match l.state with
  | .idle => 0
  | .running => 1
  | .stalled => 2
  | .pausing => 3
  | .aborting => 4
  | .halted => if l.resumable then 6 else 5

def Block.regLout (b : Block) : Word :=
  let stall := if b.le.state = .stalled ∨ b.le.outcome = .starved then b.le.run.stall.listCode else 0
  statusFields b.le.outcome b.le.run ||| place b.le.stateCode 7 ||| place stall 5

def Block.regFlv (b : Block) : Word :=
  place (BitVec.ofNat 7 b.fp.out.level) 0 ||| bitAt b.odrq 7 ||| place (BitVec.ofNat 7 b.fp.inb.level) 8 |||
    bitAt b.idrq 15

def Sd.selected (d : Sd) : Span := d.spans[d.sel.toNat]

def Block.regSpctl (b : Block) : Word := bitAt b.sd.en 0 ||| place (BitVec.ofNat 4 (b.sd.bad.getD 8)) 8

def Block.regAucf (b : Block) : Word := place b.au.setting 0 ||| place b.au.state.code 8 ||| bitAt b.au.atn 15

/-- Stations 1 to 15 of a set (registers AMKL, ATPL, PRPL). -/
def lowHalf (x : StationSet) : Word := place (x.extractLsb' 0 15) 0

/-- Stations 16 to 30 of a set (registers AMKH, ATPH, PRPH). -/
def highHalf (x : StationSet) : Word := place (x.extractLsb' 15 15) 0

/-- An action's verb-and-cell word (layout of BKA1V and BKA2V). -/
def Action.verbCell (a : Action) : Word := place a.verb.code 14 ||| place a.cell 0

def Block.regBksv (b : Block) : Word :=
  place b.bu.ctx.code 0 ||| place (BitVec.ofNat 5 b.bu.station) 3 ||| place (BitVec.ofNat 5 b.bu.queue.length) 8

/-- The value a read of the register at `addr` returns once accesses are decoded (section 11.6). -/
def Block.decodedRead (b : Block) (addr : BitVec 6) : Word :=
  match addr.toNat with
  | 0x00 => bitAt b.sm.segen 0
  | 0x01 => b.regSta
  | 0x02 => bitAt b.hp.lock 0
  | 0x03 => place b.hp.rsn.code 0
  | 0x04 => b.regTim0
  | 0x05 => b.regTim1
  | 0x06 => place b.bu.tim2 0
  | 0x07 => place b.ru.flags 0
  | 0x08 => place b.ru.spills 0
  | 0x09 => b.ru.rte0
  | 0x0A => place b.ru.rte1 0
  | 0x0B => place b.ru.len 0
  | 0x0C => (b.ru.head.map Record.nq0).getD 0
  | 0x0D => (b.ru.head.map Record.nq1).getD 0
  | 0x0E => (b.ru.head.map Record.nq2).getD 0
  | 0x0F => (b.ru.head.map Record.nq3).getD 0
  | 0x10 => b.regNqlv
  | 0x11 => b.du.dtgt
  | 0x12 => place b.du.dcel 0
  | 0x13 => place b.du.dcnt 0
  | 0x14 => b.du.dmod
  | 0x15 => b.du.ddat
  | 0x17 => b.regDout
  | 0x18 => place (BitVec.ofNat 12 b.du.run.done) 0
  | 0x19 => place (BitVec.ofNat 12 b.du.run.skipped) 0
  | 0x1A => place (BitVec.ofNat 12 b.du.run.lastCell) 0
  | 0x1B => place b.le.lptr 0
  | 0x1C => b.storeAt b.le.lptr.toNat
  | 0x1D => place b.le.lsta 0
  | 0x1F => place (BitVec.ofNat 13 b.le.cursor) 0
  | 0x20 => place (BitVec.ofNat 12 b.le.run.index) 0
  | 0x21 => place (BitVec.ofNat 12 b.le.run.done) 0
  | 0x22 => place (BitVec.ofNat 12 b.le.run.skipped) 0
  | 0x23 => b.regLout
  | 0x24 => place (BitVec.ofNat 12 b.le.run.lastCell) 0
  | 0x26 => b.fp.inb.words.headD 0
  | 0x27 => b.regFlv
  | 0x28 => place b.fp.out.claim.code 0 ||| place b.fp.inb.claim.code 2
  | 0x29 => place b.fp.resumeMark 0 ||| place b.fp.idrqMark 8
  | 0x2A => place b.fp.odrqMark 0
  | 0x2B => place b.sd.sel 0
  | 0x2C => place (BitVec.ofNat 11 b.sd.selected.upper) 0
  | 0x2D => place b.sd.selected.station 0 ||| place b.sd.selected.base 8
  | 0x2E => b.regSpctl
  | 0x2F => b.regAucf
  | 0x30 => lowHalf b.au.mask
  | 0x31 => highHalf b.au.mask
  | 0x32 => lowHalf b.au.attention
  | 0x33 => highHalf b.au.attention
  | 0x34 => lowHalf b.au.presence
  | 0x35 => highHalf b.au.presence
  | 0x36 => place b.bu.bksel 0
  | 0x37 => place b.bu.bkcls 0
  | 0x38 => b.bu.bka1v
  | 0x39 => b.bu.bka1d
  | 0x3A => b.bu.bka2v
  | 0x3B => b.bu.bka2d
  | 0x3C => b.bu.bktag
  | 0x3D => b.bu.bkcnt
  | 0x3F => b.regBksv
  | _ => 0

/-- The value a host read of the register at `addr` returns (R180 to R182): 0000h while RESET is asserted, and during
INIT 0000h but for STA, which then shows INIT alone. -/
def Block.hostRead (b : Block) (addr : BitVec 6) : Word :=
  if b.hp.resetAsserted then 0
  else if b.hp.initRunning then (if addr = 0x01#6 then 0x8000 else 0)
  else b.decodedRead addr

end Sys2Proof.Machine
end

