-- ==== Sys2Proof/Machine/Segment.lean ====
section
/-! DEFINITION. The Segment Master's own operations: the pending requests, the grant, the gaps, the end of an attempt
(R10 to R22). What a delivered outcome does to its requester stands with the requester. -/

namespace Sys2Proof.Machine

/-! ## Requests (R21) -/

def Sm.request (s : Sm) : Client → Option Request
  | .service => s.pendService
  | .direct => s.pendDirect
  | .list => s.pendList

def Sm.setRequest (s : Sm) (c : Client) (r : Option Request) : Sm :=
  match c with
  | .service => { s with pendService := r }
  | .direct => { s with pendDirect := r }
  | .list => { s with pendList := r }

/-- The order in which the arbiter looks at the three requesters after the pointer (R22). -/
def Client.after : Client → List Client
  | .list => [.service, .direct, .list]
  | .service => [.direct, .list, .service]
  | .direct => [.list, .service, .direct]

/-- The requester the rotation grants next, if one is pending (R22, step 2). -/
def Sm.nextClient (s : Sm) : Option Client := s.pointer.after.find? (fun c => (s.request c).isSome)

/-- A withdrawal (R21). -/
def Block.withdraw (b : Block) (c : Client) : Block := { b with sm := b.sm.setRequest c none }

/-! ## The grant (R12, R22) -/

/-- The SM enters SEND with the given record and samples TIM0 (R8, R9, R12, R15). -/
def Sm.enterSend (s : Sm) (tx : Tx) : Sm :=
  { s with phase := .send, tx := some tx, gap := none, after := .rest, rate := s.tim0Rate,
           timeout := s.tim0Timeout, timing := false, replyStarted := false, partialSync := false }

/-- The data a STORE takes at its grant (R26, R34). -/
def Block.sourceData (b : Block) : DataSource → Option Word
  | .noData => none
  | .word w => some w
  | .dataWord => some b.du.word
  | .inline a => some (b.storeAt a)
  | .outboundHead => b.fp.out.words.head?

/-- A run whose request is granted is IN-FLIGHT (R34). -/
def Block.markInFlight (b : Block) : Client → Block
  | .service => b
  | .direct => b.setRun .direct { b.du.run with sub := .inFlight }
  | .list => b.setRun .list { b.le.run with sub := .inFlight }

/-- The grant of a request of SERVICE, DIRECT or LIST (R12, R22). -/
def Block.grantClient (b : Block) (c : Client) (r : Request) : Block :=
  let w : WordTx :=
    { client := c, station := r.station, verb := r.verb, cell := r.cell, data := b.sourceData r.source,
      retryLimit := r.retries, retriesUsed := 0, latest := none, final := false }
  let sm := { b.sm.setRequest c none with pointer := c }
  ({ b with sm := sm.enterSend (.word w) }).markInFlight c

/-- The grant of the census request: the pointer does not move, the AU enters CENSUS (R22, R136). -/
def Block.grantCensus (b : Block) : Block :=
  let sm := { b.sm with pendCensus := false }
  { b with sm := sm.enterSend (.census []), au := { b.au with state := .census } }

/-- The arbiter: it grants whenever the SM is IDLE, SEGEN is 1 and a request is pending (R22). -/
def Block.arbitrate (b : Block) : Block :=
  if b.sm.phase = .idle ∧ b.sm.segen then
    if b.sm.pendCensus then b.grantCensus
    else match b.sm.nextClient with
      | none => b
      | some c => match b.sm.request c with
        | none => b
        | some r => b.grantClient c r
  else b

/-- A post of SERVICE, DIRECT or LIST while SEGEN is 1: it becomes pending, and in IDLE the arbiter grants at once
(R21). A post while SEGEN is 0 is answered OFFLINE by its poster's own rule (R20). -/
def Block.post (b : Block) (c : Client) (r : Request) : Block :=
  ({ b with sm := b.sm.setRequest c (some r) }).arbitrate

/-- The AU enters REQUESTED and posts its census request (R134); taken only while SEGEN is 1. -/
def Block.requestCensus (b : Block) : Block :=
  ({ b with au := { b.au with state := .requested, timer := none }, sm := { b.sm with pendCensus := true } }).arbitrate

/-! ## The end of an attempt and of a gap (R10, R15, R17) -/

/-- The SM enters GAP. -/
def Sm.enterGap (s : Sm) (g : GapKind) (after : AfterGap) : Sm :=
  { s with phase := .gap, gap := some g, after := after, timing := false, replyStarted := false,
           partialSync := false }

/-- The attempt of the record `w` ends (R15, R18): which gap follows and what comes after it. -/
def Sm.endAttempt (s : Sm) (w : WordTx) (e : Ending) : Sm :=
  match e with
  | .silent | .corrupt =>
    if w.retriesUsed < w.retryLimit ∧ w.final = false then
      { s.enterGap .recovery .retry with
        tx := some (.word { w with latest := some e, retriesUsed := w.retriesUsed + 1 }) }
    else { s.enterGap .recovery .deliver with tx := some (.word { w with latest := some e }) }
  | .done | .wait | .refused | .offline =>
    { s.enterGap .interFrame .rest with tx := some (.word { w with latest := some e }) }

/-- The end of the last gap: IDLE, or OFF while SEGEN is 0, and no requester is shown (R11, R17). -/
def Sm.enterRest (s : Sm) : Sm :=
  { s with phase := if s.segen then .idle else .off, tx := none, gap := none, after := .rest }

/-- An event of the reply reaches the SM in AWAIT for a request frame; elsewhere it has no effect (R13, R14, R16). -/
def Block.onAwait (b : Block) (f : WordTx → Block) : Block :=
  match b.sm.phase, b.sm.tx with
  | .await, some (.word w) => f w
  | _, _ => b

/-- A broadcast STORE or TRIGGER (R6). -/
def WordTx.isBroadcast (w : WordTx) : Bool := w.station = 31 && w.verb ≠ .fetch

end Sys2Proof.Machine
end

