-- ==== Sys2Proof/Machine/Bookings.lean ====
section
/-! DEFINITION. The Booking Unit (spec/09_bookings_and_service.md): the service sequence, the hand-over of a census's
selection, and the commands of BKCMD. -/

namespace Sys2Proof.Machine

/-! ## The service sequence (R159 to R163) -/

/-- The entry's next state after a posting, by the first line of the table that applies (R163). -/
def nextBookState (mark : PendingMark) (e : Ending) (cls : BookClass) : BookState :=
  match mark with
  | .unbook => .unbooked
  | .disarm => .disarmed
  | .noMark =>
    if e = .offline then .armed
    else if e ≠ .done then .disarmed
    else match cls with
      | .repeat => .armed
      | .notify => .disarmed
      | .once => .disarmed

/-- The posting sets SVFLT: line 4 of the table of R163. -/
def serviceFault (mark : PendingMark) (e : Ending) : Bool := mark = .noMark && e ≠ .done && e ≠ .offline

/-- The service count after one more posting (R162). -/
def nextCount (n : BitVec 8) : BitVec 8 := if n = 255 then 255 else n + 1

/-- POSTING: the record takes its slot, the entry gets its next state, the context returns to IDLE (R162, R163). -/
def Block.postService (b : Block) : Block :=
  let u := b.bu
  let ent := u.entry u.station
  let n := nextCount ent.count
  let posted : Record := .service u.station ent.tag u.outcome n u.value
  let ent' := { ent with state := nextBookState ent.mark u.outcome ent.cls, count := n, mark := .noMark }
  let b' := { b with
    bu := { u.setEntry u.station ent' with ctx := .idle, station := 0, outcome := .done, value := none }
    ru := { b.ru with nq := fillReservation posted b.ru.nq } }
  if serviceFault ent.mark u.outcome then b'.setCondition .svflt else b'

/-- The service's actions are over with this outcome (R160, R161). -/
def Block.finishService (b : Block) (e : Ending) : Block :=
  ({ b with bu := { b.bu with ctx := .posting, outcome := e } }).postService

/-- An action is posted as the SERVICE requester; with SEGEN at 0 the answer is OFFLINE at once (R161, R164, R20). -/
def Block.postAction (b : Block) (ctx : SvcState) (a : Action) : Block :=
  let b' := { b with bu := { b.bu with ctx := ctx } }
  if b.sm.segen then
    b'.post .service
      { station := b.bu.station, verb := a.verb, cell := a.cell.toNat, retries := b.bu.tim2.toNat,
        source := if a.verb = .store then .word a.data else .noData }
  else b'.finishService .offline

/-- The slot is reserved: the clear action is posted, or a NOTIFY service is over with DONE (R160). -/
def Block.beginActions (b : Block) : Block :=
  let ent := b.bu.entry b.bu.station
  match ent.cls with
  | .notify => b.finishService .done
  | .repeat => b.postAction .action1 ent.clear
  | .once => b.postAction .action1 ent.clear

/-- The attempt at a reservation in RESERVING (R160, R175). -/
def Block.tryReserve (b : Block) : Block :=
  if b.ru.hasFree then ({ b with ru := b.ru.join .reserved }).beginActions else b

/-- A service can start (R159). -/
def Block.serviceReady (b : Block) : Bool := b.bu.ctx = .idle && !b.bu.queue.isEmpty && b.sm.segen

/-- The head station leaves the Service Queue, its entry is IN-SERVICE, the context is RESERVING (R159). -/
def Block.takeHead (b : Block) : Block :=
  match b.bu.queue with
  | [] => b
  | st :: rest =>
    { b with bu := { b.bu.setState st .inService with
                     queue := rest, ctx := .reserving, station := st, outcome := .done, value := none } }

/-- At most `n` services start one after the other, each when the context is IDLE again (R159, R163). -/
def Block.startUpTo : Nat → Block → Block
  | 0, b => b
  | n + 1, b => if b.serviceReady then Block.startUpTo n b.takeHead.tryReserve else b

/-- The start of services, tested wherever R159 tests it; each one takes a station off the queue. -/
def Block.startServices (b : Block) : Block := b.startUpTo b.bu.queue.length

/-- The outcome of a SERVICE transaction reaches the service (R161, R162). -/
def Block.applyAction (b : Block) (e : Ending) (v : Word) : Block :=
  let ent := b.bu.entry b.bu.station
  match b.bu.ctx with
  | .action1 =>
    if e = .done then
      let b' := if ent.clear.verb = .fetch then { b with bu := { b.bu with value := some v } } else b
      match ent.cls with
      | .once => b'.postAction .action2 ent.disarm
      | .repeat => b'.finishService .done
      | .notify => b'.finishService .done
    else b.finishService e
  | .action2 => b.finishService e
  | .idle | .reserving | .posting => b

/-- A SERVICE transaction's outcome, and the services that can start after it (R161, R163). -/
def Block.serviceOutcome (b : Block) (e : Ending) (v : Word) : Block := (b.applyAction e v).startServices

/-- The waiting service attempts its reservation again (R160). -/
def Block.retryReservation (b : Block) : Block :=
  if b.bu.ctx = .reserving then b.tryReserve.startServices else b

/-! ## The hand-over (R158) -/

/-- One station of the selected set: an ARMED one joins the Service Queue; the answer tells of one not armed. -/
def Bu.select (u : Bu) (station : Nat) : Bu × Bool :=
  match (u.entry station).state with
  | .armed => ({ u.setState station .queued with queue := u.queue ++ [station] }, false)
  | .queued => (u, false)
  | .inService => (u, false)
  | .unbooked => (u, true)
  | .disarmed => (u, true)

/-- The stations handed over, in order; the answer tells whether one or more of them was not armed. -/
def Bu.selectAll : List Nat → Bu → Bu × Bool
  | [], u => (u, false)
  | st :: rest, u =>
    let (u1, missed1) := u.select st
    let (u2, missed2) := Bu.selectAll rest u1
    (u2, missed1 || missed2)

/-- Services start as in `startUpTo`, and UNBK is reported before, between or after them: its record and each
reservation ask for a slot of the queue, and either attempt may be taken first (R175). Each start is a choice of its own
(DESIGN CHOICE, log entry 2). -/
def Block.startWithUnbk : Nat → Block → Block
  | 0, b => b.setCondition .unbk
  | n + 1, b =>
    if b.wouldPost .unbk ∧ b.serviceReady then
      let (unbkFirst, chosen) := b.choose
      if unbkFirst then (chosen.setCondition .unbk).startUpTo (n + 1)
      else Block.startWithUnbk n chosen.takeHead.tryReserve
    else (b.setCondition .unbk).startUpTo (n + 1)

/-- The hand-over of a selected set (R158), with the services that can start (R159). Where UNBK falls among the services
that start, before, between or after them, is the free value's (DESIGN CHOICE, log entry 2). -/
def Block.handOver (b : Block) (stations : List Nat) : Block :=
  let (u, missed) := Bu.selectAll stations b.bu
  let b' := { b with bu := u }
  if missed then b'.startWithUnbk b'.bu.queue.length else b'.startServices

/-! ## Commands (R150 to R155) -/

/-- Every command of BKCMD is refused for a BKSEL of 0 or 31 (R150). -/
def Block.bookCommand (f : Nat → Booking → Block → Block) (b : Block) : Block :=
  if b.bu.bksel = 0 ∨ b.bu.bksel = 31 then b.refuse .badStation
  else f b.bu.bksel.toNat (b.bu.entry b.bu.bksel.toNat) b

/-- BKCNT as a READ copies it (layout of BKCNT). -/
def Booking.countWord (e : Booking) : Word := place e.count 0 ||| place e.state.code 8 ||| place e.mark.code 12

/-- READ (R151). -/
def Block.readBooking (b : Block) : Block :=
  b.bookCommand fun _ e b =>
    { b with bu := { b.bu with
      bkcls := e.cls.code, bka1v := e.clear.verbCell, bka1d := e.clear.data, bka2v := e.disarm.verbCell,
      bka2d := e.disarm.data, bktag := e.tag, bkcnt := e.countWord } }

/-- The action staged in a verb-and-cell word and a data word; data only for a STORE (R152). -/
def stagedAction (v d : Word) : Action :=
  let verb := Verb.ofCode (v.field 14 2)
  { verb := verb, cell := v.field 0 12, data := if verb = .store then d else 0 }

/-- The booking the staging registers describe, or `none` for BAD-CLASS (R152). -/
def Bu.stagedBooking (u : Bu) : Option Booking :=
  let a1 := stagedAction u.bka1v u.bka1d
  let a2 := stagedAction u.bka2v u.bka2d
  let made (cls : BookClass) (clear disarm : Action) : Booking :=
    { state := .armed, cls := cls, clear := clear, disarm := disarm, tag := u.bktag, count := 0, mark := .noMark }
  match BookClass.ofCode u.bkcls with
  | none => none
  | some .notify => some (made .notify .absent .absent)
  | some .repeat => if a1.verb = .unused then none else some (made .repeat a1 .absent)
  | some .once => if a1.verb = .unused ∨ a2.verb = .unused then none else some (made .once a1 a2)

/-- BOOK (R152). -/
def Block.book (b : Block) : Block :=
  b.bookCommand fun st e b =>
    if e.state = .queued ∨ e.state = .inService then b.refuse .bookingBusy
    else match b.bu.stagedBooking with
      | none => b.refuse .badClass
      | some e' => { b with bu := b.bu.setEntry st e' }

/-- UNBOOK (R153). -/
def Block.unbook (b : Block) : Block :=
  b.bookCommand fun st e b =>
    match e.state with
    | .unbooked => b
    | .armed => { b with bu := b.bu.setState st .unbooked }
    | .disarmed => { b with bu := b.bu.setState st .unbooked }
    | .queued => { b with bu := (b.bu.dequeue st).setState st .unbooked }
    | .inService => { b with bu := b.bu.setEntry st { e with mark := .unbook } }

/-- ARM (R154). -/
def Block.arm (b : Block) : Block :=
  b.bookCommand fun st e b =>
    match e.state with
    | .unbooked => b.refuse .notBooked
    | .armed => b
    | .queued => b
    | .inService => b.refuse .bookingBusy
    | .disarmed => { b with bu := b.bu.setState st .armed }

/-- DISARM (R155). -/
def Block.disarmBooking (b : Block) : Block :=
  b.bookCommand fun st e b =>
    match e.state with
    | .unbooked => b.refuse .notBooked
    | .armed => { b with bu := b.bu.setState st .disarmed }
    | .queued => { b with bu := (b.bu.dequeue st).setState st .disarmed }
    | .inService =>
      if e.mark = .unbook then b else { b with bu := b.bu.setEntry st { e with mark := .disarm } }
    | .disarmed => b

/-- A BKCMD write (R150): its code names a command, or nothing. -/
def Block.writeBkcmd (b : Block) (v : Word) : Block :=
  if v = 1 then b.readBooking
  else if v = 2 then b.book
  else if v = 3 then b.unbook
  else if v = 4 then b.arm
  else if v = 5 then b.disarmBooking
  else b

end Sys2Proof.Machine
end

