-- ==== Sys2Proof/Machine/Attention.lean ====
section
/-! DEFINITION. The Attention Unit (spec/08_attention_and_census.md): looking at ATN, CENSUS-NOW, the results of a
census, the holdoff. -/

namespace Sys2Proof.Machine

/-- The AU would request a census if it looked now (R133, R134). -/
def Block.attentionDue (b : Block) : Bool := b.au.state = .quiet && b.sm.segen && b.au.atn

/-- The AU looks at ATN wherever QUIET, SEGEN and ATN can come together (R134). -/
def Block.lookAtn (b : Block) : Block := if b.attentionDue then b.requestCensus else b

/-- The AU of a part that operates looks at ATN; one that is held only has the level tracked (R133, log entry 25). -/
def Block.tellAtn (b : Block) : Block := if b.operating then b.lookAtn else b

/-- CENSUS-NOW, judged against SEGEN as the write leaves it (R135). -/
def Block.censusCommand (b : Block) : Block :=
  if b.sm.segen then
    match b.au.state with
    | .quiet => b.requestCensus
    | .holdoff => b.requestCensus
    | .requested => b
    | .census => b
  else b.refuse .segmentOff

/-- The AU's decision at the end of a holdoff (R141). -/
def Block.endHoldoff (b : Block) : Block :=
  let b' := { b with au := { b.au with timer := none } }
  if b.au.atn ∧ b.sm.segen then b'.requestCensus
  else { b' with au := { b'.au with state := .quiet } }

/-- HOLDOFF is entered with the setting in AUCF; a setting of 0 ends it at once (R140, R141). -/
def Block.enterHoldoff (b : Block) : Block :=
  let b' := { b with au := { b.au with state := .holdoff, timer := limitOf b.au.setting } }
  if b.au.setting = 0 then b'.endHoldoff else b'

/-- The selected set of a census, ascending (R139). -/
def Au.selected (a : Au) : List Nat :=
  (List.range' 1 30).filter (fun k => hasStation a.attention k && hasStation a.mask k)

/-- The slot results are delivered to the AU (R137 to R140). -/
def Block.takeCensus (b : Block) (slots : List SlotResult) : Block :=
  let b1 := { b with au := { b.au with attention := stationsOf slots (· = SlotResult.attention),
                                       presence := stationsOf slots (· ≠ SlotResult.absent) } }
  let b2 := if slots.any (· = SlotResult.garbled) then b1.setCondition .cnflt else b1
  (b2.handOver b2.au.selected).enterHoldoff

/-- The holdoff timer expires (R141). -/
def Block.expireHoldoff (b : Block) : Block :=
  if b.au.state = .holdoff ∧ b.au.timer.isSome then b.endHoldoff else b

end Sys2Proof.Machine
end

