-- ==== Sys2Proof/Machine/Runs.lean ====
section
/-! DEFINITION. The run sequencer (spec/02_runs.md), once for both owners: start checks, preparing a word, posting it,
applying its outcome, stalls and aborts. An operation that may end the run answers the part and the run's result, if it
has ended; the owner then reports it. -/

namespace Sys2Proof.Machine

/-- The part after an operation on a run, and the run's result if the run has ended. -/
abbrev Progress := Block × Option Result

/-- The requester an owner's run is at the arbiter (R34). -/
def clientOf : Owner → Client
  | .direct => .direct
  | .list => .list

/-! ## Start checks (R28, R84, R108) -/

/-- The checks of R28. -/
def RunDesc.failsCommon (d : RunDesc) : Bool :=
  (d.form = .station && d.station = 0) || d.count = 0 ||
    (d.form = .station && d.station = 31 && d.verb = .fetch) ||
    (d.form = .station && d.station = 31 && decide (1 < d.count)) ||
    (d.mode = .register && decide (1 < d.count)) ||
    ((d.verb = .fetch || d.verb = .store) && d.mode = .noData) ||
    (d.verb = .trigger && d.mode ≠ .noData)

/-- All the start checks of a run of owner `o`: R28's, the unused codes of verb and wait policy, and, for the Direct
Unit, the data mode INLINE (R84, R108). -/
def RunDesc.fails (d : RunDesc) (o : Owner) : Bool :=
  d.failsCommon || d.verb = .unused || d.wait = .unused || (o = .direct && d.mode = .inline)

/-! ## Preparing and posting a word (R29 to R34) -/

/-- The station and cell of the word at index `i`, or the result that ends the run (R29, R30). -/
def Sd.target (sd : Sd) (d : RunDesc) (i : Nat) : Except Result (Nat × Nat) :=
  let at_ := match d.advance with
    | .step => d.start + i
    | .fixed => d.start
  match d.form with
  | .station => if 4095 < at_ then .error .cellEnd else .ok (d.station, at_)
  | .window =>
    if 65535 < at_ then .error .unmapped
    else match sd.decode at_ with
      | some t => .ok t
      | none => .error .unmapped

/-- Where the word's STORE data comes from (R26, R34). -/
def Block.wordSource (b : Block) (r : Run) : DataSource :=
  match r.desc.verb with
  | .store => match r.desc.mode with
    | .register => .dataWord
    | .inline => .inline (b.le.inlineBase + r.index)
    | .fifo => .outboundHead
    | .noData => .noData
  | .fetch => .noData
  | .trigger => .noData
  | .unused => .noData

/-- The run posts the request for its word, whose target it has recorded (R34, R37); with SEGEN at 0 the answer is
OFFLINE at once (R20). -/
def Block.postWord (b : Block) (o : Owner) : Progress :=
  if b.sm.segen then
    let r := b.run o
    let req : Request :=
      { station := r.lastStation, verb := r.desc.verb, cell := r.lastCell, retries := r.desc.retries,
        source := b.wordSource r }
    ((b.setRun o { r with sub := .requesting }).post (clientOf o) req, none)
  else (b, some .offline)

/-- The run enters STALLED and starts its stall timer (R32, R33, R44). -/
def Block.stallRun (b : Block) (o : Owner) (reason : StallReason) (fullSeen : Bool) : Block :=
  b.setRun o { b.run o with sub := .stalled, stall := reason, fullSeen := fullSeen, stallTimer := limitOf b.stallLimit }

/-- The word's data test, once its target is recorded (R32, R33). -/
def Block.testData (b : Block) (o : Owner) : Progress :=
  let r := b.run o
  match r.desc.fifoSide with
  | none => b.postWord o
  | some .outbound =>
    if b.fp.out.level = 0 then (b.stallRun o .fifoData r.fullSeen, none) else b.postWord o
  | some .inbound =>
    if r.fullSeen then
      if b.fp.inb.level ≤ b.fp.resumeMark.toNat then (b.setRun o { r with fullSeen := false }).postWord o
      else (b.stallRun o .fifoRoom true, none)
    else if b.fp.inb.level < 64 then b.postWord o
    else (b.stallRun o .fifoRoom true, none)

/-- Preparing the word at the run's index: the target first, recorded as the last station and cell, then the data
(R29 to R33). Where the word has no target the last station and cell stay as they are: for a word that had stalled, whose
target was found before the stall, they keep that target (DEDUCED, log entry 28). -/
def Block.prepare (b : Block) (o : Owner) : Progress :=
  let r := b.run o
  match b.sd.target r.desc r.index with
  | .error e => (b, some e)
  | .ok (st, cell) => (b.setRun o { r with sub := .preparing, lastStation := st, lastCell := cell }).testData o

/-- The start checks and, where they pass, word at the run's index (R27, R28, R117). -/
def Block.startRun (b : Block) (o : Owner) : Progress :=
  if (b.run o).desc.fails o then (b, some .illegal) else b.prepare o

/-- A stalled run whose data or room is there leaves STALLED and prepares the same word again (R32, R33). -/
def Block.leaveStall (b : Block) (o : Owner) : Progress :=
  (b.setRun o { b.run o with sub := .preparing, stall := .noStall, fullSeen := false, stallTimer := none }).prepare o

/-- The data or the room the run waits for is there (R32, R33). -/
def Block.stallOver (b : Block) (o : Owner) : Bool :=
  let r := b.run o
  r.sub = .stalled &&
    ((r.stall = .fifoData && decide (0 < b.fp.out.level)) ||
      (r.stall = .fifoRoom && decide (b.fp.inb.level ≤ b.fp.resumeMark.toNat)))

/-! ## Word outcomes (R35 to R39, R43, R46) -/

/-- R35, step 1: the fetched value goes to its destination, or the FIFO STORE word leaves the Outbound FIFO. -/
def Block.moveDoneWord (b : Block) (o : Owner) (v : Word) : Block :=
  let r := b.run o
  match r.desc.verb, r.desc.mode with
  | .fetch, .register => { b with du := { b.du with ddat := v } }
  | .fetch, .inline => b.storePut (b.le.inlineBase + r.index) v
  | .fetch, .fifo => b.setFifo .inbound (b.fp.inb.join v)
  | .store, .fifo => b.setFifo .outbound b.fp.out.leave
  | _, _ => b

/-- A word passed over: a FIFO STORE word is discarded (R36, R38). -/
def Block.discardWord (b : Block) (o : Owner) : Block :=
  match (b.run o).desc.fifoSide with
  | some .outbound => b.setFifo .outbound b.fp.out.leave
  | some .inbound => b
  | none => b

/-- R35, steps 1 to 3. -/
def Block.takeDone (b : Block) (o : Owner) (v : Word) : Block :=
  let b' := b.moveDoneWord o v
  let r := b'.run o
  b'.setRun o { r with done := r.done + 1, index := r.index + 1, lastReply := .done, persist := none, held := false }

/-- A word passed over under SKIP or tolerance (R36, R38). -/
def Block.takeSkip (b : Block) (o : Owner) (reply : LastReply) : Block :=
  let b' := b.discardWord o
  let r := b'.run o
  b'.setRun o { r with skipped := r.skipped + 1, index := r.index + 1, lastReply := reply, persist := none,
                       held := false }

def Block.setReply (b : Block) (o : Owner) (reply : LastReply) : Block :=
  b.setRun o { b.run o with lastReply := reply }

/-- The run is complete, or prepares its next word (R35 step 4, R36). -/
def Block.nextWord (b : Block) (o : Owner) : Progress :=
  if (b.run o).index = (b.run o).desc.count then (b, some .complete) else b.prepare o

/-- A WAIT under PERSIST: the timer starts if it is stopped, and the same word is posted again (R37). -/
def Block.persistWord (b : Block) (o : Owner) : Progress :=
  let r := b.run o
  let timer := match r.persist with
    | some d => some d
    | none => limitOf b.deadline
  (b.setRun o { r with lastReply := .wait, persist := timer }).postWord o

/-- A WAIT outcome (R36, R37, R43). -/
def Block.applyWait (b : Block) (o : Owner) : Progress :=
  let r := b.run o
  if r.held then (b.setReply o .wait, some .deadline)
  else match r.desc.wait with
    | .skip => (b.takeSkip o .wait).nextWord o
    | .persist => b.persistWord o
    | .halt => (b.setReply o .wait, some .wait)
    | .unused => (b.setReply o .wait, some .wait)

/-- A REFUSED outcome (R38, R43). -/
def Block.applyRefused (b : Block) (o : Owner) : Progress :=
  if (b.run o).desc.tolerant then (b.takeSkip o .refused).nextWord o
  else (b.setReply o .refused, some .refused)

/-- What an outcome leaves behind when the run is ABORTING (R46). -/
def Block.applyAborting (b : Block) (o : Owner) (e : Ending) (v : Word) : Block :=
  let r := b.run o
  match e with
  | .done => b.takeDone o v
  | .wait => if r.desc.wait = .skip then b.takeSkip o .wait else b.setReply o .wait
  | .refused => if r.desc.tolerant then b.takeSkip o .refused else b.setReply o .refused
  | .silent | .corrupt | .offline => b

/-- The outcome of the run's transaction is applied (R35 to R39, R43, R46). -/
def Block.applyOutcome (b : Block) (o : Owner) (e : Ending) (v : Word) : Progress :=
  if (b.run o).sub = .aborting then (b.applyAborting o e v, some .aborted)
  else match e with
    | .done => (b.takeDone o v).nextWord o
    | .wait => b.applyWait o
    | .refused => b.applyRefused o
    | .silent => (b, some .silent)
    | .corrupt => (b, some .corrupt)
    | .offline => (b, some .offline)

/-! ## The end of a run (R41) -/

/-- The sequencer with its run ended: timers stopped, marks cleared, the stall reason kept only after STARVED. -/
def Run.finish (r : Run) (res : Result) : Run :=
  { r with sub := .ended, fullSeen := false, persist := none, held := false, stallTimer := none,
           stall := if res = .starved then r.stall else .noStall }

end Sys2Proof.Machine
end

