-- ==== Sys2Proof/Machine/Lists.lean ====
section
/-! DEFINITION. List execution (spec/07_list_execution.md): reading and carrying out entries, halting and ending, the
engine's own stalls, and the effects of the commands of LCMD and of the List Store's port. -/

namespace Sys2Proof.Machine

/-! ## Halting and ending (R127 to R129) -/

/-- The claims the List Engine holds are released; the Direct Unit never waits for one (R122). -/
def Fifo.releaseList (f : Fifo) : Fifo := if f.claim = .list then f.withClaim .unclaimed else f

def Block.releaseList (b : Block) : Block :=
  { b with fp := { b.fp with out := b.fp.out.releaseList, inb := b.fp.inb.releaseList } }

/-- The halt outcomes a RESUME can continue (R128). -/
def Result.resumable : Result → Bool
  | .wait | .refused | .silent | .corrupt | .deadline | .starved | .unmapped | .offline => true
  | .cellEnd | .illegal | .malformed => false
  | .noOutcome | .inProgress | .complete | .aborted | .claimed => false

/-- The engine halts with an outcome (R127). -/
def Block.listHalt (b : Block) (res : Result) : Block :=
  ({ b.releaseList with
      le := { b.le with activity := .halted, outcome := res, resumable := res.resumable, run := b.le.run.finish res,
                        pauseTimer := none, stallTimer := none } }).setCondition .lhalt

/-- The engine ends the list COMPLETE or ABORTED (R129). -/
def Block.listEnd (b : Block) (res : Result) : Block :=
  ({ b.releaseList with
      le := { b.le with activity := .idle, outcome := res, resumable := false, run := b.le.run.finish res,
                        pauseTimer := none, stallTimer := none } }).setCondition .ldone

/-! ## Starting an entry's run (R121, R122) -/

/-- The entry's run starts, the claim it needs being held: its start checks, then its word. It cannot be complete
before a transaction has ended. -/
def Block.listRunStart (b : Block) : Block :=
  let b' := { b with le := { b.le with activity := .running, stallTimer := none,
                                       run := { b.le.run with sub := .preparing, stall := .noStall } } }
  match b'.startRun .list with
  | (c, none) => c
  | (c, some res) => c.listHalt res

/-- The engine waits for a claim: STALLED, reason CLAIM (R56, R122, R126). -/
def Block.listWaitClaim (b : Block) (side : FifoSide) : Block :=
  { b with le := { b.le with activity := .waitClaim side, stallTimer := limitOf b.stallLimit,
                             run := { b.le.run with stall := .claim } } }

/-- The entry's run asks for the claim it needs and starts, or waits (R56, R122). -/
def Block.listClaimAndStart (b : Block) : Block :=
  match b.le.run.desc.fifoSide with
  | none => b.listRunStart
  | some side =>
    if (b.fifo side).claim = .direct then b.listWaitClaim side
    else (b.setClaim side .list).listRunStart

/-! ## Carrying out entries (R120 to R125) -/

/-- The cursor moves past an entry of length `n`; the per-entry fields take their start values (R110, R120). -/
def Block.listAdvance (b : Block) (n : Nat) : Block :=
  { b with le := { b.le with activity := .running, cursor := b.le.cursor + n, run := Run.fresh, pauseTimer := none,
                             stallTimer := none } }

/-- The entry's description goes to the run sequencer, which keeps the counts it holds (R117, R121). -/
def Block.listTakeEntry (b : Block) (d : RunDesc) (len base : Nat) : Block :=
  { b with le := { b.le with activity := .running, entryLen := len, inlineBase := base,
                             run := { b.le.run with desc := d } } }

/-- A PAUSE begins (R123). -/
def Block.listPause (b : Block) (duration : Nat) : Block :=
  { b with le := { b.le with activity := .pausing, pauseTimer := some duration } }

/-- The MARK record joins the queue (R105, R124). -/
def Block.postMark (b : Block) (tag : Word) : Block :=
  { b with ru := b.ru.join (.occupied (.mark b.le.cursor tag)) }

/-- A MARK found no free slot: STALLED, reason NQ (R124, R126). -/
def Block.listWaitNq (b : Block) (tag : Word) : Block :=
  { b with le := { b.le with activity := .waitNq, tag := tag, stallTimer := limitOf b.stallLimit,
                             run := { b.le.run with stall := .nq } } }

/-- The host accesses that act otherwise on an engine that has come to a new entry and has not read it yet: a GO, which can
win the claim that the entry before gave back (R57), a flush (R62), and an ABORT, which ends the list at the new entry
(R118, R119). -/
def comesBetween : Instr → Bool
  | .dcmdGo | .flushOut | .flushIn | .lcmdAbort => true
  | .registerWrite addr v =>
    addr = 0x16#6 && v.bit 0 && !v.bit 1 || addr = 0x28#6 && (v.bit 0 || v.bit 1) || addr = 0x1E#6 && v.bit 2
  | _ => false

/-- The host access that waits right behind the command being carried out can fall together with it (R180), and it is one
that can come between the end of a list entry and the reading of the next. -/
def State.accessBehind (s : State) : Bool := s.pending.head?.any comesBetween

/-- The engine has come to a new entry and has not read it yet: RUNNING, with no run under way (R111, R118). -/
def Le.reading (l : Le) : Bool := l.activity = .running && l.run.sub = .ended

/-- The cursor has advanced: the engine reads the next entry at once (R120). Where a host access falls together with the
event, either may be taken first (R57, R62, R119): the access that waits can come before the reading, which then follows
within the access's own command (log entries 2 and 30). -/
def Block.goesOn (access : Bool) (read : Block → Block) (b : Block) : Block :=
  if access then
    let (readsFirst, chosen) := b.choose
    if readsFirst then read chosen else chosen
  else read b

/-- The engine reads the entry at its cursor and carries it out, and so on through MARK entries that find a slot; at
most `slots` of them can (R120). -/
def Block.listRead (access : Bool) : Nat → Block → Block
  | slots, b =>
    match entryAt b.storeAt b.le.cursor with
    | .malformed => b.listHalt .malformed
    | .endOfList => b.listEnd .complete
    | .pause duration => b.listPause duration
    | .run d len base => (b.listTakeEntry d len base).listClaimAndStart
    | .mark tag =>
      match slots with
      | 0 => b.listWaitNq tag
      | more + 1 =>
        if b.ru.hasFree then ((b.postMark tag).listAdvance 2).goesOn access (Block.listRead access more)
        else b.listWaitNq tag

/-- Free slots of the Notification Queue (R173). -/
def Ru.freeSlots (r : Ru) : Nat := 16 - r.nq.length

/-- The engine reads on from its cursor. -/
def Block.listGo (b : Block) : Block := b.listRead false b.ru.freeSlots

/-- The cursor moves past an entry of length `n`, which an event inside the part has finished, and the engine reads on. -/
def Block.listPass (b : Block) (n : Nat) (access : Bool) : Block :=
  (b.listAdvance n).goesOn access fun b => b.listRead access b.ru.freeSlots

/-- The entry's run is COMPLETE: its claim is released, the cursor advances and the engine reads on (R121, R122). -/
def Block.listNext (b : Block) (access : Bool) : Block := b.releaseList.listPass b.le.entryLen access

/-- What follows a host access that came between two entries: the engine reads the entry it has come to (R120). -/
def Block.listReadBehind (b : Block) : Block := if b.le.reading then b.listGo else b

/-- The List Engine takes the result of its entry's run, if it has ended (R121). -/
def Block.listProgress (p : Progress) (access : Bool := false) : Block :=
  match p with
  | (b, none) => b
  | (b, some .complete) => b.listNext access
  | (b, some .aborted) => b.listEnd .aborted
  | (b, some res) => b.listHalt res

/-! ## Commands (R114 to R118) -/

/-- START (R115). -/
def Block.listStart (b : Block) : Block :=
  if b.le.state = .idle ∨ b.le.state = .halted then
    ({ b with le := { b.le with activity := .running, cursor := b.le.lsta.toNat, outcome := .noOutcome,
                                resumable := false, run := Run.fresh, pauseTimer := none,
                                stallTimer := none } }).listGo
  else b.refuse .listBusy

/-- The sequencer at a RESUME: counts, last reply and last target stay, timers and marks are cleared (R116, R117). -/
def Run.resumed (r : Run) : Run :=
  { r with fullSeen := false, stall := .noStall, persist := none, held := false, stallTimer := none }

/-- The entry read at a RESUME is carried on (R116, R117): its start checks come before its claim. -/
def Block.listContinue (b : Block) : Block :=
  match entryAt b.storeAt b.le.cursor with
  | .malformed => b.listHalt .malformed
  | .run d len base =>
    if b.le.run.index < d.count then
      let b' := b.listTakeEntry d len base
      if d.fails .list then b'.listHalt .illegal else b'.listClaimAndStart
    else (b.listAdvance len).listGo
  | .pause _ => (b.listAdvance 0).listGo
  | .mark _ => (b.listAdvance 0).listGo
  | .endOfList => (b.listAdvance 0).listGo

/-- RESUME (R116). -/
def Block.listResume (b : Block) : Block :=
  if b.le.state = .halted ∧ b.le.resumable then
    ({ b with le := { b.le with activity := .running, outcome := .noOutcome, resumable := false,
                                run := b.le.run.resumed } }).listContinue
  else b.refuse .notResumable

/-- ABORT of a run (R45, R46): in flight it becomes ABORTING, otherwise it ends at once and its pending request is
withdrawn. -/
def Block.abortRun (b : Block) (o : Owner) : Progress :=
  match (b.run o).sub with
  | .inFlight => (b.setRun o { b.run o with sub := .aborting }, none)
  | .aborting => (b, none)
  | .ended => (b, none)
  | .preparing => (b, some .aborted)
  | .requesting => (b.withdraw (clientOf o), some .aborted)
  | .stalled => (b, some .aborted)

/-- ABORT (R118). -/
def Block.listAbort (b : Block) : Block :=
  match b.le.activity with
  | .idle => b
  | .halted => { b with le := { b.le with activity := .idle, resumable := false } }
  | .running => if b.le.reading then b.listEnd .aborted else Block.listProgress (b.abortRun .list)
  | .waitClaim _ => b.listEnd .aborted
  | .waitNq => b.listEnd .aborted
  | .pausing => b.listEnd .aborted

/-- A LCMD write (R114): ABORT before START before RESUME. -/
def Block.writeLcmd (b : Block) (v : Word) : Block :=
  if v.bit 2 then b.listAbort
  else if v.bit 0 then b.listStart
  else if v.bit 1 then b.listResume
  else b

/-! ## The engine's own stalls and the pause (R123 to R126) -/

/-- The engine stalled on NQ attempts its posting again (R124). -/
def Block.retryMark (b : Block) (access : Bool := false) : Block :=
  if b.le.activity = .waitNq ∧ b.ru.hasFree then (b.postMark b.le.tag).listPass 2 access else b

/-- The claim request the engine has waiting is granted, unless the Direct Unit still holds the claim (R56). -/
def Block.grantListClaim (b : Block) : Block :=
  match b.le.activity with
  | .waitClaim side =>
    if (b.fifo side).claim = .direct then b else (b.setClaim side .list).listRunStart
  | .idle | .running | .waitNq | .pausing | .halted => b

/-- The engine's CLAIM or NQ stall timer expires (R126). -/
def Block.expireListStall (b : Block) : Block :=
  match b.le.activity, b.le.stallTimer with
  | .waitClaim _, some _ => b.listHalt .starved
  | .waitNq, some _ => b.listHalt .starved
  | _, _ => b

/-- The pause timer expires (R123). -/
def Block.expirePause (b : Block) (access : Bool) : Block :=
  if b.le.activity = .pausing then b.listPass 2 access else b

/-! ## The List Store's port (R95 to R97) -/

def Block.advanceLptr (b : Block) : Block := { b with le := { b.le with lptr := b.le.lptr + 1 } }

/-- A read of LDAT (R96). -/
def Block.readLdat (b : Block) : Block :=
  ({ b with hp := { b.hp with readData := b.storeAt b.le.lptr.toNat } }).advanceLptr

/-- A write of LDAT (R97). -/
def Block.writeLdat (b : Block) (v : Word) : Block :=
  if b.le.state = .idle ∨ b.le.state = .halted then (b.storePut b.le.lptr.toNat v).advanceLptr
  else (b.advanceLptr).refuse .listBusy

/-- RESET has just been asserted, outside INIT, and no other access or event has come since. -/
def Block.atResetEdge (b : Block) : Bool := b.hp.resetAsserted && !b.hp.initRunning && b.hp.resetEdge

/-- An LDAT access: `f` where it acts, `held` where INIT or RESET holds the part and it is ignored (R181, R182). The access
that comes first behind the assertion of RESET may fall together with it, and then acts on the store at address 0
(R109), or come later, and then is ignored: a free choice at each assertion (log entries 2 and 29). -/
def Block.accessLdat (f held : Block → Block) (b : Block) : Block :=
  if b.operating then f b
  else if b.atResetEdge then
    let (together, chosen) := b.ignored.choose
    if together then f chosen else held chosen
  else held b

end Sys2Proof.Machine
end

