-- ==== Sys2Proof/Machine/Direct.lean ====
section
/-! DEFINITION. The Direct Unit (spec/05_direct_requests.md): GO, ABORT and the end of its run. -/

namespace Sys2Proof.Machine

/-- The Direct Unit's claims go back to the FIFO Pair (R57); a waiting List Engine gets the one it waits for, and
the answer says that it did. -/
def Fifo.releaseDirect (f : Fifo) : Fifo := if f.claim = .direct then f.withClaim .unclaimed else f

def Block.releaseDirect (b : Block) : Block :=
  { b with fp := { b.fp with out := b.fp.out.releaseDirect, inb := b.fp.inb.releaseDirect } }

/-- The FIFO whose claim passes from the Direct Unit to a waiting List Engine at a release (R56, R57). -/
def Block.passingClaim (b : Block) : Option FifoSide :=
  match b.le.activity with
  | .waitClaim side => if (b.fifo side).claim = .direct then some side else none
  | .idle | .running | .waitNq | .pausing | .halted => none

/-- The results are final, the Direct Unit is IDLE and its snapshot is gone (R82, R88 steps 1 and 3). -/
def Block.directResults (b : Block) (res : Result) : Block :=
  { b with du := { b.du with word := 0, outcome := res,
                             run := { b.du.run.finish res with desc := RunDesc.blank } } }

/-- The end of the Direct Unit's run (R88). A claim that passes to the List Engine starts its entry's run within the
same step (R57). Where that run halts at once and both DDONE and LHALT ask for a slot of the queue, either attempt may
be taken first (R175). -/
def Block.directEnd (b : Block) (res : Result) : Block :=
  let done := (b.directResults res).releaseDirect
  match b.passingClaim with
  | none => done.setCondition .ddone
  | some side =>
    let passed := done.setClaim side .list
    if passed.wouldPost .ddone ∧ passed.wouldPost .lhalt then
      let (ddoneFirst, chosen) := passed.choose
      if ddoneFirst then (chosen.setCondition .ddone).listRunStart
      else chosen.listRunStart.setCondition .ddone
    else (passed.setCondition .ddone).listRunStart

/-- The Direct Unit takes the result of its run, if it has ended (R41, R88). -/
def Block.directProgress : Progress → Block
  | (b, none) => b
  | (b, some res) => b.directEnd res

/-- The owner takes the result of its run, if it has ended (R41). -/
def Block.takeProgress (o : Owner) (p : Progress) (access : Bool := false) : Block :=
  match o with
  | .direct => Block.directProgress p
  | .list => Block.listProgress p access

/-- The snapshot is taken, the results are cleared, the Direct Unit is BUSY (R82, R83 step 1). -/
def Block.directSnapshot (b : Block) : Block :=
  { b with du := { b.du with word := b.du.ddat, outcome := .inProgress,
                             run := { Run.fresh with desc := b.du.describe, sub := .preparing } } }

/-- GO refused by the List Engine's claim: outcome CLAIMED over cleared results, and DDONE (R84). -/
def Block.directClaimed (b : Block) : Block :=
  ({ b with du := { b.du with word := 0, outcome := .claimed, run := Run.fresh } }).setCondition .ddone

/-- GO (R82 to R85). -/
def Block.directGo (b : Block) : Block :=
  if b.du.busy then b.refuse .directBusy
  else match b.du.describe.fifoSide with
    | none => Block.directProgress (b.directSnapshot.startRun .direct)
    | some side =>
      if (b.fifo side).claim = .list then b.directClaimed
      else Block.directProgress ((b.directSnapshot.setClaim side .direct).startRun .direct)

/-- ABORT (R81, R86). -/
def Block.directAbort (b : Block) : Block :=
  if b.du.busy then Block.directProgress (b.abortRun .direct) else b

/-- A DCMD write (R81): ABORT before GO. -/
def Block.writeDcmd (b : Block) (v : Word) : Block :=
  if v.bit 1 then b.directAbort
  else if v.bit 0 then b.directGo.listReadBehind
  else b

/-! ## Timers of either owner's run -/

/-- The persist timer of the run expires (R42, R43, R46). -/
def Block.expirePersist (b : Block) (o : Owner) : Block :=
  let r := b.run o
  match r.persist with
  | none => b
  | some _ => match r.sub with
    | .inFlight => b.setRun o { r with persist := none, held := true }
    | .aborting => b.setRun o { r with persist := none }
    | .ended => b.setRun o { r with persist := none }
    | .requesting => Block.takeProgress o (b.withdraw (clientOf o), some .deadline)
    | .preparing => Block.takeProgress o (b, some .deadline)
    | .stalled => Block.takeProgress o (b, some .deadline)

/-- The stall timer of the run expires (R44). -/
def Block.expireRunStall (b : Block) (o : Owner) : Block :=
  let r := b.run o
  if r.sub = .stalled ∧ r.stallTimer.isSome then Block.takeProgress o (b, some .starved) else b

/-- The run leaves STALLED if what it waits for is there (R32, R33). -/
def Block.wake (b : Block) (o : Owner) : Block :=
  if b.stallOver o then Block.takeProgress o (b.leaveStall o) else b

end Sys2Proof.Machine
end

