-- ==== Sys2Proof/Machine/Fifos.lean ====
section
/-! DEFINITION. The host's side of the FIFO Pair (spec/03_the_fifo_pair.md): the two ports, the flushes, the marks. -/

namespace Sys2Proof.Machine

/-- The run that claims the FIFO is told of a change it may wait for (R58). It weighs the level and the resume mark behind
each host access by itself: DESIGN CHOICE (log entry 31), for a write of the mark and a read of IDAT that R59 lets fall
together, while R180 takes accesses one at a time. -/
def Block.tellClaimant (b : Block) (side : FifoSide) : Block :=
  match (b.fifo side).claim with
  | .unclaimed => b
  | .direct => b.wake .direct
  | .list => b.wake .list

/-- A write of ODAT (R52). -/
def Block.writeOdat (b : Block) (v : Word) : Block :=
  if b.fp.out.level < 64 then (b.setFifo .outbound (b.fp.out.join v)).tellClaimant .outbound
  else b.setCondition .hosterr

/-- A read of IDAT (R53). -/
def Block.readIdat (b : Block) : Block :=
  match b.fp.inb.words with
  | [] => ({ b with hp := { b.hp with readData := 0 } }).setCondition .hosterr
  | w :: _ =>
    (({ b with hp := { b.hp with readData := w } }).setFifo .inbound b.fp.inb.leave).tellClaimant .inbound

/-- A flush command for one FIFO (R62). -/
def Block.flushFifo (b : Block) (side : FifoSide) : Block :=
  if (b.fifo side).claim = .unclaimed then b.setFifo side (b.fifo side).flush
  else b.refuse .flushClaimed

/-- A FCMD write: each flush it carries is taken on its own (R62). -/
def Block.writeFcmd (b : Block) (v : Word) : Block :=
  let b' := if v.bit 0 then b.flushFifo .outbound else b
  let b'' := if v.bit 1 then b'.flushFifo .inbound else b'
  if v.bit 0 || v.bit 1 then b''.listReadBehind else b''

/-- The IDRQ mark stored for a written field: 0 as 1, above 64 as 64 (R60). -/
def idrqStored (x : BitVec 7) : BitVec 7 := if x = 0 then 1 else if 64 < x.toNat then 64 else x

/-- A write of FMKI (R59, R60). -/
def Block.writeFmki (b : Block) (v : Word) : Block :=
  ({ b with fp := { b.fp with resumeMark := v.field 0 6, idrqMark := idrqStored (v.field 8 7) } }).tellClaimant
    .inbound

/-- A write of FMKO (R61). -/
def Block.writeFmko (b : Block) (v : Word) : Block := { b with fp := { b.fp with odrqMark := v.field 0 6 } }

end Sys2Proof.Machine
end

