-- ==== Sys2Proof/Machine/Wire.lean ====
section
/-! DEFINITION. The events of the wire (spec/01): the end of a frame, replies, the reply timeout, the census slots, the
end of a gap; and the enabling and disabling of the segment. -/

namespace Sys2Proof.Machine

/-- The requester receives its transaction's outcome (R15): the fetched value counts for a DONE to a FETCH. `access` is
`State.accessBehind`; a SILENT, CORRUPT or OFFLINE finishes no list entry, and goes without it. -/
def Block.deliver (b : Block) (c : Client) (e : Ending) (v : Word) (access : Bool := false) : Block :=
  match c with
  | .service => b.serviceOutcome e v
  | .direct => Block.directProgress (b.applyOutcome .direct e v)
  | .list => Block.listProgress (b.applyOutcome .list e v) access

/-- The attempt of `w` ends; DONE, WAIT and REFUSED are delivered at once (R15). -/
def Block.attemptEnds (b : Block) (w : WordTx) (e : Ending) (v : Word) (access : Bool := false) : Block :=
  let b' := { b with sm := b.sm.endAttempt w e }
  match e with
  | .silent | .corrupt => b'
  | .done | .wait | .refused | .offline => b'.deliver w.client e v access

/-- The last bit of a frame is sent (R6, R13). -/
def Block.frameSent (b : Block) (access : Bool) : Block :=
  match b.sm.phase, b.sm.tx with
  | .send, some (.census _) => { b with sm := { b.sm with phase := .await } }
  | .send, some (.word w) =>
    if w.isBroadcast then
      let sm := { b.sm.enterGap .broadcast .rest with tx := some (.word { w with latest := some .done }) }
      ({ b with sm := sm }).deliver w.client .done 0 access
    else { b with sm := { b.sm with phase := .await, timing := true } }
  | _, _ => b

/-- The receiver has taken in the complete sync pattern (R3). -/
def Block.replyStart (b : Block) : Block :=
  b.onAwait fun _ => { b with sm := { b.sm with replyStarted := true, timing := false, partialSync := false } }

/-- A reply has ended (R4, R14). -/
def Block.replyEnd (b : Block) (bits : List Bool) (access : Bool) : Block :=
  b.onAwait fun w =>
    let (e, v) := judgeReply w.verb bits
    b.attemptEnds w e v access

/-- The reply timeout expires (R3, R14). -/
def Block.replyTimeout (b : Block) (partialSync : Bool) : Block :=
  b.onAwait fun w =>
    if b.sm.timing then
      if partialSync then { b with sm := { b.sm with timing := false, partialSync := true } }
      else b.attemptEnds w .silent 0
    else b

/-- The sync pattern that was incomplete at the timeout breaks off (R3). -/
def Block.syncBreakOff (b : Block) : Block :=
  b.onAwait fun w => if b.sm.partialSync then b.attemptEnds w .silent 0 else b

/-- Slot 30 of the census ends (R7, R13). -/
def Block.censusSlotsEnd (b : Block) (slots : List (BitVec 3)) : Block :=
  match b.sm.phase, b.sm.tx with
  | .await, some (.census _) =>
    let results := judgeSlots slots
    ({ b with sm := { b.sm.enterGap .interFrame .rest with tx := some (.census results) } }).takeCensus results
  | _, _ => b

/-- The SM leaves its gap for IDLE or OFF, and the arbiter may grant (R17, R22). -/
def Block.comeToRest (b : Block) : Block := ({ b with sm := b.sm.enterRest }).arbitrate

/-- A gap ends (R15, R17, R18): the next attempt, the delivery of a final SILENT or CORRUPT, or rest. -/
def Block.gapEnd (b : Block) : Block :=
  if b.sm.phase = .gap then
    match b.sm.after, b.sm.tx with
    | .retry, some tx => { b with sm := b.sm.enterSend tx }
    | .deliver, some (.word w) => match w.latest with
      | some e => (b.deliver w.client e 0).comeToRest
      | none => b.comeToRest
    | _, _ => b.comeToRest
  else b

/-! ## SEGEN (R18, R19) -/

/-- The attempt on the wire is marked final (R18). -/
def Tx.markFinal : Tx → Tx
  | .census slots => .census slots
  | .word w => .word { w with final := true }

/-- What the clear of SEGEN does to the SM's own state (R18). -/
def Sm.disable (s : Sm) : Sm :=
  match s.phase with
  | .off => { s with segen := false }
  | .idle => { s with segen := false, phase := .off }
  | .send | .await => { s with segen := false, tx := s.tx.map Tx.markFinal }
  | .gap => { s with segen := false, after := if s.after = .retry then .deliver else s.after }

/-- A pending census request is answered OFFLINE: the AU leaves REQUESTED for QUIET (R136). -/
def Block.offlineCensus (b : Block) : Block :=
  if b.sm.pendCensus then
    { b with sm := { b.sm with pendCensus := false }, au := { b.au with state := .quiet } }
  else b

/-- A pending request of a client is answered OFFLINE (R18). -/
def Block.offlineClient (b : Block) (c : Client) : Block :=
  if (b.sm.request c).isSome then (b.withdraw c).deliver c .offline 0 else b

/-- SEGEN goes from 1 to 0: every pending request is answered OFFLINE (R18). A direct run and a list that both end by
it may both ask for a slot of the queue; then either attempt may be taken first (R175). -/
def Block.lowerSegen (b : Block) : Block :=
  let b1 := (({ b with sm := b.sm.disable }).offlineCensus).offlineClient .service
  if b1.sm.pendDirect.isSome ∧ b1.sm.pendList.isSome ∧ b1.wouldPost .ddone ∧ b1.wouldPost .lhalt then
    let (directFirst, chosen) := b1.choose
    if directFirst then (chosen.offlineClient .direct).offlineClient .list
    else (chosen.offlineClient .list).offlineClient .direct
  else (b1.offlineClient .direct).offlineClient .list

/-- What the set of SEGEN does to the SM's own state (R19). -/
def Sm.enable (s : Sm) : Sm := { s with segen := true, phase := if s.phase = .off then .idle else s.phase }

/-- The AU's part of a set of SEGEN: its look at ATN, and CENSUS-NOW where the same write carries it (R134, R135). -/
def Block.attentionAtEnable (b : Block) (censusNow : Bool) : Block :=
  let b' := b.lookAtn
  if censusNow then b'.censusCommand else b'

/-- The AU's part of a set of SEGEN would post a census request. -/
def Block.censusAtEnable (b : Block) (censusNow : Bool) : Bool :=
  b.attentionDue || (censusNow && (b.au.state = .quiet || b.au.state = .holdoff))

/-- SEGEN goes from 0 to 1 (R19, R134, R159). Where a census request and a service action are posted together to an
IDLE SM, either may be taken first (R21). -/
def Block.raiseSegen (b : Block) (censusNow : Bool) : Block :=
  let b1 := ({ b with sm := b.sm.enable }).arbitrate
  if b1.sm.phase = .idle ∧ b1.censusAtEnable censusNow ∧ b1.serviceReady then
    let (censusFirst, chosen) := b1.choose
    if censusFirst then (chosen.attentionAtEnable censusNow).startServices
    else chosen.startServices.attentionAtEnable censusNow
  else (b1.attentionAtEnable censusNow).startServices

/-- A CTL write without SRST: SEGEN takes the value written, then CENSUS-NOW, if carried, is judged (R135, R183). -/
def Block.setSegen (b : Block) (segen censusNow : Bool) : Block :=
  if segen ∧ b.sm.segen = false then b.raiseSegen censusNow
  else
    let b' := if segen = false ∧ b.sm.segen then b.lowerSegen else b
    if censusNow then b'.censusCommand else b'

end Sys2Proof.Machine
end

