-- ==== Sys2Proof/Machine/HostPort.lean ====
section
/-! DEFINITION. The Host Port (spec/11): the three resets, INIT, CTL, LOCK, and a host write to any register. -/

namespace Sys2Proof.Machine

/-! ## Resets -/

/-- The values both a power-on and a pin reset give the blocks (R23, R48, R63, R77, R91, R109, R131, R146, R165,
R179): the List Store's words, the level of ATN and the count of free choices stay. `hp` carries `readData` at 0
(DESIGN CHOICE, log entry 7). -/
def Block.hardReset (b : Block) (hp : Hp) : Block :=
  { Block.reset with hp := hp, le := { Le.reset with store := b.le.store }, au := { Au.reset with atn := b.au.atn },
                     choices := b.choices }

/-- The power-on reset: INIT starts (R181). -/
def Block.powerOn (b : Block) : Block := b.hardReset { Hp.reset with resetAsserted := b.hp.resetAsserted }

/-- RESET is asserted (R182); an INIT under way goes on (R181). The data lines of the model's own `readData` go to 0 with it
(DESIGN CHOICE, log entry 7). `resetEdge` is set for the LDAT access that can fall together with the assertion (R109,
`Block.accessLdat`); INIT keeps LDAT from the store (R109), and a RESET that is asserted already is not asserted again. -/
def Block.assertReset (b : Block) : Block :=
  b.hardReset
    { Hp.reset with
      initRunning := b.hp.initRunning
      initCleared := b.hp.initCleared
      resetAsserted := true
      resetEdge := !b.hp.initRunning && !b.hp.resetAsserted }

/-- INIT has cleared the List Store; it ends now, or at the release of RESET if RESET is asserted (R109, R181). -/
def Block.endInit (b : Block) : Block :=
  if b.hp.initRunning then
    { b with hp := { b.hp with initRunning := b.hp.resetAsserted, initCleared := b.hp.resetAsserted },
             le := { b.le with store := [] } }
  else b

/-- RESET is released (R181, R182). -/
def Block.releaseReset (b : Block) : Block :=
  { b with hp := { b.hp with resetAsserted := false, resetEdge := false, initCleared := false,
                             initRunning := b.hp.initRunning && !b.hp.initCleared } }

/-- What a soft reset does to the SM (R24). -/
def Sm.softReset (s : Sm) : Sm :=
  let cleared := { s with tx := none, pendCensus := false, pendService := none, pendDirect := none, pendList := none,
                          pointer := .list, timing := false, replyStarted := false, partialSync := false }
  match s.phase with
  | .off => cleared
  | .idle => cleared
  | .send | .await | .gap => cleared.enterGap .recovery .rest

/-- What a soft reset does to a Booking Table entry (R166). -/
def Booking.softReset (e : Booking) : Booking :=
  { e with
    mark := .noMark
    state := match e.state with
      | .queued => .armed
      | .inService => match e.mark with
        | .noMark => .armed
        | .disarm => .disarmed
        | .unbook => .unbooked
      | .unbooked => .unbooked
      | .armed => .armed
      | .disarmed => .disarmed }

/-- The soft reset (R184), with the AU's look at ATN as it enters QUIET (R147). -/
def Block.softReset (b : Block) : Block :=
  ({ b with
      hp := { b.hp with rsn := .noRefusal }
      sm := b.sm.softReset
      du := { b.du with word := 0, outcome := .noOutcome, run := Run.fresh }
      le := { Le.reset with store := b.le.store, lsta := b.le.lsta }
      fp := { b.fp with out := Fifo.reset, inb := Fifo.reset }
      au := { b.au with state := .quiet, attention := 0, presence := 0, timer := none }
      bu := { b.bu with table := b.bu.table.map Booking.softReset, queue := [], ctx := .idle, station := 0,
                        outcome := .done, value := none }
      ru := { b.ru with flags := 0, spills := 0, nq := [] } }).lookAtn

/-! ## Registers of the Host Port and registers that only store -/

/-- A write of CTL (R183). -/
def Block.writeCtl (b : Block) (v : Word) : Block :=
  if v.bit 2 then b.softReset else b.setSegen (v.bit 0) (v.bit 1)

/-- A write of LOCK (R185). -/
def Block.writeLock (b : Block) (v : Word) : Block :=
  if v.bit 0 then { b with hp := { b.hp with lock := true } } else b

/-- A write of TIM0 (R8, R9, R186). -/
def Block.writeTim0 (b : Block) (v : Word) : Block :=
  b.lockedWrite fun b => { b with sm := { b.sm with tim0Timeout := v.field 0 8, tim0Rate := v.field 8 2 } }

/-- At a slot that has become free, a waiting producer makes its attempt `retry`; a producer arriving fresh may be taken
before it (R160, R175), and then the attempt is left to the producer's own command, RESERVATION_RETRY or
MARK_POST_RETRY (log entry 12). -/
def Block.attempt (retry : Block → Block) (b : Block) : Block :=
  let (now, chosen) := b.choose
  if now then retry chosen else chosen

/-- The attempt of a service that waits in RESERVING (R160). -/
def Block.attemptReservation (b : Block) : Block :=
  if b.bu.ctx = .reserving then b.attempt Block.retryReservation else b

/-- The attempt of a List Engine that waits with a MARK (R124). -/
def Block.attemptMark (b : Block) : Block :=
  if b.le.activity = .waitNq then b.attempt fun b => b.retryMark else b

/-- A write of NQADV (R178). Each waiting producer then makes its attempt; of two, either may be taken first (R175). -/
def Block.writeNqadv (b : Block) : Block :=
  match b.ru.nq with
  | .occupied _ :: rest =>
    let b' := { b with ru := { b.ru with nq := rest } }
    if b'.bu.ctx = .reserving ∧ b'.le.activity = .waitNq then
      let (serviceFirst, chosen) := b'.choose
      if serviceFirst then chosen.attemptReservation.attemptMark else chosen.attemptMark.attemptReservation
    else b'.attemptReservation.attemptMark
  | .reserved :: _ => b.refuse .nqEmpty
  | [] => b.refuse .nqEmpty

/-- The mask with its half of stations 1 to 15 replaced (R143). -/
def maskLow (m : StationSet) (v : Word) : StationSet := m.extractLsb' 15 15 ++ v.field 0 15

/-- The mask with its half of stations 16 to 30 replaced (R143). -/
def maskHigh (m : StationSet) (v : Word) : StationSet := v.field 0 15 ++ m.extractLsb' 0 15

/-- A host write to the register at `addr` (R180 and the register map of section 11.6): command registers act as their
chapters state, data registers store the fields the layouts give them, read-only registers ignore it. -/
def Block.hostWrite (b : Block) (addr : BitVec 6) (v : Word) : Block :=
  match addr.toNat with
  | 0x00 => b.writeCtl v
  | 0x01 => b.writeNqadv
  | 0x02 => b.writeLock v
  | 0x04 => b.writeTim0 v
  | 0x05 => { b with deadline := v.field 0 8, stallLimit := v.field 8 8 }
  | 0x06 => { b with bu := { b.bu with tim2 := v.field 0 3 } }
  | 0x07 => b.writeCnd v
  | 0x09 => b.writeRoute .rte0 v
  | 0x0A => b.writeRoute .rte1 v
  | 0x0B => b.writeLen v
  | 0x11 => { b with du := { b.du with dtgt := v } }
  | 0x12 => { b with du := { b.du with dcel := v.field 0 12 } }
  | 0x13 => { b with du := { b.du with dcnt := v.field 0 12 } }
  | 0x14 => { b with du := { b.du with dmod := v &&& 0xFFF0 } }
  | 0x15 => { b with du := { b.du with ddat := v } }
  | 0x16 => b.writeDcmd v
  | 0x1B => { b with le := { b.le with lptr := v.field 0 12 } }
  | 0x1C => b.writeLdat v
  | 0x1D => { b with le := { b.le with lsta := v.field 0 12 } }
  | 0x1E => b.writeLcmd v
  | 0x25 => b.writeOdat v
  | 0x28 => b.writeFcmd v
  | 0x29 => b.writeFmki v
  | 0x2A => b.writeFmko v
  | 0x2B => { b with sd := { b.sd with sel := v.field 0 3 } }
  | 0x2C => b.writeSpan .spbnd v
  | 0x2D => b.writeSpan .spmap v
  | 0x2E => b.writeSpctl (v.bit 0)
  | 0x2F => { b with au := { b.au with setting := v.field 0 8 } }
  | 0x30 => { b with au := { b.au with mask := maskLow b.au.mask v } }
  | 0x31 => { b with au := { b.au with mask := maskHigh b.au.mask v } }
  | 0x36 => { b with bu := { b.bu with bksel := v.field 0 5 } }
  | 0x37 => { b with bu := { b.bu with bkcls := v.field 0 2 } }
  | 0x38 => { b with bu := { b.bu with bka1v := v &&& 0xCFFF } }
  | 0x39 => { b with bu := { b.bu with bka1d := v } }
  | 0x3A => { b with bu := { b.bu with bka2v := v &&& 0xCFFF } }
  | 0x3B => { b with bu := { b.bu with bka2d := v } }
  | 0x3C => { b with bu := { b.bu with bktag := v } }
  | 0x3E => b.writeBkcmd v
  | _ => b

/-- A host read of a held part returns 0000h and has no effect (R181, R182). -/
def Block.readHeld (b : Block) : Block := { b with hp := { b.hp with resetEdge := false, readData := 0 } }

/-- A host read that has an effect returns 0000h without it while RESET is asserted or INIT runs (R181, R182; log
entry 25). LDAT goes through `Block.accessLdat` instead. -/
def Block.whenReadable (f : Block → Block) (b : Block) : Block := if b.operating then f b else b.readHeld

end Sys2Proof.Machine
end

