-- ==== Sys2Proof/Machine/AttentionCommands.lean ====
section
/-! DEFINITION. The meanings of the commands: ATN, CENSUS-NOW and the holdoff (R133 to R141). -/

namespace Sys2Proof.Machine

/-- ATN_ASSERTED (R133, R134): the level of the line, and the AU's look at it. -/
def execAtnAsserted (s : State) : Host.Outcome State Fault Refusal :=
  s.become fun b => Block.tellAtn { b with au := { b.au with atn := true } }

/-- ATN_RELEASED (R133): the level of the line. -/
def execAtnReleased (s : State) : Host.Outcome State Fault Refusal :=
  s.become fun b => { b with au := { b.au with atn := false } }

/-- CENSUS_NOW (R135): the CTL write of CENSUS-NOW with the SEGEN it carries. -/
def execCensusNow (segen : Bool) (s : State) : Host.Outcome State Fault Refusal :=
  s.become (Block.whenOperating fun b => b.setSegen segen true)

/-- HOLDOFF_EXPIRY (R141). -/
def execHoldoffExpiry (s : State) : Host.Outcome State Fault Refusal :=
  s.become (Block.whenOperating fun b => b.expireHoldoff)

end Sys2Proof.Machine
end

