-- ==== Sys2Proof/Machine/BookingCommands.lean ====
section
/-! DEFINITION. The meanings of the commands: the commands of BKCMD and the retried reservation (R150 to R155, R160). -/

namespace Sys2Proof.Machine

/-- BKCMD_READ (R151). -/
def execBkcmdRead (s : State) : Host.Outcome State Fault Refusal :=
  s.become (Block.whenOperating fun b => b.readBooking)

/-- BKCMD_BOOK (R152). -/
def execBkcmdBook (s : State) : Host.Outcome State Fault Refusal :=
  s.become (Block.whenOperating fun b => b.book)

/-- BKCMD_UNBOOK (R153). -/
def execBkcmdUnbook (s : State) : Host.Outcome State Fault Refusal :=
  s.become (Block.whenOperating fun b => b.unbook)

/-- BKCMD_ARM (R154). -/
def execBkcmdArm (s : State) : Host.Outcome State Fault Refusal :=
  s.become (Block.whenOperating fun b => b.arm)

/-- BKCMD_DISARM (R155). -/
def execBkcmdDisarm (s : State) : Host.Outcome State Fault Refusal :=
  s.become (Block.whenOperating fun b => b.disarmBooking)

/-- RESERVATION_RETRY (R160). -/
def execReservationRetry (s : State) : Host.Outcome State Fault Refusal :=
  s.become (Block.whenOperating fun b => b.retryReservation)

end Sys2Proof.Machine
end

