-- ==== Sys2Proof/Machine/FifoCommands.lean ====
section
/-! DEFINITION. The meanings of the commands: the host's commands to the FIFO Pair (R52, R53, R59 to R62). -/

namespace Sys2Proof.Machine

/-- ODAT_WRITE (R52). -/
def execOdatWrite (v : Word) (s : State) : Host.Outcome State Fault Refusal :=
  s.become (Block.whenOperating fun b => b.writeOdat v)

/-- IDAT_READ (R53); the word read is left on the data lines. -/
def execIdatRead (s : State) : Host.Outcome State Fault Refusal :=
  s.become (Block.whenReadable Block.readIdat)

/-- FLUSH_OUT (R62). -/
def execFlushOut (s : State) : Host.Outcome State Fault Refusal :=
  s.become (Block.whenOperating fun b => (b.flushFifo .outbound).listReadBehind)

/-- FLUSH_IN (R62). -/
def execFlushIn (s : State) : Host.Outcome State Fault Refusal :=
  s.become (Block.whenOperating fun b => (b.flushFifo .inbound).listReadBehind)

/-- FMKI_WRITE (R59, R60). -/
def execFmkiWrite (v : Word) (s : State) : Host.Outcome State Fault Refusal :=
  s.become (Block.whenOperating fun b => b.writeFmki v)

/-- FMKO_WRITE (R61). -/
def execFmkoWrite (v : Word) (s : State) : Host.Outcome State Fault Refusal :=
  s.become (Block.whenOperating fun b => b.writeFmko v)

end Sys2Proof.Machine
end

