-- ==== Sys2Proof/Machine/HostCommands.lean ====
section
/-! DEFINITION. The meanings of the commands: the resets, INIT, LOCK, TIM0 and the host write of any register (R8, R180 to R186). -/

namespace Sys2Proof.Machine

/-- POWER_ON_RESET (R181): every block takes its power-on values, the lock is clear, INIT runs. -/
def execPowerOnReset (s : State) : Host.Outcome State Fault Refusal :=
  s.become Block.powerOn

/-- INIT_END (R181, R109): the List Store is clear; INIT ends, at once or at the later release of RESET. -/
def execInitEnd (s : State) : Host.Outcome State Fault Refusal :=
  s.become Block.endInit

/-- PIN_RESET (R182): RESET is asserted; the blocks are held at their pin-reset values. -/
def execPinReset (s : State) : Host.Outcome State Fault Refusal :=
  s.become Block.assertReset

/-- RESET_RELEASE (R182): RESET is released. -/
def execResetRelease (s : State) : Host.Outcome State Fault Refusal :=
  s.become Block.releaseReset

/-- SOFT_RESET (R184): the CTL write with SRST. -/
def execSoftReset (s : State) : Host.Outcome State Fault Refusal :=
  s.become (Block.whenOperating fun b => b.softReset)

/-- LOCK_WRITE (R185). -/
def execLockWrite (v : Word) (s : State) : Host.Outcome State Fault Refusal :=
  s.become (Block.whenOperating fun b => b.writeLock v)

/-- TIM0_WRITE (R8, R9, R186). -/
def execTim0Write (v : Word) (s : State) : Host.Outcome State Fault Refusal :=
  s.become (Block.whenOperating fun b => b.writeTim0 v)

/-- REGISTER_WRITE (R180): a host write of `v` at `addr`. -/
def execRegisterWrite (addr : BitVec 6) (v : Word) (s : State) : Host.Outcome State Fault Refusal :=
  if addr = 0x1C#6 then s.become (Block.accessLdat (fun b => b.writeLdat v) Block.ignored)
  else s.become (Block.whenOperating fun b => b.hostWrite addr v)

end Sys2Proof.Machine
end

