-- ==== Sys2Proof/Machine/ListCommands.lean ====
section
/-! DEFINITION. The meanings of the commands: the List Store's port, the commands of LCMD and the List Engine's own events (R96, R97, R115 to R126). -/

namespace Sys2Proof.Machine

/-- LDAT_READ (R96, R109); the word read is left on the data lines. -/
def execLdatRead (s : State) : Host.Outcome State Fault Refusal :=
  s.become (Block.accessLdat Block.readLdat Block.readHeld)

/-- LDAT_WRITE (R97, R109). -/
def execLdatWrite (v : Word) (s : State) : Host.Outcome State Fault Refusal :=
  s.become (Block.accessLdat (fun b => b.writeLdat v) Block.ignored)

/-- LCMD_START (R115). -/
def execLcmdStart (s : State) : Host.Outcome State Fault Refusal :=
  s.become (Block.whenOperating fun b => b.listStart)

/-- LCMD_RESUME (R116, R117). -/
def execLcmdResume (s : State) : Host.Outcome State Fault Refusal :=
  s.become (Block.whenOperating fun b => b.listResume)

/-- LCMD_ABORT (R118). -/
def execLcmdAbort (s : State) : Host.Outcome State Fault Refusal :=
  s.become (Block.whenOperating fun b => b.listAbort)

/-- MARK_POST_RETRY (R124). -/
def execMarkPostRetry (s : State) : Host.Outcome State Fault Refusal :=
  s.become (Block.whenOperating fun b => b.retryMark s.accessBehind)

/-- LIST_CLAIM_GRANTED (R56, R122). -/
def execListClaimGranted (s : State) : Host.Outcome State Fault Refusal :=
  s.become (Block.whenOperating fun b => b.grantListClaim)

/-- LIST_STALL_EXPIRY (R126). -/
def execListStallExpiry (s : State) : Host.Outcome State Fault Refusal :=
  s.become (Block.whenOperating fun b => b.expireListStall)

/-- PAUSE_EXPIRY (R123). -/
def execPauseExpiry (s : State) : Host.Outcome State Fault Refusal :=
  s.become (Block.whenOperating fun b => b.expirePause s.accessBehind)

end Sys2Proof.Machine
end

