-- ==== Sys2Proof/Machine/ReportCommands.lean ====
section
/-! DEFINITION. The meanings of the commands: the host's commands to the Report Unit (R168, R170, R171, R178). -/

namespace Sys2Proof.Machine

/-- NQADV (R178). -/
def execNqadv (s : State) : Host.Outcome State Fault Refusal :=
  s.become (Block.whenOperating fun b => b.writeNqadv)

/-- CND_WRITE (R168). -/
def execCndWrite (v : Word) (s : State) : Host.Outcome State Fault Refusal :=
  s.become (Block.whenOperating fun b => b.writeCnd v)

/-- RTE_WRITE (R170, R186). -/
def execRteWrite (reg : RouteReg) (v : Word) (s : State) : Host.Outcome State Fault Refusal :=
  s.become (Block.whenOperating fun b => b.writeRoute reg v)

/-- LEN_WRITE (R171). -/
def execLenWrite (v : Word) (s : State) : Host.Outcome State Fault Refusal :=
  s.become (Block.whenOperating fun b => b.writeLen v)

end Sys2Proof.Machine
end

