-- ==== Sys2Proof/Machine/RunCommands.lean ====
section
/-! DEFINITION. The meanings of the commands: the Direct Unit's commands and the timers and stalls of runs (R32, R33, R42 to R46, R81 to R88). -/

namespace Sys2Proof.Machine

/-- DCMD_GO (R82 to R85). -/
def execDcmdGo (s : State) : Host.Outcome State Fault Refusal :=
  s.become (Block.whenOperating fun b => b.directGo.listReadBehind)

/-- DCMD_ABORT (R86). -/
def execDcmdAbort (s : State) : Host.Outcome State Fault Refusal :=
  s.become (Block.whenOperating fun b => b.directAbort)

/-- PERSIST_EXPIRY (R42, R43). -/
def execPersistExpiry (o : Owner) (s : State) : Host.Outcome State Fault Refusal :=
  s.become (Block.whenOperating fun b => b.expirePersist o)

/-- RUN_STALL_EXPIRY (R44). -/
def execRunStallExpiry (o : Owner) (s : State) : Host.Outcome State Fault Refusal :=
  s.become (Block.whenOperating fun b => b.expireRunStall o)

/-- RUN_STALL_END (R32, R33). -/
def execRunStallEnd (o : Owner) (s : State) : Host.Outcome State Fault Refusal :=
  s.become (Block.whenOperating fun b => b.wake o)

end Sys2Proof.Machine
end

