-- ==== Sys2Proof/Machine/SpanCommands.lean ====
section
/-! DEFINITION. The meanings of the commands: the host's commands to the Span Decoder (R67, R71 to R74). -/

namespace Sys2Proof.Machine

/-- SPAN_WRITE (R67). -/
def execSpanWrite (reg : SpanReg) (v : Word) (s : State) : Host.Outcome State Fault Refusal :=
  s.become (Block.whenOperating fun b => b.writeSpan reg v)

/-- SPAN_ENABLE (R71, R72). -/
def execSpanEnable (s : State) : Host.Outcome State Fault Refusal :=
  s.become (Block.whenOperating fun b => b.writeSpctl true)

/-- SPAN_DISABLE (R72, R73). -/
def execSpanDisable (s : State) : Host.Outcome State Fault Refusal :=
  s.become (Block.whenOperating fun b => b.writeSpctl false)

end Sys2Proof.Machine
end

