-- ==== Sys2Proof/Machine/WireCommands.lean ====
section
/-! DEFINITION. The meanings of the commands: the segment enable and the events of the wire (R3 to R20). -/

namespace Sys2Proof.Machine

/-- SEGEN_SET (R19): the CTL write of SEGEN = 1. -/
def execSegenSet (s : State) : Host.Outcome State Fault Refusal :=
  s.become (Block.whenOperating fun b => b.setSegen true false)

/-- SEGEN_CLEAR (R18): the CTL write of SEGEN = 0. -/
def execSegenClear (s : State) : Host.Outcome State Fault Refusal :=
  s.become (Block.whenOperating fun b => b.setSegen false false)

/-- FRAME_SENT (R13). -/
def execFrameSent (s : State) : Host.Outcome State Fault Refusal :=
  s.become (Block.whenOperating fun b => b.frameSent s.accessBehind)

/-- REPLY_START (R3). -/
def execReplyStart (s : State) : Host.Outcome State Fault Refusal :=
  s.become (Block.whenOperating fun b => b.replyStart)

/-- REPLY_END (R4, R15). -/
def execReplyEnd (bits : List Bool) (s : State) : Host.Outcome State Fault Refusal :=
  s.become (Block.whenOperating fun b => b.replyEnd bits s.accessBehind)

/-- REPLY_TIMEOUT (R14). -/
def execReplyTimeout (partialSync : Bool) (s : State) : Host.Outcome State Fault Refusal :=
  s.become (Block.whenOperating fun b => b.replyTimeout partialSync)

/-- SYNC_BREAK_OFF (R3). -/
def execSyncBreakOff (s : State) : Host.Outcome State Fault Refusal :=
  s.become (Block.whenOperating fun b => b.syncBreakOff)

/-- DISCARDED_REPLY (R16): it reaches no requester, changes no record and raises no condition. -/
def execDiscardedReply (s : State) : Host.Outcome State Fault Refusal :=
  s.become (Block.whenOperating id)

/-- CENSUS_SLOTS_END (R7, R137 to R140). -/
def execCensusSlotsEnd (slots : List (BitVec 3)) (s : State) : Host.Outcome State Fault Refusal :=
  s.become (Block.whenOperating fun b => b.censusSlotsEnd slots)

/-- GAP_END (R15, R17). -/
def execGapEnd (s : State) : Host.Outcome State Fault Refusal :=
  s.become (Block.whenOperating fun b => b.gapEnd)

end Sys2Proof.Machine
end

