-- ==== Sys2Proof/Machine/Dispatch.lean ====
section
/-! DEFINITION. The meaning of each command: one arm per constructor of `Instr`, in the order of
spec/opcode_table.json. -/

namespace Sys2Proof.Machine

def exec (i : Instr) (s : State) : Host.Outcome State Fault Refusal :=
  match i with
  | .powerOnReset => Sys2Proof.Machine.execPowerOnReset s
  | .initEnd => Sys2Proof.Machine.execInitEnd s
  | .pinReset => Sys2Proof.Machine.execPinReset s
  | .resetRelease => Sys2Proof.Machine.execResetRelease s
  | .softReset => Sys2Proof.Machine.execSoftReset s
  | .segenSet => Sys2Proof.Machine.execSegenSet s
  | .segenClear => Sys2Proof.Machine.execSegenClear s
  | .censusNow segen => Sys2Proof.Machine.execCensusNow segen s
  | .atnAsserted => Sys2Proof.Machine.execAtnAsserted s
  | .atnReleased => Sys2Proof.Machine.execAtnReleased s
  | .frameSent => Sys2Proof.Machine.execFrameSent s
  | .replyEnd bits => Sys2Proof.Machine.execReplyEnd bits s
  | .replyTimeout partialSync => Sys2Proof.Machine.execReplyTimeout partialSync s
  | .discardedReply => Sys2Proof.Machine.execDiscardedReply s
  | .censusSlotsEnd slots => Sys2Proof.Machine.execCensusSlotsEnd slots s
  | .gapEnd => Sys2Proof.Machine.execGapEnd s
  | .tim0Write v => Sys2Proof.Machine.execTim0Write v s
  | .dcmdGo => Sys2Proof.Machine.execDcmdGo s
  | .dcmdAbort => Sys2Proof.Machine.execDcmdAbort s
  | .persistExpiry o => Sys2Proof.Machine.execPersistExpiry o s
  | .runStallExpiry o => Sys2Proof.Machine.execRunStallExpiry o s
  | .runStallEnd o => Sys2Proof.Machine.execRunStallEnd o s
  | .odatWrite v => Sys2Proof.Machine.execOdatWrite v s
  | .idatRead => Sys2Proof.Machine.execIdatRead s
  | .flushOut => Sys2Proof.Machine.execFlushOut s
  | .flushIn => Sys2Proof.Machine.execFlushIn s
  | .fmkiWrite v => Sys2Proof.Machine.execFmkiWrite v s
  | .fmkoWrite v => Sys2Proof.Machine.execFmkoWrite v s
  | .spanWrite reg v => Sys2Proof.Machine.execSpanWrite reg v s
  | .spanEnable => Sys2Proof.Machine.execSpanEnable s
  | .spanDisable => Sys2Proof.Machine.execSpanDisable s
  | .ldatRead => Sys2Proof.Machine.execLdatRead s
  | .ldatWrite v => Sys2Proof.Machine.execLdatWrite v s
  | .lcmdStart => Sys2Proof.Machine.execLcmdStart s
  | .lcmdResume => Sys2Proof.Machine.execLcmdResume s
  | .lcmdAbort => Sys2Proof.Machine.execLcmdAbort s
  | .markPostRetry => Sys2Proof.Machine.execMarkPostRetry s
  | .listClaimGranted => Sys2Proof.Machine.execListClaimGranted s
  | .listStallExpiry => Sys2Proof.Machine.execListStallExpiry s
  | .pauseExpiry => Sys2Proof.Machine.execPauseExpiry s
  | .holdoffExpiry => Sys2Proof.Machine.execHoldoffExpiry s
  | .bkcmdRead => Sys2Proof.Machine.execBkcmdRead s
  | .bkcmdBook => Sys2Proof.Machine.execBkcmdBook s
  | .bkcmdUnbook => Sys2Proof.Machine.execBkcmdUnbook s
  | .bkcmdArm => Sys2Proof.Machine.execBkcmdArm s
  | .bkcmdDisarm => Sys2Proof.Machine.execBkcmdDisarm s
  | .reservationRetry => Sys2Proof.Machine.execReservationRetry s
  | .nqadv => Sys2Proof.Machine.execNqadv s
  | .cndWrite v => Sys2Proof.Machine.execCndWrite v s
  | .rteWrite reg v => Sys2Proof.Machine.execRteWrite reg v s
  | .lenWrite v => Sys2Proof.Machine.execLenWrite v s
  | .lockWrite v => Sys2Proof.Machine.execLockWrite v s
  | .registerWrite addr v => Sys2Proof.Machine.execRegisterWrite addr v s
  | .replyStart => Sys2Proof.Machine.execReplyStart s
  | .syncBreakOff => Sys2Proof.Machine.execSyncBreakOff s

end Sys2Proof.Machine
end

