-- ==== Sys2Proof/Safety.lean ====
section
/-! DEFINITION. What the claims are stated in: a command's answer, the invariants that the manual gives the part, and
the predicates they are made of. -/

namespace Sys2Proof.Machine

/-- Command `c` in state `s` answers a next state whose part is `b`; the queue is as it was. -/
def Answers (c : Instr) (s : State) (b : Block) : Prop := exec c s = .next { s with block := b }

/-- The reset value of the register at `addr`, as the chapters and section 11.7 give it; AUCF also shows the level of ATN. -/
def resetValue (atn : Bool) (addr : BitVec 6) : Word :=
  match addr.toNat with
  | 0x04 => 0x0014
  | 0x05 => 0x6432
  | 0x06 => 0x0002
  | 0x27 => 0x0080
  | 0x29 => 0x1020
  | 0x2A => 0x0030
  | 0x2E => 0x0800
  | 0x2F => if atn then 0x800A else 0x000A
  | _ => 0

/-- The bits that a register which only stores keeps of a written value, by the layouts of section 11.7; `none` for a
register with a behaviour of its own, a locked one or a read-only one. -/
def plainMask (addr : BitVec 6) : Option Word :=
  match addr.toNat with
  | 0x05 => some 0xFFFF
  | 0x06 => some 0x0007
  | 0x11 => some 0xFFFF
  | 0x12 => some 0x0FFF
  | 0x13 => some 0x0FFF
  | 0x14 => some 0xFFF0
  | 0x15 => some 0xFFFF
  | 0x1B => some 0x0FFF
  | 0x1D => some 0x0FFF
  | 0x2B => some 0x0007
  | 0x2F => some 0x00FF
  | 0x30 => some 0x7FFF
  | 0x31 => some 0x7FFF
  | 0x36 => some 0x001F
  | 0x37 => some 0x0003
  | 0x38 => some 0xCFFF
  | 0x39 => some 0xFFFF
  | 0x3A => some 0xCFFF
  | 0x3B => some 0xFFFF
  | 0x3C => some 0xFFFF
  | _ => none

/-- The read-only registers of section 11.6 whose writes are ignored. -/
def isReadOnly (addr : BitVec 6) : Bool :=
  addr.toNat ∈ [0x03, 0x08, 0x0C, 0x0D, 0x0E, 0x0F, 0x10, 0x17, 0x18, 0x19, 0x1A, 0x1F, 0x20, 0x21, 0x22, 0x23, 0x24,
    0x26, 0x27, 0x32, 0x33, 0x34, 0x35, 0x3D, 0x3F]

/-- The commands that act on the part outside its INIT and RESET: the two hard resets, the end of INIT, the release of
RESET and the level of ATN. -/
def actsOnHeldPart : Instr → Bool
  | .powerOnReset => true
  | .initEnd => true
  | .pinReset => true
  | .resetRelease => true
  | .atnAsserted => true
  | .atnReleased => true
  | _ => false

/-- The commands that reach LDAT. -/
def reachesLdat : Instr → Bool
  | .ldatRead => true
  | .ldatWrite _ => true
  | .registerWrite addr _ => addr = 0x1C#6
  | _ => false

/-- The writes to registers of the locked group (R185). -/
def writesLockedGroup : Instr → Bool
  | .tim0Write _ => true
  | .spanWrite _ _ => true
  | .spanEnable => true
  | .spanDisable => true
  | .rteWrite _ _ => true
  | .registerWrite addr _ => addr.toNat ∈ [0x04, 0x09, 0x0A, 0x2C, 0x2D, 0x2E]
  | _ => false

/-- The cell a STATION-form word at index `i` names (R29). -/
def RunDesc.cellAt (d : RunDesc) (i : Nat) : Nat := if d.advance = .step then d.start + i else d.start

/-- No FIFO is claimed by the given owner. -/
def Block.claimsNone (b : Block) (c : Claim) : Prop := b.fp.out.claim ≠ c ∧ b.fp.inb.claim ≠ c

/-! ### What an outcome, a word and an end leave, written from R29 to R41, R88, R127 and R129 -/

/-- The FIFO Pair once the owner `c` has given back what it claims (R57). -/
def Fp.without (f : Fp) (c : Claim) : Fp :=
  { f with out := { f.out with claim := if f.out.claim = c then .unclaimed else f.out.claim }
           inb := { f.inb with claim := if f.inb.claim = c then .unclaimed else f.inb.claim } }

/-- The List Engine waits for no claim that the Direct Unit holds, so no claim passes when its run ends (R57). -/
def Block.noClaimPasses (b : Block) : Prop := ∀ side, b.le.activity = .waitClaim side → (b.fifo side).claim ≠ .direct

/-- A sequencer whose run has ended with `res`: timers stopped, marks clear, the stall reason kept after STARVED alone
(R41). -/
def Run.over (r : Run) (res : Result) : Run :=
  { r with sub := .ended, fullSeen := false, persist := none, held := false, stallTimer := none
           stall := if res = .starved then r.stall else .noStall }

/-- The end of the Direct Unit's run where no claim passes on (R88). -/
def Block.directOver (b : Block) (res : Result) : Block :=
  Block.setCondition
    { b with fp := b.fp.without .direct
             du := { b.du with word := 0, outcome := res, run := { b.du.run.over res with desc := RunDesc.blank } } }
    .ddone

/-- The List Engine has halted; `resumable` is R128's answer for the outcome (R127). -/
def Block.listHalted (b : Block) (res : Result) (resumable : Bool) : Block :=
  Block.setCondition
    { b with fp := b.fp.without .list
             le := { b.le with activity := .halted, outcome := res, resumable := resumable, pauseTimer := none
                               stallTimer := none, run := b.le.run.over res } }
    .lhalt

/-- The list has ended (R129). -/
def Block.listOver (b : Block) (res : Result) : Block :=
  Block.setCondition
    { b with fp := b.fp.without .list
             le := { b.le with activity := .idle, outcome := res, resumable := false, pauseTimer := none
                               stallTimer := none, run := b.le.run.over res } }
    .ldone

/-- The List Engine has moved its cursor `len` words on to the next entry and has not read it yet (R110, R120). -/
def Block.nextEntry (b : Block) (len : Nat) : Block :=
  { b with
    le := { b.le with
      activity := .running, cursor := b.le.cursor + len, run := Run.fresh, pauseTimer := none, stallTimer := none } }

/-- The List Engine between an entry whose run is COMPLETE and the next, with its claim released (R121, R122). -/
def Block.betweenEntries (b : Block) (len : Nat) : Block := { b.nextEntry len with fp := b.fp.without .list }

/-- The AU has left QUIET or HOLDOFF for a census: an IDLE Segment Master grants it at once, otherwise the request waits
(R134 to R136, R22). -/
def Block.censusAsked (b : Block) : Block :=
  if b.sm.phase = .idle then
    { b with
      sm := { b.sm with phase := .send, tx := some (.census []), gap := none, after := .rest, rate := b.sm.tim0Rate,
                        timeout := b.sm.tim0Timeout, timing := false, replyStarted := false, partialSync := false,
                        pendCensus := false }
      au := { b.au with state := .census, timer := none } }
  else { b with sm := { b.sm with pendCensus := true }, au := { b.au with state := .requested, timer := none } }

/-- The Segment Master's part of a set of SEGEN (R19). -/
def Block.enabled (b : Block) : Block :=
  { b with sm := { b.sm with segen := true, phase := if b.sm.phase = .off then .idle else b.sm.phase } }

/-- A held part once it has ignored an access: no later one falls together with the assertion of RESET (log entry 29). An
operating part is as it was. -/
def Block.unlessHeld (b : Block) : Block :=
  if b.operating then b else { b with hp := { b.hp with resetEdge := false } }

/-- The Segment Master has taken the reply of `w` with outcome `e` and is in the inter-frame gap (R15). -/
def Block.replied (b : Block) (w : WordTx) (e : Ending) : Block :=
  { b with sm := { b.sm with
      phase := .gap, gap := some .interFrame, after := .rest, timing := false, replyStarted := false,
      partialSync := false, tx := some (.word { w with latest := some e }) } }

/-- The Outbound FIFO without its head word. -/
def Fp.headGone (f : Fp) : Fp := { f with out := { f.out with words := f.out.words.tail, removed := f.out.removed + 1 } }

/-- The run uses the Outbound FIFO, or the Inbound FIFO (R26). -/
def RunDesc.storesFifo (d : RunDesc) : Bool := d.mode = .fifo && d.verb = .store
def RunDesc.fetchesFifo (d : RunDesc) : Bool := d.mode = .fifo && d.verb = .fetch

/-- The word has its data moved: a fetched value to its destination, a FIFO STORE word out of its FIFO (R35 step 1). -/
def Block.wordMoved (b : Block) (d : RunDesc) (i : Nat) (v : Word) : Block :=
  if d.verb = .fetch ∧ d.mode = .register then { b with du := { b.du with ddat := v } }
  else if d.verb = .fetch ∧ d.mode = .inline then
    { b with le := { b.le with store := b.le.store.write (b.le.inlineBase + i) v } }
  else if d.fetchesFifo then
    { b with fp := { b.fp with inb := { b.fp.inb with words := b.fp.inb.words ++ [v], joined := b.fp.inb.joined + 1 } } }
  else if d.storesFifo then { b with fp := b.fp.headGone }
  else b

/-- A DONE outcome with value `v` has been applied (R35 steps 1 to 3). -/
def Block.wordDone (b : Block) (o : Owner) (v : Word) : Block :=
  let b' := b.wordMoved (b.run o).desc (b.run o).index v
  b'.setRun o { b'.run o with done := (b.run o).done + 1, index := (b.run o).index + 1, lastReply := .done
                              persist := none, held := false }

/-- The word has been passed over (R36, R38): a FIFO STORE word is discarded. -/
def Block.wordSkipped (b : Block) (o : Owner) (reply : LastReply) : Block :=
  Block.setRun (if (b.run o).desc.storesFifo then { b with fp := b.fp.headGone } else b) o
    { b.run o with skipped := (b.run o).skipped + 1, index := (b.run o).index + 1, lastReply := reply, persist := none
                   held := false }

/-- The reply code is noted (R40). -/
def Block.replyNoted (b : Block) (o : Owner) (reply : LastReply) : Block :=
  b.setRun o { b.run o with lastReply := reply }

/-- A WAIT under PERSIST: the persist timer runs on, or starts unless the limit is 0 (R37, R42). -/
def Block.persisting (b : Block) (o : Owner) : Block :=
  b.setRun o { b.run o with
    lastReply := .wait
    persist := match (b.run o).persist with
      | some n => some n
      | none => if b.deadline = 0 then none else some b.deadline.toNat }

/-- What the outcome of the word in flight leaves of an ABORTING run before it ends (R46). -/
def Block.abortLeaves (b : Block) (o : Owner) (e : Ending) (v : Word) : Block :=
  if e = .done then b.wordDone o v
  else if e = .wait then
    (if (b.run o).desc.wait = .skip then b.wordSkipped o .wait else b.replyNoted o .wait)
  else if e = .refused then
    (if (b.run o).desc.tolerant then b.wordSkipped o .refused else b.replyNoted o .refused)
  else b

/-- The request of a service's action (R161): the retry limit is TIM2's, a STORE carries the action's data. -/
def serviceRequest (tim2 : BitVec 3) (station : Nat) (a : Action) : Request :=
  { station := station, verb := a.verb, cell := a.cell.toNat, retries := tim2.toNat
    source := if a.verb = .store then .word a.data else .noData }

/-- One free choice has been taken (log entry 2). -/
def Block.chosen (b : Block) : Block := { b with choices := b.choices + 1 }

/-- The request for the word at the run's index, for this target (R34). -/
def Block.wordRequest (b : Block) (o : Owner) (station cell : Nat) : Request :=
  let r := b.run o
  { station := station, verb := r.desc.verb, cell := cell, retries := r.desc.retries
    source := if r.desc.verb ≠ .store then .noData
      else if r.desc.mode = .register then .dataWord
      else if r.desc.mode = .inline then .inline (b.le.inlineBase + r.index)
      else if r.desc.mode = .fifo then .outboundHead
      else .noData }

/-- That request is pending (R31, R34). -/
def Block.wordPosted (b : Block) (o : Owner) (station cell : Nat) : Block :=
  Block.setRun { b with sm := b.sm.setRequest (clientOf o) (some (b.wordRequest o station cell)) } o
    { b.run o with sub := .requesting, lastStation := station, lastCell := cell }

/-- The requester the arbiter's rotation offers the wire to after `p` in the cycle SERVICE, DIRECT, LIST, SERVICE (R22). -/
def cycleAfter : Client → Client
  | .service => .direct
  | .direct => .list
  | .list => .service

/-- The request `r` of `c` is granted: its frame goes out with rate and timeout sampled afresh, a STORE with the data of
that moment, the pointer names `c`, and a run is IN-FLIGHT (R12, R22, R34). -/
def Block.granted (b : Block) (c : Client) (r : Request) : Block :=
  { b with
    sm := { b.sm.setRequest c none with
      phase := .send, gap := none, after := .rest, rate := b.sm.tim0Rate, timeout := b.sm.tim0Timeout, timing := false
      replyStarted := false, partialSync := false, pointer := c
      tx := some (.word
        { client := c, station := r.station, verb := r.verb, cell := r.cell
          data := match r.source with
            | .noData => none
            | .word w => some w
            | .dataWord => some b.du.word
            | .inline a => some (b.storeAt a)
            | .outboundHead => b.fp.out.words.head?
          retryLimit := r.retries, retriesUsed := 0, latest := none, final := false }) }
    du := if c = .direct then { b.du with run := { b.du.run with sub := .inFlight } } else b.du
    le := if c = .list then { b.le with run := { b.le.run with sub := .inFlight } } else b.le }

/-- The census request is granted: the census frame goes out, and the pointer stays (R22, R136). -/
def Block.censusGranted (b : Block) : Block :=
  { b with
    sm := { b.sm with
      phase := .send, gap := none, after := .rest, rate := b.sm.tim0Rate, timeout := b.sm.tim0Timeout, timing := false
      replyStarted := false, partialSync := false, pendCensus := false, tx := some (.census []) }
    au := { b.au with state := .census } }

/-- `b'` is what the part of `b`, in which a request has been posted with SEGEN at 1, becomes: the request waits, unless the
Segment Master is IDLE; then the census is granted, or the first pending requester of the rotation (R21, R22). -/
def Block.Judged (b b' : Block) : Prop :=
  (b.sm.phase ≠ .idle → b' = b) ∧
    (b.sm.phase = .idle → b.sm.pendCensus = true → b' = b.censusGranted) ∧
    (∀ (c : Client) (r : Request), b.sm.phase = .idle → b.sm.pendCensus = false → b.sm.request c = some r →
      (c = cycleAfter b.sm.pointer ∨
        (c = cycleAfter (cycleAfter b.sm.pointer) ∧ b.sm.request (cycleAfter b.sm.pointer) = none) ∨
        (c = b.sm.pointer ∧ b.sm.request (cycleAfter b.sm.pointer) = none ∧
          b.sm.request (cycleAfter (cycleAfter b.sm.pointer)) = none)) →
      b' = b.granted c r)

/-- The FIFO of a run without the full-seen mark has the word or the room that the run needs (R32, R33). -/
def Block.dataReady (b : Block) (d : RunDesc) : Prop :=
  (d.storesFifo = true → b.fp.out.words ≠ []) ∧ (d.fetchesFifo = true → b.fp.inb.words.length < 64)

/-- The word at the run's index waits for its FIFO, and the stall timer runs unless the limit is 0 (R32, R33, R44). -/
def Block.wordStalled (b : Block) (o : Owner) (station cell : Nat) : Block :=
  b.setRun o { b.run o with
    sub := .stalled, lastStation := station, lastCell := cell, fullSeen := (b.run o).desc.fetchesFifo
    stall := if (b.run o).desc.storesFifo then .fifoData else .fifoRoom
    stallTimer := if b.stallLimit = 0 then none else some b.stallLimit.toNat }

/-- The claim of the FIFO Pair that names an owner (R54). -/
def claimOf : Owner → Claim
  | .direct => .direct
  | .list => .list

/-- The run has left STALLED (R32, R33). -/
def Block.stallLeft (b : Block) (o : Owner) : Block :=
  b.setRun o { b.run o with stall := .noStall, fullSeen := false, stallTimer := none }

/-- The part after the end of the Direct Unit's run has passed the claim of `side` to the List Engine that waits for it,
before the engine's run prepares its word and DDONE is reported (R57, R88). -/
def Block.claimPassed (b : Block) (res : Result) (side : FifoSide) : Block :=
  { b with
    fp := match side with
      | .outbound => { b.fp.without .direct with out := { b.fp.out with claim := .list } }
      | .inbound => { b.fp.without .direct with inb := { b.fp.inb with claim := .list } }
    du := { b.du with word := 0, outcome := res, run := { b.du.run.over res with desc := RunDesc.blank } }
    le := { b.le with activity := .running, stallTimer := none, run := { b.le.run with stall := .noStall } } }

/-- `b'` is what the part becomes when a run's word is prepared for a target that has been found (R32 to R34): the run
stalls where its FIFO is not ready, and otherwise its request is pending, for an IDLE Segment Master to grant at once. -/
def Block.PreparesAt (b : Block) (o : Owner) (station cell : Nat) (b' : Block) : Prop :=
  (¬ b.dataReady (b.run o).desc → b' = b.wordStalled o station cell) ∧
    (b.dataReady (b.run o).desc → b.sm.segen = true → (b.wordPosted o station cell).Judged b')

/-- `b'` is what the part becomes when a run without the full-seen mark prepares the word at its index (R29 to R34): a
word without a target ends the run, and so does SEGEN at 0 where the word is ready. `ends` says what an end leaves. -/
def Block.PreparesOr (b : Block) (o : Owner) (ends : Block → Result → Block → Prop) (b' : Block) : Prop :=
  (b.run o).fullSeen = false →
    (∀ res, b.sd.target (b.run o).desc (b.run o).index = .error res → ends b res b') ∧
    (∀ station cell, b.sd.target (b.run o).desc (b.run o).index = .ok (station, cell) →
      b.PreparesAt o station cell b' ∧
      (b.dataReady (b.run o).desc → b.sm.segen = false →
        ends (b.setRun o { b.run o with lastStation := station, lastCell := cell }) .offline b'))

/-- `b'` is what the end of an entry's run that is not COMPLETE leaves (R127, R128, R129). -/
def Block.ListEnds (b : Block) (res : Result) (b' : Block) : Prop :=
  b' = if res = .aborted then b.listOver res else b.listHalted res (decide (res ≠ .cellEnd ∧ res ≠ .illegal))

/-- `b'` is what the part becomes when the entry's run starts, its claim being held: it halts ILLEGAL, or prepares the word
at its index, and may halt there (R108, R121, R122). -/
def Block.EntryStarts (b b' : Block) : Prop :=
  (b.le.run.desc.fails .list = true → b' = b.listHalted .illegal false) ∧
    (b.le.run.desc.fails .list = false → b.PreparesOr .list Block.ListEnds b')

/-- An event of the condition asks for a slot of the Notification Queue (R176). -/
def Block.asksForSlot (b : Block) (c : Condition) : Prop := b.ru.flag c = false ∧ b.ru.route c = .queue

/-- `b'` is what the end of the Direct Unit's run with `res` leaves (R57, R88): where the List Engine waits for the claim
it gives back, the claim passes and the entry's run starts. It may halt at once; where DDONE and LHALT both ask for a slot
of the queue, either is reported first, one choice taken (R175, log entry 2). -/
def Block.DirectEnds (b : Block) (res : Result) (b' : Block) : Prop :=
  (b.noClaimPasses → b' = b.directOver res) ∧
    (∀ (side : FifoSide) (passed : Block), b.le.activity = .waitClaim side → (b.fifo side).claim = .direct →
      passed = b.claimPassed res side →
      (¬ (b.asksForSlot .ddone ∧ b.asksForSlot .lhalt) → (passed.setCondition .ddone).EntryStarts b') ∧
      (b.asksForSlot .ddone ∧ b.asksForSlot .lhalt →
        (passed.chosen.setCondition .ddone).EntryStarts b' ∨
          ∃ x, passed.chosen.EntryStarts x ∧ b' = x.setCondition .ddone))

/-- `b'` is what the end of a run that is not COMPLETE leaves (R41, R88, R127, R128, R129). -/
def Block.RunEnds (b : Block) (o : Owner) (res : Result) (b' : Block) : Prop :=
  match o with
  | .direct => b.DirectEnds res b'
  | .list => b.ListEnds res b'

/-- `b'` is what the part becomes when a run without the full-seen mark prepares the word at its index (R29 to R34). -/
def Block.Prepares (b : Block) (o : Owner) (b' : Block) : Prop := b.PreparesOr o (fun c res => c.RunEnds o res) b'

/-- The current entry's description has gone to the run sequencer (R117, R121). -/
def Block.entryTaken (b : Block) (d : RunDesc) (len base : Nat) : Block :=
  { b with le := { b.le with activity := .running, entryLen := len, inlineBase := base, run := { b.le.run with desc := d } } }

/-- `b'` is what the part becomes where the engine takes the claim that the entry's run needs and starts the run, or waits
(R28, R56, R108, R121, R122, R126). -/
def Block.EntryRuns (b : Block) (b' : Block) : Prop :=
  (∀ side, b.le.run.desc.fifoSide = some side → (b.fifo side).claim = .direct →
    b' = { b with le := { b.le with
      activity := .waitClaim side, stallTimer := if b.stallLimit = 0 then none else some b.stallLimit.toNat
      run := { b.le.run with stall := .claim } } }) ∧
    ((∀ side, b.le.run.desc.fifoSide = some side → (b.fifo side).claim ≠ .direct) →
      (b.le.run.desc.fails .list = true → b' = b.listHalted .illegal false) ∧
      (b.le.run.desc.fails .list = false →
        Block.Prepares
          { b with
            fp := if b.le.run.desc.storesFifo then { b.fp with out := { b.fp.out with claim := .list } }
              else if b.le.run.desc.fetchesFifo then { b.fp with inb := { b.fp.inb with claim := .list } }
              else b.fp
            le := { b.le with activity := .running, stallTimer := none, run := { b.le.run with stall := .noStall } } }
          .list b'))

/-- `b.Reads access b'`: the engine of `b` reads the entry at its cursor and carries it out, which leaves `b'` (R108, R120
to R126, R129). Behind a MARK that is posted it reads on at once; where a host access falls together with the event
(`access`), that may come first, and then the engine is found between the entries (log entry 30). -/
inductive Block.Reads (access : Bool) : Block → Block → Prop where
  | endOfList {b : Block} : entryAt b.storeAt b.le.cursor = .endOfList → Reads access b (b.listOver .complete)
  | malformed {b : Block} : entryAt b.storeAt b.le.cursor = .malformed →
      Reads access b (b.listHalted .malformed false)
  | pause {b : Block} {n : Nat} : entryAt b.storeAt b.le.cursor = .pause n →
      Reads access b { b with le := { b.le with activity := .pausing, pauseTimer := some n } }
  | markWaits {b : Block} {tag : Word} : entryAt b.storeAt b.le.cursor = .mark tag → 16 ≤ b.ru.nq.length →
      Reads access b { b with le := { b.le with
        activity := .waitNq, tag := tag
        stallTimer := if b.stallLimit = 0 then none else some b.stallLimit.toNat
        run := { b.le.run with stall := .nq } } }
  | markFollowed {b posted : Block} {tag : Word} : access = true → entryAt b.storeAt b.le.cursor = .mark tag →
      b.ru.nq.length < 16 →
      posted = Block.nextEntry { b with ru := { b.ru with nq := b.ru.nq ++ [.occupied (.mark b.le.cursor tag)] } } 2 →
      Reads access b posted.chosen
  | markReadsOn {b posted b' : Block} {tag : Word} : entryAt b.storeAt b.le.cursor = .mark tag → b.ru.nq.length < 16 →
      posted = Block.nextEntry { b with ru := { b.ru with nq := b.ru.nq ++ [.occupied (.mark b.le.cursor tag)] } } 2 →
      Reads access (if access then posted.chosen else posted) b' → Reads access b b'
  | run {b b' : Block} {d : RunDesc} {len base : Nat} : entryAt b.storeAt b.le.cursor = .run d len base →
      (b.entryTaken d len base).EntryRuns b' → Reads access b b'

/-- `b'` is what the part becomes where the engine has come to a new entry, as in `b`: it reads the entry at once (R120);
where a host access falls together with the event (`access`), either may be taken first, and `b'` may be the engine between
the two entries, one choice taken (log entry 30). -/
def Block.GoesOn (b : Block) (access : Bool) (b' : Block) : Prop :=
  (access = false → b.Reads false b') ∧ (access = true → b' = b.chosen ∨ b.chosen.Reads true b')

/-- `b'` is what follows a host access that left `b`: an engine that it found between two entries reads the new one. -/
def Block.ThenReads (b b' : Block) : Prop :=
  (b.le.reading = false → b' = b) ∧ (b.le.reading = true → b.Reads false b')

/-- `b'` is what the part becomes once the word before the run's index has been dealt with: the next word is prepared, or
the run is COMPLETE (R35 step 4, R36). The engine then goes on to its next entry; `access` says that a host access falls
together with the event. -/
def Block.AfterWord (b : Block) (o : Owner) (access : Bool) (b' : Block) : Prop :=
  ((b.run o).index ≠ (b.run o).desc.count → b.Prepares o b') ∧
    ((b.run o).index = (b.run o).desc.count →
      (o = .direct → b.DirectEnds .complete b') ∧
      (o = .list → (b.betweenEntries b.le.entryLen).GoesOn access b'))

/-! ### What a service leaves, written from R159 to R164 -/

/-- The Booking Table with another entry for a station (R148). -/
def Bu.withEntry (u : Bu) (station : Nat) (e : Booking) : Bu :=
  { u with table := Vector.ofFn fun i => if i.val + 1 = station then e else u.table[i] }

/-- The station at the head of the Service Queue is being served and asks for a reservation (R159). -/
def Block.serviceTaken (b : Block) (station : Nat) (rest : List Nat) : Block :=
  { b with
    bu := { b.bu.withEntry station { b.bu.entry station with state := .inService } with
      queue := rest, ctx := .reserving, station := station, outcome := .done, value := none } }

/-- A slot of the Notification Queue is reserved for the service (R160). -/
def Block.slotReserved (b : Block) : Block := { b with ru := { b.ru with nq := b.ru.nq ++ [.reserved] } }

/-- `b'` is what the part becomes where the service posts its action with SEGEN at 1 (R161). -/
def Block.ActionPosted (b : Block) (ctx : SvcState) (a : Action) (b' : Block) : Prop :=
  Block.Judged
    { b with
      bu := { b.bu with ctx := ctx }
      sm := { b.sm with pendService := some (serviceRequest b.bu.tim2 b.bu.station a) } } b'

/-- `b'` is what posting the service's record with this outcome and fetched value leaves (R162, R163): the record takes the
reserved slot with the count increased, the entry gets the state that the first line that applies gives it, the context is
IDLE, and a failure without a marker sets SVFLT. That SVFLT follows the record is log entry 21. -/
def Block.ServicePosts (b : Block) (outcome : Ending) (value : Option Word) (b' : Block) : Prop :=
  ∀ (e : Booking) (n : BitVec 8) (before after : List Slot) (posted : Block), e = b.bu.entry b.bu.station →
    n = (if e.count = 255 then 255 else e.count + 1) → b.ru.nq = before ++ .reserved :: after → .reserved ∉ before →
    posted = { b with
      bu := { b.bu.withEntry b.bu.station { e with
          count := n, mark := .noMark
          state := match e.mark with
            | .unbook => .unbooked
            | .disarm => .disarmed
            | .noMark =>
              if outcome = .offline ∨ (outcome = .done ∧ e.cls = .repeat) then .armed else .disarmed } with
        ctx := .idle, station := 0, outcome := .done, value := none }
      ru := { b.ru with
        nq := before ++ .occupied (.service b.bu.station e.tag outcome n value) :: after } } →
    b' = if e.mark = .noMark ∧ outcome ≠ .done ∧ outcome ≠ .offline then posted.setCondition .svflt else posted

/-- `b.ServicesStart b'`: the services that can start in `b` start, one after the other (R159 to R163). With none waiting,
one under way or SEGEN at 0 none does. One that finds no free slot waits in RESERVING; one with an action posts it; a
NOTIFY posts its record, and the next starts. -/
inductive Block.ServicesStart : Block → Block → Prop where
  | rests {b : Block} : (b.bu.ctx = .idle → b.bu.queue ≠ [] → b.sm.segen = false) → ServicesStart b b
  | waits {b : Block} {k : Nat} {rest : List Nat} : b.bu.ctx = .idle → b.bu.queue = k :: rest → b.sm.segen = true →
      16 ≤ b.ru.nq.length → ServicesStart b (b.serviceTaken k rest)
  | acts {b b' : Block} {k : Nat} {rest : List Nat} : b.bu.ctx = .idle → b.bu.queue = k :: rest → b.sm.segen = true →
      b.ru.nq.length < 16 → (b.bu.entry k).cls ≠ .notify →
      (b.serviceTaken k rest).slotReserved.ActionPosted .action1 (b.bu.entry k).clear b' → ServicesStart b b'
  | notifies {b posted b' : Block} {k : Nat} {rest : List Nat} : b.bu.ctx = .idle → b.bu.queue = k :: rest →
      b.sm.segen = true → b.ru.nq.length < 16 → (b.bu.entry k).cls = .notify →
      (b.serviceTaken k rest).slotReserved.ServicePosts .done none posted → ServicesStart posted b' → ServicesStart b b'

/-- `b'` is what a service leaves that ends with this outcome and fetched value: its record is posted, and the services
that can start behind it do (R159, R162, R163). -/
def Block.ServiceOver (b : Block) (outcome : Ending) (value : Option Word) (b' : Block) : Prop :=
  .reserved ∈ b.ru.nq → ∃ posted, b.ServicePosts outcome value posted ∧ posted.ServicesStart b'

/-! ### What the host reads, written from section 11.7 and the rules it gathers -/

/-- The outcomes in the order of their codes in DOUT and LOUT. -/
def outcomeCodes : List Result :=
  [.noOutcome, .inProgress, .complete, .wait, .refused, .silent, .corrupt, .deadline, .starved, .unmapped, .cellEnd,
    .offline, .aborted, .illegal, .claimed, .malformed]

/-- The last replies in the order of their codes. -/
def replyCodes : List LastReply := [.noReply, .done, .wait, .refused]

/-- The reasons in the order of their codes in RSN (R187). -/
def reasonCodes : List Reason :=
  [.noRefusal, .directBusy, .listBusy, .notResumable, .flushClaimed, .spanEnabled, .spanInvalid, .bookingBusy, .notBooked,
    .badStation, .badClass, .nqEmpty, .segmentOff]

/-- The conditions in the order of their numbers. -/
def conditionNumbers : List Condition := [.ldone, .lhalt, .ddone, .svflt, .cnflt, .unbk, .hosterr, .lockw, .refuse]

/-- The engine state that LOUT shows (R111, section 11.7). -/
def Le.shownState (l : Le) : Nat :=
  match l.activity with
  | .idle => 0
  | .running => if l.run.sub = .stalled then 2 else if l.run.sub = .aborting then 4 else 1
  | .waitClaim _ => 2
  | .waitNq => 2
  | .pausing => 3
  | .halted => if l.resumable then 6 else 5

/-- The stall reason that LOUT shows while the engine is STALLED and after STARVED; otherwise 0 (R110, section 11.7). -/
def Le.shownStall (l : Le) : Nat :=
  if l.shownState = 2 ∨ l.outcome = .starved then
    match l.run.stall with
    | .fifoRoom => 1
    | .claim => 2
    | .nq => 3
    | .fifoData => 0
    | .noStall => 0
  else 0

/-- The requester holding the grant that STA shows (R11). -/
def Sm.shownRequester (s : Sm) : Nat :=
  match s.tx with
  | none => 0
  | some (.census _) => 1
  | some (.word w) => [Client.service, .direct, .list].idxOf w.client + 2

/-- The head of the Notification Queue is a record (R173). -/
def Ru.headOccupied (r : Ru) : Bool :=
  match r.nq with
  | .occupied _ :: _ => true
  | .reserved :: _ => false
  | [] => false

/-- What NQ0 to NQ3 show of the head of the Notification Queue (R174, R177): kind with outcome, data-valid and service
count, then source, tag and data. Of a reservation or an empty queue they show 0. -/
def Ru.headShown (r : Ru) : List Nat :=
  match r.nq with
  | .occupied (.service station tag outcome count value) :: _ =>
    [0x4000 + 0x800 * [Ending.done, .wait, .refused, .silent, .corrupt, .offline].idxOf outcome + 0x800
        + 0x400 * value.isSome.toNat + count.toNat, station % 4096, tag.toNat, (value.getD 0).toNat]
  | .occupied (.mark addr tag) :: _ => [0x8000, addr % 4096, tag.toNat, 0]
  | .occupied (.condition c) :: _ => [0xC000, conditionNumbers.idxOf c, 0, 0]
  | .reserved :: _ => [0, 0, 0, 0]
  | [] => [0, 0, 0, 0]

/-- The registers `low` and `high` show the set: stations 1 to 15 at bits 14 to 0 of the one, 16 to 30 of the other. -/
def Block.showsSet (b : Block) (set : StationSet) (low high : BitVec 6) : Prop :=
  (∀ k, 1 ≤ k → k ≤ 15 →
    (b.hostRead low).bit (k - 1) = hasStation set k ∧ (b.hostRead high).bit (k - 1) = hasStation set (k + 15)) ∧
  (b.hostRead low).bit 15 = false ∧ (b.hostRead high).bit 15 = false

/-- The register at `addr` reads as the number `n`. -/
def Block.reads (b : Block) (addr : BitVec 6) (n : Nat) : Prop := (b.hostRead addr).toNat = n

/-- What a read of each register returns, field by field (sections 11.6 and 11.7), with the fields at the places that the
factors give them. A count, cell or address that has outgrown its field, in a state that no run reaches, is cut to it. -/
structure Block.RegisterReads (b : Block) : Prop where
  ctl : b.reads 0x00 b.sm.segen.toNat
  /-- R11. -/
  sta : b.reads 0x01
    ([SmPhase.off, .idle, .send, .await, .gap].idxOf b.sm.phase + 8 * b.sm.shownRequester)
  lock : b.reads 0x02 b.hp.lock.toNat
  rsn : b.reads 0x03 (reasonCodes.idxOf b.hp.rsn)
  timing : b.reads 0x04 (b.sm.tim0Timeout.toNat + 0x100 * b.sm.tim0Rate.toNat) ∧
    b.reads 0x05 (b.deadline.toNat + 0x100 * b.stallLimit.toNat) ∧ b.reads 0x06 b.bu.tim2.toNat
  /-- R167 to R169. -/
  conditions : (∀ c k, conditionNumbers[k]? = some c →
      (b.hostRead 0x07).bit k = b.ru.flag c ∧ (b.hostRead 0x08).bit k = b.ru.spilled c) ∧
    b.hostRead 0x07 < 0x200 ∧ b.hostRead 0x08 < 0x200
  /-- R170, R171. -/
  routes : (∀ c k, conditionNumbers[k]? = some c → b.ru.route c = Route.ofCode
      (if k < 8 then (b.hostRead 0x09).field (2 * k) 2 else (b.hostRead 0x0A).field 0 2)) ∧
    b.hostRead 0x0A < 4 ∧ b.reads 0x0B b.ru.len.toNat
  /-- R177. -/
  head : [0x0C, 0x0D, 0x0E, 0x0F].map (fun a => (b.hostRead a).toNat) = b.ru.headShown
  /-- R177; an occupied head is NQNE (R171). -/
  slots : b.reads 0x10
    (b.ru.nq.countP (· ≠ .reserved) % 32 + 0x100 * (b.ru.nq.count .reserved % 2) + 0x8000 * b.ru.headOccupied.toNat)
  /-- R79. -/
  request : b.reads 0x11 b.du.dtgt.toNat ∧ b.reads 0x12 b.du.dcel.toNat ∧ b.reads 0x13 b.du.dcnt.toNat ∧
    b.reads 0x14 b.du.dmod.toNat ∧ b.reads 0x15 b.du.ddat.toNat
  /-- R87. -/
  dout : b.reads 0x17
    (0x1000 * outcomeCodes.idxOf b.du.outcome + 0x400 * replyCodes.idxOf b.du.run.lastReply +
      (if b.du.run.stall = .fifoData then 0x100 else if b.du.run.stall = .fifoRoom then 0x200 else 0) +
      (if b.du.run.sub = .ended then 0 else 0x20) + b.du.run.lastStation % 32)
  /-- R87: DWDN, DWSK and DLST. -/
  results : b.reads 0x18 (b.du.run.done % 4096) ∧ b.reads 0x19 (b.du.run.skipped % 4096) ∧
    b.reads 0x1A (b.du.run.lastCell % 4096)
  /-- R95, R96. -/
  store : b.reads 0x1B b.le.lptr.toNat ∧ b.reads 0x1C (b.storeAt b.le.lptr.toNat).toNat ∧ b.reads 0x1D b.le.lsta.toNat
  /-- R110: LCUR, LIDX, LWDN, LWSK and LLST. -/
  context : b.reads 0x1F (b.le.cursor % 8192) ∧ b.reads 0x20 (b.le.run.index % 4096) ∧
    b.reads 0x21 (b.le.run.done % 4096) ∧ b.reads 0x22 (b.le.run.skipped % 4096) ∧
    b.reads 0x24 (b.le.run.lastCell % 4096)
  /-- R110, R111. -/
  lout : b.reads 0x23
    (0x1000 * outcomeCodes.idxOf b.le.outcome + 0x400 * replyCodes.idxOf b.le.run.lastReply + 0x80 * b.le.shownState +
      0x20 * b.le.shownStall + b.le.run.lastStation % 32)
  /-- R51, R60, R61. -/
  levels : b.reads 0x27
    (b.fp.out.words.length % 128 + (if b.fp.out.words.length ≤ b.fp.odrqMark.toNat then 0x80 else 0) +
      0x100 * (b.fp.inb.words.length % 128) + (if b.fp.idrqMark.toNat ≤ b.fp.inb.words.length then 0x8000 else 0))
  /-- R53: the head word of the Inbound FIFO. -/
  idat : b.reads 0x26 (b.fp.inb.words.headD 0).toNat
  /-- R54. -/
  claims : b.reads 0x28
    ([Claim.unclaimed, .direct, .list].idxOf b.fp.out.claim + 4 * [Claim.unclaimed, .direct, .list].idxOf b.fp.inb.claim)
  marks : b.reads 0x29 (b.fp.resumeMark.toNat + 0x100 * b.fp.idrqMark.toNat) ∧ b.reads 0x2A b.fp.odrqMark.toNat
  /-- R65, R66, R71. -/
  spans : b.reads 0x2B b.sd.sel.toNat ∧ b.reads 0x2C (b.sd.spans[b.sd.sel.toNat].upper % 2048) ∧
    b.reads 0x2D (b.sd.spans[b.sd.sel.toNat].station.toNat + 0x100 * b.sd.spans[b.sd.sel.toNat].base.toNat) ∧
    b.reads 0x2E (b.sd.en.toNat + 0x100 * (b.sd.bad.getD 8 % 16))
  aucf : b.reads 0x2F
    (b.au.setting.toNat + 0x100 * [AuState.quiet, .requested, .census, .holdoff].idxOf b.au.state + 0x8000 * b.au.atn.toNat)
  /-- R143, R144. -/
  patterns : b.showsSet b.au.mask 0x30 0x31 ∧ b.showsSet b.au.attention 0x32 0x33 ∧ b.showsSet b.au.presence 0x34 0x35
  /-- R149, R151. -/
  staging : b.reads 0x36 b.bu.bksel.toNat ∧ b.reads 0x37 b.bu.bkcls.toNat ∧ b.reads 0x38 b.bu.bka1v.toNat ∧
    b.reads 0x39 b.bu.bka1d.toNat ∧ b.reads 0x3A b.bu.bka2v.toNat ∧ b.reads 0x3B b.bu.bka2d.toNat ∧
    b.reads 0x3C b.bu.bktag.toNat ∧ b.reads 0x3D b.bu.bkcnt.toNat
  /-- R159. -/
  service : b.reads 0x3F
    ([SvcState.idle, .reserving, .action1, .action2, .posting].idxOf b.bu.ctx + 8 * (b.bu.station % 32) +
      0x100 * (b.bu.queue.length % 32))
  /-- DCMD, LCMD, ODAT and BKCMD are write-only. -/
  writeOnly : b.reads 0x16 0 ∧ b.reads 0x1E 0 ∧ b.reads 0x25 0 ∧ b.reads 0x3E 0

/-- The part after a GO has taken the snapshot and, for a run in FIFO mode, the claim (R55, R82, R83). -/
def Block.goTaken (b : Block) : Block :=
  { b with
    fp := if b.du.describe.storesFifo then { b.fp with out := { b.fp.out with claim := .direct } }
      else if b.du.describe.fetchesFifo then { b.fp with inb := { b.fp.inb with claim := .direct } }
      else b.fp
    du := { b.du with word := b.du.ddat, outcome := .inProgress, run := { Run.fresh with desc := b.du.describe } } }

/-- The bits a station sends after the sync pattern for a reply with this code and these data bits (R4, R5). -/
def replyBits (code : BitVec 2) (data : List Bool) : List Bool :=
  bitsMsbFirst code ++ data ++ bitsMsbFirst (checkOf (bitsMsbFirst code ++ data))

/-- `P` holds after every step from a state where it holds. -/
def KeptByEveryStep (P : Block → Prop) : Prop :=
  ∀ s t : State, P s.block → step s = .next t → P t.block

/-- The List Store is in its canonical form. -/
def Block.StoreCanonical (b : Block) : Prop := b.le.store.wf

/-- R173: occupied plus reserved slots never exceed 16, and at most one slot is reserved, exactly while a service is at
its actions. -/
def Block.QueueBounded (b : Block) : Prop :=
  b.ru.occupied + b.ru.reservedSlots ≤ 16 ∧
    b.ru.reservedSlots = (if b.bu.ctx = .action1 ∨ b.bu.ctx = .action2 then 1 else 0) ∧ b.bu.ctx ≠ .posting

/-- R51: the level of a FIFO stays within 64, and the words that joined are the words removed, flushed and present. -/
def Fifo.Accounted (f : Fifo) : Prop := f.level ≤ 64 ∧ f.joined = f.removed + f.flushed + f.level

def Block.FifosAccounted (b : Block) : Prop := b.fp.out.Accounted ∧ b.fp.inb.Accounted

/-- R169: every spilled condition is set. -/
def Block.SpilledAreSet (b : Block) : Prop := ∀ c : Condition, b.ru.spilled c = true → b.ru.flag c = true

/-- R70: while the decoder is enabled, no span fails the enable check. -/
def Block.EnabledTableValid (b : Block) : Prop := b.sd.en = true → b.sd.check = none

/-- Section 2.2: words done plus words skipped equal the word index. -/
def Run.Counted (r : Run) : Prop := r.done + r.skipped = r.index

/-- Section 2.2: the counts add up in both sequencers. -/
def Block.RunsCounted (b : Block) : Prop := b.du.run.Counted ∧ b.le.run.Counted

/-- R157: a station is in the Service Queue at most once, exactly when its entry is QUEUED; an entry is IN-SERVICE
exactly when the service context holds its station. -/
def Block.ServiceQueueSound (b : Block) : Prop :=
  b.bu.queue.Nodup ∧
    (∀ k, k ∈ b.bu.queue ↔ (b.bu.entry k).state = .queued) ∧
    (∀ k, (b.bu.entry k).state = .inService ↔ (b.bu.ctx ≠ .idle ∧ b.bu.station = k))

/-- The values of the locked configuration group (R185). -/
structure LockedGroup where
  rate : BitVec 2
  timeout : BitVec 8
  spans : Vector Span 8
  en : Bool
  rte0 : BitVec 16
  rte1 : BitVec 2
deriving DecidableEq, Repr

def Block.lockedGroup (b : Block) : LockedGroup :=
  { rate := b.sm.tim0Rate, timeout := b.sm.tim0Timeout, spans := b.sd.spans, en := b.sd.en, rte0 := b.ru.rte0,
    rte1 := b.ru.rte1 }

/-- The command is the power-on or the pin reset. -/
def isHardReset : Instr → Bool
  | .powerOnReset => true
  | .pinReset => true
  | _ => false

/-- A safe run: the invariants of the manual hold together. -/
structure Block.Sound (b : Block) : Prop where
  store : b.StoreCanonical
  queue : b.QueueBounded
  fifos : b.FifosAccounted
  spills : b.SpilledAreSet
  spans : b.EnabledTableValid
  runs : b.RunsCounted

end Sys2Proof.Machine
end

