-- ==== Sys2Proof/Certificates/Slice0/Obligations.lean ====
section
/-! DEFINITION. The statements for the provers, chapter by chapter. `b` is the part and `q` the queue of the commands
that wait; `Answers c ⟨b, q⟩ b'` says that the command `c` is carried out, leaves the part as `b'` and the queue as it
was. What an equation `b' = { b with … }` does not name is unchanged. -/

open Sys2Proof Sys2Proof.Machine

/-! ## The queue of commands, resets, the lock (chapter 11) -/

/-- The command at the front of the queue is carried out with the rest of the queue. That nothing happens on an empty queue
is the model's choice (log entry 6). -/
def Obligations.StepRunsTheFrontCommand : Prop :=
  (∀ (c : Instr) (rest : List Instr) (s : State), s.pending = c :: rest →
    step s = exec c { s with pending := rest }) ∧
  (∀ s : State, s.pending = [] → step s = .next s)

/-- R181, R182 and the reset tables of every chapter: the values after a power-on reset and after a pin reset. LDAT
(1Ch) is left out, since the List Store keeps its words until INIT ends. The level of ATN follows log entries 5 and 25;
`resetEdge` is the model's own (log entry 29). -/
def Obligations.HardResetsGiveTheResetValues : Prop :=
  ∀ (c : Instr) (b : Block) (q : List Instr), c = .powerOnReset ∨ c = .pinReset →
    ∃ b' : Block, Answers c ⟨b, q⟩ b' ∧
      (∀ a : BitVec 6, a ≠ 0x1C#6 → b'.decodedRead a = resetValue b.au.atn a) ∧
      b'.sm.phase = .off ∧ b'.sm.segen = false ∧ b'.sm.tx = none ∧ b'.sm.pendCensus = false ∧
      (∀ k, b'.sm.request k = none) ∧ b'.sm.pointer = .list ∧
      b'.du.run = Run.fresh ∧ b'.le.run = Run.fresh ∧ b'.le.activity = .idle ∧ b'.le.store = b.le.store ∧
      b'.fp.out = Fifo.reset ∧ b'.fp.inb = Fifo.reset ∧
      (∀ k, b'.bu.entry k = Booking.blank) ∧ b'.bu.queue = [] ∧ b'.bu.ctx = .idle ∧ b'.ru.nq = [] ∧
      b'.hp.lock = false ∧ b'.hp.rsn = .noRefusal ∧ b'.irq = false ∧ b'.alert = false ∧ b'.au.atn = b.au.atn ∧
      b'.hp.initRunning = (decide (c = .powerOnReset) || b.hp.initRunning) ∧
      b'.hp.resetAsserted = (decide (c = .pinReset) || b.hp.resetAsserted) ∧
      b'.hp.resetEdge = (decide (c = .pinReset) && !b.hp.initRunning && !b.hp.resetAsserted)

/-- R181, R182 and R109: INIT ends with the List Store clear, at once or at the later release of RESET; the release
lets the part operate from the values it holds, store and all. Their order under an asserted RESET is log entry 24. -/
def Obligations.InitEndAndResetRelease : Prop :=
  ∀ (b : Block) (q : List Instr),
    (b.hp.initRunning = true → b.hp.resetAsserted = false →
      Answers .initEnd ⟨b, q⟩
        { b with hp := { b.hp with initRunning := false, initCleared := false }, le := { b.le with store := [] } }) ∧
    (b.hp.initRunning = true → b.hp.resetAsserted = true →
      Answers .initEnd ⟨b, q⟩ { b with hp := { b.hp with initCleared := true }, le := { b.le with store := [] } }) ∧
    (b.hp.initRunning = true → b.hp.initCleared = true →
      Answers .resetRelease ⟨b, q⟩
        { b with hp := { b.hp with resetAsserted := false, resetEdge := false, initCleared := false, initRunning := false } }) ∧
    (b.hp.initCleared = false →
      Answers .resetRelease ⟨b, q⟩ { b with hp := { b.hp with resetAsserted := false, resetEdge := false } })

/-- R181, R182 and R109: while INIT runs or RESET is asserted, no other command changes the part (a read of IDAT or LDAT
returns 0000h), reads return 0000h but for INIT in STA, and both lines are released. The one exception is R109's: an LDAT
access that comes first behind the assertion of RESET may fall together with it, and then acts at address 0 and leaves LPTR
at 1, or may come later, and then is ignored; one that comes behind an access or event that was ignored is ignored.
`resetEdge` and `choices` are the model's own (log entries 29 and 2). That events have no effect on a held part is log
entry 25. -/
def Obligations.NothingReachesAHeldPart : Prop :=
  ∀ (c : Instr) (b : Block) (q : List Instr), b.operating = false →
    (actsOnHeldPart c = false →
      ¬ (reachesLdat c = true ∧ b.hp.resetAsserted = true ∧ b.hp.initRunning = false ∧ b.hp.resetEdge = true) →
      Answers c ⟨b, q⟩
        { b with hp := { b.hp with
          resetEdge := false
          readData := if c = .idatRead ∨ c = .ldatRead then 0 else b.hp.readData } }) ∧
    (∀ after : Block, b.hp.resetAsserted = true → b.hp.initRunning = false → b.hp.resetEdge = true → b.le.lptr = 0 →
      after = { b with hp := { b.hp with resetEdge := false }, choices := b.choices + 1 } →
      (c = .ldatRead →
        Answers c ⟨b, q⟩
          { after with hp := { after.hp with readData := b.le.store.read 0 }, le := { b.le with lptr := 1 } } ∨
        Answers c ⟨b, q⟩ { after with hp := { after.hp with readData := 0 } }) ∧
      ∀ v, c = .ldatWrite v ∨ c = .registerWrite 0x1C#6 v → b.le.activity = .idle → b.StoreCanonical →
        Answers c ⟨b, q⟩ after ∨
        ∃ b', Answers c ⟨b, q⟩ b' ∧ b' = { after with le := { b.le with lptr := 1, store := b'.le.store } } ∧
          ∀ a, b'.le.store.read a = if a = 0 then v else b.le.store.read a) ∧
    (∀ a : BitVec 6, b.hostRead a = if b.hp.resetAsserted = false ∧ a = 0x01#6 then 0x8000 else 0) ∧
    b.irq = false ∧ b.alert = false

/-- R184 and the soft-reset rules it names: what is ended or emptied, what is kept, and the census request of an
Attention Unit that enters QUIET while SEGEN is 1 and ATN is asserted (R147).
`choices` is the model's own (log entry 2). -/
def Obligations.SoftResetEndsTheWorkAndKeepsTheSetup : Prop :=
  ∀ (b : Block) (q : List Instr), b.operating = true →
    ∃ b' : Block, Answers .softReset ⟨b, q⟩ b' ∧
      -- kept
      b'.sm.segen = b.sm.segen ∧ b'.lockedGroup = b.lockedGroup ∧ b'.hp = { b.hp with rsn := .noRefusal } ∧
      b'.deadline = b.deadline ∧ b'.stallLimit = b.stallLimit ∧ b'.sd = b.sd ∧ b'.choices = b.choices ∧
      b'.du = { b.du with word := 0, outcome := .noOutcome, run := Run.fresh } ∧
      b'.le = { Le.reset with store := b.le.store, lsta := b.le.lsta } ∧
      b'.fp = { b.fp with out := Fifo.reset, inb := Fifo.reset } ∧
      b'.ru = { b.ru with flags := 0, spills := 0, nq := [] } ∧
      -- the Booking Unit
      (∀ k, b'.bu.entry k = { b.bu.entry k with
        mark := .noMark
        state := match (b.bu.entry k).state, (b.bu.entry k).mark with
          | .queued, _ => .armed
          | .inService, .noMark => .armed
          | .inService, .disarm => .disarmed
          | .inService, .unbook => .unbooked
          | st, _ => st }) ∧
      b'.bu = { b.bu with table := b'.bu.table, queue := [], ctx := .idle, station := 0, outcome := .done,
                          value := none } ∧
      -- the Segment Master
      b'.sm.pendService = none ∧ b'.sm.pendDirect = none ∧ b'.sm.pendList = none ∧ b'.sm.pointer = .list ∧
      (b.sm.phase = .off → b'.sm.phase = .off ∧ b'.sm.tx = none) ∧
      (b.sm.phase = .send ∨ b.sm.phase = .await ∨ b.sm.phase = .gap →
        b'.sm.phase = .gap ∧ b'.sm.gap = some .recovery ∧ b'.sm.after = .rest ∧ b'.sm.rate = b.sm.rate ∧
          b'.sm.tx = none) ∧
      -- the Attention Unit
      b'.au.attention = 0 ∧ b'.au.presence = 0 ∧ b'.au.mask = b.au.mask ∧ b'.au.setting = b.au.setting ∧
      b'.au.timer = none ∧ b'.au.atn = b.au.atn ∧
      (¬ (b.sm.segen = true ∧ b.au.atn = true) →
        b'.au.state = .quiet ∧ b'.sm.pendCensus = false ∧ (b.sm.phase = .idle → b'.sm.phase = .idle)) ∧
      (b.sm.segen = true → b.au.atn = true →
        (b.sm.phase = .idle → b'.au.state = .census ∧ b'.sm.phase = .send ∧ b'.sm.tx = some (.census [])) ∧
        (b.sm.phase ≠ .idle → b'.au.state = .requested ∧ b'.sm.pendCensus = true))

/-- R185. -/
def Obligations.LockHoldsTheLockedGroup : Prop :=
  (∀ (b : Block) (q : List Instr) (v : Word), b.operating = true →
    Answers (.lockWrite v) ⟨b, q⟩ (if v.bit 0 then { b with hp := { b.hp with lock := true } } else b) ∧
      b.hostRead 0x02#6 = if b.hp.lock then 1 else 0) ∧
  (∀ (c : Instr) (b : Block) (q : List Instr), c = .powerOnReset ∨ c = .pinReset →
    ∃ b', Answers c ⟨b, q⟩ b' ∧ b'.hp.lock = false) ∧
  (∀ (b : Block) (q : List Instr), b.operating = true →
    ∃ b', Answers .softReset ⟨b, q⟩ b' ∧ b'.hp.lock = b.hp.lock ∧ b'.lockedGroup = b.lockedGroup) ∧
  (∀ (c : Instr) (b : Block) (q : List Instr), isHardReset c = false → b.hp.lock = true →
    ∃ b', Answers c ⟨b, q⟩ b' ∧ b'.hp.lock = true ∧ b'.lockedGroup = b.lockedGroup)

/-- R186: with the lock set, a write to the locked group changes nothing but LOCKW, whatever it carries. -/
def Obligations.LockedWritesSetLockwAlone : Prop :=
  ∀ (c : Instr) (b : Block) (q : List Instr), b.operating = true → b.hp.lock = true → writesLockedGroup c = true →
    Answers c ⟨b, q⟩ (b.setCondition .lockw)

/-- R8, R9 and R170 with the lock clear: TIM0 and the routes take the fields written, and read them back; the rate and
the timeout of the attempt under way stay as sampled. -/
def Obligations.UnlockedWritesStoreTheirFields : Prop :=
  ∀ (b : Block) (q : List Instr) (v : Word), b.operating = true → b.hp.lock = false →
    (∃ b', b' = { b with sm := { b.sm with tim0Timeout := v.field 0 8, tim0Rate := v.field 8 2 } } ∧
      Answers (.tim0Write v) ⟨b, q⟩ b' ∧ b'.hostRead 0x04#6 = v &&& 0x03FF) ∧
    (∃ b', b' = { b with ru := { b.ru with rte0 := v } } ∧
      Answers (.rteWrite .rte0 v) ⟨b, q⟩ b' ∧ b'.hostRead 0x09#6 = v) ∧
    (∃ b', b' = { b with ru := { b.ru with rte1 := v.field 0 2 } } ∧
      Answers (.rteWrite .rte1 v) ⟨b, q⟩ b' ∧ b'.hostRead 0x0A#6 = v &&& 0x0003)

/-- R180: a host write to a register that only stores keeps the bits that have a field; a read returns them (with the
read-only fields of AUCF beside them), and every other register reads as before, but for the registers a pointer
selects: LDAT after LPTR, SPBND and SPMAP after SPSEL. The segment, the conditions and the FIFOs are untouched.
The command's span of addresses is log entry 8. -/
def Obligations.PlainRegistersStoreTheirFields : Prop :=
  ∀ (b : Block) (q : List Instr) (addr : BitVec 6) (v mask : Word), b.operating = true → plainMask addr = some mask →
    ∃ b', Answers (.registerWrite addr v) ⟨b, q⟩ b' ∧
      b'.hostRead addr = (v &&& mask) ||| (if addr = 0x2F#6 then b.hostRead addr &&& 0xFF00 else 0) ∧
      (∀ a : BitVec 6, a ≠ addr → ¬ (addr = 0x1B#6 ∧ a = 0x1C#6) →
        ¬ (addr = 0x2B#6 ∧ (a = 0x2C#6 ∨ a = 0x2D#6)) → b'.hostRead a = b.hostRead a) ∧
      b'.sm = b.sm ∧ b'.ru = b.ru ∧ b'.fp = b.fp ∧ b'.hp = b.hp ∧ b'.le.store = b.le.store ∧
      b'.du.run = b.du.run ∧ b'.le.run = b.le.run ∧ b'.sd.spans = b.sd.spans ∧ b'.bu.table = b.bu.table

/-- R180 and section 11.6, with R62, R81, R114, R135, R150 and R183 for the command registers: a host write to a register
with a behaviour of its own is its owner's command, chosen by the fields of the value; a value that carries no command,
and a write to a read-only register, has no effect. The command's span of addresses is log entry 8. What a held part keeps
of a write without effect is the model's own mark of log entry 29. Both flushes in one write come before an engine between
two entries reads on (log entry 30), see FlushesEmptyUnclaimedFifos. -/
def Obligations.RegisterWritesReachTheirOwner : Prop :=
  ∀ (s untouched : State) (v : Word), untouched = { s with block := s.block.unlessHeld } →
    -- CTL, DCMD, LCMD, FCMD, SPCTL and BKCMD
    exec (.registerWrite 0x00#6 v) s =
      (if v.bit 2 then exec .softReset s
       else if v.bit 1 then exec (.censusNow (v.bit 0)) s
       else if v.bit 0 then exec .segenSet s
       else exec .segenClear s) ∧
    exec (.registerWrite 0x16#6 v) s =
      (if v.bit 1 then exec .dcmdAbort s else if v.bit 0 then exec .dcmdGo s else .next untouched) ∧
    exec (.registerWrite 0x1E#6 v) s =
      (if v.bit 2 then exec .lcmdAbort s
       else if v.bit 0 then exec .lcmdStart s
       else if v.bit 1 then exec .lcmdResume s
       else .next untouched) ∧
    (v.bit 1 = false → exec (.registerWrite 0x28#6 v) s = if v.bit 0 then exec .flushOut s else .next untouched) ∧
    (v.bit 1 = true → v.bit 0 = false ∨ s.block.le.reading = false →
      ∃ t, (if v.bit 0 then exec .flushOut s else .next untouched) = .next t ∧
      exec (.registerWrite 0x28#6 v) s = exec .flushIn t) ∧
    exec (.registerWrite 0x2E#6 v) s = (if v.bit 0 then exec .spanEnable s else exec .spanDisable s) ∧
    exec (.registerWrite 0x3E#6 v) s =
      (if v = 1 then exec .bkcmdRead s
       else if v = 2 then exec .bkcmdBook s
       else if v = 3 then exec .bkcmdUnbook s
       else if v = 4 then exec .bkcmdArm s
       else if v = 5 then exec .bkcmdDisarm s
       else .next untouched) ∧
    -- the other registers with a behaviour of their own
    exec (.registerWrite 0x01#6 v) s = exec .nqadv s ∧ exec (.registerWrite 0x02#6 v) s = exec (.lockWrite v) s ∧
    exec (.registerWrite 0x04#6 v) s = exec (.tim0Write v) s ∧ exec (.registerWrite 0x07#6 v) s = exec (.cndWrite v) s ∧
    exec (.registerWrite 0x09#6 v) s = exec (.rteWrite .rte0 v) s ∧
    exec (.registerWrite 0x0A#6 v) s = exec (.rteWrite .rte1 v) s ∧
    exec (.registerWrite 0x0B#6 v) s = exec (.lenWrite v) s ∧ exec (.registerWrite 0x1C#6 v) s = exec (.ldatWrite v) s ∧
    exec (.registerWrite 0x25#6 v) s = exec (.odatWrite v) s ∧ exec (.registerWrite 0x29#6 v) s = exec (.fmkiWrite v) s ∧
    exec (.registerWrite 0x2A#6 v) s = exec (.fmkoWrite v) s ∧
    exec (.registerWrite 0x2C#6 v) s = exec (.spanWrite .spbnd v) s ∧
    exec (.registerWrite 0x2D#6 v) s = exec (.spanWrite .spmap v) s ∧
    (∀ addr : BitVec 6, isReadOnly addr = true → exec (.registerWrite addr v) s = .next untouched)

/-! ## The Segment Master (chapter 1) -/

/-- R2, R5, R7, R188 and section 11.1: a request frame is the sync pattern, the station, the verb, the cell, the data of a
STORE and the check over what follows the sync pattern, 35 or 51 bits in all; the check of R5, step by step; a receiver
that runs it over a body and its check field is left with 0. The frame goes out, and STE is asserted, in SEND. -/
def Obligations.RequestFramesAreWellFormed : Prop :=
  (∀ (station : Nat) (verb : Verb) (cell : Nat) (data : Option Word) (frame : List Bool),
    frame = requestFrame station verb cell data →
    frame.length = (if data.isSome then 51 else 35) ∧
    frame.take 8 = [false, false, false, true, true, false, true, true] ∧
    ofBitsMsbFirst 5 (frame.drop 8 |>.take 5) = BitVec.ofNat 5 station ∧
    ofBitsMsbFirst 2 (frame.drop 13 |>.take 2) = verb.code ∧
    ofBitsMsbFirst 12 (frame.drop 15 |>.take 12) = BitVec.ofNat 12 cell ∧
    (∀ w, data = some w → ofBitsMsbFirst 16 (frame.drop 27 |>.take 16) = w) ∧
    ofBitsMsbFirst 8 (frame.drop (if data.isSome then 43 else 27)) =
      checkOf (frame.drop 8 |>.take (if data.isSome then 35 else 19)) ∧
    checkOf (frame.drop 8) = 0) ∧
  (checkOf [] = 0xFF#8 ∧ ∀ (bits : List Bool) (x : Bool), checkOf (bits ++ [x]) =
    if (checkOf bits).msb = x then checkOf bits <<< 1 else (checkOf bits <<< 1) ^^^ 0x2D#8) ∧
  (∀ body : List Bool, checkOf (body ++ bitsMsbFirst (checkOf body)) = 0) ∧
  (∀ b : Block, (b.ste = true ↔ b.sm.phase = .send) ∧ (b.sm.phase ≠ .send → b.frameOut = none) ∧
    (∀ l, b.sm.phase = .send → b.sm.tx = some (.census l) → b.frameOut = some (requestFrame 31 .fetch 0 none)) ∧
    (∀ w, b.sm.phase = .send → b.sm.tx = some (.word w) →
      b.frameOut = some (requestFrame w.station w.verb w.cell w.data)))

/-- R3 and R4: how a reply is judged against the verb of its request, whatever the line carries after its end. -/
def Obligations.RepliesAreJudgedByCodeAndCheck : Prop :=
  (∀ (v : Word) (tail : List Bool), judgeReply .fetch (replyBits 1 (bitsMsbFirst v) ++ tail) = (.done, v)) ∧
  (∀ (verb : Verb) (tail : List Bool), verb ≠ .fetch → judgeReply verb (replyBits 1 [] ++ tail) = (.done, 0)) ∧
  (∀ (verb : Verb) (tail : List Bool),
    judgeReply verb (replyBits 2 [] ++ tail) = (.wait, 0) ∧ judgeReply verb (replyBits 3 [] ++ tail) = (.refused, 0) ∧
      judgeReply verb (replyBits 0 [] ++ tail) = (.corrupt, 0)) ∧
  (∀ (verb : Verb) (body check tail : List Bool),
    body.length = (if verb = .fetch ∧ body.take 2 = [false, true] then 18 else 2) → check.length = 8 →
      check ≠ bitsMsbFirst (checkOf body) → (judgeReply verb (body ++ check ++ tail)).1 = .corrupt)

/-- R13: the end of a frame to a station starts the reply timeout, the end of the census frame starts the slots; R3:
the complete sync pattern ends the bearing of the timeout, and a timeout that finds a partial pattern waits for it; R16:
a discarded reply reaches no requester, changes no record and raises no condition. -/
def Obligations.FramesGoOutAndRepliesArrive : Prop :=
  ∀ (b : Block) (q : List Instr), b.operating = true →
    (∀ w : WordTx, b.sm.phase = .send → b.sm.tx = some (.word w) → ¬ (w.station = 31 ∧ w.verb ≠ .fetch) →
      Answers .frameSent ⟨b, q⟩ { b with sm := { b.sm with phase := .await, timing := true } }) ∧
    (∀ l, b.sm.phase = .send → b.sm.tx = some (.census l) →
      Answers .frameSent ⟨b, q⟩ { b with sm := { b.sm with phase := .await } }) ∧
    (∀ w : WordTx, b.sm.phase = .await → b.sm.tx = some (.word w) →
      Answers .replyStart ⟨b, q⟩
        { b with sm := { b.sm with replyStarted := true, timing := false, partialSync := false } }) ∧
    (∀ w : WordTx, b.sm.phase = .await → b.sm.tx = some (.word w) → b.sm.timing = true →
      Answers (.replyTimeout true) ⟨b, q⟩ { b with sm := { b.sm with timing := false, partialSync := true } }) ∧
    Answers .discardedReply ⟨b, q⟩ b ∧ (∀ bits, b.sm.phase ≠ .await → Answers (.replyEnd bits) ⟨b, q⟩ b)

/-- R6, R13, R35, R46 and R121: a broadcast ends DONE at the end of its frame, in the broadcast gap. The first clause writes
the end of a one-word direct run out; the second is either owner's, in every data mode: a FIFO word leaves its FIFO, a list
goes on to its next entry at once (R120). The third is an ABORTING run: DONE is applied, and the run ends ABORTED. That an
access which waits right behind the command can fall together with it, and then may come before the reading, one choice
taken, is log entry 30; which of DDONE and LHALT comes first, where a claim passes and the list halts, is log entry 2. -/
def Obligations.BroadcastsEndDoneAtTheirFrame : Prop :=
  (∀ (b : Block) (q : List Instr) (w : WordTx), b.operating = true → b.sm.phase = .send → b.sm.tx = some (.word w) →
    w.client = .direct → w.station = 31 → w.verb ≠ .fetch → b.du.run.sub = .inFlight → b.du.run.desc.verb = w.verb →
    b.du.run.desc.mode ≠ .fifo → b.du.run.index + 1 = b.du.run.desc.count → b.claimsNone .direct →
    Answers .frameSent ⟨b, q⟩
      (Block.setCondition
        { b with
          sm := { b.sm with phase := .gap, gap := some .broadcast, after := .rest, timing := false,
                            replyStarted := false, partialSync := false,
                            tx := some (.word { w with latest := some .done }) }
          du := { b.du with
            word := 0, outcome := .complete
            run := { b.du.run with
              desc := RunDesc.blank, sub := .ended, index := b.du.run.index + 1, done := b.du.run.done + 1,
              lastReply := .done, fullSeen := false, stall := .noStall, persist := none, held := false,
              stallTimer := none } } } .ddone)) ∧
  (∀ (b : Block) (q : List Instr) (w : WordTx) (o : Owner), b.operating = true → b.sm.phase = .send →
    b.sm.tx = some (.word w) → w.client = clientOf o → w.station = 31 → w.verb ≠ .fetch → (b.run o).sub = .inFlight →
    (b.run o).desc.verb = w.verb → ((b.run o).desc.storesFifo = true → b.fp.out.words ≠ []) →
    ∃ b', Answers .frameSent ⟨b, q⟩ b' ∧
      Block.AfterWord
        (Block.wordDone
          { b with sm := { b.sm with
            phase := .gap, gap := some .broadcast, after := .rest, timing := false, replyStarted := false,
            partialSync := false, tx := some (.word { w with latest := some .done }) } } o 0) o
        (State.accessBehind ⟨b, q⟩) b') ∧
  (∀ (b : Block) (q : List Instr) (w : WordTx) (o : Owner), b.operating = true → b.sm.phase = .send →
    b.sm.tx = some (.word w) → w.client = clientOf o → w.station = 31 → w.verb ≠ .fetch → (b.run o).sub = .aborting →
    (b.run o).desc.verb = w.verb → ((b.run o).desc.storesFifo = true → b.fp.out.words ≠ []) →
    ∃ b', Answers .frameSent ⟨b, q⟩ b' ∧
      Block.RunEnds
        (Block.abortLeaves
          { b with sm := { b.sm with
            phase := .gap, gap := some .broadcast, after := .rest, timing := false, replyStarted := false,
            partialSync := false, tx := some (.word { w with latest := some .done }) } } o .done 0) o .aborted b')

/-- R10, R14, R15 and R18: an attempt that ends SILENT (at the timeout, or where a partial sync pattern breaks off) or
CORRUPT goes into the recovery gap, with one more retry used while retries are left and the attempt is not final, and
otherwise with the outcome to be delivered at the gap's end. -/
def Obligations.FailedAttemptsRetryOrDeliver : Prop :=
  ∀ (b : Block) (q : List Instr) (w : WordTx) (c : Instr) (e : Ending),
    b.operating = true → b.sm.phase = .await → b.sm.tx = some (.word w) →
    (c = .replyTimeout false ∧ b.sm.timing = true ∧ e = .silent) ∨
      (c = .syncBreakOff ∧ b.sm.partialSync = true ∧ e = .silent) ∨
      (∃ bits, c = .replyEnd bits ∧ (judgeReply w.verb bits).1 = .corrupt ∧ e = .corrupt) →
    (w.retriesUsed < w.retryLimit → w.final = false →
      Answers c ⟨b, q⟩
        { b with sm := { b.sm with
          phase := .gap, gap := some .recovery, after := .retry, timing := false, replyStarted := false,
          partialSync := false,
          tx := some (.word { w with latest := some e, retriesUsed := w.retriesUsed + 1 }) } }) ∧
    (w.retryLimit ≤ w.retriesUsed ∨ w.final = true →
      Answers c ⟨b, q⟩
        { b with sm := { b.sm with
          phase := .gap, gap := some .recovery, after := .deliver, timing := false, replyStarted := false,
          partialSync := false, tx := some (.word { w with latest := some e }) } })

/-- R15, R35 to R39, R43, R46, R80, R88 and R90. The first clause writes out the DONE reply to a REGISTER-mode FETCH: the
value goes to DDAT, the run is COMPLETE, the Segment Master is in the inter-frame gap, and DDONE is set. The second gives
every outcome of a reply for either owner's run, in every data mode; the third that of an ABORTING run. Behind a completed
list entry the engine reads the next at once (R120); that an access which waits right behind the command can fall together
with it, and then may come before the reading, one choice taken, is the model's choice (log entry 30). A persist timer that
is stopped at a WAIT starts with the TIM1 of that moment, also at a later WAIT of the same word: the model's reading of R37
and R42 (log entry 10). Which of DDONE and LHALT comes first, where a claim passes and the list halts, is log entry 2. -/
def Obligations.RegisterFetchDeliversItsValue : Prop :=
  (∀ (b : Block) (q : List Instr) (w : WordTx) (v : Word) (tail : List Bool),
    b.operating = true → b.sm.phase = .await → b.sm.tx = some (.word w) → w.client = .direct → w.verb = .fetch →
    b.du.run.sub = .inFlight → b.du.run.desc.verb = .fetch → b.du.run.desc.mode = .register →
    b.du.run.index + 1 = b.du.run.desc.count → b.claimsNone .direct →
    Answers (.replyEnd (replyBits 1 (bitsMsbFirst v) ++ tail)) ⟨b, q⟩
      (Block.setCondition
        { b with
          sm := { b.sm with phase := .gap, gap := some .interFrame, after := .rest, timing := false,
                            replyStarted := false, partialSync := false,
                            tx := some (.word { w with latest := some .done }) }
          du := { b.du with
            ddat := v, word := 0, outcome := .complete
            run := { b.du.run with
              desc := RunDesc.blank, sub := .ended, index := b.du.run.index + 1, done := b.du.run.done + 1,
              lastReply := .done, fullSeen := false, stall := .noStall, persist := none, held := false,
              stallTimer := none } } } .ddone)) ∧
  (∀ (b : Block) (q : List Instr) (o : Owner) (w : WordTx) (bits : List Bool) (e : Ending) (v : Word) (r : Run) (a : Block),
    b.operating = true → b.sm.phase = .await → b.sm.tx = some (.word w) → w.client = clientOf o →
    judgeReply w.verb bits = (e, v) → r = b.run o → r.sub = .inFlight → a = b.replied w e →
    (e = .done → b.dataReady r.desc →
      ∃ b', Answers (.replyEnd bits) ⟨b, q⟩ b' ∧ (a.wordDone o v).AfterWord o (State.accessBehind ⟨b, q⟩) b') ∧
    (e = .wait → r.held = true →
      ∃ b', Answers (.replyEnd bits) ⟨b, q⟩ b' ∧ (a.replyNoted o .wait).RunEnds o .deadline b') ∧
    (e = .wait → r.held = false →
      (r.desc.wait = .halt →
        ∃ b', Answers (.replyEnd bits) ⟨b, q⟩ b' ∧ (a.replyNoted o .wait).RunEnds o .wait b') ∧
      (r.desc.wait = .skip → (r.desc.storesFifo = true → b.fp.out.words ≠ []) →
        ∃ b', Answers (.replyEnd bits) ⟨b, q⟩ b' ∧
          (a.wordSkipped o .wait).AfterWord o (State.accessBehind ⟨b, q⟩) b') ∧
      (r.desc.wait = .persist →
        (b.sm.segen = true →
          Answers (.replyEnd bits) ⟨b, q⟩ ((a.persisting o).wordPosted o r.lastStation r.lastCell)) ∧
        (b.sm.segen = false →
          ∃ b', Answers (.replyEnd bits) ⟨b, q⟩ b' ∧ (a.persisting o).RunEnds o .offline b'))) ∧
    (e = .refused →
      (r.desc.tolerant = true → (r.desc.storesFifo = true → b.fp.out.words ≠ []) →
        ∃ b', Answers (.replyEnd bits) ⟨b, q⟩ b' ∧
          (a.wordSkipped o .refused).AfterWord o (State.accessBehind ⟨b, q⟩) b') ∧
      (r.desc.tolerant = false →
        ∃ b', Answers (.replyEnd bits) ⟨b, q⟩ b' ∧ (a.replyNoted o .refused).RunEnds o .refused b'))) ∧
  (∀ (b : Block) (q : List Instr) (o : Owner) (w : WordTx) (bits : List Bool) (e : Ending) (v : Word),
    b.operating = true → b.sm.phase = .await → b.sm.tx = some (.word w) → w.client = clientOf o →
    judgeReply w.verb bits = (e, v) → e ≠ .corrupt → (b.run o).sub = .aborting → b.dataReady (b.run o).desc →
    ∃ b', Answers (.replyEnd bits) ⟨b, q⟩ b' ∧ ((b.replied w e).abortLeaves o e v).RunEnds o .aborted b')

/-- R22: in IDLE with SEGEN at 1 the census goes first and leaves the pointer; otherwise the first pending requester
after the pointer in the cycle is granted, the pointer names it, and its request leaves the pending set; with none
pending nothing is granted. Shown at the end of a gap, where the Segment Master enters IDLE; R12 gives the record. -/
def Obligations.ArbiterGrantsInRotation : Prop :=
  ∀ (b : Block) (q : List Instr), b.operating = true → b.sm.phase = .gap → b.sm.after = .rest → b.sm.segen = true →
    (b.sm.pendCensus = true →
      Answers .gapEnd ⟨b, q⟩
        { b with
          sm := { b.sm with phase := .send, tx := some (.census []), gap := none, rate := b.sm.tim0Rate,
                            timeout := b.sm.tim0Timeout, timing := false, replyStarted := false,
                            partialSync := false, pendCensus := false }
          au := { b.au with state := .census } }) ∧
    (∀ (c : Client) (r : Request), b.sm.pendCensus = false → b.sm.request c = some r →
      (c = cycleAfter b.sm.pointer ∨
        (c = cycleAfter (cycleAfter b.sm.pointer) ∧ b.sm.request (cycleAfter b.sm.pointer) = none) ∨
        (c = b.sm.pointer ∧ b.sm.request (cycleAfter b.sm.pointer) = none ∧
          b.sm.request (cycleAfter (cycleAfter b.sm.pointer)) = none)) →
      ∃ b', Answers .gapEnd ⟨b, q⟩ b' ∧ b'.sm.phase = .send ∧ b'.sm.pointer = c ∧ b'.sm.request c = none ∧
        (∀ d, d ≠ c → b'.sm.request d = b.sm.request d) ∧
        b'.sm.rate = b.sm.tim0Rate ∧ b'.sm.timeout = b.sm.tim0Timeout ∧
        (∃ w, b'.sm.tx = some (.word w) ∧ w.client = c ∧ w.station = r.station ∧ w.verb = r.verb ∧ w.cell = r.cell ∧
          w.retryLimit = r.retries ∧ w.retriesUsed = 0 ∧ w.latest = none ∧ w.final = false ∧
          (r.source = .outboundHead → w.data = b.fp.out.words.head?) ∧
          (r.source = .noData → w.data = none) ∧ (∀ x, r.source = .word x → w.data = some x) ∧
          (r.source = .dataWord → w.data = some b.du.word) ∧
          (∀ a, r.source = .inline a → w.data = some (b.storeAt a))) ∧
        b'.fp = b.fp ∧ b'.ru = b.ru ∧ b'.bu = b.bu ∧ b'.au = b.au ∧
        b'.du = (if c = .direct then { b.du with run := { b.du.run with sub := .inFlight } } else b.du) ∧
        b'.le = (if c = .list then { b.le with run := { b.le.run with sub := .inFlight } } else b.le)) ∧
    (b.sm.pendCensus = false → (∀ c, b.sm.request c = none) →
      Answers .gapEnd ⟨b, q⟩ { b with sm := { b.sm with phase := .idle, tx := none, gap := none } })

/-- R15, R17 and R18: the end of a recovery gap between attempts sends the same record again, with the rate and timeout
sampled afresh; the end of a last gap with SEGEN at 0 goes to OFF; and a final SILENT or CORRUPT of a run is delivered
at the gap's end, which ends the run with it, or ABORTED if an ABORT waited for it (R39, R46), and which ends a service
whose action it was (R161 to R163: its record is posted, the entry is DISARMED and SVFLT set unless a marker stands, and
the next service starts). What the end posts is granted at once where the Segment Master goes to IDLE (R22), which `rested`
stands for. That the delivery comes first is log entry 13, SVFLT behind the record log entry 21, and which of DDONE and
LHALT comes first, where a claim passes and the list halts, log entry 2. -/
def Obligations.GapEndRetriesDeliversOrRests : Prop :=
  ∀ (b : Block) (q : List Instr), b.operating = true → b.sm.phase = .gap →
    (∀ x : Tx, b.sm.after = .retry → b.sm.tx = some x →
      Answers .gapEnd ⟨b, q⟩
        { b with sm := { b.sm with phase := .send, gap := none, after := .rest, rate := b.sm.tim0Rate,
                                   timeout := b.sm.tim0Timeout, timing := false, replyStarted := false,
                                   partialSync := false } }) ∧
    (b.sm.after = .rest → b.sm.segen = false →
      Answers .gapEnd ⟨b, q⟩ { b with sm := { b.sm with phase := .off, tx := none, gap := none } }) ∧
    (∀ (w : WordTx) (e : Ending) (rested : Block), b.sm.after = .deliver → b.sm.tx = some (.word w) →
      w.latest = some e → e = .silent ∨ e = .corrupt → b.sm.pendCensus = false → (∀ c, b.sm.request c = none) →
      rested = { b with sm := { b.sm with
        phase := if b.sm.segen then .idle else .off, tx := none, gap := none, after := .rest } } →
      (w.client = .direct →
        (b.du.run.sub = .inFlight → ∃ b', Answers .gapEnd ⟨b, q⟩ b' ∧ rested.DirectEnds e.result b') ∧
        (b.du.run.sub = .aborting → ∃ b', Answers .gapEnd ⟨b, q⟩ b' ∧ rested.DirectEnds .aborted b')) ∧
      (w.client = .list →
        (b.le.run.sub = .inFlight → Answers .gapEnd ⟨b, q⟩ (rested.listHalted e.result true)) ∧
        (b.le.run.sub = .aborting → Answers .gapEnd ⟨b, q⟩ (rested.listOver .aborted))) ∧
      (w.client = .service → b.bu.ctx = .action1 ∨ b.bu.ctx = .action2 →
        ∃ b', Answers .gapEnd ⟨b, q⟩ b' ∧ rested.ServiceOver e b.bu.value b'))

/-- R19: with nothing waiting to be posted, the set of SEGEN takes the Segment Master from OFF to IDLE at once, leaves
any other state as it is, and a set while SEGEN is 1 has no effect. R134: an Attention Unit in QUIET with ATN asserted asks
for a census. R159 to R163: a station that waits in the Service Queue leaves it IN-SERVICE; with a slot free a NOTIFY
service posts its record, and another reserves a slot and posts its clear action, granted at once where the Segment Master
was OFF; with none free it waits in RESERVING. Of a census request and a clear action that find the Segment Master OFF,
either is posted first (R21, log entry 2). -/
def Obligations.SegenSetEnablesTheSegment : Prop :=
  ∀ (b : Block) (q : List Instr) (calling : Bool) (asked : Block), b.operating = true →
    calling = (decide (b.au.state = .quiet) && b.au.atn) → asked = (if calling then b.enabled.censusAsked else b.enabled) →
    (b.sm.segen = true → Answers .segenSet ⟨b, q⟩ b) ∧
    (b.sm.segen = false → b.sm.pendCensus = false → (∀ c, b.sm.request c = none) →
      ((b.bu.ctx = .idle → b.bu.queue = []) → Answers .segenSet ⟨b, q⟩ asked) ∧
      (∀ (k : Nat) (rest : List Nat) (e : Booking), b.bu.ctx = .idle → b.bu.queue = k :: rest → e = b.bu.entry k →
        1 ≤ k → k ≤ 30 → b.sm.phase ≠ .idle →
        ∃ b', Answers .segenSet ⟨b, q⟩ b' ∧
          (16 ≤ b.ru.nq.length →
            b' = { asked with
              bu := { b.bu with table := b'.bu.table, queue := rest, ctx := .reserving, station := k, outcome := .done
                                value := none }
              choices := b'.choices } ∧
            b'.bu.entry k = { e with state := .inService } ∧ ∀ j, j ≠ k → b'.bu.entry j = b.bu.entry j) ∧
          (∀ n : BitVec 8, b.ru.nq.length < 16 → e.cls = .notify → rest = [] → .reserved ∉ b.ru.nq →
            n = (if e.count = 255 then 255 else e.count + 1) →
            b' = { asked with
              bu := { b.bu with table := b'.bu.table, queue := [], ctx := .idle, station := 0, outcome := .done
                                value := none }
              ru := { b.ru with nq := b.ru.nq ++ [.occupied (.service k e.tag .done n none)] }
              choices := b'.choices } ∧
            b'.bu.entry k = { e with
              count := n, mark := .noMark, state := if e.mark = .unbook then .unbooked else .disarmed } ∧
            ∀ j, j ≠ k → b'.bu.entry j = b.bu.entry j) ∧
          (b.ru.nq.length < 16 → e.cls ≠ .notify →
            b' = { b with
              sm := b'.sm
              au := b'.au
              bu := { b.bu with table := b'.bu.table, queue := rest, ctx := .action1, station := k, outcome := .done
                                value := none }
              ru := { b.ru with nq := b.ru.nq ++ [.reserved] }
              choices := b'.choices } ∧
            b'.bu.entry k = { e with state := .inService } ∧ (∀ j, j ≠ k → b'.bu.entry j = b.bu.entry j) ∧
            ((b.sm.phase ≠ .off ∨ calling = true) ∧ b'.au = asked.au ∧
                b'.sm = { asked.sm with pendService := some (serviceRequest b.bu.tim2 k e.clear) } ∨
              b.sm.phase = .off ∧
                b'.au = (if calling then { b.au with state := .requested, timer := none } else b.au) ∧
                b'.sm.segen = true ∧ b'.sm.phase = .send ∧ b'.sm.pointer = .service ∧ b'.sm.pendCensus = calling ∧
                (∀ c, b'.sm.request c = none) ∧
                ∃ w, b'.sm.tx = some (.word w) ∧ w.client = .service ∧ w.station = k ∧ w.verb = e.clear.verb ∧
                  w.cell = e.clear.cell.toNat ∧ w.retryLimit = b.bu.tim2.toNat ∧ w.retriesUsed = 0 ∧
                  w.data = if e.clear.verb = .store then some e.clear.data else none))))

/-- R18 and R136: the clear of SEGEN leaves no request pending, sends an IDLE Segment Master to OFF, marks the attempt on
the wire final, turns a coming retry into the delivery of the outcome, and leaves the rotation pointer. A requester that waits gets OFFLINE
(R20): a direct run and a list end or halt with it, a service posts its record and its entry is ARMED unless a marker says
otherwise (R47, R130, R163). Several at once, and DDONE against LHALT where a claim passes, are log entry 2's. -/
def Obligations.SegenClearStopsNewWork : Prop :=
  ∀ (b : Block) (q : List Instr), b.operating = true → b.sm.segen = true →
    ∃ b', Answers .segenClear ⟨b, q⟩ b' ∧ b'.sm.segen = false ∧ b'.sm.pendCensus = false ∧
      (∀ c, b'.sm.request c = none) ∧ b'.sm.pointer = b.sm.pointer ∧
      b'.sm.phase = (if b.sm.phase = .idle then .off else b.sm.phase) ∧
      (b.sm.phase = .gap → b'.sm.after = (if b.sm.after = .retry then .deliver else b.sm.after) ∧
        b'.sm.tx = b.sm.tx) ∧
      (∀ w, b.sm.phase = .send ∨ b.sm.phase = .await → b.sm.tx = some (.word w) →
        b'.sm.tx = some (.word { w with final := true })) ∧
      b'.au.state = (if b.sm.pendCensus then .quiet else b.au.state) ∧
      b'.au.attention = b.au.attention ∧ b'.au.presence = b.au.presence ∧
      ((b.sm.pendCensus = false ∧ ∀ c, b.sm.request c = none) → b'.du = b.du ∧ b'.le = b.le ∧ b'.fp = b.fp ∧
        b'.bu = b.bu ∧ b'.ru = b.ru) ∧
      (b.sm.pendCensus = false → b.sm.pendService = none →
        (b.sm.pendDirect.isSome → b.sm.pendList = none → b.du.run.sub = .requesting →
          Block.DirectEnds { b with sm := b'.sm } .offline b') ∧
        (b.sm.pendDirect = none → b.sm.pendList.isSome → b.le.run.sub = .requesting →
          b' = Block.listHalted { b with sm := b'.sm } .offline true)) ∧
      (∀ (e : Booking) (n : BitVec 8) (before after : List Slot), b.sm.pendCensus = false → b.sm.pendService.isSome →
        b.sm.pendDirect = none → b.sm.pendList = none → b.bu.ctx = .action1 ∨ b.bu.ctx = .action2 →
        1 ≤ b.bu.station → b.bu.station ≤ 30 → e = b.bu.entry b.bu.station →
        n = (if e.count = 255 then 255 else e.count + 1) →
        b.ru.nq = before ++ .reserved :: after → .reserved ∉ before →
        b' = { b with
          sm := b'.sm
          bu := { b.bu with table := b'.bu.table, ctx := .idle, station := 0, outcome := .done, value := none }
          ru := { b.ru with
            nq := before ++ .occupied (.service b.bu.station e.tag .offline n b.bu.value) :: after } } ∧
        b'.bu.entry b.bu.station = { e with
          count := n, mark := .noMark
          state := match e.mark with
            | .unbook => .unbooked
            | .disarm => .disarmed
            | .noMark => .armed } ∧
        ∀ j, j ≠ b.bu.station → b'.bu.entry j = b.bu.entry j)

/-! ## Attention and census (chapter 8) -/

/-- R134 and R135: CENSUS-NOW, judged with the SEGEN that its write leaves. A write that sets SEGEN and carries it asks for
the census too; one that clears SEGEN and carries it answers the requests OFFLINE and is then refused (R183; their order is
log entry 21). -/
def Obligations.CensusNowAsksForACensus : Prop :=
  ∀ (b : Block) (q : List Instr), b.operating = true →
    (b.sm.segen = true → b.au.state = .quiet ∨ b.au.state = .holdoff → Answers (.censusNow true) ⟨b, q⟩ b.censusAsked) ∧
    (b.sm.segen = true → b.au.state = .requested ∨ b.au.state = .census → Answers (.censusNow true) ⟨b, q⟩ b) ∧
    (b.sm.segen = false → Answers (.censusNow false) ⟨b, q⟩ (b.refuse .segmentOff)) ∧
    -- the write changes SEGEN
    (b.sm.segen = false →
      (b.sm.pendCensus = false → (∀ c, b.sm.request c = none) → (b.bu.ctx = .idle → b.bu.queue = []) →
        (b.au.state = .quiet ∨ b.au.state = .holdoff → Answers (.censusNow true) ⟨b, q⟩ b.enabled.censusAsked) ∧
        (b.au.state = .requested ∨ b.au.state = .census → Answers (.censusNow true) ⟨b, q⟩ b.enabled)) ∧
      ∃ b', Answers (.censusNow true) ⟨b, q⟩ b' ∧ b'.sm.segen = true ∧
        (b.au.state = .quiet ∨ b.au.state = .holdoff →
          (b'.au.state = .requested ∧ b'.sm.pendCensus = true) ∨ b'.au.state = .census)) ∧
    (b.sm.segen = true →
      ∃ cleared, Answers .segenClear ⟨b, q⟩ cleared ∧
        Answers (.censusNow false) ⟨b, q⟩ (cleared.refuse .segmentOff))

/-- R133, R134 and R141: when the Attention Unit acts on ATN and when it does not; what it asks for is granted at once by an
IDLE Segment Master (R134). -/
def Obligations.AttentionUnitActsOnAtn : Prop :=
  ∀ (b : Block) (q : List Instr), b.operating = true →
    (b.au.state = .quiet → b.sm.segen = true →
      Answers .atnAsserted ⟨b, q⟩ (Block.censusAsked { b with au := { b.au with atn := true } })) ∧
    (b.au.state ≠ .quiet ∨ b.sm.segen = false →
      Answers .atnAsserted ⟨b, q⟩ { b with au := { b.au with atn := true } }) ∧
    Answers .atnReleased ⟨b, q⟩ { b with au := { b.au with atn := false } } ∧
    (∀ n, b.au.state = .holdoff → b.au.timer = some n →
      (b.au.atn = true → b.sm.segen = true → Answers .holdoffExpiry ⟨b, q⟩ b.censusAsked) ∧
      (b.au.atn = false ∨ b.sm.segen = false →
        Answers .holdoffExpiry ⟨b, q⟩ { b with au := { b.au with state := .quiet, timer := none } }))

/-- R7, R137, R138, R140 and R141: at the end of slot 30 both patterns are replaced station by station, CNFLT is set for a
garbled slot, and the Attention Unit enters HOLDOFF with the setting of that moment, the Segment Master the inter-frame
gap. With a setting of 0 the Attention Unit decides at once: it asks for a census if ATN is asserted and SEGEN is 1, and
otherwise enters QUIET. -/
def Obligations.CensusReplacesThePatterns : Prop :=
  ∀ (b : Block) (q : List Instr) (slots : List (BitVec 3)) (l : List SlotResult),
    b.operating = true → b.sm.phase = .await → b.sm.tx = some (.census l) →
    ∃ b', Answers (.censusSlotsEnd slots) ⟨b, q⟩ b' ∧
      (∀ k, 1 ≤ k → k ≤ 30 →
        (hasStation b'.au.attention k = true ↔ slots.getD (k - 1) 7 = 0b001#3) ∧
        (hasStation b'.au.presence k = true ↔ slots.getD (k - 1) 7 ≠ 0b111#3)) ∧
      (b'.ru.flag .cnflt = true ↔ b.ru.flag .cnflt = true ∨ ∃ k, 1 ≤ k ∧ k ≤ 30 ∧
        slots.getD (k - 1) 7 ∉ [0b111#3, 0b011#3, 0b001#3]) ∧
      b'.au.mask = b.au.mask ∧ b'.au.setting = b.au.setting ∧ b'.au.atn = b.au.atn ∧
      (b.au.setting ≠ 0 →
        b'.au.state = .holdoff ∧ b'.au.timer = some b.au.setting.toNat ∧ b'.sm.pendCensus = b.sm.pendCensus) ∧
      (b.au.setting = 0 → b'.au.timer = none ∧
        (b.au.atn = true → b.sm.segen = true → b'.au.state = .requested ∧ b'.sm.pendCensus = true) ∧
        (b.au.atn = false ∨ b.sm.segen = false →
          b'.au.state = .quiet ∧ b'.sm.pendCensus = b.sm.pendCensus)) ∧
      b'.sm.phase = .gap ∧ b'.sm.gap = some .interFrame ∧ b'.le = b.le ∧ b'.du = b.du ∧ b'.fp = b.fp

/-- R139 and R158: the selected stations that are ARMED join the Service Queue in ascending order behind those queued
before; the others keep their entries, and UNBK is set if one of them was UNBOOKED or DISARMED. With SEGEN at 0 no
service starts (R145); with SEGEN at 1 and nothing queued or served before, the lowest of them is served at once (R159 to
R161). Where UNBK's record stands in the queue is log entry 2's. -/
def Obligations.CensusHandsOverTheSelectedSet : Prop :=
  (∀ (b : Block) (q : List Instr) (slots : List (BitVec 3)) (l : List SlotResult),
    b.operating = true → b.sm.phase = .await → b.sm.tx = some (.census l) → b.sm.segen = false →
    ∃ b', Answers (.censusSlotsEnd slots) ⟨b, q⟩ b' ∧
      b'.bu.queue = b.bu.queue ++ (List.range' 1 30).filter (fun k =>
        slots.getD (k - 1) 7 = 0b001#3 ∧ hasStation b.au.mask k = true ∧ (b.bu.entry k).state = .armed) ∧
      (∀ k, b'.bu.entry k = { b.bu.entry k with
        state := if 1 ≤ k ∧ k ≤ 30 ∧ slots.getD (k - 1) 7 = 0b001#3 ∧ hasStation b.au.mask k = true ∧
          (b.bu.entry k).state = .armed then .queued else (b.bu.entry k).state }) ∧
      (b'.ru.flag .unbk = true ↔ b.ru.flag .unbk = true ∨ ∃ k, 1 ≤ k ∧ k ≤ 30 ∧ slots.getD (k - 1) 7 = 0b001#3 ∧
        hasStation b.au.mask k = true ∧ ((b.bu.entry k).state = .unbooked ∨ (b.bu.entry k).state = .disarmed))) ∧
  (∀ (b : Block) (q : List Instr) (slots : List (BitVec 3)) (l : List SlotResult) (k : Nat) (rest : List Nat)
      (e : Booking),
    b.operating = true → b.sm.phase = .await → b.sm.tx = some (.census l) → b.sm.segen = true → b.bu.ctx = .idle →
    b.bu.queue = [] → b.ru.nq.length ≤ 13 → e = b.bu.entry k → e.cls ≠ .notify →
    (List.range' 1 30).filter (fun k =>
      slots.getD (k - 1) 7 = 0b001#3 ∧ hasStation b.au.mask k = true ∧ (b.bu.entry k).state = .armed) = k :: rest →
    ∃ b', Answers (.censusSlotsEnd slots) ⟨b, q⟩ b' ∧ b'.bu.queue = rest ∧ b'.bu.ctx = .action1 ∧ b'.bu.station = k ∧
      (∀ j, b'.bu.entry j = { b.bu.entry j with
        state := if j = k then .inService else if j ∈ rest then .queued else (b.bu.entry j).state }) ∧
      .reserved ∈ b'.ru.nq ∧ b'.sm.phase = .gap ∧
      b'.sm.pendService = some (serviceRequest b.bu.tim2 k e.clear))

/-! ## Runs and direct requests (chapters 2 and 5) -/

/-- R29, R30, R34, R55, R80, R82 and R83. The first clause writes out a GO taken in IDLE whose description passes the start
checks, in STATION form and without a FIFO: it takes the snapshot, clears the results and posts word 0 to the arbiter. The
second is every form and data mode: for a FIFO the claim becomes DIRECT, and then word 0 is prepared, and granted at once
by an IDLE Segment Master (R12, R22); a List Engine that the GO found between two entries reads the new one behind it (R57, R120; log entry 30). The third gives the target of a
word. -/
def Obligations.GoPostsTheFirstWord : Prop :=
  (∀ (b : Block) (q : List Instr) (d : RunDesc), b.operating = true → b.du.run.sub = .ended → d = b.du.describe →
    d.fails .direct = false → d.form = .station → d.mode ≠ .fifo → b.sm.segen = true → b.sm.phase ≠ .idle →
    b.le.reading = false →
    Answers .dcmdGo ⟨b, q⟩
      { b with
        du := { b.du with
          word := b.du.ddat, outcome := .inProgress
          run := { Run.fresh with desc := d, sub := .requesting, lastStation := d.station, lastCell := d.start } }
        sm := { b.sm with
          pendDirect := some
            { station := d.station, verb := d.verb, cell := d.start, retries := d.retries,
              source := if d.verb = .store then .dataWord else .noData } } } ∧
      d.station = b.du.dtgt.toNat % 32 ∧ d.start = b.du.dcel.toNat ∧ d.count = b.du.dcnt.toNat ∧
      d.verb = Verb.ofCode (b.du.dmod.field 13 2) ∧ d.retries = (b.du.dmod.field 6 3).toNat) ∧
  (∀ (b : Block) (q : List Instr) (d : RunDesc), b.operating = true → b.du.run.sub = .ended → d = b.du.describe →
    d.fails .direct = false → (d.storesFifo = true → b.fp.out.claim ≠ .list) →
    (d.fetchesFifo = true → b.fp.inb.claim ≠ .list) →
    ∃ taken b', Answers .dcmdGo ⟨b, q⟩ b' ∧ b.goTaken.Prepares .direct taken ∧ taken.ThenReads b') ∧
  (∀ (sd : Sd) (d : RunDesc) (i : Nat),
    (d.form = .station →
      sd.target d i = if d.cellAt i ≤ 4095 then .ok (d.station, d.cellAt i) else .error .cellEnd) ∧
    (d.form = .window → 65535 < d.cellAt i ∨ sd.decode (d.cellAt i) = none → sd.target d i = .error .unmapped) ∧
    (∀ t, d.form = .window → d.cellAt i ≤ 65535 → sd.decode (d.cellAt i) = some t → sd.target d i = .ok t))

/-- R55, R83, R84 and R85: a GO while BUSY is refused; one whose FIFO the List Engine holds ends CLAIMED; one that fails
the start checks ends ILLEGAL and gives back the claim it took. A List Engine that the GO found between two entries reads
the new one behind it (R120; log entry 30). R28, R84 and R108: the start checks. -/
def Obligations.GoThatDoesNotStart : Prop :=
  (∀ (b : Block) (q : List Instr), b.operating = true →
    (b.du.run.sub ≠ .ended → ∃ b', Answers .dcmdGo ⟨b, q⟩ b' ∧ (b.refuse .directBusy).ThenReads b') ∧
    (∀ side, b.du.run.sub = .ended → b.du.describe.fifoSide = some side → (b.fifo side).claim = .list →
      ∃ b', Answers .dcmdGo ⟨b, q⟩ b' ∧
        (Block.setCondition
          { b with du := { b.du with word := 0, outcome := .claimed, run := Run.fresh } } .ddone).ThenReads b') ∧
    (b.du.run.sub = .ended → b.du.describe.fails .direct = true →
      (b.du.describe.storesFifo = true → b.fp.out.claim ≠ .list) →
      (b.du.describe.fetchesFifo = true → b.fp.inb.claim ≠ .list) →
      ∃ ended b', Answers .dcmdGo ⟨b, q⟩ b' ∧ b.goTaken.DirectEnds .illegal ended ∧ ended.ThenReads b')) ∧
  (∀ (d : RunDesc) (o : Owner), d.fails o = true ↔
    (d.form = .station ∧ d.station = 0) ∨ d.count = 0 ∨ (d.form = .station ∧ d.station = 31 ∧ d.verb = .fetch) ∨
    (d.form = .station ∧ d.station = 31 ∧ 1 < d.count) ∨ (d.mode = .register ∧ 1 < d.count) ∨
    ((d.verb = .fetch ∨ d.verb = .store) ∧ d.mode = .noData) ∨ (d.verb = .trigger ∧ d.mode ≠ .noData) ∨
    d.verb = .unused ∨ d.wait = .unused ∨ (o = .direct ∧ d.mode = .inline))

/-- R45, R46, R57, R81 and R86: an ABORT of a run in flight leaves it to its outcome; of a run that requests, it withdraws
the request and ends the run ABORTED; it ends a STALLED run ABORTED; ABORTING and in IDLE it has no effect. Which of DDONE
and LHALT comes first, where the claim passes and the list halts at once, is log entry 2. -/
def Obligations.DirectAbort : Prop :=
  ∀ (b : Block) (q : List Instr), b.operating = true →
    (b.du.run.sub = .inFlight →
      Answers .dcmdAbort ⟨b, q⟩ { b with du := { b.du with run := { b.du.run with sub := .aborting } } }) ∧
    (b.du.run.sub = .requesting →
      ∃ b', Answers .dcmdAbort ⟨b, q⟩ b' ∧
        Block.DirectEnds { b with sm := { b.sm with pendDirect := none } } .aborted b') ∧
    (b.du.run.sub = .stalled → ∃ b', Answers .dcmdAbort ⟨b, q⟩ b' ∧ b.DirectEnds .aborted b') ∧
    (b.du.run.sub = .ended ∨ b.du.run.sub = .aborting → Answers .dcmdAbort ⟨b, q⟩ b)

/-- R42, R43, R44 and R46: a persist expiry in flight is held; one that finds the run requesting withdraws the request and
ends the run DEADLINE; in ABORTING it only stops the timer; a stall expiry ends the run STARVED with its stall reason. At
the end a FIFO run gives its claim back, to the List Engine if that waits for it (R55, R57); the Direct Unit reports
DDONE, the List Engine halts resumable with LHALT (R88, R127, R128). That an expiry whose timer does not run changes nothing
is the model's choice (log entry 3), and so is which of DDONE and LHALT comes first, where the claim passes and the list
halts at once (log entry 2). -/
def Obligations.RunTimersExpire : Prop :=
  ∀ (b : Block) (q : List Instr) (o : Owner) (n : Nat), b.operating = true →
    ((b.run o).persist = none → Answers (.persistExpiry o) ⟨b, q⟩ b) ∧
    ((b.run o).persist = some n →
      ((b.run o).sub = .inFlight →
        Answers (.persistExpiry o) ⟨b, q⟩ (b.setRun o { b.run o with persist := none, held := true })) ∧
      ((b.run o).sub = .aborting →
        Answers (.persistExpiry o) ⟨b, q⟩ (b.setRun o { b.run o with persist := none })) ∧
      ((b.run o).sub = .requesting →
        ∃ b', Answers (.persistExpiry o) ⟨b, q⟩ b' ∧
          Block.RunEnds { b with sm := b.sm.setRequest (clientOf o) none } o .deadline b')) ∧
    ((b.run o).sub ≠ .stalled ∨ (b.run o).stallTimer = none → Answers (.runStallExpiry o) ⟨b, q⟩ b) ∧
    ((b.run o).sub = .stalled → (b.run o).stallTimer = some n →
      ∃ b', Answers (.runStallExpiry o) ⟨b, q⟩ b' ∧ b.RunEnds o .starved b')

/-- R32, R33 and R34: a stalled STATION-form run whose word or room is there prepares the same word again and posts it; one
whose word or room is not there stays stalled (that the command has no effect then is log entry 11). The last clause is
every form and state of the segment; for a word that is then UNMAPPED, the last station and cell it leaves are the model's
reading of R31, R69 and R87 (log entry 28). -/
def Obligations.StalledRunsGoOn : Prop :=
  ∀ (b : Block) (q : List Instr) (o : Owner), b.operating = true → (b.run o).sub = .stalled →
    ((b.run o).desc.mode = .fifo → (b.run o).desc.form = .station →
      (b.run o).desc.cellAt (b.run o).index ≤ 4095 → b.sm.segen = true → b.sm.phase ≠ .idle →
      ((b.run o).desc.verb = .store ∧ (b.run o).stall = .fifoData ∧ b.fp.out.words ≠ []) ∨
        ((b.run o).desc.verb = .fetch ∧ (b.run o).stall = .fifoRoom ∧
          b.fp.inb.words.length ≤ b.fp.resumeMark.toNat) →
      Answers (.runStallEnd o) ⟨b, q⟩
        (Block.setRun
          { b with sm := b.sm.setRequest (clientOf o) (some
              { station := (b.run o).desc.station, verb := (b.run o).desc.verb,
                cell := (b.run o).desc.cellAt (b.run o).index, retries := (b.run o).desc.retries,
                source := if (b.run o).desc.verb = .store then .outboundHead else .noData }) }
          o { b.run o with
            sub := .requesting, stall := .noStall, fullSeen := false, stallTimer := none,
            lastStation := (b.run o).desc.station, lastCell := (b.run o).desc.cellAt (b.run o).index })) ∧
    ((b.run o).stall = .fifoData → b.fp.out.words = [] → Answers (.runStallEnd o) ⟨b, q⟩ b) ∧
    ((b.run o).stall = .fifoRoom → b.fp.resumeMark.toNat < b.fp.inb.words.length →
      Answers (.runStallEnd o) ⟨b, q⟩ b) ∧
    (((b.run o).stall = .fifoData ∧ b.fp.out.words ≠ []) ∨
        ((b.run o).stall = .fifoRoom ∧ b.fp.inb.words.length ≤ b.fp.resumeMark.toNat) →
      ∃ b', Answers (.runStallEnd o) ⟨b, q⟩ b' ∧ (b.stallLeft o).Prepares o b')

/-- Section 2.2: words done plus words skipped always equal the word index, in both sequencers. -/
def Obligations.RunCountsAddUp : Prop := KeptByEveryStep Block.RunsCounted

/-! ## The FIFO Pair (chapter 3) -/

/-- R52 and R53: a word joins the Outbound tail or is discarded with HOSTERR; the Inbound head is read and leaves, or the
read returns 0000h with HOSTERR. Where the claimant run waits for the access, its stall ends and it prepares the same word
again, unless the Inbound level is still above the resume mark (R32, R33); for a word that is then UNMAPPED, the last station
and cell it leaves are the model's reading of R31, R69 and R87 (log entry 28). That level and mark are weighed behind each
access by itself is log entry 31. `readData` is the model's own (log entry 7). -/
def Obligations.HostPortsMoveOneWord : Prop :=
  ∀ (b : Block) (q : List Instr) (v : Word), b.operating = true →
    (∀ a : Block, b.fp.out.words.length < 64 →
      a = { b with fp := { b.fp with out := { b.fp.out with words := b.fp.out.words ++ [v]
                                                            joined := b.fp.out.joined + 1 } } } →
      ((∀ o, b.fp.out.claim = claimOf o → (b.run o).sub ≠ .stalled) → Answers (.odatWrite v) ⟨b, q⟩ a) ∧
      (∀ o, b.fp.out.claim = claimOf o → (b.run o).sub = .stalled → (b.run o).stall = .fifoData →
        ∃ b', Answers (.odatWrite v) ⟨b, q⟩ b' ∧ (a.stallLeft o).Prepares o b')) ∧
    (b.fp.out.words.length = 64 → Answers (.odatWrite v) ⟨b, q⟩ (b.setCondition .hosterr)) ∧
    (∀ (w : Word) (rest : List Word) (a : Block), b.fp.inb.words = w :: rest →
      a = { b with hp := { b.hp with readData := w }
                   fp := { b.fp with inb := { b.fp.inb with words := rest, removed := b.fp.inb.removed + 1 } } } →
      ((∀ o, b.fp.inb.claim = claimOf o → (b.run o).sub ≠ .stalled) → Answers .idatRead ⟨b, q⟩ a) ∧
      (∀ o, b.fp.inb.claim = claimOf o → (b.run o).sub = .stalled → (b.run o).stall = .fifoRoom →
        (b.fp.resumeMark.toNat < rest.length → Answers .idatRead ⟨b, q⟩ a) ∧
        (rest.length ≤ b.fp.resumeMark.toNat →
          ∃ b', Answers .idatRead ⟨b, q⟩ b' ∧ (a.stallLeft o).Prepares o b'))) ∧
    (b.fp.inb.words = [] →
      Answers .idatRead ⟨b, q⟩ (Block.setCondition { b with hp := { b.hp with readData := 0 } } .hosterr))

/-- R62: a flush empties an unclaimed FIFO and is refused on a claimed one; a write of FCMD with both flushes takes each on
its own. A List Engine that the flush found between two entries, its claim given back, reads the new entry behind it
(R62, R120; log entry 30). -/
def Obligations.FlushesEmptyUnclaimedFifos : Prop :=
  ∀ (b : Block) (q : List Instr) (noOut noIn : Block), b.operating = true →
    noOut = (if b.fp.out.claim = .unclaimed then
      { b with fp := { b.fp with out := { b.fp.out with
        words := [], flushed := b.fp.out.flushed + b.fp.out.words.length } } } else b.refuse .flushClaimed) →
    noIn = (if b.fp.inb.claim = .unclaimed then
      { b with fp := { b.fp with inb := { b.fp.inb with
        words := [], flushed := b.fp.inb.flushed + b.fp.inb.words.length } } } else b.refuse .flushClaimed) →
    (b.le.reading = false → Answers .flushOut ⟨b, q⟩ noOut ∧ Answers .flushIn ⟨b, q⟩ noIn) ∧
    (∃ b', Answers .flushOut ⟨b, q⟩ b' ∧ noOut.ThenReads b') ∧
    (∃ b', Answers .flushIn ⟨b, q⟩ b' ∧ noIn.ThenReads b') ∧
    (∀ v : Word, v.bit 0 = true → v.bit 1 = true →
      ∃ both b', Answers (.registerWrite 0x28#6 v) ⟨b, q⟩ b' ∧ both.ThenReads b' ∧
        both = (if b.fp.inb.claim = .unclaimed then { noOut with fp := { noOut.fp with inb := noIn.fp.inb } }
                else noOut.refuse .flushClaimed))

/-- R59, R60 and R61: the marks take the values written (an IDRQ mark of 0 as 1, above 64 as 64), and IDRQ and ODRQ
follow level and mark. A resume mark at or above the level ends the stall of the Inbound claimant, which prepares the same
word again (R33); a lower one leaves it stalled. For a word that is then UNMAPPED, the last station and cell it leaves are
the model's reading of R31, R69 and R87 (log entry 28). That level and mark are weighed behind each access by itself is
log entry 31. The field the IDRQ mark is read from is log entry 9. -/
def Obligations.MarksPaceTheFifos : Prop :=
  ∀ (b : Block) (q : List Instr) (v : Word), b.operating = true →
    (∀ (mark : Nat) (a : Block), mark = min 64 (max 1 (v.field 8 7).toNat) →
      a = { b with fp := { b.fp with resumeMark := v.field 0 6, idrqMark := BitVec.ofNat 7 mark } } →
      (a.fp.idrqMark.toNat = mark ∧ (a.idrq = true ↔ mark ≤ b.fp.inb.words.length)) ∧
      ((∀ o, b.fp.inb.claim = claimOf o → (b.run o).sub ≠ .stalled) → Answers (.fmkiWrite v) ⟨b, q⟩ a) ∧
      (∀ o, b.fp.inb.claim = claimOf o → (b.run o).sub = .stalled → (b.run o).stall = .fifoRoom →
        ((v.field 0 6).toNat < b.fp.inb.words.length → Answers (.fmkiWrite v) ⟨b, q⟩ a) ∧
        (b.fp.inb.words.length ≤ (v.field 0 6).toNat →
          ∃ b', Answers (.fmkiWrite v) ⟨b, q⟩ b' ∧ (a.stallLeft o).Prepares o b'))) ∧
    (∃ b', Answers (.fmkoWrite v) ⟨b, q⟩ b' ∧ b' = { b with fp := { b.fp with odrqMark := v.field 0 6 } } ∧
      (b'.odrq = true ↔ b.fp.out.words.length ≤ (v.field 0 6).toNat))

/-- R51: in both FIFOs the level stays within 64, and the words that joined are those removed, flushed and present. In a
state no run reaches, where a fetched word meets a full Inbound FIFO, this rests on log entry 14: the word does not join. -/
def Obligations.FifoAccountingIsKept : Prop := KeptByEveryStep Block.FifosAccounted

/-! ## The Span Decoder (chapter 4) -/

/-- R67: with the lock clear, a span write is refused while EN is 1, and otherwise sets the field or fields of the selected
span alone. The field the boundary is read from is log entry 9. -/
def Obligations.SpanWritesSetTheSelectedSpan : Prop :=
  ∀ (b : Block) (q : List Instr) (reg : SpanReg) (v : Word), b.operating = true → b.hp.lock = false →
    (b.sd.en = true → Answers (.spanWrite reg v) ⟨b, q⟩ (b.refuse .spanEnabled)) ∧
    (b.sd.en = false →
      ∃ b', Answers (.spanWrite reg v) ⟨b, q⟩ b' ∧ b' = { b with sd := { b.sd with spans := b'.sd.spans } } ∧
        b'.sd.selected = (match reg with
          | .spbnd => { b.sd.selected with upper := min (v.field 0 11).toNat 1024 }
          | .spmap => { b.sd.selected with station := v.field 0 5, base := v.field 8 6 }) ∧
        ∀ k : Fin 8, k.val ≠ b.sd.sel.toNat → b'.sd.spans[k] = b.sd.spans[k])

/-- R71 and R72: the enable of a disabled, unlocked decoder runs the check; every other write of SPCTL does what the table
of R72 says. The last clause, a REGISTER_WRITE at 2Eh by the EN bit of its value alone, rests on log entry 8. -/
def Obligations.SpanEnableAndDisable : Prop :=
  (∀ (b : Block) (q : List Instr), b.operating = true →
    (b.hp.lock = true →
      Answers .spanEnable ⟨b, q⟩ (b.setCondition .lockw) ∧ Answers .spanDisable ⟨b, q⟩ (b.setCondition .lockw)) ∧
    (b.hp.lock = false →
      (b.sd.en = false → b.sd.check = none →
        Answers .spanEnable ⟨b, q⟩ { b with sd := { b.sd with en := true, bad := none } }) ∧
      (∀ k, b.sd.en = false → b.sd.check = some k →
        Answers .spanEnable ⟨b, q⟩ (Block.refuse { b with sd := { b.sd with bad := some k } } .spanInvalid)) ∧
      (b.sd.en = true → Answers .spanEnable ⟨b, q⟩ b) ∧
      (b.sd.en = true → Answers .spanDisable ⟨b, q⟩ { b with sd := { b.sd with en := false } }) ∧
      (b.sd.en = false → Answers .spanDisable ⟨b, q⟩ b))) ∧
  (∀ (s : State) (v : Word),
    exec (.registerWrite 0x2E#6 v) s = if v.bit 0 then exec .spanEnable s else exec .spanDisable s)

/-- R68: the lowest span whose upper boundary lies above the address gives the station and the cell, and is not empty;
without one, or while EN is 0, the address is UNMAPPED. The lower boundary of span 0 is 0. Under a table that passed the
enable check the station is 1 to 30, the cell 0 to 4095, and nothing from 32768 up is mapped. -/
def Obligations.DecodeFindsTheLowestSpan : Prop :=
  ∀ (d : Sd) (a : Nat) (lower : Fin 8 → Nat),
    (∀ k : Fin 8, lower k = if h : k.val = 0 then 0 else d.spans[k.val - 1].upper) →
    (d.en = false → d.decode a = none) ∧
    (∀ k : Fin 8, d.en = true → a < 64 * d.spans[k].upper → (∀ j : Fin 8, j < k → 64 * d.spans[j].upper ≤ a) →
      lower k < d.spans[k].upper ∧
      d.decode a = some (d.spans[k].station.toNat, 64 * d.spans[k].base.toNat + (a - 64 * lower k))) ∧
    (d.en = true → (∀ j : Fin 8, 64 * d.spans[j].upper ≤ a) → d.decode a = none) ∧
    (d.en = true → d.check = none →
      d.spans[7].upper ≤ 512 ∧
      ∀ station cell, d.decode a = some (station, cell) →
        1 ≤ station ∧ station ≤ 30 ∧ cell ≤ 4095 ∧ a < 32768)

/-- R70: the enable check answers the lowest index of a span that fails one of the three tests, or none. -/
def Obligations.EnableCheckNamesTheLowestFailure : Prop :=
  ∀ (d : Sd) (lower : Fin 8 → Nat) (failing : Fin 8 → Prop),
    (∀ k : Fin 8, lower k = if h : k.val = 0 then 0 else d.spans[k.val - 1].upper) →
    (∀ k : Fin 8, failing k ↔
      d.spans[k].upper < lower k ∨
      (lower k < d.spans[k].upper ∧ (d.spans[k].station = 0 ∨ d.spans[k].station = 31)) ∨
      (lower k < d.spans[k].upper ∧ 64 < d.spans[k].base.toNat + (d.spans[k].upper - lower k))) →
    (∀ k : Fin 8, d.check = some k.val ↔ failing k ∧ ∀ j : Fin 8, j < k → ¬ failing j) ∧
    (d.check = none ↔ ∀ k : Fin 8, ¬ failing k)

/-- R70: while the decoder is enabled, its table passes the enable check, at every step. -/
def Obligations.EnabledTableStaysValid : Prop := KeptByEveryStep Block.EnabledTableValid

/-! ## The List Store and the List Engine (chapters 6 and 7) -/

/-- R95, R96 and R97: LDAT reads and writes the word at LPTR, which moves on and wraps; a write is refused while the engine
is neither IDLE nor HALTED. That the store is canonical is StoreStaysCanonical.
The canonical form and `readData` are the model's own (log entries 20 and 7). -/
def Obligations.ListStorePort : Prop :=
  ∀ (b : Block) (q : List Instr) (v : Word), b.operating = true →
    Answers .ldatRead ⟨b, q⟩
      { b with hp := { b.hp with readData := b.le.store.read b.le.lptr.toNat }
               le := { b.le with lptr := b.le.lptr + 1 } } ∧
    (b.StoreCanonical → b.le.state = .idle ∨ b.le.state = .halted →
      ∃ b', Answers (.ldatWrite v) ⟨b, q⟩ b' ∧
        b' = { b with le := { b.le with lptr := b.le.lptr + 1, store := b'.le.store } } ∧
        ∀ a, b'.le.store.read a = if a = b.le.lptr.toNat then v else b.le.store.read a) ∧
    (b.le.state ≠ .idle → b.le.state ≠ .halted →
      Answers (.ldatWrite v) ⟨b, q⟩ (Block.refuse { b with le := { b.le with lptr := b.le.lptr + 1 } } .listBusy))

/-- The List Store keeps its canonical form (log entry 20) at every step. -/
def Obligations.StoreStaysCanonical : Prop := KeptByEveryStep Block.StoreCanonical

/-- R100 to R108, with the codes of section 11.7: the entries at the cursor that are malformed, and what the others ask
for: a SINGLE's or a RUN's description, length and inline base, a PAUSE's duration, a MARK's tag, an END. -/
def Obligations.MalformedEntries : Prop :=
  ∀ (rd : Nat → Word) (a : Nat) (h : Word), a ≤ 4096 → h = rd a →
    (entryAt rd a = .malformed ↔
      a = 4096 ∨ 5 ≤ (h.field 13 3).toNat ∨
      ((h.field 13 3 = 1 ∨ h.field 13 3 = 2) ∧ 4093 ≤ a) ∨
      ((h.field 13 3 = 3 ∨ h.field 13 3 = 4) ∧ a = 4095) ∨
      (h.field 13 3 = 2 ∧ ((rd (a + 3)).toNat = 0 ∨ 4096 ≤ (rd (a + 3)).toNat)) ∨
      (h.field 13 3 = 2 ∧ (h.field 10 2).toNat ≤ 1 ∧ h.bit 2 = false ∧ 4096 < a + 4 + (rd (a + 3)).toNat) ∨
      (h.field 13 3 = 3 ∧ (rd (a + 1)).toNat = 0)) ∧
    (entryAt rd a ≠ .malformed → h.field 13 3 = 1 ∨ h.field 13 3 = 2 →
      ∃ (d : RunDesc) (len base : Nat), entryAt rd a = .run d len base ∧
        d.form = (if h.bit 12 then .window else .station) ∧
        d.station = (if h.bit 12 then 0 else (rd (a + 1)).toNat % 32) ∧
        d.start = (if h.bit 12 then (rd (a + 1)).toNat else (rd (a + 2)).toNat % 4096) ∧
        d.verb.code = h.field 10 2 ∧ d.wait = WaitPolicy.ofCode (h.field 8 2) ∧ d.tolerant = h.bit 7 ∧
        d.retries = (h.field 4 3).toNat ∧
        (h.field 13 3 = 1 → d.count = 1 ∧ d.advance = .fixed ∧ len = 4 ∧ base = a + 3 ∧
          d.mode = if (h.field 10 2).toNat ≤ 1 then .inline else .noData) ∧
        (h.field 13 3 = 2 → d.count = (rd (a + 3)).toNat ∧ d.advance = (if h.bit 3 then .step else .fixed) ∧
          base = a + 4 ∧
          d.mode = (if (h.field 10 2).toNat ≤ 1 then (if h.bit 2 then .fifo else .inline) else .noData) ∧
          len = if d.mode = .inline then 4 + (rd (a + 3)).toNat else 4)) ∧
    (entryAt rd a ≠ .malformed → h.field 13 3 = 3 → entryAt rd a = .pause (rd (a + 1)).toNat) ∧
    (entryAt rd a ≠ .malformed → h.field 13 3 = 4 → entryAt rd a = .mark (rd (a + 1))) ∧
    (a < 4096 → h.field 13 3 = 0 → entryAt rd a = .endOfList)

/-- R115, R120, R121, R123 and R125: a START taken in IDLE or HALTED copies LSTA and clears the context; an END ends the list
COMPLETE, a PAUSE starts the pause timer, and a STATION-form entry without a FIFO posts its word 0. The last clause is an
entry of any kind, in any state of the segment: END, malformed, PAUSE, MARK, and a run that is ILLEGAL, waits for its claim
or prepares word 0 (R108, R120 to R126). A START taken in any other state is refused. -/
def Obligations.StartBeginsTheList : Prop :=
  ∀ (b : Block) (q : List Instr), b.operating = true →
    (b.le.state ≠ .idle → b.le.state ≠ .halted → Answers .lcmdStart ⟨b, q⟩ (b.refuse .listBusy)) ∧
    (b.le.state = .idle ∨ b.le.state = .halted →
      (entryAt b.storeAt b.le.lsta.toNat = .endOfList → b.claimsNone .list →
        Answers .lcmdStart ⟨b, q⟩
          (Block.setCondition
            { b with le := { b.le with
              activity := .idle, cursor := b.le.lsta.toNat, outcome := .complete, resumable := false, run := Run.fresh,
              pauseTimer := none, stallTimer := none } } .ldone)) ∧
      (∀ n, entryAt b.storeAt b.le.lsta.toNat = .pause n →
        Answers .lcmdStart ⟨b, q⟩
          { b with le := { b.le with
            activity := .pausing, cursor := b.le.lsta.toNat, outcome := .noOutcome, resumable := false,
            run := Run.fresh, pauseTimer := some n, stallTimer := none } }) ∧
      (∀ d len base, entryAt b.storeAt b.le.lsta.toNat = .run d len base → d.fails .list = false →
        d.form = .station → d.mode = .inline ∨ d.mode = .noData → d.start ≤ 4095 → b.sm.segen = true →
        b.sm.phase ≠ .idle →
        Answers .lcmdStart ⟨b, q⟩
          { b with
            le := { b.le with
              activity := .running, cursor := b.le.lsta.toNat, outcome := .noOutcome, resumable := false,
              entryLen := len, inlineBase := base, pauseTimer := none, stallTimer := none
              run := { Run.fresh with desc := d, sub := .requesting, lastStation := d.station, lastCell := d.start } }
            sm := { b.sm with
              pendList := some
                { station := d.station, verb := d.verb, cell := d.start, retries := d.retries,
                  source := if d.verb = .store then .inline base else .noData } } }) ∧
      ∃ b', Answers .lcmdStart ⟨b, q⟩ b' ∧
        Block.Reads false
          { b with le := { b.le with
            activity := .running, cursor := b.le.lsta.toNat, outcome := .noOutcome, resumable := false,
            run := Run.fresh, pauseTimer := none, stallTimer := none } } b')

/-- R116 and R117: a RESUME of a resumable halt reads the entry afresh and goes on at the word index, with the counts and the
last reply of the context; without a resumable halt it is refused. The last clause is an entry of any kind: a malformed one
halts the list, a PAUSE, a MARK or an END is carried out from its beginning, an entry whose words are dealt with is passed
and the next one read at once, and any other run entry is checked, asks for its claim and prepares its word; for a word
that is then UNMAPPED or ends CELL-END, the last station and cell it leaves are the model's reading of R31 and R117 (log
entry 28). -/
def Obligations.ResumeGoesOnAtTheWord : Prop :=
  ∀ (b : Block) (q : List Instr), b.operating = true →
    (¬ (b.le.activity = .halted ∧ b.le.resumable = true) → Answers .lcmdResume ⟨b, q⟩ (b.refuse .notResumable)) ∧
    (∀ d len base, b.le.activity = .halted → b.le.resumable = true →
      entryAt b.storeAt b.le.cursor = .run d len base → b.le.run.index < d.count → d.fails .list = false →
      d.form = .station → d.mode = .inline ∨ d.mode = .noData → d.cellAt b.le.run.index ≤ 4095 →
      b.sm.segen = true → b.sm.phase ≠ .idle →
      Answers .lcmdResume ⟨b, q⟩
        { b with
          le := { b.le with
            activity := .running, outcome := .noOutcome, resumable := false, entryLen := len, inlineBase := base,
            stallTimer := none
            run := { b.le.run with
              desc := d, sub := .requesting, fullSeen := false, stall := .noStall, persist := none, held := false,
              stallTimer := none, lastStation := d.station, lastCell := d.cellAt b.le.run.index } }
          sm := { b.sm with
            pendList := some
              { station := d.station, verb := d.verb, cell := d.cellAt b.le.run.index, retries := d.retries,
                source := if d.verb = .store then .inline (base + b.le.run.index) else .noData } } }) ∧
    (∀ a : Block, b.le.activity = .halted → b.le.resumable = true →
      a = { b with le := { b.le with
        activity := .running, outcome := .noOutcome, resumable := false
        run := { b.le.run with fullSeen := false, stall := .noStall, persist := none, held := false
                               stallTimer := none } } } →
      ∃ b', Answers .lcmdResume ⟨b, q⟩ b' ∧
        (entryAt b.storeAt b.le.cursor = .malformed → b' = a.listHalted .malformed false) ∧
        ((∀ d len base, entryAt b.storeAt b.le.cursor ≠ .run d len base) →
          entryAt b.storeAt b.le.cursor ≠ .malformed →
          Block.Reads false { a with le := { a.le with run := Run.fresh, pauseTimer := none, stallTimer := none } } b') ∧
        (∀ d len base, entryAt b.storeAt b.le.cursor = .run d len base →
          (d.count ≤ b.le.run.index → (a.nextEntry len).Reads false b') ∧
          (b.le.run.index < d.count → d.fails .list = true → b' = (a.entryTaken d len base).listHalted .illegal false) ∧
          (b.le.run.index < d.count → d.fails .list = false → (a.entryTaken d len base).EntryRuns b')))

/-- R118 and R129: an ABORT in IDLE has no effect, in HALTED it only leaves HALTED, in PAUSING, in STALLED (a run's stall,
CLAIM, NQ), while the engine reads an entry and while its run prepares or requests a word it ends the list ABORTED with
LDONE, the request withdrawn and the claim given back (R45, R57), with a word in flight it waits for the outcome, and in
ABORTING it has no effect. -/
def Obligations.ListAbort : Prop :=
  ∀ (b : Block) (q : List Instr), b.operating = true →
    (b.le.activity = .idle → Answers .lcmdAbort ⟨b, q⟩ b) ∧
    (b.le.activity = .halted →
      Answers .lcmdAbort ⟨b, q⟩ { b with le := { b.le with activity := .idle, resumable := false } }) ∧
    (b.le.activity = .pausing ∨ b.le.activity = .waitNq ∨ (∃ side, b.le.activity = .waitClaim side) →
      Answers .lcmdAbort ⟨b, q⟩ (b.listOver .aborted)) ∧
    (b.le.activity = .running →
      (b.le.run.sub = .ended ∨ b.le.run.sub = .preparing ∨ b.le.run.sub = .stalled →
        Answers .lcmdAbort ⟨b, q⟩ (b.listOver .aborted)) ∧
      (b.le.run.sub = .requesting →
        Answers .lcmdAbort ⟨b, q⟩ (Block.listOver { b with sm := { b.sm with pendList := none } } .aborted)) ∧
      (b.le.run.sub = .inFlight →
        Answers .lcmdAbort ⟨b, q⟩ { b with le := { b.le with run := { b.le.run with sub := .aborting } } }) ∧
      (b.le.run.sub = .aborting → Answers .lcmdAbort ⟨b, q⟩ b))

/-- R120, R123, R124 and R126: the pause timer's expiry and a MARK that finds its slot move the cursor past the entry, and
the engine reads the next one, of any kind, at once; that an access which waits right behind the command can fall together
with it, and then may come first, is log entry 30. A MARK without a slot waits on; the expiry of the engine's own stall
halts it STARVED, resumable, with its stall reason. The last clause is the access that comes between two entries: an
ABORT ends the list there (R118), and behind a GO or a flush the engine reads on (see GoPostsTheFirstWord and
FlushesEmptyUnclaimedFifos), so that it stays between them under no other access or event. -/
def Obligations.EngineWaitsEnd : Prop :=
  ∀ (b : Block) (q : List Instr), b.operating = true →
    (b.le.activity = .pausing →
      ∃ b', Answers .pauseExpiry ⟨b, q⟩ b' ∧ (b.nextEntry 2).GoesOn (State.accessBehind ⟨b, q⟩) b') ∧
    (∀ posted : Block, b.le.activity = .waitNq → b.ru.nq.length < 16 →
      posted = Block.nextEntry
        { b with ru := { b.ru with nq := b.ru.nq ++ [.occupied (.mark b.le.cursor b.le.tag)] } } 2 →
      ∃ b', Answers .markPostRetry ⟨b, q⟩ b' ∧ posted.GoesOn (State.accessBehind ⟨b, q⟩) b') ∧
    (16 ≤ b.ru.nq.length → Answers .markPostRetry ⟨b, q⟩ b) ∧
    (∀ n, b.claimsNone .list → b.le.activity = .waitNq ∨ (∃ side, b.le.activity = .waitClaim side) →
      b.le.stallTimer = some n →
      Answers .listStallExpiry ⟨b, q⟩
        (Block.setCondition
          { b with le := { b.le with
            activity := .halted, outcome := .starved, resumable := true, pauseTimer := none, stallTimer := none
            run := { b.le.run with sub := .ended, fullSeen := false, persist := none, held := false,
                                   stallTimer := none } } } .lhalt)) ∧
    (b.le.activity = .running → b.le.run.sub = .ended →
      Answers .lcmdAbort ⟨b, q⟩ (b.listOver .aborted) ∧
      ∀ c, c = .dcmdGo ∧ (b.sm.phase = .idle → b.sm.pendList = none) ∨ c = .flushOut ∨ c = .flushIn →
        ∃ taken b' : Block, Answers c ⟨b, q⟩ b' ∧ taken.le = b.le ∧ taken.Reads false b')

/-- R56, R57 and R122: a waiting List Engine that gets the claim starts its entry's run; while the Direct Unit holds the
claim it waits on. The first clause writes the Outbound FIFO's case out, the second is either FIFO's, and the third an
engine that comes to a FIFO entry at the end of a PAUSE with no access behind, or behind a GO that came first (log entry
30): it waits for a claim that the Direct Unit has won, and otherwise takes it. The claim passes on at the end of a direct
run by DirectEnds, see RunTimersExpire and DirectAbort. That LIST_CLAIM_GRANTED changes nothing while the claim is still
DIRECT is the model's choice (log entries 3 and 11). For the word of a resumed entry that is UNMAPPED, the last station
and cell it leaves are the model's reading (log entry 28). -/
def Obligations.GrantedClaimStartsTheRun : Prop :=
  (∀ (b : Block) (q : List Instr) (d : RunDesc) (i : Nat), b.operating = true → b.le.activity = .waitClaim .outbound →
    d = b.le.run.desc → i = b.le.run.index →
    (b.fp.out.claim = .direct → Answers .listClaimGranted ⟨b, q⟩ b) ∧
    (b.fp.out.claim = .unclaimed → d.mode = .fifo → d.verb = .store → d.fails .list = false → d.form = .station →
      d.cellAt i ≤ 4095 → b.fp.out.words ≠ [] → b.sm.segen = true → b.sm.phase ≠ .idle →
      Answers .listClaimGranted ⟨b, q⟩
        { b with
          fp := { b.fp with out := { b.fp.out with claim := .list } }
          le := { b.le with
            activity := .running, stallTimer := none
            run := { b.le.run with sub := .requesting, stall := .noStall, lastStation := d.station
                                   lastCell := d.cellAt i } }
          sm := { b.sm with
            pendList := some
              { station := d.station, verb := .store, cell := d.cellAt i, retries := d.retries
                source := .outboundHead } } })) ∧
  (∀ (b : Block) (q : List Instr) (side : FifoSide), b.operating = true → b.le.activity = .waitClaim side →
    ((b.fifo side).claim = .direct → Answers .listClaimGranted ⟨b, q⟩ b) ∧
    ((b.fifo side).claim ≠ .direct → b.le.run.desc.fails .list = false →
      ∃ b', Answers .listClaimGranted ⟨b, q⟩ b' ∧
        Block.Prepares
          { b.setClaim side .list with le := { b.le with
            activity := .running, stallTimer := none, run := { b.le.run with stall := .noStall } } } .list b')) ∧
  (∀ (b : Block) (q : List Instr) (d : RunDesc) (len base : Nat) (side : FifoSide) (c : Instr) (go : Bool),
    b.operating = true → d.fifoSide = some side → d.fails .list = false →
    (go = false ∧ c = .pauseExpiry ∧ b.le.activity = .pausing ∧ State.accessBehind ⟨b, q⟩ = false ∧
        entryAt b.storeAt (b.le.cursor + 2) = .run d len base) ∨
      (go = true ∧ c = .dcmdGo ∧ b.le.activity = .running ∧ b.le.run.sub = .ended ∧ b.du.run.sub = .ended ∧
        (b.sm.phase = .idle → b.sm.pendList = none) ∧ b.du.describe.fails .direct = false ∧
        (∀ f, b.du.describe.fifoSide = some f → (b.fifo f).claim ≠ .list) ∧
        entryAt b.storeAt b.le.cursor = .run d len base) →
    ∃ come b' : Block, Answers c ⟨b, q⟩ b' ∧ (go = false → come = b.nextEntry 2) ∧
      (go = true → b.goTaken.Prepares .direct come ∧ come.le = b.le) ∧
      ((come.fifo side).claim = .direct →
        b' = { come with le := { come.le with
          activity := .waitClaim side, entryLen := len, inlineBase := base
          stallTimer := if come.stallLimit = 0 then none else some come.stallLimit.toNat
          run := { come.le.run with desc := d, stall := .claim } } }) ∧
      ((come.fifo side).claim ≠ .direct →
        Block.Prepares
          { come.setClaim side .list with le := { come.le with
            activity := .running, entryLen := len, inlineBase := base, stallTimer := none
            run := { come.le.run with desc := d, stall := .noStall } } } .list b'))

/-! ## The Booking Unit (chapter 9) -/

/-- R150 and R151: every command of BKCMD is refused for a BKSEL of 0 or 31, and a READ copies the entry into staging. -/
def Obligations.BookingReadAndBadStation : Prop :=
  ∀ (b : Block) (q : List Instr) (e : Booking), b.operating = true → e = b.bu.entry b.bu.bksel.toNat →
    (∀ c, c ∈ [Instr.bkcmdRead, .bkcmdBook, .bkcmdUnbook, .bkcmdArm, .bkcmdDisarm] →
      b.bu.bksel = 0 ∨ b.bu.bksel = 31 → Answers c ⟨b, q⟩ (b.refuse .badStation)) ∧
    (b.bu.bksel ≠ 0 → b.bu.bksel ≠ 31 →
      ∃ b', Answers .bkcmdRead ⟨b, q⟩ b' ∧
        b' = { b with bu := { b.bu with
          bkcls := b'.bu.bkcls, bka1v := b'.bu.bka1v, bka1d := b'.bu.bka1d, bka2v := b'.bu.bka2v, bka2d := b'.bu.bka2d,
          bktag := b'.bu.bktag, bkcnt := b'.bu.bkcnt } } ∧
        BookClass.ofCode b'.bu.bkcls = some e.cls ∧
        Verb.ofCode (b'.bu.bka1v.field 14 2) = e.clear.verb ∧ b'.bu.bka1v.field 0 12 = e.clear.cell ∧
        b'.bu.bka1d = e.clear.data ∧
        Verb.ofCode (b'.bu.bka2v.field 14 2) = e.disarm.verb ∧ b'.bu.bka2v.field 0 12 = e.disarm.cell ∧
        b'.bu.bka2d = e.disarm.data ∧ b'.bu.bktag = e.tag ∧
        b'.bu.bkcnt.field 0 8 = e.count ∧ b'.bu.bkcnt.field 8 3 = e.state.code ∧ b'.bu.bkcnt.field 12 2 = e.mark.code)

/-- R152: what a BOOK writes and when it is refused. -/
def Obligations.BookWritesTheEntry : Prop :=
  ∀ (b : Block) (q : List Instr) (k : Nat) (e : Booking) (a1 a2 : Action),
    b.operating = true → b.bu.bksel ≠ 0 → b.bu.bksel ≠ 31 → k = b.bu.bksel.toNat → e = b.bu.entry k →
    a1 = { verb := Verb.ofCode (b.bu.bka1v.field 14 2), cell := b.bu.bka1v.field 0 12
           data := if b.bu.bka1v.field 14 2 = 1 then b.bu.bka1d else 0 } →
    a2 = { verb := Verb.ofCode (b.bu.bka2v.field 14 2), cell := b.bu.bka2v.field 0 12
           data := if b.bu.bka2v.field 14 2 = 1 then b.bu.bka2d else 0 } →
    (e.state = .queued ∨ e.state = .inService → Answers .bkcmdBook ⟨b, q⟩ (b.refuse .bookingBusy)) ∧
    (e.state ≠ .queued → e.state ≠ .inService →
      (b.bu.bkcls = 3 ∨ ((b.bu.bkcls = 1 ∨ b.bu.bkcls = 2) ∧ a1.verb = .unused) ∨
          (b.bu.bkcls = 2 ∧ a2.verb = .unused) →
        Answers .bkcmdBook ⟨b, q⟩ (b.refuse .badClass)) ∧
      (∀ (cls : BookClass) (clear disarm : Action),
        (b.bu.bkcls = 0 ∧ cls = .notify ∧ clear = Action.absent ∧ disarm = Action.absent) ∨
          (b.bu.bkcls = 1 ∧ cls = .repeat ∧ clear = a1 ∧ disarm = Action.absent ∧ a1.verb ≠ .unused) ∨
          (b.bu.bkcls = 2 ∧ cls = .once ∧ clear = a1 ∧ disarm = a2 ∧ a1.verb ≠ .unused ∧ a2.verb ≠ .unused) →
        ∃ b', Answers .bkcmdBook ⟨b, q⟩ b' ∧ b' = { b with bu := { b.bu with table := b'.bu.table } } ∧
          b'.bu.entry k = { state := .armed, cls := cls, clear := clear, disarm := disarm, tag := b.bu.bktag, count := 0
                            mark := .noMark } ∧
          ∀ j, j ≠ k → b'.bu.entry j = b.bu.entry j))

/-- R154. -/
def Obligations.ArmReturnsADisarmedBooking : Prop :=
  ∀ (b : Block) (q : List Instr) (k : Nat) (e : Booking),
    b.operating = true → b.bu.bksel ≠ 0 → b.bu.bksel ≠ 31 → k = b.bu.bksel.toNat → e = b.bu.entry k →
    (e.state = .unbooked → Answers .bkcmdArm ⟨b, q⟩ (b.refuse .notBooked)) ∧
    (e.state = .armed ∨ e.state = .queued → Answers .bkcmdArm ⟨b, q⟩ b) ∧
    (e.state = .inService → Answers .bkcmdArm ⟨b, q⟩ (b.refuse .bookingBusy)) ∧
    (e.state = .disarmed →
      ∃ b', Answers .bkcmdArm ⟨b, q⟩ b' ∧ b' = { b with bu := { b.bu with table := b'.bu.table } } ∧
        b'.bu.entry k = { e with state := .armed } ∧ ∀ j, j ≠ k → b'.bu.entry j = b.bu.entry j)

/-- R153 and R155: UNBOOK and DISARM by the state of the entry. A QUEUED station leaves the Service Queue, whose other
stations keep their order; a service under way goes on with the marker set, and a pending UNBOOK stays. -/
def Obligations.UnbookAndDisarm : Prop :=
  ∀ (b : Block) (q : List Instr) (k : Nat) (e : Booking) (c : Instr) (goal : BookState) (mark : PendingMark),
    b.operating = true → b.bu.bksel ≠ 0 → b.bu.bksel ≠ 31 → k = b.bu.bksel.toNat → e = b.bu.entry k →
    (c = .bkcmdUnbook ∧ goal = .unbooked ∧ mark = .unbook) ∨ (c = .bkcmdDisarm ∧ goal = .disarmed ∧ mark = .disarm) →
    (e.state = .unbooked → Answers c ⟨b, q⟩ (if c = .bkcmdDisarm then b.refuse .notBooked else b)) ∧
    (e.state = .armed ∨ (e.state = .disarmed ∧ goal = .unbooked) →
      ∃ b', Answers c ⟨b, q⟩ b' ∧ b' = { b with bu := { b.bu with table := b'.bu.table } } ∧
        b'.bu.entry k = { e with state := goal } ∧ ∀ j, j ≠ k → b'.bu.entry j = b.bu.entry j) ∧
    (e.state = .disarmed → goal = .disarmed → Answers c ⟨b, q⟩ b) ∧
    (e.state = .queued →
      ∃ b', Answers c ⟨b, q⟩ b' ∧
        b' = { b with bu := { b.bu with table := b'.bu.table, queue := b.bu.queue.filter (· ≠ k) } } ∧
        b'.bu.entry k = { e with state := goal } ∧ ∀ j, j ≠ k → b'.bu.entry j = b.bu.entry j) ∧
    (e.state = .inService →
      ∃ b', Answers c ⟨b, q⟩ b' ∧ b' = { b with bu := { b.bu with table := b'.bu.table } } ∧
        b'.bu.entry k = { e with mark := if e.mark = .unbook then .unbook else mark } ∧
        ∀ j, j ≠ k → b'.bu.entry j = b.bu.entry j)

/-- R160, R161 and R164: a service that waits in RESERVING takes a free slot and posts its clear action as SERVICE, with the
retry limit of TIM2, which an IDLE Segment Master grants at once; without a free slot it waits on (that the command has no
effect then is log entry 11). With SEGEN at 0 the action is answered OFFLINE, and the record posted with it. A NOTIFY
service has no action: it posts its record, outcome DONE, at once. Behind a record the services that can start do (R159,
R162, R163). The order of record and SVFLT is log entry 21. -/
def Obligations.ReservationPostsTheClearAction : Prop :=
  ∀ (b : Block) (q : List Instr) (e : Booking), b.operating = true → b.bu.ctx = .reserving →
    e = b.bu.entry b.bu.station →
    (16 ≤ b.ru.nq.length → Answers .reservationRetry ⟨b, q⟩ b) ∧
    (b.ru.nq.length < 16 → e.cls ≠ .notify → b.sm.segen = true → b.sm.phase ≠ .idle →
      Answers .reservationRetry ⟨b, q⟩
        { b with
          ru := { b.ru with nq := b.ru.nq ++ [.reserved] }
          bu := { b.bu with ctx := .action1 }
          sm := { b.sm with
            pendService := some
              { station := b.bu.station, verb := e.clear.verb, cell := e.clear.cell.toNat, retries := b.bu.tim2.toNat
                source := if e.clear.verb = .store then .word e.clear.data else .noData } } }) ∧
    (b.ru.nq.length < 16 → e.cls ≠ .notify → b.sm.segen = true →
      ∃ b', Answers .reservationRetry ⟨b, q⟩ b' ∧ b.slotReserved.ActionPosted .action1 e.clear b') ∧
    (b.ru.nq.length < 16 → e.cls ≠ .notify → b.sm.segen = false →
      ∃ b', Answers .reservationRetry ⟨b, q⟩ b' ∧ b.slotReserved.ServiceOver .offline b.bu.value b') ∧
    (b.ru.nq.length < 16 → e.cls = .notify →
      ∃ b', Answers .reservationRetry ⟨b, q⟩ b' ∧ b.slotReserved.ServiceOver .done b.bu.value b')

/-- R161 to R164: a reply to a service's action. A DONE to a ONCE booking's clear action posts its disarm action, with the
value of a FETCH kept; with SEGEN at 0 that action is answered OFFLINE, and the service ends with it. Any other reply to an
action ends the service with its outcome: the record takes the reserved slot with the count increased, the entry gets the
state the first line that applies gives it, and a failure without a marker sets SVFLT. With SEGEN at 1 the services that
wait start behind it: one with an action posts it or waits for a slot, a NOTIFY posts its record and the next starts
(R159). The order of record and SVFLT is log entry 21. -/
def Obligations.ServicePostsItsRecord : Prop :=
  ∀ (b : Block) (q : List Instr) (w : WordTx) (bits : List Bool) (e : Ending) (v : Word) (ent : Booking)
      (value : Option Word),
    b.operating = true → b.sm.phase = .await → b.sm.tx = some (.word w) → w.client = .service →
    judgeReply w.verb bits = (e, v) → e ≠ .corrupt → ent = b.bu.entry b.bu.station →
    value = (if b.bu.ctx = .action1 ∧ e = .done ∧ ent.clear.verb = .fetch then some v else b.bu.value) →
    (b.bu.ctx = .action1 → ent.cls = .once → e = .done →
      (b.sm.segen = true →
        Answers (.replyEnd bits) ⟨b, q⟩
          { b.replied w e with
            bu := { b.bu with ctx := .action2, value := value }
            sm := { (b.replied w e).sm with
              pendService := some (serviceRequest b.bu.tim2 b.bu.station ent.disarm) } }) ∧
      (b.sm.segen = false →
        ∃ b', Answers (.replyEnd bits) ⟨b, q⟩ b' ∧ (b.replied w e).ServiceOver .offline value b')) ∧
    ((b.bu.ctx = .action1 ∧ (ent.cls = .repeat ∨ e ≠ .done)) ∨ b.bu.ctx = .action2 →
      ∃ b', Answers (.replyEnd bits) ⟨b, q⟩ b' ∧ (b.replied w e).ServiceOver e value b')

/-- R157 and R173: at every step a station is queued at most once and exactly while its entry is QUEUED, at most one entry is
IN-SERVICE, the queue's slots stay within 16, and a slot is reserved exactly while a service is at its actions. -/
def Obligations.ServiceQueueStaysSound : Prop :=
  KeptByEveryStep (fun b => b.QueueBounded ∧ b.ServiceQueueSound)

/-! ## The Report Unit (chapter 10) and the refusal reason -/

/-- R167, R176 and R187: what an event of a condition does to the flags, the spill marks and the queue, and what a refusal
records. -/
def Obligations.ConditionsSetPostAndSpill : Prop :=
  ∀ (b : Block) (c : Condition),
    (b.ru.flag c = true → b.setCondition c = b) ∧
    (b.ru.flag c = false →
      ∃ r : Ru, b.setCondition c = { b with ru := { b.ru with flags := r.flags, spills := r.spills, nq := r.nq } } ∧
        (∀ d, r.flag d = (b.ru.flag d || decide (d = c))) ∧
        (b.ru.route c ≠ .queue → r.nq = b.ru.nq ∧ r.spills = b.ru.spills) ∧
        (b.ru.route c = .queue → b.ru.nq.length < 16 →
          r.nq = b.ru.nq ++ [.occupied (.condition c)] ∧ r.spills = b.ru.spills) ∧
        (b.ru.route c = .queue → 16 ≤ b.ru.nq.length →
          r.nq = b.ru.nq ∧ ∀ d, r.spilled d = (b.ru.spilled d || decide (d = c)))) ∧
    (∀ reason, b.refuse reason = Block.setCondition { b with hp := { b.hp with rsn := reason } } .refuse)

/-- R171 and R172: IRQ and ALERT, exactly. The last clause is the value that a read of each register returns, field by field,
in the terms of section 11.7 and the rules it gathers (R11, R54, R66, R87, R110, R144, R159, R169, R177, R187). Reads are
values of the state, and the two reads with an effect are commands of their own (log entries 7 and 23). -/
def Obligations.LinesFollowTheirTerms : Prop :=
  ∀ b : Block, b.operating = true →
    (b.irq = true ↔ (∃ c, b.ru.flag c = true ∧ b.ru.route c = .irq) ∨
      (b.ru.len.getLsbD 0 = true ∧ ∃ r rest, b.ru.nq = .occupied r :: rest) ∨
      (b.ru.len.getLsbD 1 = true ∧ b.fp.idrqMark.toNat ≤ b.fp.inb.words.length) ∨
      (b.ru.len.getLsbD 2 = true ∧ b.fp.out.words.length ≤ b.fp.odrqMark.toNat)) ∧
    (b.alert = true ↔ (∃ c, b.ru.flag c = true ∧ b.ru.route c = .alert) ∨ ∃ c, b.ru.spilled c = true) ∧
    b.RegisterReads

/-- R168 and R171: CND clears the flags written with 1 and their spill marks, and removes no record; LEN takes its three
enables. -/
def Obligations.CndAndLenWrites : Prop :=
  ∀ (b : Block) (q : List Instr) (v : Word), b.operating = true →
    (∃ r : Ru, Answers (.cndWrite v) ⟨b, q⟩
        { b with ru := { b.ru with flags := r.flags, spills := r.spills } } ∧
      ∀ c : Condition, r.flag c = (b.ru.flag c && !v.bit c.number) ∧
        r.spilled c = (b.ru.spilled c && !v.bit c.number)) ∧
    Answers (.lenWrite v) ⟨b, q⟩ { b with ru := { b.ru with len := v.field 0 3 } }

/-- R169: every spilled condition is set, at every step. -/
def Obligations.SpilledConditionsStaySet : Prop := KeptByEveryStep Block.SpilledAreSet

/-- R160, R175 and R178: NQADV removes an occupied head and is refused without one. A slot that it frees in a full queue
goes to a producer that waits for it, or is left for one that arrives fresh, and then the producer waits on.
That a waiting producer's attempt may belong to the command is log entry 12, whose choices are log entry 2's. -/
def Obligations.NqadvFreesOneSlot : Prop :=
  ∀ (b : Block) (q : List Instr) (r : Record) (rest : List Slot), b.operating = true →
    (b.ru.nq = [] ∨ b.ru.nq = .reserved :: rest → Answers .nqadv ⟨b, q⟩ (b.refuse .nqEmpty)) ∧
    (b.ru.nq = .occupied r :: rest → b.bu.ctx ≠ .reserving → b.le.activity ≠ .waitNq →
      Answers .nqadv ⟨b, q⟩ { b with ru := { b.ru with nq := rest } }) ∧
    (b.ru.nq = .occupied r :: rest → rest.length = 15 →
      (b.bu.ctx = .reserving → (b.bu.entry b.bu.station).cls ≠ .notify) → b.sm.segen = true → b.sm.phase ≠ .idle →
      ∃ b', Answers .nqadv ⟨b, q⟩ b' ∧
        ((b'.ru.nq = rest ∧ b'.bu = b.bu ∧ b'.le = b.le ∧ b'.sm = b.sm) ∨
          (b.bu.ctx = .reserving ∧ b'.ru.nq = rest ++ [.reserved] ∧ b'.bu = { b.bu with ctx := .action1 } ∧
            b'.le = b.le ∧ b'.sm = b.sm.setRequest .service
              (some (serviceRequest b.bu.tim2 b.bu.station (b.bu.entry b.bu.station).clear))) ∨
          (b.le.activity = .waitNq ∧ b'.ru.nq = rest ++ [.occupied (.mark b.le.cursor b.le.tag)] ∧ b'.bu = b.bu)))

/-- The invariants hold right after the power-on reset. What `State.reset` stands for is log entry 4. -/
def Obligations.ResetStateIsSound : Prop :=
  State.reset.block.StoreCanonical ∧ State.reset.block.FifosAccounted ∧ State.reset.block.SpilledAreSet ∧
    State.reset.block.EnabledTableValid ∧ State.reset.block.RunsCounted ∧ State.reset.block.QueueBounded ∧
    State.reset.block.ServiceQueueSound ∧ State.reset.pending = []
end

