-- ==== Sys2Proof/Laws/State.lean ====
section
/-! SUPPORT. What each update of the part leaves as it was, one lemma per field, and what it sets. No later proof
unfolds a record update of these. -/

namespace Sys2Proof.Machine

@[simp] theorem Block.setCondition_hp (b : Block) (c : Condition) : (b.setCondition c).hp = b.hp := rfl
@[simp] theorem Block.setCondition_sm (b : Block) (c : Condition) : (b.setCondition c).sm = b.sm := rfl
@[simp] theorem Block.setCondition_du (b : Block) (c : Condition) : (b.setCondition c).du = b.du := rfl
@[simp] theorem Block.setCondition_le (b : Block) (c : Condition) : (b.setCondition c).le = b.le := rfl
@[simp] theorem Block.setCondition_fp (b : Block) (c : Condition) : (b.setCondition c).fp = b.fp := rfl
@[simp] theorem Block.setCondition_sd (b : Block) (c : Condition) : (b.setCondition c).sd = b.sd := rfl
@[simp] theorem Block.setCondition_au (b : Block) (c : Condition) : (b.setCondition c).au = b.au := rfl
@[simp] theorem Block.setCondition_bu (b : Block) (c : Condition) : (b.setCondition c).bu = b.bu := rfl
@[simp] theorem Block.setCondition_deadline (b : Block) (c : Condition) : (b.setCondition c).deadline = b.deadline := rfl
@[simp] theorem Block.setCondition_stallLimit (b : Block) (c : Condition) : (b.setCondition c).stallLimit = b.stallLimit := rfl
@[simp] theorem Block.setCondition_choices (b : Block) (c : Condition) : (b.setCondition c).choices = b.choices := rfl

@[simp] theorem Block.refuse_sm (b : Block) (r : Reason) : (b.refuse r).sm = b.sm := rfl
@[simp] theorem Block.refuse_du (b : Block) (r : Reason) : (b.refuse r).du = b.du := rfl
@[simp] theorem Block.refuse_le (b : Block) (r : Reason) : (b.refuse r).le = b.le := rfl
@[simp] theorem Block.refuse_fp (b : Block) (r : Reason) : (b.refuse r).fp = b.fp := rfl
@[simp] theorem Block.refuse_sd (b : Block) (r : Reason) : (b.refuse r).sd = b.sd := rfl
@[simp] theorem Block.refuse_au (b : Block) (r : Reason) : (b.refuse r).au = b.au := rfl
@[simp] theorem Block.refuse_bu (b : Block) (r : Reason) : (b.refuse r).bu = b.bu := rfl
@[simp] theorem Block.refuse_deadline (b : Block) (r : Reason) : (b.refuse r).deadline = b.deadline := rfl
@[simp] theorem Block.refuse_stallLimit (b : Block) (r : Reason) : (b.refuse r).stallLimit = b.stallLimit := rfl
@[simp] theorem Block.refuse_choices (b : Block) (r : Reason) : (b.refuse r).choices = b.choices := rfl

@[simp] theorem Block.withdraw_hp (b : Block) (c : Client) : (b.withdraw c).hp = b.hp := rfl
@[simp] theorem Block.withdraw_du (b : Block) (c : Client) : (b.withdraw c).du = b.du := rfl
@[simp] theorem Block.withdraw_le (b : Block) (c : Client) : (b.withdraw c).le = b.le := rfl
@[simp] theorem Block.withdraw_fp (b : Block) (c : Client) : (b.withdraw c).fp = b.fp := rfl
@[simp] theorem Block.withdraw_sd (b : Block) (c : Client) : (b.withdraw c).sd = b.sd := rfl
@[simp] theorem Block.withdraw_au (b : Block) (c : Client) : (b.withdraw c).au = b.au := rfl
@[simp] theorem Block.withdraw_bu (b : Block) (c : Client) : (b.withdraw c).bu = b.bu := rfl
@[simp] theorem Block.withdraw_ru (b : Block) (c : Client) : (b.withdraw c).ru = b.ru := rfl
@[simp] theorem Block.withdraw_deadline (b : Block) (c : Client) : (b.withdraw c).deadline = b.deadline := rfl
@[simp] theorem Block.withdraw_stallLimit (b : Block) (c : Client) : (b.withdraw c).stallLimit = b.stallLimit := rfl
@[simp] theorem Block.withdraw_choices (b : Block) (c : Client) : (b.withdraw c).choices = b.choices := rfl

@[simp] theorem Block.storePut_hp (b : Block) (a : Nat) (w : Word) : (b.storePut a w).hp = b.hp := rfl
@[simp] theorem Block.storePut_sm (b : Block) (a : Nat) (w : Word) : (b.storePut a w).sm = b.sm := rfl
@[simp] theorem Block.storePut_du (b : Block) (a : Nat) (w : Word) : (b.storePut a w).du = b.du := rfl
@[simp] theorem Block.storePut_fp (b : Block) (a : Nat) (w : Word) : (b.storePut a w).fp = b.fp := rfl
@[simp] theorem Block.storePut_sd (b : Block) (a : Nat) (w : Word) : (b.storePut a w).sd = b.sd := rfl
@[simp] theorem Block.storePut_au (b : Block) (a : Nat) (w : Word) : (b.storePut a w).au = b.au := rfl
@[simp] theorem Block.storePut_bu (b : Block) (a : Nat) (w : Word) : (b.storePut a w).bu = b.bu := rfl
@[simp] theorem Block.storePut_ru (b : Block) (a : Nat) (w : Word) : (b.storePut a w).ru = b.ru := rfl
@[simp] theorem Block.storePut_deadline (b : Block) (a : Nat) (w : Word) : (b.storePut a w).deadline = b.deadline := rfl
@[simp] theorem Block.storePut_stallLimit (b : Block) (a : Nat) (w : Word) : (b.storePut a w).stallLimit = b.stallLimit := rfl
@[simp] theorem Block.storePut_choices (b : Block) (a : Nat) (w : Word) : (b.storePut a w).choices = b.choices := rfl

@[simp] theorem Block.setFifo_hp (b : Block) (d : FifoSide) (f : Fifo) : (b.setFifo d f).hp = b.hp := by cases d <;> rfl
@[simp] theorem Block.setFifo_sm (b : Block) (d : FifoSide) (f : Fifo) : (b.setFifo d f).sm = b.sm := by cases d <;> rfl
@[simp] theorem Block.setFifo_du (b : Block) (d : FifoSide) (f : Fifo) : (b.setFifo d f).du = b.du := by cases d <;> rfl
@[simp] theorem Block.setFifo_le (b : Block) (d : FifoSide) (f : Fifo) : (b.setFifo d f).le = b.le := by cases d <;> rfl
@[simp] theorem Block.setFifo_sd (b : Block) (d : FifoSide) (f : Fifo) : (b.setFifo d f).sd = b.sd := by cases d <;> rfl
@[simp] theorem Block.setFifo_au (b : Block) (d : FifoSide) (f : Fifo) : (b.setFifo d f).au = b.au := by cases d <;> rfl
@[simp] theorem Block.setFifo_bu (b : Block) (d : FifoSide) (f : Fifo) : (b.setFifo d f).bu = b.bu := by cases d <;> rfl
@[simp] theorem Block.setFifo_ru (b : Block) (d : FifoSide) (f : Fifo) : (b.setFifo d f).ru = b.ru := by cases d <;> rfl
@[simp] theorem Block.setFifo_deadline (b : Block) (d : FifoSide) (f : Fifo) : (b.setFifo d f).deadline = b.deadline := by cases d <;> rfl
@[simp] theorem Block.setFifo_stallLimit (b : Block) (d : FifoSide) (f : Fifo) : (b.setFifo d f).stallLimit = b.stallLimit := by cases d <;> rfl
@[simp] theorem Block.setFifo_choices (b : Block) (d : FifoSide) (f : Fifo) : (b.setFifo d f).choices = b.choices := by cases d <;> rfl

@[simp] theorem Block.setClaim_hp (b : Block) (d : FifoSide) (c : Claim) : (b.setClaim d c).hp = b.hp := by cases d <;> rfl
@[simp] theorem Block.setClaim_sm (b : Block) (d : FifoSide) (c : Claim) : (b.setClaim d c).sm = b.sm := by cases d <;> rfl
@[simp] theorem Block.setClaim_du (b : Block) (d : FifoSide) (c : Claim) : (b.setClaim d c).du = b.du := by cases d <;> rfl
@[simp] theorem Block.setClaim_le (b : Block) (d : FifoSide) (c : Claim) : (b.setClaim d c).le = b.le := by cases d <;> rfl
@[simp] theorem Block.setClaim_sd (b : Block) (d : FifoSide) (c : Claim) : (b.setClaim d c).sd = b.sd := by cases d <;> rfl
@[simp] theorem Block.setClaim_au (b : Block) (d : FifoSide) (c : Claim) : (b.setClaim d c).au = b.au := by cases d <;> rfl
@[simp] theorem Block.setClaim_bu (b : Block) (d : FifoSide) (c : Claim) : (b.setClaim d c).bu = b.bu := by cases d <;> rfl
@[simp] theorem Block.setClaim_ru (b : Block) (d : FifoSide) (c : Claim) : (b.setClaim d c).ru = b.ru := by cases d <;> rfl
@[simp] theorem Block.setClaim_deadline (b : Block) (d : FifoSide) (c : Claim) : (b.setClaim d c).deadline = b.deadline := by cases d <;> rfl
@[simp] theorem Block.setClaim_stallLimit (b : Block) (d : FifoSide) (c : Claim) : (b.setClaim d c).stallLimit = b.stallLimit := by cases d <;> rfl
@[simp] theorem Block.setClaim_choices (b : Block) (d : FifoSide) (c : Claim) : (b.setClaim d c).choices = b.choices := by cases d <;> rfl

@[simp] theorem Block.setRun_hp (b : Block) (o : Owner) (r : Run) : (b.setRun o r).hp = b.hp := by cases o <;> rfl
@[simp] theorem Block.setRun_sm (b : Block) (o : Owner) (r : Run) : (b.setRun o r).sm = b.sm := by cases o <;> rfl
@[simp] theorem Block.setRun_fp (b : Block) (o : Owner) (r : Run) : (b.setRun o r).fp = b.fp := by cases o <;> rfl
@[simp] theorem Block.setRun_sd (b : Block) (o : Owner) (r : Run) : (b.setRun o r).sd = b.sd := by cases o <;> rfl
@[simp] theorem Block.setRun_au (b : Block) (o : Owner) (r : Run) : (b.setRun o r).au = b.au := by cases o <;> rfl
@[simp] theorem Block.setRun_bu (b : Block) (o : Owner) (r : Run) : (b.setRun o r).bu = b.bu := by cases o <;> rfl
@[simp] theorem Block.setRun_ru (b : Block) (o : Owner) (r : Run) : (b.setRun o r).ru = b.ru := by cases o <;> rfl
@[simp] theorem Block.setRun_deadline (b : Block) (o : Owner) (r : Run) : (b.setRun o r).deadline = b.deadline := by cases o <;> rfl
@[simp] theorem Block.setRun_stallLimit (b : Block) (o : Owner) (r : Run) : (b.setRun o r).stallLimit = b.stallLimit := by cases o <;> rfl
@[simp] theorem Block.setRun_choices (b : Block) (o : Owner) (r : Run) : (b.setRun o r).choices = b.choices := by cases o <;> rfl

@[simp] theorem Block.releaseList_hp (b : Block) : (b.releaseList).hp = b.hp := rfl
@[simp] theorem Block.releaseList_sm (b : Block) : (b.releaseList).sm = b.sm := rfl
@[simp] theorem Block.releaseList_du (b : Block) : (b.releaseList).du = b.du := rfl
@[simp] theorem Block.releaseList_le (b : Block) : (b.releaseList).le = b.le := rfl
@[simp] theorem Block.releaseList_sd (b : Block) : (b.releaseList).sd = b.sd := rfl
@[simp] theorem Block.releaseList_au (b : Block) : (b.releaseList).au = b.au := rfl
@[simp] theorem Block.releaseList_bu (b : Block) : (b.releaseList).bu = b.bu := rfl
@[simp] theorem Block.releaseList_ru (b : Block) : (b.releaseList).ru = b.ru := rfl
@[simp] theorem Block.releaseList_deadline (b : Block) : (b.releaseList).deadline = b.deadline := rfl
@[simp] theorem Block.releaseList_stallLimit (b : Block) : (b.releaseList).stallLimit = b.stallLimit := rfl
@[simp] theorem Block.releaseList_choices (b : Block) : (b.releaseList).choices = b.choices := rfl

@[simp] theorem Block.releaseDirect_hp (b : Block) : (b.releaseDirect).hp = b.hp := rfl
@[simp] theorem Block.releaseDirect_sm (b : Block) : (b.releaseDirect).sm = b.sm := rfl
@[simp] theorem Block.releaseDirect_du (b : Block) : (b.releaseDirect).du = b.du := rfl
@[simp] theorem Block.releaseDirect_le (b : Block) : (b.releaseDirect).le = b.le := rfl
@[simp] theorem Block.releaseDirect_sd (b : Block) : (b.releaseDirect).sd = b.sd := rfl
@[simp] theorem Block.releaseDirect_au (b : Block) : (b.releaseDirect).au = b.au := rfl
@[simp] theorem Block.releaseDirect_bu (b : Block) : (b.releaseDirect).bu = b.bu := rfl
@[simp] theorem Block.releaseDirect_ru (b : Block) : (b.releaseDirect).ru = b.ru := rfl
@[simp] theorem Block.releaseDirect_deadline (b : Block) : (b.releaseDirect).deadline = b.deadline := rfl
@[simp] theorem Block.releaseDirect_stallLimit (b : Block) : (b.releaseDirect).stallLimit = b.stallLimit := rfl
@[simp] theorem Block.releaseDirect_choices (b : Block) : (b.releaseDirect).choices = b.choices := rfl

@[simp] theorem Block.listAdvance_hp (b : Block) (n : Nat) : (b.listAdvance n).hp = b.hp := rfl
@[simp] theorem Block.listAdvance_sm (b : Block) (n : Nat) : (b.listAdvance n).sm = b.sm := rfl
@[simp] theorem Block.listAdvance_du (b : Block) (n : Nat) : (b.listAdvance n).du = b.du := rfl
@[simp] theorem Block.listAdvance_fp (b : Block) (n : Nat) : (b.listAdvance n).fp = b.fp := rfl
@[simp] theorem Block.listAdvance_sd (b : Block) (n : Nat) : (b.listAdvance n).sd = b.sd := rfl
@[simp] theorem Block.listAdvance_au (b : Block) (n : Nat) : (b.listAdvance n).au = b.au := rfl
@[simp] theorem Block.listAdvance_bu (b : Block) (n : Nat) : (b.listAdvance n).bu = b.bu := rfl
@[simp] theorem Block.listAdvance_ru (b : Block) (n : Nat) : (b.listAdvance n).ru = b.ru := rfl
@[simp] theorem Block.listAdvance_deadline (b : Block) (n : Nat) : (b.listAdvance n).deadline = b.deadline := rfl
@[simp] theorem Block.listAdvance_stallLimit (b : Block) (n : Nat) : (b.listAdvance n).stallLimit = b.stallLimit := rfl
@[simp] theorem Block.listAdvance_choices (b : Block) (n : Nat) : (b.listAdvance n).choices = b.choices := rfl

@[simp] theorem Block.listTakeEntry_hp (b : Block) (d : RunDesc) (n m : Nat) : (b.listTakeEntry d n m).hp = b.hp := rfl
@[simp] theorem Block.listTakeEntry_sm (b : Block) (d : RunDesc) (n m : Nat) : (b.listTakeEntry d n m).sm = b.sm := rfl
@[simp] theorem Block.listTakeEntry_du (b : Block) (d : RunDesc) (n m : Nat) : (b.listTakeEntry d n m).du = b.du := rfl
@[simp] theorem Block.listTakeEntry_fp (b : Block) (d : RunDesc) (n m : Nat) : (b.listTakeEntry d n m).fp = b.fp := rfl
@[simp] theorem Block.listTakeEntry_sd (b : Block) (d : RunDesc) (n m : Nat) : (b.listTakeEntry d n m).sd = b.sd := rfl
@[simp] theorem Block.listTakeEntry_au (b : Block) (d : RunDesc) (n m : Nat) : (b.listTakeEntry d n m).au = b.au := rfl
@[simp] theorem Block.listTakeEntry_bu (b : Block) (d : RunDesc) (n m : Nat) : (b.listTakeEntry d n m).bu = b.bu := rfl
@[simp] theorem Block.listTakeEntry_ru (b : Block) (d : RunDesc) (n m : Nat) : (b.listTakeEntry d n m).ru = b.ru := rfl
@[simp] theorem Block.listTakeEntry_deadline (b : Block) (d : RunDesc) (n m : Nat) : (b.listTakeEntry d n m).deadline = b.deadline := rfl
@[simp] theorem Block.listTakeEntry_stallLimit (b : Block) (d : RunDesc) (n m : Nat) : (b.listTakeEntry d n m).stallLimit = b.stallLimit := rfl
@[simp] theorem Block.listTakeEntry_choices (b : Block) (d : RunDesc) (n m : Nat) : (b.listTakeEntry d n m).choices = b.choices := rfl

@[simp] theorem Block.listPause_hp (b : Block) (n : Nat) : (b.listPause n).hp = b.hp := rfl
@[simp] theorem Block.listPause_sm (b : Block) (n : Nat) : (b.listPause n).sm = b.sm := rfl
@[simp] theorem Block.listPause_du (b : Block) (n : Nat) : (b.listPause n).du = b.du := rfl
@[simp] theorem Block.listPause_fp (b : Block) (n : Nat) : (b.listPause n).fp = b.fp := rfl
@[simp] theorem Block.listPause_sd (b : Block) (n : Nat) : (b.listPause n).sd = b.sd := rfl
@[simp] theorem Block.listPause_au (b : Block) (n : Nat) : (b.listPause n).au = b.au := rfl
@[simp] theorem Block.listPause_bu (b : Block) (n : Nat) : (b.listPause n).bu = b.bu := rfl
@[simp] theorem Block.listPause_ru (b : Block) (n : Nat) : (b.listPause n).ru = b.ru := rfl
@[simp] theorem Block.listPause_deadline (b : Block) (n : Nat) : (b.listPause n).deadline = b.deadline := rfl
@[simp] theorem Block.listPause_stallLimit (b : Block) (n : Nat) : (b.listPause n).stallLimit = b.stallLimit := rfl
@[simp] theorem Block.listPause_choices (b : Block) (n : Nat) : (b.listPause n).choices = b.choices := rfl

@[simp] theorem Block.listWaitNq_hp (b : Block) (t : Word) : (b.listWaitNq t).hp = b.hp := rfl
@[simp] theorem Block.listWaitNq_sm (b : Block) (t : Word) : (b.listWaitNq t).sm = b.sm := rfl
@[simp] theorem Block.listWaitNq_du (b : Block) (t : Word) : (b.listWaitNq t).du = b.du := rfl
@[simp] theorem Block.listWaitNq_fp (b : Block) (t : Word) : (b.listWaitNq t).fp = b.fp := rfl
@[simp] theorem Block.listWaitNq_sd (b : Block) (t : Word) : (b.listWaitNq t).sd = b.sd := rfl
@[simp] theorem Block.listWaitNq_au (b : Block) (t : Word) : (b.listWaitNq t).au = b.au := rfl
@[simp] theorem Block.listWaitNq_bu (b : Block) (t : Word) : (b.listWaitNq t).bu = b.bu := rfl
@[simp] theorem Block.listWaitNq_ru (b : Block) (t : Word) : (b.listWaitNq t).ru = b.ru := rfl
@[simp] theorem Block.listWaitNq_deadline (b : Block) (t : Word) : (b.listWaitNq t).deadline = b.deadline := rfl
@[simp] theorem Block.listWaitNq_stallLimit (b : Block) (t : Word) : (b.listWaitNq t).stallLimit = b.stallLimit := rfl
@[simp] theorem Block.listWaitNq_choices (b : Block) (t : Word) : (b.listWaitNq t).choices = b.choices := rfl

@[simp] theorem Block.listWaitClaim_hp (b : Block) (d : FifoSide) : (b.listWaitClaim d).hp = b.hp := rfl
@[simp] theorem Block.listWaitClaim_sm (b : Block) (d : FifoSide) : (b.listWaitClaim d).sm = b.sm := rfl
@[simp] theorem Block.listWaitClaim_du (b : Block) (d : FifoSide) : (b.listWaitClaim d).du = b.du := rfl
@[simp] theorem Block.listWaitClaim_fp (b : Block) (d : FifoSide) : (b.listWaitClaim d).fp = b.fp := rfl
@[simp] theorem Block.listWaitClaim_sd (b : Block) (d : FifoSide) : (b.listWaitClaim d).sd = b.sd := rfl
@[simp] theorem Block.listWaitClaim_au (b : Block) (d : FifoSide) : (b.listWaitClaim d).au = b.au := rfl
@[simp] theorem Block.listWaitClaim_bu (b : Block) (d : FifoSide) : (b.listWaitClaim d).bu = b.bu := rfl
@[simp] theorem Block.listWaitClaim_ru (b : Block) (d : FifoSide) : (b.listWaitClaim d).ru = b.ru := rfl
@[simp] theorem Block.listWaitClaim_deadline (b : Block) (d : FifoSide) : (b.listWaitClaim d).deadline = b.deadline := rfl
@[simp] theorem Block.listWaitClaim_stallLimit (b : Block) (d : FifoSide) : (b.listWaitClaim d).stallLimit = b.stallLimit := rfl
@[simp] theorem Block.listWaitClaim_choices (b : Block) (d : FifoSide) : (b.listWaitClaim d).choices = b.choices := rfl

@[simp] theorem Block.postMark_hp (b : Block) (t : Word) : (b.postMark t).hp = b.hp := rfl
@[simp] theorem Block.postMark_sm (b : Block) (t : Word) : (b.postMark t).sm = b.sm := rfl
@[simp] theorem Block.postMark_du (b : Block) (t : Word) : (b.postMark t).du = b.du := rfl
@[simp] theorem Block.postMark_le (b : Block) (t : Word) : (b.postMark t).le = b.le := rfl
@[simp] theorem Block.postMark_fp (b : Block) (t : Word) : (b.postMark t).fp = b.fp := rfl
@[simp] theorem Block.postMark_sd (b : Block) (t : Word) : (b.postMark t).sd = b.sd := rfl
@[simp] theorem Block.postMark_au (b : Block) (t : Word) : (b.postMark t).au = b.au := rfl
@[simp] theorem Block.postMark_bu (b : Block) (t : Word) : (b.postMark t).bu = b.bu := rfl
@[simp] theorem Block.postMark_deadline (b : Block) (t : Word) : (b.postMark t).deadline = b.deadline := rfl
@[simp] theorem Block.postMark_stallLimit (b : Block) (t : Word) : (b.postMark t).stallLimit = b.stallLimit := rfl
@[simp] theorem Block.postMark_choices (b : Block) (t : Word) : (b.postMark t).choices = b.choices := rfl

@[simp] theorem Block.advanceLptr_hp (b : Block) : (b.advanceLptr).hp = b.hp := rfl
@[simp] theorem Block.advanceLptr_sm (b : Block) : (b.advanceLptr).sm = b.sm := rfl
@[simp] theorem Block.advanceLptr_du (b : Block) : (b.advanceLptr).du = b.du := rfl
@[simp] theorem Block.advanceLptr_fp (b : Block) : (b.advanceLptr).fp = b.fp := rfl
@[simp] theorem Block.advanceLptr_sd (b : Block) : (b.advanceLptr).sd = b.sd := rfl
@[simp] theorem Block.advanceLptr_au (b : Block) : (b.advanceLptr).au = b.au := rfl
@[simp] theorem Block.advanceLptr_bu (b : Block) : (b.advanceLptr).bu = b.bu := rfl
@[simp] theorem Block.advanceLptr_ru (b : Block) : (b.advanceLptr).ru = b.ru := rfl
@[simp] theorem Block.advanceLptr_deadline (b : Block) : (b.advanceLptr).deadline = b.deadline := rfl
@[simp] theorem Block.advanceLptr_stallLimit (b : Block) : (b.advanceLptr).stallLimit = b.stallLimit := rfl
@[simp] theorem Block.advanceLptr_choices (b : Block) : (b.advanceLptr).choices = b.choices := rfl

@[simp] theorem Block.directResults_hp (b : Block) (r : Result) : (b.directResults r).hp = b.hp := rfl
@[simp] theorem Block.directResults_sm (b : Block) (r : Result) : (b.directResults r).sm = b.sm := rfl
@[simp] theorem Block.directResults_le (b : Block) (r : Result) : (b.directResults r).le = b.le := rfl
@[simp] theorem Block.directResults_fp (b : Block) (r : Result) : (b.directResults r).fp = b.fp := rfl
@[simp] theorem Block.directResults_sd (b : Block) (r : Result) : (b.directResults r).sd = b.sd := rfl
@[simp] theorem Block.directResults_au (b : Block) (r : Result) : (b.directResults r).au = b.au := rfl
@[simp] theorem Block.directResults_bu (b : Block) (r : Result) : (b.directResults r).bu = b.bu := rfl
@[simp] theorem Block.directResults_ru (b : Block) (r : Result) : (b.directResults r).ru = b.ru := rfl
@[simp] theorem Block.directResults_deadline (b : Block) (r : Result) : (b.directResults r).deadline = b.deadline := rfl
@[simp] theorem Block.directResults_stallLimit (b : Block) (r : Result) : (b.directResults r).stallLimit = b.stallLimit := rfl
@[simp] theorem Block.directResults_choices (b : Block) (r : Result) : (b.directResults r).choices = b.choices := rfl

@[simp] theorem Block.directSnapshot_hp (b : Block) : (b.directSnapshot).hp = b.hp := rfl
@[simp] theorem Block.directSnapshot_sm (b : Block) : (b.directSnapshot).sm = b.sm := rfl
@[simp] theorem Block.directSnapshot_le (b : Block) : (b.directSnapshot).le = b.le := rfl
@[simp] theorem Block.directSnapshot_fp (b : Block) : (b.directSnapshot).fp = b.fp := rfl
@[simp] theorem Block.directSnapshot_sd (b : Block) : (b.directSnapshot).sd = b.sd := rfl
@[simp] theorem Block.directSnapshot_au (b : Block) : (b.directSnapshot).au = b.au := rfl
@[simp] theorem Block.directSnapshot_bu (b : Block) : (b.directSnapshot).bu = b.bu := rfl
@[simp] theorem Block.directSnapshot_ru (b : Block) : (b.directSnapshot).ru = b.ru := rfl
@[simp] theorem Block.directSnapshot_deadline (b : Block) : (b.directSnapshot).deadline = b.deadline := rfl
@[simp] theorem Block.directSnapshot_stallLimit (b : Block) : (b.directSnapshot).stallLimit = b.stallLimit := rfl
@[simp] theorem Block.directSnapshot_choices (b : Block) : (b.directSnapshot).choices = b.choices := rfl

@[simp] theorem Block.setReply_hp (b : Block) (o : Owner) (r : LastReply) : (b.setReply o r).hp = b.hp := by cases o <;> rfl
@[simp] theorem Block.setReply_sm (b : Block) (o : Owner) (r : LastReply) : (b.setReply o r).sm = b.sm := by cases o <;> rfl
@[simp] theorem Block.setReply_fp (b : Block) (o : Owner) (r : LastReply) : (b.setReply o r).fp = b.fp := by cases o <;> rfl
@[simp] theorem Block.setReply_sd (b : Block) (o : Owner) (r : LastReply) : (b.setReply o r).sd = b.sd := by cases o <;> rfl
@[simp] theorem Block.setReply_au (b : Block) (o : Owner) (r : LastReply) : (b.setReply o r).au = b.au := by cases o <;> rfl
@[simp] theorem Block.setReply_bu (b : Block) (o : Owner) (r : LastReply) : (b.setReply o r).bu = b.bu := by cases o <;> rfl
@[simp] theorem Block.setReply_ru (b : Block) (o : Owner) (r : LastReply) : (b.setReply o r).ru = b.ru := by cases o <;> rfl
@[simp] theorem Block.setReply_deadline (b : Block) (o : Owner) (r : LastReply) : (b.setReply o r).deadline = b.deadline := by cases o <;> rfl
@[simp] theorem Block.setReply_stallLimit (b : Block) (o : Owner) (r : LastReply) : (b.setReply o r).stallLimit = b.stallLimit := by cases o <;> rfl
@[simp] theorem Block.setReply_choices (b : Block) (o : Owner) (r : LastReply) : (b.setReply o r).choices = b.choices := by cases o <;> rfl

@[simp] theorem Block.stallRun_hp (b : Block) (o : Owner) (r : StallReason) (x : Bool) : (b.stallRun o r x).hp = b.hp := by cases o <;> rfl
@[simp] theorem Block.stallRun_sm (b : Block) (o : Owner) (r : StallReason) (x : Bool) : (b.stallRun o r x).sm = b.sm := by cases o <;> rfl
@[simp] theorem Block.stallRun_fp (b : Block) (o : Owner) (r : StallReason) (x : Bool) : (b.stallRun o r x).fp = b.fp := by cases o <;> rfl
@[simp] theorem Block.stallRun_sd (b : Block) (o : Owner) (r : StallReason) (x : Bool) : (b.stallRun o r x).sd = b.sd := by cases o <;> rfl
@[simp] theorem Block.stallRun_au (b : Block) (o : Owner) (r : StallReason) (x : Bool) : (b.stallRun o r x).au = b.au := by cases o <;> rfl
@[simp] theorem Block.stallRun_bu (b : Block) (o : Owner) (r : StallReason) (x : Bool) : (b.stallRun o r x).bu = b.bu := by cases o <;> rfl
@[simp] theorem Block.stallRun_ru (b : Block) (o : Owner) (r : StallReason) (x : Bool) : (b.stallRun o r x).ru = b.ru := by cases o <;> rfl
@[simp] theorem Block.stallRun_deadline (b : Block) (o : Owner) (r : StallReason) (x : Bool) : (b.stallRun o r x).deadline = b.deadline := by cases o <;> rfl
@[simp] theorem Block.stallRun_stallLimit (b : Block) (o : Owner) (r : StallReason) (x : Bool) : (b.stallRun o r x).stallLimit = b.stallLimit := by cases o <;> rfl
@[simp] theorem Block.stallRun_choices (b : Block) (o : Owner) (r : StallReason) (x : Bool) : (b.stallRun o r x).choices = b.choices := by cases o <;> rfl

@[simp] theorem Block.setCondition_ru (b : Block) (c : Condition) : (b.setCondition c).ru = b.ru.setCondition c := rfl
@[simp] theorem Block.refuse_ru (b : Block) (r : Reason) : (b.refuse r).ru = b.ru.setCondition .refuse := rfl
@[simp] theorem Block.refuse_rsn (b : Block) (r : Reason) : (b.refuse r).hp.rsn = r := rfl
@[simp] theorem Block.refuse_lock (b : Block) (r : Reason) : (b.refuse r).hp.lock = b.hp.lock := rfl
@[simp] theorem Block.setCondition_operating (b : Block) (c : Condition) :
    (b.setCondition c).operating = b.operating := rfl
@[simp] theorem Block.refuse_operating (b : Block) (r : Reason) : (b.refuse r).operating = b.operating := rfl

@[simp] theorem Block.run_setRun (b : Block) (o : Owner) (r : Run) : (b.setRun o r).run o = r := by cases o <;> rfl
@[simp] theorem Block.setRun_run (b : Block) (o : Owner) : b.setRun o (b.run o) = b := by cases o <;> rfl
@[simp] theorem Block.setRun_setRun (b : Block) (o : Owner) (r r' : Run) :
    (b.setRun o r).setRun o r' = b.setRun o r' := by cases o <;> rfl
theorem Block.run_setRun_of_ne (b : Block) {o o' : Owner} (h : o' ≠ o) (r : Run) :
    (b.setRun o r).run o' = b.run o' := by cases o <;> cases o' <;> first | rfl | exact absurd rfl h

@[simp] theorem Block.fifo_setFifo (b : Block) (d : FifoSide) (f : Fifo) : (b.setFifo d f).fifo d = f := by
  cases d <;> rfl
theorem Block.fifo_setFifo_of_ne (b : Block) {d d' : FifoSide} (h : d' ≠ d) (f : Fifo) :
    (b.setFifo d f).fifo d' = b.fifo d' := by cases d <;> cases d' <;> first | rfl | exact absurd rfl h

@[simp] theorem Block.setRun_store (b : Block) (o : Owner) (r : Run) : (b.setRun o r).le.store = b.le.store := by
  cases o <;> rfl

@[simp] theorem State.onBlock_block (f : Block → Block) (s : State) : (s.onBlock f).block = f s.block := rfl
@[simp] theorem State.onBlock_pending (f : Block → Block) (s : State) : (s.onBlock f).pending = s.pending := rfl

theorem Block.whenOperating_of {f : Block → Block} {b : Block} (h : b.operating = true) :
    b.whenOperating f = f b := by simp [Block.whenOperating, h]

theorem Block.whenOperating_of_not {f : Block → Block} {b : Block} (h : b.operating = false) :
    b.whenOperating f = b.ignored := by simp [Block.whenOperating, h]

/-- A command's answer and its effect on the part say the same. -/
theorem answers_become {c : Instr} {s : State} {f : Block → Block} (h : exec c s = s.become f) :
    Answers c s (f s.block) := h

end Sys2Proof.Machine
end

