-- ==== Sys2Proof/Laws/Memory.lean ====
section
/-! SUPPORT. The List Store as a memory: a read after a write, and the canonical form, which every operation keeps and
in which equal stores are equal data. -/

namespace Sys2Proof.Machine

theorem Memory.read_insert_same (m : Memory) (a : Nat) (w : Word) (h : m.wf) : (m.insert a w).read a = w := by
  induction m with
  | nil => simp only [Memory.insert]; split <;> simp_all [Memory.read]
  | cons p rest ih =>
    obtain ⟨k, v⟩ := p
    have hs := List.pairwise_cons.mp h.1
    have hrest : Memory.wf rest := ⟨hs.2, fun q hq => h.2 q (List.mem_cons_of_mem _ hq)⟩
    have below : ∀ (l : Memory) (c : Nat), (∀ q ∈ l, c < q.1) → Memory.read l c = 0 := by
      intro l c hl
      induction l with
      | nil => rfl
      | cons q l ihl =>
        have := hl q List.mem_cons_self
        simp only [Memory.read]
        rw [if_neg (by omega)]
        exact ihl fun r hr => hl r (List.mem_cons_of_mem _ hr)
    simp only [Memory.insert]
    split
    · next hak =>
      split
      · next hw =>
        have := below ((k, v) :: rest) a (fun q hq => by
          rcases List.mem_cons.mp hq with rfl | hq
          · exact hak
          · exact Nat.lt_trans hak (hs.1 q hq))
        rw [this, hw]
      · simp [Memory.read]
    · split
      · next hak =>
        subst hak
        split
        · next hw => rw [below rest a hs.1, hw]
        · simp [Memory.read]
      · next h1 h2 => simp only [Memory.read]; rw [if_neg (by omega)]; exact ih hrest

theorem Memory.read_insert_other (m : Memory) {a c : Nat} (w : Word) (hc : c ≠ a) :
    (m.insert a w).read c = m.read c := by
  induction m with
  | nil => simp only [Memory.insert]; split <;> simp [Memory.read, Ne.symm hc]
  | cons p rest ih =>
    obtain ⟨k, v⟩ := p
    simp only [Memory.insert]
    split
    · split <;> simp [Memory.read, Ne.symm hc]
    · split
      · next h =>
        subst h
        split <;> simp [Memory.read, Ne.symm hc]
      · simp only [Memory.read, ih]

theorem Memory.insert_keys (m : Memory) (a : Nat) (w : Word) {p : Nat × Word} (h : p ∈ m.insert a w) :
    p ∈ m ∨ p = (a, w) ∧ w ≠ 0 := by
  induction m with
  | nil => simp only [Memory.insert] at h; split at h <;> simp_all
  | cons q rest ih =>
    obtain ⟨k, v⟩ := q
    simp only [Memory.insert] at h
    split at h
    · split at h
      · exact .inl h
      · next hw => rcases List.mem_cons.mp h with rfl | h
                   · exact .inr ⟨rfl, hw⟩
                   · exact .inl h
    · split at h
      · split at h
        · exact .inl (List.mem_cons_of_mem _ h)
        · next hw => rcases List.mem_cons.mp h with rfl | h
                     · exact .inr ⟨rfl, hw⟩
                     · exact .inl (List.mem_cons_of_mem _ h)
      · rcases List.mem_cons.mp h with rfl | h
        · exact .inl List.mem_cons_self
        · rcases ih h with h | h
          · exact .inl (List.mem_cons_of_mem _ h)
          · exact .inr h

theorem Memory.insert_sorted (m : Memory) (a : Nat) (w : Word) (h : m.Pairwise (fun p q => p.1 < q.1)) :
    (m.insert a w).Pairwise (fun p q => p.1 < q.1) := by
  induction m with
  | nil => simp only [Memory.insert]; split <;> simp
  | cons q rest ih =>
    obtain ⟨k, v⟩ := q
    have hs := List.pairwise_cons.mp h
    simp only [Memory.insert]
    split
    · next hak =>
      split
      · exact h
      · refine List.pairwise_cons.mpr ⟨fun r hr => ?_, h⟩
        rcases List.mem_cons.mp hr with rfl | hr
        · exact hak
        · exact Nat.lt_trans hak (hs.1 r hr)
    · split
      · next hak =>
        subst hak
        split
        · exact hs.2
        · exact List.pairwise_cons.mpr ⟨hs.1, hs.2⟩
      · next h1 h2 =>
        refine List.pairwise_cons.mpr ⟨fun r hr => ?_, ih hs.2⟩
        rcases Memory.insert_keys rest a w hr with hr | ⟨rfl, -⟩
        · exact hs.1 r hr
        · show k < a
          omega

/-- A write keeps the canonical form. -/
theorem Memory.write_wf (m : Memory) (a : Nat) (w : Word) (h : m.wf) : (m.write a w).wf := by
  unfold Memory.write
  split
  · next ha =>
    refine ⟨Memory.insert_sorted m a w h.1, fun p hp => ?_⟩
    rcases Memory.insert_keys m a w hp with hp | ⟨rfl, hw⟩
    · exact h.2 p hp
    · exact ⟨ha, hw⟩
  · exact h

/-- A read after a write to the same address gives the word written. -/
theorem Memory.read_write_same {m : Memory} {a : Nat} (w : Word) (h : m.wf) (ha : a < 4096) :
    (m.write a w).read a = w := by
  simp [Memory.write, ha, Memory.read_insert_same m a w h]

/-- A write leaves every other address alone. -/
theorem Memory.read_write_other (m : Memory) {a c : Nat} (w : Word) (hc : c ≠ a) :
    (m.write a w).read c = m.read c := by
  unfold Memory.write
  split
  · exact Memory.read_insert_other m w hc
  · rfl

/-- Below the first listed address every address reads 0000h. -/
theorem Memory.read_of_below (m : Memory) (a : Nat) (h : ∀ p ∈ m, a < p.1) : m.read a = 0 := by
  induction m with
  | nil => rfl
  | cons p rest ih =>
    have := h p List.mem_cons_self
    simp only [Memory.read]
    rw [if_neg (by omega)]
    exact ih fun q hq => h q (List.mem_cons_of_mem _ hq)

/-- Canonical stores that read the same everywhere are equal. -/
theorem Memory.eq_of_read_eq {m n : Memory} (hm : m.wf) (hn : n.wf) (h : ∀ a, m.read a = n.read a) : m = n := by
  induction m generalizing n with
  | nil =>
    cases n with
    | nil => rfl
    | cons q rest =>
      have := h q.1
      simp [Memory.read] at this
      exact absurd this.symm (hn.2 q List.mem_cons_self).2
  | cons p rest ih =>
    have hp := List.pairwise_cons.mp hm.1
    cases n with
    | nil =>
      have := h p.1
      simp [Memory.read] at this
      exact absurd this (hm.2 p List.mem_cons_self).2
    | cons q rest' =>
      have hq := List.pairwise_cons.mp hn.1
      have hpv := (hm.2 p List.mem_cons_self).2
      have hqv := (hn.2 q List.mem_cons_self).2
      have hkey : p.1 = q.1 := by
        rcases Nat.lt_trichotomy p.1 q.1 with hlt | heq | hgt
        · have := h p.1
          rw [Memory.read_of_below (q :: rest') p.1 (fun r hr => by
            rcases List.mem_cons.mp hr with rfl | hr
            · exact hlt
            · exact Nat.lt_trans hlt (hq.1 r hr))] at this
          simp [Memory.read] at this
          exact absurd this hpv
        · exact heq
        · have := h q.1
          rw [Memory.read_of_below (p :: rest) q.1 (fun r hr => by
            rcases List.mem_cons.mp hr with rfl | hr
            · exact hgt
            · exact Nat.lt_trans hgt (hp.1 r hr))] at this
          simp [Memory.read] at this
          exact absurd this.symm hqv
      have hval : p.2 = q.2 := by
        have := h p.1
        simpa [Memory.read, hkey] using this
      have hrest : rest = rest' := by
        refine ih ⟨hp.2, fun r hr => hm.2 r (List.mem_cons_of_mem _ hr)⟩
          ⟨hq.2, fun r hr => hn.2 r (List.mem_cons_of_mem _ hr)⟩ fun a => ?_
        by_cases ha : a = p.1
        · subst ha
          rw [Memory.read_of_below rest _ hp.1, hkey, Memory.read_of_below rest' _ hq.1]
        · have := h a
          simp only [Memory.read] at this
          rwa [if_neg (Ne.symm ha), if_neg (by rw [← hkey]; exact Ne.symm ha)] at this
      rw [hrest, Prod.ext hkey hval]

/-- The store right after reset is canonical. -/
theorem reset_store_wf : Memory.wf State.reset.block.le.store := by decide

end Sys2Proof.Machine
end

