-- ==== Sys2Proof/Laws/Evolves.lean ====
section
/-! SUPPORT. Said once: what the part's operations can change, as a chain of primitive changes. `Evolves` covers the
Segment Master, the runs, the List Engine, the Direct Unit, the FIFOs and the Attention Unit; `Works` adds the Booking
Unit. An invariant that every primitive change keeps is kept by every operation with a lemma here. -/

namespace Sys2Proof.Machine

/-- A chain of primitive changes outside the Booking Unit. The Segment Master may change as it likes but for TIM0; the
List Engine but for its store, which changes by writes; the FIFOs by words joining and leaving and by claims; the
Report Unit by conditions and by records that found a free slot. -/
inductive Evolves : Block → Block → Prop where
  | refl (b : Block) : Evolves b b
  | trans {a b c : Block} : Evolves a b → Evolves b c → Evolves a c
  | sm (b : Block) (m : Sm) (hr : m.tim0Rate = b.sm.tim0Rate) (ht : m.tim0Timeout = b.sm.tim0Timeout) :
      Evolves b { b with sm := m }
  | du (b : Block) (d : Du) (h : b.du.run.Counted → d.run.Counted) : Evolves b { b with du := d }
  | le (b : Block) (l : Le) (hs : l.store = b.le.store) (hc : b.le.run.Counted → l.run.Counted) :
      Evolves b { b with le := l }
  | au (b : Block) (u : Au) : Evolves b { b with au := u }
  | store (b : Block) (a : Nat) (w : Word) : Evolves b (b.storePut a w)
  | join (b : Block) (d : FifoSide) (w : Word) : Evolves b (b.setFifo d ((b.fifo d).join w))
  | leave (b : Block) (d : FifoSide) : Evolves b (b.setFifo d (b.fifo d).leave)
  | claim (b : Block) (d : FifoSide) (c : Claim) : Evolves b (b.setClaim d c)
  | condition (b : Block) (c : Condition) : Evolves b (b.setCondition c)
  | record (b : Block) (r : Record) (h : b.ru.hasFree = true) : Evolves b { b with ru := b.ru.join (.occupied r) }
  | choices (b : Block) (n : Nat) : Evolves b { b with choices := n }

theorem Evolves.setRun (b : Block) (o : Owner) (r : Run) (h : (b.run o).Counted → r.Counted) :
    Evolves b (b.setRun o r) := by
  cases o
  · exact .du b _ h
  · exact .le b _ rfl h

theorem Evolves.smAu (b : Block) (m : Sm) (u : Au) (hr : m.tim0Rate = b.sm.tim0Rate)
    (ht : m.tim0Timeout = b.sm.tim0Timeout) : Evolves b { b with sm := m, au := u } :=
  .trans (.sm b m hr ht) (.au { b with sm := m } u)

/-! ## The Segment Master -/

theorem Evolves.withdraw (b : Block) (c : Client) : Evolves b (b.withdraw c) := by
  cases c <;> exact .sm b _ (by rfl) (by rfl)

theorem Evolves.markInFlight (b : Block) (c : Client) : Evolves b (b.markInFlight c) := by
  cases c
  · exact .refl b
  · exact .setRun b .direct _ (by exact id)
  · exact .setRun b .list _ (by exact id)

theorem Evolves.grantClient (b : Block) (c : Client) (r : Request) : Evolves b (b.grantClient c r) := by
  refine .trans (.sm b _ ?_ ?_) (.markInFlight _ c)
  all_goals cases c <;> rfl

theorem Evolves.grantCensus (b : Block) : Evolves b b.grantCensus :=
  .smAu b _ _ rfl rfl

theorem Evolves.arbitrate (b : Block) : Evolves b b.arbitrate := by
  unfold Block.arbitrate
  split
  · split
    · exact .grantCensus b
    · split
      · exact .refl b
      · split
        · exact .refl b
        · exact .grantClient b _ _
  · exact .refl b

theorem Evolves.post (b : Block) (c : Client) (r : Request) : Evolves b (b.post c r) := by
  refine .trans (.sm b _ ?_ ?_) (.arbitrate _)
  all_goals cases c <;> rfl

theorem Evolves.requestCensus (b : Block) : Evolves b b.requestCensus :=
  .trans (.smAu b { b.sm with pendCensus := true } { b.au with state := .requested, timer := none } rfl rfl)
    (.arbitrate _)

/-! ## Runs -/

theorem Evolves.postWord (b : Block) (o : Owner) : Evolves b (b.postWord o).1 := by
  unfold Block.postWord
  split
  · exact .trans (.setRun b o _ (by exact id)) (.post _ _ _)
  · exact .refl b

theorem Evolves.stallRun (b : Block) (o : Owner) (r : StallReason) (x : Bool) : Evolves b (b.stallRun o r x) :=
  .setRun b o _ (by exact id)

theorem Evolves.testData (b : Block) (o : Owner) : Evolves b (b.testData o).1 := by
  unfold Block.testData
  dsimp only
  split
  · exact .postWord b o
  · split
    · exact .stallRun b o _ _
    · exact .postWord b o
  · split
    · split
      · exact .trans (.setRun b o _ (by exact id)) (.postWord _ o)
      · exact .stallRun b o _ _
    · split
      · exact .postWord b o
      · exact .stallRun b o _ _

theorem Evolves.prepare (b : Block) (o : Owner) : Evolves b (b.prepare o).1 := by
  unfold Block.prepare
  dsimp only
  split
  · exact .refl b
  · exact .trans (.setRun b o _ (by exact id)) (.testData _ o)

theorem Evolves.startRun (b : Block) (o : Owner) : Evolves b (b.startRun o).1 := by
  unfold Block.startRun
  split
  · exact .refl b
  · exact .prepare b o

theorem Evolves.leaveStall (b : Block) (o : Owner) : Evolves b (b.leaveStall o).1 :=
  .trans (.setRun b o _ (by exact id)) (.prepare _ o)

theorem Evolves.moveDoneWord (b : Block) (o : Owner) (v : Word) : Evolves b (b.moveDoneWord o v) := by
  unfold Block.moveDoneWord
  dsimp only
  split
  · exact .du b _ (by exact id)
  · exact .store b _ _
  · exact .join b .inbound v
  · exact .leave b .outbound
  · exact .refl b

theorem Evolves.discardWord (b : Block) (o : Owner) : Evolves b (b.discardWord o) := by
  unfold Block.discardWord
  split
  · exact .leave b .outbound
  · exact .refl b
  · exact .refl b

theorem Evolves.takeDone (b : Block) (o : Owner) (v : Word) : Evolves b (b.takeDone o v) :=
  .trans (.moveDoneWord b o v) (.setRun _ o _ (by simp only [Run.Counted]; omega))

theorem Evolves.takeSkip (b : Block) (o : Owner) (r : LastReply) : Evolves b (b.takeSkip o r) :=
  .trans (.discardWord b o) (.setRun _ o _ (by simp only [Run.Counted]; omega))

theorem Evolves.setReply (b : Block) (o : Owner) (r : LastReply) : Evolves b (b.setReply o r) := .setRun b o _ (by exact id)

theorem Evolves.nextWord (b : Block) (o : Owner) : Evolves b (b.nextWord o).1 := by
  unfold Block.nextWord
  split
  · exact .refl b
  · exact .prepare b o

theorem Evolves.persistWord (b : Block) (o : Owner) : Evolves b (b.persistWord o).1 :=
  .trans (.setRun b o _ (by exact id)) (.postWord _ o)

theorem Evolves.applyWait (b : Block) (o : Owner) : Evolves b (b.applyWait o).1 := by
  unfold Block.applyWait
  dsimp only
  split
  · exact .setReply b o _
  · split
    · exact .trans (.takeSkip b o _) (.nextWord _ o)
    · exact .persistWord b o
    · exact .setReply b o _
    · exact .setReply b o _

theorem Evolves.applyRefused (b : Block) (o : Owner) : Evolves b (b.applyRefused o).1 := by
  unfold Block.applyRefused
  split
  · exact .trans (.takeSkip b o _) (.nextWord _ o)
  · exact .setReply b o _

theorem Evolves.applyAborting (b : Block) (o : Owner) (e : Ending) (v : Word) : Evolves b (b.applyAborting o e v) := by
  unfold Block.applyAborting
  dsimp only
  split
  · exact .takeDone b o v
  · split
    · exact .takeSkip b o _
    · exact .setReply b o _
  · split
    · exact .takeSkip b o _
    · exact .setReply b o _
  all_goals exact .refl b

theorem Evolves.applyOutcome (b : Block) (o : Owner) (e : Ending) (v : Word) : Evolves b (b.applyOutcome o e v).1 := by
  unfold Block.applyOutcome
  split
  · exact .applyAborting b o e v
  · split
    · exact .trans (.takeDone b o v) (.nextWord _ o)
    · exact .applyWait b o
    · exact .applyRefused b o
    all_goals exact .refl b

theorem Evolves.abortRun (b : Block) (o : Owner) : Evolves b (b.abortRun o).1 := by
  unfold Block.abortRun
  split
  · exact .setRun b o _ (by exact id)
  · exact .refl b
  · exact .refl b
  · exact .refl b
  · exact .withdraw b _
  · exact .refl b

/-! ## The List Engine -/

theorem Evolves.claimIf (b : Block) (d : FifoSide) (p : Prop) [Decidable p] (c : Claim) :
    Evolves b (b.setFifo d (if p then (b.fifo d).withClaim c else b.fifo d)) := by
  by_cases h : p
  · rw [if_pos h]
    exact .claim b d c
  · cases d <;> simpa [h, Block.setFifo, Block.fifo] using Evolves.refl b

theorem Evolves.releaseList (b : Block) : Evolves b b.releaseList :=
  .trans (.claimIf b .outbound (b.fp.out.claim = .list) .unclaimed)
    (.claimIf _ .inbound (b.fp.inb.claim = .list) .unclaimed)

theorem Evolves.releaseDirect (b : Block) : Evolves b b.releaseDirect :=
  .trans (.claimIf b .outbound (b.fp.out.claim = .direct) .unclaimed)
    (.claimIf _ .inbound (b.fp.inb.claim = .direct) .unclaimed)

theorem Evolves.listHalt (b : Block) (r : Result) : Evolves b (b.listHalt r) :=
  .trans (.trans (.releaseList b) (.le _ _ (by rfl) (by exact id))) (.condition _ _)

theorem Evolves.listEnd (b : Block) (r : Result) : Evolves b (b.listEnd r) :=
  .trans (.trans (.releaseList b) (.le _ _ (by rfl) (by exact id))) (.condition _ _)

/-- The part to which the entry's run is handed. -/
theorem Block.listRunStart_eq (b : Block) :
    ∃ b' : Block, Evolves b b' ∧
      (b.listRunStart = (b'.startRun .list).1 ∨ ∃ r, b.listRunStart = (b'.startRun .list).1.listHalt r) := by
  refine ⟨{ b with le := { b.le with activity := .running, stallTimer := none,
                                     run := { b.le.run with sub := .preparing, stall := .noStall } } },
          .le b _ (by rfl) (by exact id), ?_⟩
  unfold Block.listRunStart
  dsimp only
  split
  · next h => left; rw [h]
  · next h => right; exact ⟨_, by rw [h]⟩

theorem Evolves.listRunStart (b : Block) : Evolves b b.listRunStart := by
  obtain ⟨b', h, hs | ⟨r, hs⟩⟩ := b.listRunStart_eq
  · rw [hs]; exact .trans h (.startRun b' .list)
  · rw [hs]; exact .trans h (.trans (.startRun b' .list) (.listHalt _ r))

theorem Evolves.listClaimAndStart (b : Block) : Evolves b b.listClaimAndStart := by
  unfold Block.listClaimAndStart
  split
  · exact .listRunStart b
  · split
    · exact .le b _ (by rfl) (by exact id)
    · exact .trans (.claim b _ _) (.listRunStart _)

theorem Evolves.listAdvance (b : Block) (n : Nat) : Evolves b (b.listAdvance n) := .le b _ (by rfl) (fun _ => rfl)

theorem Evolves.postMark (b : Block) (t : Word) (h : b.ru.hasFree = true) : Evolves b (b.postMark t) :=
  .record b _ h

theorem Evolves.goesOn (access : Bool) {read : Block → Block} (h : ∀ b, Evolves b (read b)) (b : Block) :
    Evolves b (b.goesOn access read) := by
  have hc := Evolves.choices b (b.choices + 1)
  unfold Block.goesOn
  dsimp only
  split
  · split
    · exact .trans hc (h _)
    · exact hc
  · exact h b

theorem Evolves.listRead (access : Bool) (n : Nat) (b : Block) : Evolves b (b.listRead access n) := by
  induction n generalizing b with
  | zero =>
    unfold Block.listRead
    split
    · exact .listHalt b _
    · exact .listEnd b _
    · exact .le b _ (by rfl) (by exact id)
    · exact .trans (.le b _ (by rfl) (by exact id)) (.listClaimAndStart _)
    · exact .le b _ (by rfl) (by exact id)
  | succ n ih =>
    unfold Block.listRead
    split
    · exact .listHalt b _
    · exact .listEnd b _
    · exact .le b _ (by rfl) (by exact id)
    · exact .trans (.le b _ (by rfl) (by exact id)) (.listClaimAndStart _)
    · dsimp only
      split
      · next h => exact .trans (.trans (.postMark b _ h) (.listAdvance _ 2)) (.goesOn access ih _)
      · exact .le b _ (by rfl) (by exact id)

theorem Evolves.listGo (b : Block) : Evolves b b.listGo := .listRead _ _ b

theorem Evolves.listPass (b : Block) (n : Nat) (access : Bool) : Evolves b (b.listPass n access) :=
  .trans (.listAdvance b n) (.goesOn access (fun _ => .listRead _ _ _) _)

theorem Evolves.listNext (b : Block) (access : Bool) : Evolves b (b.listNext access) :=
  .trans (.releaseList b) (.listPass _ b.le.entryLen access)

theorem Evolves.listReadBehind (b : Block) : Evolves b b.listReadBehind := by
  unfold Block.listReadBehind
  split
  · exact .listGo b
  · exact .refl b

theorem Evolves.listProgress (p : Progress) (access : Bool := false) :
    Evolves p.1 (Block.listProgress p access) := by
  obtain ⟨b, r⟩ := p
  unfold Block.listProgress
  split
  · next h => cases h; exact .refl _
  · next h => cases h; exact .listNext _ access
  · next h => cases h; exact .listEnd _ _
  · next h => cases h; exact .listHalt _ _

theorem Evolves.listContinue (b : Block) : Evolves b b.listContinue := by
  unfold Block.listContinue
  split
  · exact .listHalt b _
  · split
    · dsimp only
      split
      · exact .trans (.le b _ (by rfl) (by exact id)) (.listHalt _ _)
      · exact .trans (.le b _ (by rfl) (by exact id)) (.listClaimAndStart _)
    · exact .trans (.listAdvance b _) (.listGo _)
  all_goals exact .trans (.listAdvance b _) (.listGo _)

theorem Evolves.listAbort (b : Block) : Evolves b b.listAbort := by
  unfold Block.listAbort
  split
  · exact .refl b
  · exact .le b _ (by rfl) (by exact id)
  · split
    · exact .listEnd b _
    · exact .trans (.abortRun b .list) (.listProgress _)
  all_goals exact .listEnd b _

theorem Evolves.retryMark (b : Block) (access : Bool := false) : Evolves b (b.retryMark access) := by
  unfold Block.retryMark
  split
  · next h => exact .trans (.postMark b _ h.2) (.listPass _ 2 access)
  · exact .refl b

theorem Evolves.grantListClaim (b : Block) : Evolves b b.grantListClaim := by
  unfold Block.grantListClaim
  split
  · split
    · exact .refl b
    · exact .trans (.claim b _ _) (.listRunStart _)
  all_goals exact .refl b

theorem Evolves.expireListStall (b : Block) : Evolves b b.expireListStall := by
  unfold Block.expireListStall
  split
  · exact .listHalt b _
  · exact .listHalt b _
  · exact .refl b

theorem Evolves.expirePause (b : Block) (access : Bool) : Evolves b (b.expirePause access) := by
  unfold Block.expirePause
  split
  · exact .listPass b 2 access
  · exact .refl b

/-! ## The Direct Unit and either owner's run -/

theorem Evolves.directEnd (b : Block) (r : Result) : Evolves b (b.directEnd r) := by
  have done : Evolves b (b.directResults r).releaseDirect := .trans (.du b _ (by exact id)) (.releaseDirect _)
  unfold Block.directEnd
  dsimp only
  split
  · exact .trans done (.condition _ _)
  · have passed := Evolves.trans done (.claim _ ‹FifoSide› .list)
    split
    · have chosen := fun n => Evolves.trans passed (.choices _ n)
      split
      · exact .trans (chosen _) (.trans (.condition _ _) (.listRunStart _))
      · exact .trans (chosen _) (.trans (.listRunStart _) (.condition _ _))
    · exact .trans passed (.trans (.condition _ _) (.listRunStart _))

theorem Evolves.directProgress (p : Progress) : Evolves p.1 (Block.directProgress p) := by
  obtain ⟨b, r⟩ := p
  cases r
  · exact .refl b
  · exact .directEnd b _

theorem Evolves.takeProgress (o : Owner) (p : Progress) (access : Bool := false) :
    Evolves p.1 (Block.takeProgress o p access) := by
  cases o
  · exact .directProgress p
  · exact .listProgress p access

theorem Evolves.directAbort (b : Block) : Evolves b b.directAbort := by
  unfold Block.directAbort
  split
  · exact .trans (.abortRun b .direct) (.directProgress _)
  · exact .refl b

theorem Evolves.expirePersist (b : Block) (o : Owner) : Evolves b (b.expirePersist o) := by
  unfold Block.expirePersist
  dsimp only
  split
  · exact .refl b
  · split
    · exact .setRun b o _ (by exact id)
    · exact .setRun b o _ (by exact id)
    · exact .setRun b o _ (by exact id)
    · exact .trans (.withdraw b (clientOf o)) (.takeProgress o (b.withdraw (clientOf o), _))
    · exact .takeProgress o (b, _)
    · exact .takeProgress o (b, _)

theorem Evolves.expireRunStall (b : Block) (o : Owner) : Evolves b (b.expireRunStall o) := by
  unfold Block.expireRunStall
  dsimp only
  split
  · exact .takeProgress o (b, _)
  · exact .refl b

theorem Evolves.wake (b : Block) (o : Owner) : Evolves b (b.wake o) := by
  unfold Block.wake
  split
  · exact .trans (.leaveStall b o) (.takeProgress o _)
  · exact .refl b

theorem Evolves.tellClaimant (b : Block) (d : FifoSide) : Evolves b (b.tellClaimant d) := by
  unfold Block.tellClaimant
  split
  · exact .refl b
  · exact .wake b _
  · exact .wake b _

theorem Evolves.deliverRun (b : Block) (o : Owner) (e : Ending) (v : Word) (access : Bool) :
    Evolves b (Block.takeProgress o (b.applyOutcome o e v) access) :=
  .trans (.applyOutcome b o e v) (.takeProgress o _ access)

/-! ## The Attention Unit -/

theorem Evolves.lookAtn (b : Block) : Evolves b b.lookAtn := by
  unfold Block.lookAtn
  split
  · exact .requestCensus b
  · exact .refl b

theorem Evolves.endHoldoff (b : Block) : Evolves b b.endHoldoff := by
  unfold Block.endHoldoff
  dsimp only
  split
  · exact .trans (.au b _) (.requestCensus _)
  · exact .trans (.au b _) (.au _ _)

theorem Evolves.enterHoldoff (b : Block) : Evolves b b.enterHoldoff := by
  unfold Block.enterHoldoff
  dsimp only
  split
  · exact .trans (.au b _) (.endHoldoff _)
  · exact .au b _

/-! ## With the Booking Unit -/

/-- A chain of primitive changes of the whole part at work: those of `Evolves`, any change of the Booking Unit, RSN, INIT
and the data lines, a reservation that found a free slot, a reservation filled by its record, and the host's changes
outside the locked group. -/
inductive Works : Block → Block → Prop where
  | of {a b : Block} : Evolves a b → Works a b
  | trans {a b c : Block} : Works a b → Works b c → Works a c
  | bu (b : Block) (u : Bu) : Works b { b with bu := u }
  | hp (b : Block) (h : Hp) (hl : h.lock = b.hp.lock) : Works b { b with hp := h }
  | reserve (b : Block) (h : b.ru.hasFree = true) : Works b { b with ru := b.ru.join .reserved }
  | fill (b : Block) (r : Record) : Works b { b with ru := { b.ru with nq := fillReservation r b.ru.nq } }
  | advance (b : Block) (r : Record) (rest : List Slot) (h : b.ru.nq = .occupied r :: rest) :
      Works b { b with ru := { b.ru with nq := rest } }
  | clear (b : Block) (keep : BitVec 9) :
      Works b { b with ru := { b.ru with flags := b.ru.flags &&& keep, spills := b.ru.spills &&& keep } }
  | len (b : Block) (x : BitVec 3) : Works b { b with ru := { b.ru with len := x } }
  | flush (b : Block) (d : FifoSide) : Works b (b.setFifo d (b.fifo d).flush)
  | marks (b : Block) (p : Fp) (ho : p.out = b.fp.out) (hi : p.inb = b.fp.inb) : Works b { b with fp := p }
  | select (b : Block) (d : Sd) (hs : d.spans = b.sd.spans) (he : d.en = b.sd.en) : Works b { b with sd := d }
  | timing (b : Block) (d l : BitVec 8) : Works b { b with deadline := d, stallLimit := l }

theorem Works.refl (b : Block) : Works b b := .of (.refl b)

theorem Works.condition (b : Block) (c : Condition) : Works b (b.setCondition c) := .of (.condition b c)

theorem Works.refuse (b : Block) (r : Reason) : Works b (b.refuse r) :=
  .trans (.hp b { b.hp with rsn := r } rfl) (.condition _ .refuse)

theorem Works.postService (b : Block) : Works b b.postService := by
  unfold Block.postService
  dsimp only
  have h : ∀ u r, Works b { b with bu := u, ru := { b.ru with nq := fillReservation r b.ru.nq } } :=
    fun u r => .trans (.bu b u) (.fill { b with bu := u } r)
  split
  · exact .trans (h _ _) (.condition _ .svflt)
  · exact h _ _

theorem Works.finishService (b : Block) (e : Ending) : Works b (b.finishService e) :=
  .trans (.bu b _) (.postService _)

theorem Works.postAction (b : Block) (c : SvcState) (a : Action) : Works b (b.postAction c a) := by
  unfold Block.postAction
  dsimp only
  split
  · exact .trans (.bu b _) (.of (.post _ _ _))
  · exact .trans (.bu b _) (.finishService _ _)

theorem Works.beginActions (b : Block) : Works b b.beginActions := by
  unfold Block.beginActions
  dsimp only
  split
  · exact .finishService b _
  · exact .postAction b _ _
  · exact .postAction b _ _

theorem Works.tryReserve (b : Block) : Works b b.tryReserve := by
  unfold Block.tryReserve
  split
  · next h => exact .trans (.reserve b h) (.beginActions _)
  · exact .refl b

theorem Works.takeHead (b : Block) : Works b b.takeHead := by
  unfold Block.takeHead
  split
  · exact .refl b
  · exact .bu b _

theorem Works.startUpTo (n : Nat) (b : Block) : Works b (b.startUpTo n) := by
  induction n generalizing b with
  | zero => exact .refl b
  | succ n ih =>
    unfold Block.startUpTo
    split
    · exact .trans (.trans (.takeHead b) (.tryReserve _)) (ih _)
    · exact .refl b

theorem Works.startServices (b : Block) : Works b b.startServices := .startUpTo _ b

theorem Works.applyAction (b : Block) (e : Ending) (v : Word) : Works b (b.applyAction e v) := by
  unfold Block.applyAction
  dsimp only
  split
  · split
    · have h : Works b (if (b.bu.entry b.bu.station).clear.verb = .fetch then
          { b with bu := { b.bu with value := some v } } else b) := by
        split
        · exact .bu b _
        · exact .refl b
      split
      · exact .trans h (.postAction _ _ _)
      · exact .trans h (.finishService _ _)
      · exact .trans h (.finishService _ _)
    · exact .finishService b e
  · exact .finishService b e
  all_goals exact .refl b

theorem Works.serviceOutcome (b : Block) (e : Ending) (v : Word) : Works b (b.serviceOutcome e v) :=
  .trans (.applyAction b e v) (.startServices _)

theorem Works.retryReservation (b : Block) : Works b b.retryReservation := by
  unfold Block.retryReservation
  split
  · exact .trans (.tryReserve b) (.startServices _)
  · exact .refl b

theorem Works.startWithUnbk (n : Nat) (b : Block) : Works b (b.startWithUnbk n) := by
  induction n generalizing b with
  | zero => exact .condition b _
  | succ n ih =>
    unfold Block.startWithUnbk
    dsimp only
    split
    · have hc := Works.of (.choices b (b.choices + 1))
      split
      · exact .trans hc (.trans (.condition _ _) (.startUpTo _ _))
      · exact .trans hc (.trans (.trans (.takeHead _) (.tryReserve _)) (ih _))
    · exact .trans (.condition _ _) (.startUpTo _ _)

theorem Works.handOver (b : Block) (l : List Nat) : Works b (b.handOver l) := by
  unfold Block.handOver
  dsimp only
  have h := Works.bu b (Bu.selectAll l b.bu).1
  split
  · exact .trans h (.startWithUnbk _ _)
  · exact .trans h (.startServices _)

theorem Works.deliver (b : Block) (c : Client) (e : Ending) (v : Word) (access : Bool := false) :
    Works b (b.deliver c e v access) := by
  cases c
  · exact .serviceOutcome b e v
  · exact .of (.deliverRun b .direct e v access)
  · exact .of (.deliverRun b .list e v access)

theorem Works.attemptEnds (b : Block) (w : WordTx) (e : Ending) (v : Word) (access : Bool := false) :
    Works b (b.attemptEnds w e v access) := by
  have hsm : ∀ m : Sm, m.tim0Rate = b.sm.tim0Rate → m.tim0Timeout = b.sm.tim0Timeout →
      Works b { b with sm := m } := fun m h1 h2 => .of (.sm b m h1 h2)
  have hend : Works b { b with sm := b.sm.endAttempt w e } := by
    refine hsm _ ?_ ?_ <;> unfold Sm.endAttempt <;> split <;> (try split) <;> rfl
  unfold Block.attemptEnds
  dsimp only
  split
  · exact hend
  · exact hend
  all_goals exact .trans hend (.deliver _ _ _ _ access)

theorem Works.frameSent (b : Block) (access : Bool) : Works b (b.frameSent access) := by
  unfold Block.frameSent
  split
  · exact .of (.sm b _ (by rfl) (by rfl))
  · split
    · exact .trans (.of (.sm b _ (by rfl) (by rfl))) (.deliver _ _ _ _ access)
    · exact .of (.sm b _ (by rfl) (by rfl))
  · exact .refl b

theorem Works.onAwait (b : Block) (f : WordTx → Block) (h : ∀ w, Works b (f w)) : Works b (b.onAwait f) := by
  unfold Block.onAwait
  split
  · exact h _
  · exact .refl b

theorem Works.replyStart (b : Block) : Works b b.replyStart := .onAwait b _ fun _ => .of (.sm b _ (by rfl) (by rfl))

theorem Works.replyEnd (b : Block) (bits : List Bool) (access : Bool) : Works b (b.replyEnd bits access) :=
  .onAwait b _ fun _ => .attemptEnds b _ _ _ access

theorem Works.replyTimeout (b : Block) (p : Bool) : Works b (b.replyTimeout p) := by
  refine .onAwait b _ fun w => ?_
  dsimp only
  split
  · split
    · exact .of (.sm b _ (by rfl) (by rfl))
    · exact .attemptEnds b _ _ _
  · exact .refl b

theorem Works.syncBreakOff (b : Block) : Works b b.syncBreakOff := by
  refine .onAwait b _ fun w => ?_
  split
  · exact .attemptEnds b _ _ _
  · exact .refl b

theorem Works.takeCensus (b : Block) (l : List SlotResult) : Works b (b.takeCensus l) := by
  unfold Block.takeCensus
  dsimp only
  have h1 := fun u => Works.of (Evolves.au b u)
  have h2 : ∀ b1 : Block, Works b b1 → Works b (if l.any (· = SlotResult.garbled) then b1.setCondition .cnflt else b1) := by
    intro b1 hb
    split
    · exact .trans hb (.condition _ _)
    · exact hb
  exact .trans (.trans (h2 _ (h1 _)) (.handOver _ _)) (.of (.enterHoldoff _))

theorem Works.censusSlotsEnd (b : Block) (l : List (BitVec 3)) : Works b (b.censusSlotsEnd l) := by
  unfold Block.censusSlotsEnd
  split
  · exact .trans (.of (.sm b _ (by rfl) (by rfl))) (.takeCensus _ _)
  · exact .refl b

theorem Works.comeToRest (b : Block) : Works b b.comeToRest := .of (.trans (.sm b _ (by rfl) (by rfl)) (.arbitrate _))

theorem Works.gapEnd (b : Block) : Works b b.gapEnd := by
  unfold Block.gapEnd
  split
  · split
    · exact .of (.sm b _ (by rfl) (by rfl))
    · split
      · exact .trans (.deliver _ _ _ _) (.comeToRest _)
      · exact .comeToRest b
    · exact .comeToRest b
  · exact .refl b

theorem Works.offlineClient (b : Block) (c : Client) : Works b (b.offlineClient c) := by
  unfold Block.offlineClient
  split
  · exact .trans (.of (.withdraw b c)) (.deliver _ _ _ _)
  · exact .refl b

theorem Works.offlineCensus (b : Block) : Works b b.offlineCensus := by
  unfold Block.offlineCensus
  split
  · exact .of (.smAu b _ _ rfl rfl)
  · exact .refl b

theorem Works.lowerSegen (b : Block) : Works b b.lowerSegen := by
  have hd : Works b { b with sm := b.sm.disable } := by
    refine .of (.sm b _ ?_ ?_) <;> unfold Sm.disable <;> split <;> rfl
  have h1 := Works.trans (Works.trans hd (.offlineCensus _)) (.offlineClient _ .service)
  unfold Block.lowerSegen
  dsimp only
  split
  · have hc := fun n => Works.trans h1 (.of (.choices _ n))
    split
    · exact .trans (hc _) (.trans (.offlineClient _ .direct) (.offlineClient _ .list))
    · exact .trans (hc _) (.trans (.offlineClient _ .list) (.offlineClient _ .direct))
  · exact .trans h1 (.trans (.offlineClient _ .direct) (.offlineClient _ .list))

theorem Works.censusCommand (b : Block) : Works b b.censusCommand := by
  unfold Block.censusCommand
  split
  · split
    · exact .of (.requestCensus b)
    · exact .of (.requestCensus b)
    · exact .refl b
    · exact .refl b
  · exact .refuse b _

theorem Works.attentionAtEnable (b : Block) (c : Bool) : Works b (b.attentionAtEnable c) := by
  unfold Block.attentionAtEnable
  dsimp only
  split
  · exact .trans (.of (.lookAtn b)) (.censusCommand _)
  · exact .of (.lookAtn b)

theorem Works.raiseSegen (b : Block) (c : Bool) : Works b (b.raiseSegen c) := by
  have h1 : Works b ({ b with sm := b.sm.enable }).arbitrate := .of (.trans (.sm b _ (by rfl) (by rfl)) (.arbitrate _))
  unfold Block.raiseSegen
  dsimp only
  split
  · have hc := fun n => Works.trans h1 (.of (.choices _ n))
    split
    · exact .trans (hc _) (.trans (.attentionAtEnable _ _) (.startServices _))
    · exact .trans (hc _) (.trans (.startServices _) (.attentionAtEnable _ _))
  · exact .trans h1 (.trans (.attentionAtEnable _ _) (.startServices _))

theorem Works.setSegen (b : Block) (s c : Bool) : Works b (b.setSegen s c) := by
  unfold Block.setSegen
  dsimp only
  split
  · exact .raiseSegen b c
  · have h : Works b (if s = false ∧ b.sm.segen then b.lowerSegen else b) := by
      split
      · exact .lowerSegen b
      · exact .refl b
    split
    · exact .trans h (.censusCommand _)
    · exact h

/-! ## Host commands -/

theorem Works.directGo (b : Block) : Works b b.directGo := by
  have hs : Works b b.directSnapshot := .of (.du b _ (fun _ => rfl))
  unfold Block.directGo
  split
  · exact .refuse b _
  · split
    · exact .trans hs (.of (.trans (.startRun _ .direct) (.directProgress _)))
    · split
      · exact .of (.trans (.du b _ (by exact fun _ => rfl)) (.condition _ _))
      · exact .trans hs (.of (.trans (.claim _ _ _) (.trans (.startRun _ .direct) (.directProgress _))))

theorem Works.listStart (b : Block) : Works b b.listStart := by
  unfold Block.listStart
  split
  · exact .of (.trans (.le b _ (by rfl) (by exact fun _ => rfl)) (.listGo _))
  · exact .refuse b _

theorem Works.listResume (b : Block) : Works b b.listResume := by
  unfold Block.listResume
  split
  · exact .of (.trans (.le b _ (by rfl) (by exact id)) (.listContinue _))
  · exact .refuse b _

theorem Works.readLdat (b : Block) : Works b b.readLdat :=
  .trans (.hp b _ (by rfl)) (.of (.le _ _ (by rfl) (by exact id)))

theorem Works.writeLdat (b : Block) (v : Word) : Works b (b.writeLdat v) := by
  unfold Block.writeLdat
  split
  · exact .of (.trans (.store b _ _) (.le _ _ (by rfl) (by exact id)))
  · exact .trans (.of (.le b _ (by rfl) (by exact id))) (.refuse _ _)

theorem Works.writeOdat (b : Block) (v : Word) : Works b (b.writeOdat v) := by
  unfold Block.writeOdat
  split
  · exact .of (.trans (.join b .outbound v) (.tellClaimant _ _))
  · exact .condition b _

theorem Works.readIdat (b : Block) : Works b b.readIdat := by
  unfold Block.readIdat
  split
  · exact .trans (.hp b _ (by rfl)) (.condition _ _)
  · exact .trans (.hp b _ (by rfl)) (.of (.trans (.leave _ .inbound) (.tellClaimant _ _)))

theorem Works.bookCommand (f : Nat → Booking → Block → Block) (b : Block) (h : ∀ k e, Works b (f k e b)) :
    Works b (b.bookCommand f) := by
  unfold Block.bookCommand
  split
  · exact .refuse b _
  · exact h _ _

theorem Works.readBooking (b : Block) : Works b b.readBooking := .bookCommand _ b fun _ _ => .bu b _

theorem Works.book (b : Block) : Works b b.book := by
  refine .bookCommand _ b fun _ _ => ?_
  split
  · exact .refuse b _
  · split
    · exact .refuse b _
    · exact .bu b _

theorem Works.unbook (b : Block) : Works b b.unbook := by
  refine .bookCommand _ b fun _ _ => ?_
  split
  · exact .refl b
  all_goals exact .bu b _

theorem Works.arm (b : Block) : Works b b.arm := by
  refine .bookCommand _ b fun _ _ => ?_
  split
  · exact .refuse b _
  · exact .refl b
  · exact .refl b
  · exact .refuse b _
  · exact .bu b _

theorem Works.disarmBooking (b : Block) : Works b b.disarmBooking := by
  refine .bookCommand _ b fun _ _ => ?_
  split
  · exact .refuse b _
  · exact .bu b _
  · exact .bu b _
  · split
    · exact .refl b
    · exact .bu b _
  · exact .refl b

theorem Works.flushFifo (b : Block) (d : FifoSide) : Works b (b.flushFifo d) := by
  unfold Block.flushFifo
  split
  · exact .flush b d
  · exact .refuse b _

theorem Works.thenReads {b b' : Block} (h : Works b b') : Works b b'.listReadBehind := .trans h (.of (.listReadBehind _))

theorem Works.writeFcmd (b : Block) (v : Word) : Works b (b.writeFcmd v) := by
  have h : Works b (if v.bit 0 then b.flushFifo .outbound else b) := by
    split
    · exact .flushFifo b _
    · exact .refl b
  have h' : Works b (if v.bit 1 then (if v.bit 0 then b.flushFifo .outbound else b).flushFifo .inbound
      else if v.bit 0 then b.flushFifo .outbound else b) := by
    split
    · exact .trans h (.flushFifo _ _)
    · exact h
  unfold Block.writeFcmd
  dsimp only
  split
  · exact .thenReads h'
  · exact h'

theorem Works.writeFmki (b : Block) (v : Word) : Works b (b.writeFmki v) :=
  .trans (.marks b _ (by rfl) (by rfl)) (.of (.tellClaimant _ .inbound))

theorem Works.writeDcmd (b : Block) (v : Word) : Works b (b.writeDcmd v) := by
  unfold Block.writeDcmd
  split
  · exact .of (.directAbort b)
  · split
    · exact .thenReads (.directGo b)
    · exact .refl b

theorem Works.writeLcmd (b : Block) (v : Word) : Works b (b.writeLcmd v) := by
  unfold Block.writeLcmd
  split
  · exact .of (.listAbort b)
  · split
    · exact .listStart b
    · split
      · exact .listResume b
      · exact .refl b

theorem Works.writeBkcmd (b : Block) (v : Word) : Works b (b.writeBkcmd v) := by
  unfold Block.writeBkcmd
  split
  · exact .readBooking b
  · split
    · exact .book b
    · split
      · exact .unbook b
      · split
        · exact .arm b
        · split
          · exact .disarmBooking b
          · exact .refl b

theorem Works.attempt (f : Block → Block) (b : Block) (h : ∀ x, Works x (f x)) : Works b (b.attempt f) := by
  have hc := Works.of (.choices b (b.choices + 1))
  unfold Block.attempt
  dsimp only
  split
  · exact .trans hc (h _)
  · exact hc

theorem Works.attemptReservation (b : Block) : Works b b.attemptReservation := by
  unfold Block.attemptReservation
  split
  · exact .attempt _ b fun x => .retryReservation x
  · exact .refl b

theorem Works.attemptMark (b : Block) : Works b b.attemptMark := by
  unfold Block.attemptMark
  split
  · exact .attempt _ b fun x => .of (.retryMark x)
  · exact .refl b

theorem Works.writeNqadv (b : Block) : Works b b.writeNqadv := by
  unfold Block.writeNqadv
  split
  · next r rest h =>
    have h1 := Works.advance b r rest h
    dsimp only
    split
    · have hc := fun n => Works.trans h1 (.of (.choices _ n))
      split
      · exact .trans (hc _) (.trans (.attemptReservation _) (.attemptMark _))
      · exact .trans (hc _) (.trans (.attemptMark _) (.attemptReservation _))
    · exact .trans h1 (.trans (.attemptReservation _) (.attemptMark _))
  · exact .refuse b _
  · exact .refuse b _

theorem Works.lookAtn (b : Block) : Works b b.lookAtn := .of (.lookAtn b)

theorem Works.expireHoldoff (b : Block) : Works b b.expireHoldoff := by
  unfold Block.expireHoldoff
  split
  · exact .of (.endHoldoff b)
  · exact .refl b

/-! ## Every command -/

/-- What one command can do but for the two hard resets: the changes of `Works`, a change of the locked group while the
lock is clear that leaves an enabled span table valid, the soft reset, and the end of INIT. -/
inductive Acts : Block → Block → Prop where
  | of {a b : Block} : Works a b → Acts a b
  | group (b : Block) (m : Sm) (d : Sd) (r0 : BitVec 16) (r1 : BitVec 2) (h : b.hp.lock = false)
      (hd : b.EnabledTableValid → d.en = true → d.check = none) :
      Acts b { b with sm := m, sd := d, ru := { b.ru with rte0 := r0, rte1 := r1 } }
  | refusedGroup (b : Block) (d : Sd) (k : Option Nat) (h : d = { b.sd with bad := k }) (r : Reason) :
      Acts b (Block.refuse { b with sd := d } r)
  | lock (b : Block) : Acts b { b with hp := { b.hp with lock := true } }
  | soft (b : Block) : Acts b b.softReset
  | initEnd (b : Block) : Acts b b.endInit

theorem Acts.refl (b : Block) : Acts b b := .of (.refl b)

theorem Acts.lockedWrite (f : Block → Block) (b : Block) (h : b.hp.lock = false → Acts b (f b)) :
    Acts b (b.lockedWrite f) := by
  unfold Block.lockedWrite
  split
  · exact .of (.condition b _)
  · next hl => exact h (by simpa using hl)

theorem Acts.writeSpan (b : Block) (reg : SpanReg) (v : Word) : Acts b (b.writeSpan reg v) := by
  refine .lockedWrite _ b fun h => ?_
  split
  · exact .of (.refuse b _)
  · next he => exact .group b b.sm _ b.ru.rte0 b.ru.rte1 h fun _ hd => absurd hd he

theorem Acts.enableSpans (b : Block) (h : b.hp.lock = false) : Acts b b.enableSpans := by
  unfold Block.enableSpans
  split
  · exact .refl b
  · split
    · next hc => exact .group b b.sm { b.sd with en := true, bad := none } b.ru.rte0 b.ru.rte1 h fun _ _ => hc
    · exact .refusedGroup b _ _ rfl _

theorem Acts.writeSpctl (b : Block) (en : Bool) : Acts b (b.writeSpctl en) := by
  refine .lockedWrite _ b fun h => ?_
  split
  · exact .enableSpans b h
  · exact .group b b.sm { b.sd with en := false } b.ru.rte0 b.ru.rte1 h fun _ hd => by simp at hd

theorem Acts.writeTim0 (b : Block) (v : Word) : Acts b (b.writeTim0 v) :=
  .lockedWrite _ b fun h => .group b { b.sm with tim0Timeout := v.field 0 8, tim0Rate := v.field 8 2 } b.sd b.ru.rte0
    b.ru.rte1 h id

theorem Acts.writeRoute (b : Block) (reg : RouteReg) (v : Word) : Acts b (b.writeRoute reg v) := by
  refine .lockedWrite _ b fun h => ?_
  cases reg
  · exact .group b b.sm b.sd v b.ru.rte1 h id
  · exact .group b b.sm b.sd b.ru.rte0 (v.field 0 2) h id

theorem Acts.writeCtl (b : Block) (v : Word) : Acts b (b.writeCtl v) := by
  unfold Block.writeCtl
  split
  · exact .soft b
  · exact .of (.setSegen b _ _)

theorem Acts.writeLock (b : Block) (v : Word) : Acts b (b.writeLock v) := by
  unfold Block.writeLock
  split
  · exact .lock b
  · exact .refl b

theorem Acts.hostWrite (b : Block) (addr : BitVec 6) (v : Word) : Acts b (b.hostWrite addr v) := by
  unfold Block.hostWrite
  split
  · exact .writeCtl b v
  · exact .of (.writeNqadv b)
  · exact .writeLock b v
  · exact .writeTim0 b v
  · exact .of (.timing b _ _)
  · exact .of (.bu b _)
  · exact .of (.clear b _)
  · exact .writeRoute b _ v
  · exact .writeRoute b _ v
  · exact .of (.len b _)
  · exact .of (.of (.du b _ id))
  · exact .of (.of (.du b _ id))
  · exact .of (.of (.du b _ id))
  · exact .of (.of (.du b _ id))
  · exact .of (.of (.du b _ id))
  · exact .of (.writeDcmd b v)
  · exact .of (.of (.le b _ rfl id))
  · exact .of (.writeLdat b v)
  · exact .of (.of (.le b _ rfl id))
  · exact .of (.writeLcmd b v)
  · exact .of (.writeOdat b v)
  · exact .of (.writeFcmd b v)
  · exact .of (.writeFmki b v)
  · exact .of (.marks b _ rfl rfl)
  · exact .of (.select b _ rfl rfl)
  · exact .writeSpan b _ v
  · exact .writeSpan b _ v
  · exact .writeSpctl b _
  · exact .of (.of (.au b _))
  · exact .of (.of (.au b _))
  · exact .of (.of (.au b _))
  · exact .of (.bu b _)
  · exact .of (.bu b _)
  · exact .of (.bu b _)
  · exact .of (.bu b _)
  · exact .of (.bu b _)
  · exact .of (.bu b _)
  · exact .of (.bu b _)
  · exact .of (.writeBkcmd b v)
  · exact .refl b

theorem Works.ignored (b : Block) : Works b b.ignored := .hp b _ rfl

theorem Works.tellAtn (b : Block) : Works b b.tellAtn := by
  unfold Block.tellAtn
  split
  · exact .lookAtn b
  · exact .refl b

theorem Acts.whenOperating (f : Block → Block) (b : Block) (h : Acts b (f b)) : Acts b (b.whenOperating f) := by
  unfold Block.whenOperating
  split
  · exact h
  · exact .of (.ignored b)

theorem Acts.whenReadable (f : Block → Block) (b : Block) (h : Acts b (f b)) : Acts b (b.whenReadable f) := by
  unfold Block.whenReadable
  split
  · exact h
  · exact .of (.hp b _ rfl)

theorem Acts.accessLdat (f held : Block → Block) (b : Block) (h : ∀ x, Works x (f x)) (hh : ∀ x, Works x (held x)) :
    Acts b (b.accessLdat f held) := by
  have hc := Works.trans (.ignored b) (.of (.choices _ (b.choices + 1)))
  unfold Block.accessLdat
  split
  · exact .of (h b)
  · split
    · dsimp only
      split
      · exact .of (.trans hc (h _))
      · exact .of (.trans hc (hh _))
    · exact .of (hh b)

/-- A command's answer is its effect on the part, with the queue as it was. -/
theorem become_eq (f : Block → Block) (s : State) : s.become f = .next { s with block := f s.block } := rfl

/-- Every command but the two hard resets makes one of the changes of `Acts`, and the queue stays as it is. -/
theorem exec_acts (c : Instr) (s : State) (hc : isHardReset c = false) :
    ∃ b, exec c s = .next { s with block := b } ∧ Acts s.block b := by
  cases c with
  | powerOnReset => cases hc
  | pinReset => cases hc
  | initEnd => exact ⟨_, rfl, .initEnd _⟩
  | resetRelease => exact ⟨_, rfl, .of (.hp _ _ rfl)⟩
  | softReset => exact ⟨_, rfl, .whenOperating _ _ (.soft _)⟩
  | segenSet => exact ⟨_, rfl, .whenOperating _ _ (.of (.setSegen _ _ _))⟩
  | segenClear => exact ⟨_, rfl, .whenOperating _ _ (.of (.setSegen _ _ _))⟩
  | censusNow => exact ⟨_, rfl, .whenOperating _ _ (.of (.setSegen _ _ _))⟩
  | atnAsserted =>
    exact ⟨_, rfl, .of (.trans (.of (.au s.block { s.block.au with atn := true })) (.tellAtn _))⟩
  | atnReleased => exact ⟨_, rfl, .of (.of (.au _ _))⟩
  | frameSent => exact ⟨_, rfl, .whenOperating _ _ (.of (.frameSent _ _))⟩
  | replyEnd => exact ⟨_, rfl, .whenOperating _ _ (.of (.replyEnd _ _ _))⟩
  | replyTimeout => exact ⟨_, rfl, .whenOperating _ _ (.of (.replyTimeout _ _))⟩
  | discardedReply => exact ⟨_, rfl, .whenOperating _ _ (.refl _)⟩
  | censusSlotsEnd => exact ⟨_, rfl, .whenOperating _ _ (.of (.censusSlotsEnd _ _))⟩
  | gapEnd => exact ⟨_, rfl, .whenOperating _ _ (.of (.gapEnd _))⟩
  | tim0Write => exact ⟨_, rfl, .whenOperating _ _ (.writeTim0 _ _)⟩
  | dcmdGo => exact ⟨_, rfl, .whenOperating _ _ (.of (.thenReads (.directGo _)))⟩
  | dcmdAbort => exact ⟨_, rfl, .whenOperating _ _ (.of (.of (.directAbort _)))⟩
  | persistExpiry o => exact ⟨_, rfl, .whenOperating _ _ (.of (.of (.expirePersist _ o)))⟩
  | runStallExpiry o => exact ⟨_, rfl, .whenOperating _ _ (.of (.of (.expireRunStall _ o)))⟩
  | runStallEnd o => exact ⟨_, rfl, .whenOperating _ _ (.of (.of (.wake _ o)))⟩
  | odatWrite => exact ⟨_, rfl, .whenOperating _ _ (.of (.writeOdat _ _))⟩
  | idatRead => exact ⟨_, rfl, .whenReadable _ _ (.of (.readIdat _))⟩
  | flushOut => exact ⟨_, rfl, .whenOperating _ _ (.of (.thenReads (.flushFifo _ _)))⟩
  | flushIn => exact ⟨_, rfl, .whenOperating _ _ (.of (.thenReads (.flushFifo _ _)))⟩
  | fmkiWrite => exact ⟨_, rfl, .whenOperating _ _ (.of (.writeFmki _ _))⟩
  | fmkoWrite => exact ⟨_, rfl, .whenOperating _ _ (.of (.marks _ _ rfl rfl))⟩
  | spanWrite => exact ⟨_, rfl, .whenOperating _ _ (.writeSpan _ _ _)⟩
  | spanEnable => exact ⟨_, rfl, .whenOperating _ _ (.writeSpctl _ _)⟩
  | spanDisable => exact ⟨_, rfl, .whenOperating _ _ (.writeSpctl _ _)⟩
  | ldatRead => exact ⟨_, rfl, .accessLdat _ _ _ .readLdat fun _ => .hp _ _ rfl⟩
  | ldatWrite => exact ⟨_, rfl, .accessLdat _ _ _ (.writeLdat · _) .ignored⟩
  | lcmdStart => exact ⟨_, rfl, .whenOperating _ _ (.of (.listStart _))⟩
  | lcmdResume => exact ⟨_, rfl, .whenOperating _ _ (.of (.listResume _))⟩
  | lcmdAbort => exact ⟨_, rfl, .whenOperating _ _ (.of (.of (.listAbort _)))⟩
  | markPostRetry => exact ⟨_, rfl, .whenOperating _ _ (.of (.of (.retryMark _ _)))⟩
  | listClaimGranted => exact ⟨_, rfl, .whenOperating _ _ (.of (.of (.grantListClaim _)))⟩
  | listStallExpiry => exact ⟨_, rfl, .whenOperating _ _ (.of (.of (.expireListStall _)))⟩
  | pauseExpiry => exact ⟨_, rfl, .whenOperating _ _ (.of (.of (.expirePause _ _)))⟩
  | holdoffExpiry => exact ⟨_, rfl, .whenOperating _ _ (.of (.expireHoldoff _))⟩
  | bkcmdRead => exact ⟨_, rfl, .whenOperating _ _ (.of (.readBooking _))⟩
  | bkcmdBook => exact ⟨_, rfl, .whenOperating _ _ (.of (.book _))⟩
  | bkcmdUnbook => exact ⟨_, rfl, .whenOperating _ _ (.of (.unbook _))⟩
  | bkcmdArm => exact ⟨_, rfl, .whenOperating _ _ (.of (.arm _))⟩
  | bkcmdDisarm => exact ⟨_, rfl, .whenOperating _ _ (.of (.disarmBooking _))⟩
  | reservationRetry => exact ⟨_, rfl, .whenOperating _ _ (.of (.retryReservation _))⟩
  | nqadv => exact ⟨_, rfl, .whenOperating _ _ (.of (.writeNqadv _))⟩
  | cndWrite => exact ⟨_, rfl, .whenOperating _ _ (.of (.clear _ _))⟩
  | rteWrite => exact ⟨_, rfl, .whenOperating _ _ (.writeRoute _ _ _)⟩
  | lenWrite => exact ⟨_, rfl, .whenOperating _ _ (.of (.len _ _))⟩
  | lockWrite => exact ⟨_, rfl, .whenOperating _ _ (.writeLock _ _)⟩
  | registerWrite addr v =>
    by_cases h : addr = 0x1C#6
    · exact ⟨_, if_pos h, .accessLdat _ _ _ (.writeLdat · _) .ignored⟩
    · exact ⟨_, if_neg h, .whenOperating _ _ (.hostWrite _ _ _)⟩
  | replyStart => exact ⟨_, rfl, .whenOperating _ _ (.of (.replyStart _))⟩
  | syncBreakOff => exact ⟨_, rfl, .whenOperating _ _ (.of (.syncBreakOff _))⟩

/-- The two hard resets give the blocks their values and keep the store, ATN, the count of choices and the queue. -/
theorem exec_hardReset (c : Instr) (s : State) (hc : isHardReset c = true) :
    ∃ hp : Hp, hp.lock = false ∧ exec c s = .next { s with block := s.block.hardReset hp } := by
  cases c <;> first | exact ⟨_, rfl, rfl⟩ | cases hc

/-- What a step can do to the part: one of the changes of `Acts`, or a hard reset. -/
theorem step_acts {s t : State} (h : step s = .next t) :
    Acts s.block t.block ∨ ∃ hp : Hp, hp.lock = false ∧ t.block = s.block.hardReset hp := by
  unfold step at h
  split at h
  · cases h
    exact .inl (.of (.of (.refl _)))
  · rename_i c rest _
    by_cases hc : isHardReset c = true
    · obtain ⟨hp, hl, e⟩ := exec_hardReset c { s with pending := rest } hc
      rw [e] at h
      cases h
      exact .inr ⟨hp, hl, rfl⟩
    · obtain ⟨b, e, hb⟩ := exec_acts c { s with pending := rest } (by simpa using hc)
      rw [e] at h
      cases h
      exact .inl hb

end Sys2Proof.Machine
end

