-- ==== Sys2Proof/Laws/Bookings.lean ====
section
/-! SUPPORT. Said once: reading a Booking Table entry after a write of one, and what the Booking Unit's operations do to
the Service Queue and to the Notification Queue's reservation. -/

namespace Sys2Proof.Machine

/-! ## Entries (R148) -/

/-- A station number that has an entry. -/
def isStation (k : Nat) : Prop := 1 ≤ k ∧ k ≤ 30

theorem Bu.entry_setEntry_same (u : Bu) (k : Nat) (e : Booking) (h : isStation k) : (u.setEntry k e).entry k = e := by
  obtain ⟨h1, h2⟩ := h
  match k, h1 with
  | n + 1, _ =>
    have hn : n < 30 := by omega
    simp [Bu.setEntry, Bu.entry, hn]

theorem Bu.entry_setEntry_other (u : Bu) (k j : Nat) (e : Booking) (h : j ≠ k) :
    (u.setEntry k e).entry j = u.entry j := by
  match k, j with
  | 0, _ => rfl
  | _ + 1, 0 => rfl
  | n + 1, m + 1 =>
    have hne : n ≠ m := by omega
    simp [Bu.setEntry, Bu.entry, hne]

theorem Bu.setEntry_none (u : Bu) (k : Nat) (e : Booking) (h : ¬ isStation k) : u.setEntry k e = u := by
  match k with
  | 0 => rfl
  | n + 1 =>
    have hn : 30 ≤ n := by unfold isStation at h; omega
    simp [Bu.setEntry, Vector.setIfInBounds_eq_of_size_le, hn]

theorem Bu.entry_none (u : Bu) (k : Nat) (h : ¬ isStation k) : u.entry k = Booking.blank := by
  match k with
  | 0 => rfl
  | n + 1 =>
    have hn : 30 ≤ n := by unfold isStation at h; omega
    simp [Bu.entry, hn]

@[simp] theorem Bu.setEntry_queue (u : Bu) (k : Nat) (e : Booking) : (u.setEntry k e).queue = u.queue := by
  cases k <;> rfl

@[simp] theorem Bu.setEntry_ctx (u : Bu) (k : Nat) (e : Booking) : (u.setEntry k e).ctx = u.ctx := by
  cases k <;> rfl

@[simp] theorem Bu.setEntry_station (u : Bu) (k : Nat) (e : Booking) : (u.setEntry k e).station = u.station := by
  cases k <;> rfl

/-- An entry that is not blank belongs to a station. -/
theorem Bu.isStation_of_state (u : Bu) (k : Nat) (h : (u.entry k).state ≠ .unbooked) : isStation k := by
  by_contra hk
  exact h (by rw [u.entry_none k hk]; rfl)

/-! ## The Service Queue (R157) -/

/-- R157, over the Booking Unit alone. -/
structure Bu.Sound (u : Bu) : Prop where
  nodup : u.queue.Nodup
  queued : ∀ k, k ∈ u.queue ↔ (u.entry k).state = .queued
  served : ∀ k, (u.entry k).state = .inService ↔ (u.ctx ≠ .idle ∧ u.station = k)

theorem Bu.Sound.setEntry {u : Bu} (h : u.Sound) (k : Nat) (e : Booking)
    (hq : e.state = .queued ↔ (u.entry k).state = .queued)
    (hs : e.state = .inService ↔ (u.entry k).state = .inService) : (u.setEntry k e).Sound := by
  by_cases hk : isStation k
  · refine ⟨by simpa using h.nodup, fun j => ?_, fun j => ?_⟩
    · by_cases hj : j = k
      · subst hj; rw [u.entry_setEntry_same j e hk, hq, Bu.setEntry_queue]; exact h.queued j
      · rw [u.entry_setEntry_other k j e hj, Bu.setEntry_queue]; exact h.queued j
    · by_cases hj : j = k
      · subst hj; rw [u.entry_setEntry_same j e hk, hs, Bu.setEntry_ctx, Bu.setEntry_station]; exact h.served j
      · rw [u.entry_setEntry_other k j e hj, Bu.setEntry_ctx, Bu.setEntry_station]; exact h.served j
  · rw [u.setEntry_none k e hk]; exact h

/-- The station of an entry with a new state that is neither QUEUED nor IN-SERVICE leaves the queue. -/
theorem Bu.Sound.remove {u : Bu} (h : u.Sound) (k : Nat) (e : Booking) (hq : e.state ≠ .queued)
    (hs : e.state ≠ .inService) (hn : (u.entry k).state ≠ .inService) (hk : isStation k) :
    ((u.dequeue k).setEntry k e).Sound := by
  have hsame : ∀ j, (u.dequeue k).entry j = u.entry j := fun j => by cases j <;> rfl
  refine ⟨by simpa [Bu.dequeue] using h.nodup.filter _, fun j => ?_, fun j => ?_⟩
  · by_cases hj : j = k
    · subst hj
      simp only [Bu.entry_setEntry_same _ j e hk, Bu.setEntry_queue, Bu.dequeue, List.mem_filter]
      simp [hq]
    · rw [Bu.entry_setEntry_other _ k j e hj, hsame, ← h.queued j, Bu.setEntry_queue]
      simp [Bu.dequeue, hj]
  · by_cases hj : j = k
    · subst hj
      have := (h.served j).not.mp hn
      simp only [Bu.entry_setEntry_same _ j e hk, Bu.setEntry_ctx, Bu.setEntry_station, Bu.dequeue]
      simp [hs]
      tauto
    · rw [Bu.entry_setEntry_other _ k j e hj, hsame, Bu.setEntry_ctx, Bu.setEntry_station]
      exact h.served j

/-- An ARMED station joins the tail. -/
theorem Bu.Sound.join {u : Bu} (h : u.Sound) (k : Nat) (ha : (u.entry k).state = .armed) :
    ({ u.setState k .queued with queue := u.queue ++ [k] }).Sound := by
  have hk : isStation k := u.isStation_of_state k (by rw [ha]; decide)
  have hnot : k ∉ u.queue := fun hm => by have := (h.queued k).mp hm; rw [ha] at this; cases this
  have hent : ∀ j, ({ u.setState k .queued with queue := u.queue ++ [k] } : Bu).entry j = (u.setState k .queued).entry j :=
    fun j => by cases j <;> rfl
  refine ⟨?_, fun j => ?_, fun j => ?_⟩
  · refine List.nodup_append.mpr ⟨h.nodup, by simp, ?_⟩
    intro a hm b hb hab
    simp only [List.mem_singleton] at hb
    subst hab hb
    exact hnot hm
  · rw [hent]
    unfold Bu.setState
    by_cases hj : j = k
    · subst hj; rw [u.entry_setEntry_same j _ hk]; simp
    · rw [u.entry_setEntry_other k j _ hj, ← h.queued j]; simp [hj]
  · rw [hent]
    have hc : ({ u.setState k .queued with queue := u.queue ++ [k] } : Bu).ctx = u.ctx := u.setEntry_ctx k _
    have hs : ({ u.setState k .queued with queue := u.queue ++ [k] } : Bu).station = u.station := u.setEntry_station k _
    rw [hc, hs]
    unfold Bu.setState
    by_cases hj : j = k
    · subst hj
      rw [u.entry_setEntry_same j _ hk, ← h.served j, ha]; simp
    · rw [u.entry_setEntry_other k j _ hj]; exact h.served j

theorem Bu.Sound.select {u : Bu} (h : u.Sound) (k : Nat) : (u.select k).1.Sound := by
  unfold Bu.select
  split
  · next ha => exact h.join k ha
  all_goals exact h

theorem Bu.Sound.selectAll (l : List Nat) {u : Bu} (h : u.Sound) : (Bu.selectAll l u).1.Sound := by
  induction l generalizing u with
  | nil => exact h
  | cons k rest ih => exact ih (h.select k)

/-- The service context moves on, for the same station. -/
theorem Bu.Sound.goOn {u v : Bu} (h : u.Sound) (ht : v.table = u.table) (hq : v.queue = u.queue)
    (hs : v.station = u.station) (hc : v.ctx ≠ .idle ↔ u.ctx ≠ .idle) : v.Sound := by
  have hent : ∀ j, v.entry j = u.entry j := fun j => by cases j <;> simp [Bu.entry, ht]
  refine ⟨hq ▸ h.nodup, fun j => ?_, fun j => ?_⟩
  · rw [hent, hq]; exact h.queued j
  · rw [hent, hs, hc]; exact h.served j

/-- The head station goes into service. -/
theorem Block.takeHead_sound (b : Block) (h : b.bu.Sound) (hi : b.bu.ctx = .idle) : b.takeHead.bu.Sound := by
  unfold Block.takeHead
  split
  · exact h
  · next k rest hq =>
    have hmem : k ∈ b.bu.queue := by rw [hq]; simp
    have hst := (h.queued k).mp hmem
    have hk : isStation k := b.bu.isStation_of_state k (by rw [hst]; decide)
    have hnd : k ∉ rest ∧ rest.Nodup := by have := h.nodup; rw [hq] at this; exact List.nodup_cons.mp this
    have hnone : ∀ j, (b.bu.entry j).state ≠ .inService := fun j hj => by
      have := (h.served j).mp hj; exact this.1 hi
    have hent : ∀ j, ({ b.bu.setState k .inService with
                     queue := rest, ctx := .reserving, station := k, outcome := .done, value := none } : Bu).entry j
                     = (b.bu.setState k .inService).entry j := fun j => by cases j <;> rfl
    refine ⟨hnd.2, fun j => ?_, fun j => ?_⟩
    · dsimp only
      rw [hent]
      unfold Bu.setState
      by_cases hj : j = k
      · subst hj; rw [Bu.entry_setEntry_same _ j _ hk]; simp [hnd.1]
      · rw [Bu.entry_setEntry_other _ k j _ hj, ← h.queued j, hq]; simp [hj]
    · dsimp only
      rw [hent]
      unfold Bu.setState
      by_cases hj : j = k
      · subst hj; rw [Bu.entry_setEntry_same _ j _ hk]; simp
      · rw [Bu.entry_setEntry_other _ k j _ hj]
        simp only [hnone j, false_iff]
        rintro ⟨-, rfl⟩
        exact hj rfl

end Sys2Proof.Machine
end

