-- ==== Sys2Proof/Laws/Fields.lean ====
section
/-! SUPPORT. The fields of a read: what `place`, `bitAt` and the or of fields are as numbers, and which value an operating
part answers a read with. -/

namespace Sys2Proof.Machine

/-- A field that fits its register counts its value times its factor. -/
theorem place_toNat {n : Nat} (v : BitVec n) (lo : Nat) (h : n + lo ≤ 16) :
    (place v lo).toNat = v.toNat * 2 ^ lo := by
  have fits : v.toNat * 2 ^ lo < 2 ^ 16 :=
    calc v.toNat * 2 ^ lo < 2 ^ n * 2 ^ lo := Nat.mul_lt_mul_of_pos_right v.isLt (Nat.two_pow_pos lo)
      _ = 2 ^ (n + lo) := (Nat.pow_add ..).symm
      _ ≤ 2 ^ 16 := Nat.pow_le_pow_right (by decide) h
  unfold place
  rw [BitVec.toNat_shiftLeft, BitVec.toNat_setWidth,
    Nat.mod_eq_of_lt (Nat.lt_of_le_of_lt (Nat.le_mul_of_pos_right _ (Nat.two_pow_pos lo)) fits), Nat.shiftLeft_eq,
    Nat.mod_eq_of_lt fits]

theorem bitAt_toNat (x : Bool) (lo : Nat) (h : lo < 16) : (bitAt x lo).toNat = x.toNat * 2 ^ lo := by
  unfold bitAt
  rw [place_toNat _ _ (by omega)]
  cases x <;> rfl

/-- Fields that lie below place `i` and a field at place `i` add up. -/
theorem or_field (below i v : Nat) (h : below < 2 ^ i) : below ||| v * 2 ^ i = below + v * 2 ^ i := by
  rw [Nat.or_comm, Nat.mul_comm, ← Nat.two_pow_add_eq_or_of_lt h, Nat.add_comm]

theorem Block.hostRead_operating {b : Block} (h : b.operating = true) (addr : BitVec 6) :
    b.hostRead addr = b.decodedRead addr := by
  simp only [Block.operating, Bool.and_eq_true, Bool.not_eq_true'] at h
  simp [Block.hostRead, h]

end Sys2Proof.Machine
end

