-- ==== Sys2Proof/Laws/Runs.lean ====
section
/-! SUPPORT. What ending a run, preparing a word and going on after a word can come to, said once each in the terms of the
claims: the lemmas to cite in place of unfolding these operations. -/

namespace Sys2Proof.Machine

/-- A run's end as the sequencer leaves it is the end as the claims write it (R41). -/
theorem Run.finish_eq_over (r : Run) (res : Result) : r.finish res = r.over res := rfl

/-- Giving back an owner's claims, as the claims write it (R57). -/
theorem Block.releaseDirect_eq (b : Block) : b.releaseDirect = { b with fp := b.fp.without .direct } := by
  simp only [Block.releaseDirect, Fp.without, Fifo.releaseDirect, Fifo.withClaim]
  split <;> split <;> simp_all

theorem Block.releaseList_eq (b : Block) : b.releaseList = { b with fp := b.fp.without .list } := by
  simp only [Block.releaseList, Fp.without, Fifo.releaseList, Fifo.withClaim]
  split <;> split <;> simp_all

theorem Block.listHalt_eq (b : Block) (res : Result) : b.listHalt res = b.listHalted res res.resumable := by
  rw [Block.listHalt, Block.releaseList_eq]; rfl

theorem Block.listEnd_eq (b : Block) (res : Result) : b.listEnd res = b.listOver res := by
  rw [Block.listEnd, Block.releaseList_eq]; rfl

/-- No claim passes exactly where `passingClaim` finds none (R57). -/
theorem Block.passingClaim_none (b : Block) : b.passingClaim = none ↔ b.noClaimPasses := by
  unfold Block.passingClaim Block.noClaimPasses
  cases h : b.le.activity <;> simp

theorem Block.passingClaim_some {b : Block} {side : FifoSide} :
    b.passingClaim = some side ↔ b.le.activity = .waitClaim side ∧ (b.fifo side).claim = .direct := by
  unfold Block.passingClaim
  cases h : b.le.activity <;> simp
  constructor
  · rintro ⟨a, rfl⟩; exact ⟨rfl, a⟩
  · rintro ⟨rfl, a⟩; exact ⟨a, rfl⟩

/-! ### Preparing a word -/

theorem RunDesc.fifoSide_eq (d : RunDesc) :
    d.fifoSide = if d.storesFifo then some .outbound else if d.fetchesFifo then some .inbound else none := by
  unfold RunDesc.fifoSide RunDesc.storesFifo RunDesc.fetchesFifo
  cases d.mode <;> cases d.verb <;> rfl

@[simp] theorem Block.setRun_inlineBase (b : Block) (o : Owner) (r : Run) :
    (b.setRun o r).le.inlineBase = b.le.inlineBase := by cases o <;> rfl

/-- A grant, as the claims write it (R12, R22). -/
theorem Block.grantClient_eq (b : Block) (c : Client) (r : Request) : b.grantClient c r = b.granted c r := by
  cases c <;> cases hs : r.source <;>
    simp only [Block.grantClient, Block.markInFlight, Block.sourceData, Block.granted, hs] <;> rfl

/-- The rotation finds the requester that the claims name (R22). -/
theorem Sm.nextClient_eq {s : Sm} {c : Client} {r : Request} (hr : s.request c = some r)
    (h : c = cycleAfter s.pointer ∨
      (c = cycleAfter (cycleAfter s.pointer) ∧ s.request (cycleAfter s.pointer) = none) ∨
      (c = s.pointer ∧ s.request (cycleAfter s.pointer) = none ∧
        s.request (cycleAfter (cycleAfter s.pointer)) = none)) : s.nextClient = some c := by
  unfold Sm.nextClient
  cases hp : s.pointer <;> rw [hp] at h <;> simp only [cycleAfter] at h <;>
    rcases h with rfl | ⟨rfl, h1⟩ | ⟨rfl, h1, h2⟩ <;> simp_all [Client.after]

/-- What the arbiter does while SEGEN is 1, in the terms of the claims (R21, R22). -/
theorem Block.arbitrate_judged {b : Block} (hs : b.sm.segen = true) : b.Judged b.arbitrate := by
  unfold Block.arbitrate
  refine ⟨fun hp => ?_, fun hp hc => ?_, fun c r hp hc hr h => ?_⟩
  · rw [if_neg (by simp [hp])]
  · rw [if_pos ⟨hp, hs⟩, if_pos hc]; rfl
  · rw [if_pos ⟨hp, hs⟩, if_neg (by simp [hc]), Sm.nextClient_eq hr h]
    simp only [hr, Block.grantClient_eq]

theorem Block.wordSource_eq (b : Block) (r : Run) : b.wordSource r =
    if r.desc.verb ≠ .store then .noData
    else if r.desc.mode = .register then .dataWord
    else if r.desc.mode = .inline then .inline (b.le.inlineBase + r.index)
    else if r.desc.mode = .fifo then .outboundHead
    else .noData := by
  unfold Block.wordSource
  split <;> simp_all
  split <;> simp_all

/-- What posting the word at the run's index does while SEGEN is 1, its target being recorded (R34). -/
theorem Block.postWord_spec {b : Block} {o : Owner} (hs : b.sm.segen = true) :
    ∃ x, b.postWord o = (x, none) ∧ (b.wordPosted o (b.run o).lastStation (b.run o).lastCell).Judged x := by
  refine ⟨_, by unfold Block.postWord; rw [if_pos hs], ?_⟩
  have e : ({ b.setRun o { b.run o with sub := .requesting } with
      sm := b.sm.setRequest (clientOf o) (some (b.wordRequest o (b.run o).lastStation (b.run o).lastCell)) } : Block) =
      b.wordPosted o (b.run o).lastStation (b.run o).lastCell := by cases o <;> rfl
  rw [← e]
  unfold Block.post
  simp only [Block.wordSource_eq, Block.wordRequest, Block.setRun_sm]
  exact Block.arbitrate_judged (by cases o <;> exact hs)

theorem Block.dataReady_level (b : Block) (d : RunDesc) : b.dataReady d ↔
    (d.storesFifo = true → b.fp.out.level ≠ 0) ∧ (d.fetchesFifo = true → b.fp.inb.level < 64) := by
  simp [Block.dataReady, Fifo.level]

/-- What the data test of a run without the full-seen mark comes to, its target being recorded (R32 to R34). -/
theorem Block.testData_spec {b : Block} {o : Owner} (hf : (b.run o).fullSeen = false)
    (hs : b.dataReady (b.run o).desc → b.sm.segen = true) :
    ∃ x, b.testData o = (x, none) ∧ b.PreparesAt o (b.run o).lastStation (b.run o).lastCell x := by
  by_cases hr : b.dataReady (b.run o).desc
  · obtain ⟨x, hx, h1⟩ := Block.postWord_spec (o := o) (hs hr)
    refine ⟨x, ?_, fun h => absurd hr h, fun _ _ => h1⟩
    rw [← hx]
    rw [Block.dataReady_level] at hr
    unfold Block.testData
    simp only [RunDesc.fifoSide_eq, hf]
    by_cases a : (b.run o).desc.storesFifo = true <;> by_cases c : (b.run o).desc.fetchesFifo = true <;>
      simp_all
  · refine ⟨b.wordStalled o (b.run o).lastStation (b.run o).lastCell, ?_, fun _ => rfl, fun h => absurd h hr⟩
    rw [Block.dataReady_level] at hr
    unfold Block.testData Block.stallRun Block.wordStalled limitOf
    simp only [RunDesc.fifoSide_eq, hf]
    have ex : ¬ ((b.run o).desc.storesFifo = true ∧ (b.run o).desc.fetchesFifo = true) := by
      unfold RunDesc.storesFifo RunDesc.fetchesFifo
      cases (b.run o).desc.mode <;> cases (b.run o).desc.verb <;> simp
    by_cases a : (b.run o).desc.storesFifo = true <;> by_cases c : (b.run o).desc.fetchesFifo = true <;>
      simp_all

/-- What preparing the word at the index of a run without the full-seen mark comes to (R29 to R34). -/
theorem Block.prepare_found {b : Block} {o : Owner} {station cell : Nat} (hf : (b.run o).fullSeen = false)
    (ht : b.sd.target (b.run o).desc (b.run o).index = .ok (station, cell))
    (hs : b.dataReady (b.run o).desc → b.sm.segen = true) :
    ∃ x, b.prepare o = (x, none) ∧ b.PreparesAt o station cell x := by
  unfold Block.prepare
  simp only [ht]
  obtain ⟨x, hx, h⟩ := Block.testData_spec (o := o)
    (b := b.setRun o { b.run o with sub := .preparing, lastStation := station, lastCell := cell })
    (by simpa using hf) (by simpa [Block.dataReady] using hs)
  refine ⟨x, hx, ?_⟩
  cases o <;> exact h

/-! ### The end of a run -/

/-- The results with which preparing a word can end a run. -/
theorem Sd.target_error {d : Sd} {r : RunDesc} {i : Nat} {res : Result} (h : d.target r i = .error res) :
    res = .cellEnd ∨ res = .unmapped := by
  unfold Sd.target at h
  dsimp only at h
  repeat' split at h
  all_goals simp_all

/-- The results with which preparing a word can end its run (R29, R30, R20). -/
theorem Block.prepare_results (b : Block) (o : Owner) {res : Result} (h : (b.prepare o).2 = some res) :
    res = .cellEnd ∨ res = .unmapped ∨ res = .offline := by
  unfold Block.prepare at h
  dsimp only at h
  split at h
  · next he => cases h; rcases Sd.target_error he with rfl | rfl <;> simp
  · unfold Block.testData Block.postWord at h
    dsimp only at h
    repeat' split at h
    all_goals simp_all

/-- The word at the index of a run is prepared (R29 to R34), where `ends` is what the given operation makes of an end. -/
theorem Block.prepare_or (b : Block) (o : Owner) {ends : Block → Result → Block → Prop} {take : Progress → Block}
    (hn : ∀ c, take (c, none) = c)
    (he : ∀ c res, res = .cellEnd ∨ res = .unmapped ∨ res = .offline → ends c res (take (c, some res)))
    (hsub : ∀ c s res c', ends (c.setRun o { c.run o with sub := s }) res c' → ends c res c') :
    b.PreparesOr o ends (take (b.prepare o)) := by
  refine fun hf => ⟨fun res ht => ?_, fun station cell ht => ⟨⟨fun hd => ?_, fun hr hs => ?_⟩, fun hr hs => ?_⟩⟩
  · unfold Block.prepare
    simp only [ht]
    exact he b res (by rcases Sd.target_error ht with rfl | rfl <;> simp)
  · obtain ⟨x, hx, h⟩ := Block.prepare_found hf ht (fun h => absurd h hd)
    rw [hx, hn]
    exact h.1 hd
  · obtain ⟨x, hx, h⟩ := Block.prepare_found hf ht (fun _ => hs)
    rw [hx, hn]
    exact h.2 hr hs
  · have : b.prepare o =
        (b.setRun o { b.run o with sub := .preparing, lastStation := station, lastCell := cell }, some .offline) := by
      unfold Block.prepare
      simp only [ht]
      rw [Block.dataReady_level] at hr
      unfold Block.testData Block.postWord
      simp only [RunDesc.fifoSide_eq, Block.run_setRun, Block.setRun_fp, Block.setRun_sm, hf, hs]
      by_cases a : (b.run o).desc.storesFifo = true <;> by_cases c : (b.run o).desc.fetchesFifo = true <;> simp_all
    rw [this]
    refine hsub _ .preparing _ _ ?_
    have k := he (b.setRun o { b.run o with sub := .preparing, lastStation := station, lastCell := cell }) .offline (by simp)
    cases o <;> exact k

/-- An end before COMPLETE, as the List Engine reports it (R127 to R129). -/
theorem Block.listProgress_ends (b : Block) {res : Result} (h : res ≠ .complete)
    (hl : res.resumable = decide (res ≠ .cellEnd ∧ res ≠ .illegal) ∨ res = .aborted) :
    b.ListEnds res (Block.listProgress (b, some res)) := by
  rcases hl with hl | rfl
  · have ha : res ≠ .aborted := by rintro rfl; simp [Result.resumable] at hl
    have : Block.listProgress (b, some res) = b.listHalt res := by
      cases res <;> first | rfl | exact absurd rfl h | exact absurd rfl ha
    rw [Block.ListEnds, this, Block.listHalt_eq, hl, if_neg ha]
  · exact Block.listEnd_eq b .aborted

/-- What preparing a word of the list comes to does not depend on the sub-state it is found in. -/
theorem Block.ListEnds.of_sub {b : Block} {s : SubState} {res : Result} {b' : Block}
    (h : (b.setRun .list { b.run .list with sub := s }).ListEnds res b') : b.ListEnds res b' := h

/-- The entry's run starts (R108, R121, R122). -/
theorem Block.listRunStart_starts (b : Block) :
    Block.EntryStarts
      { b with le := { b.le with activity := .running, stallTimer := none, run := { b.le.run with stall := .noStall } } }
      b.listRunStart := by
  let b0 : Block := { b with le := { b.le with
      activity := .running, stallTimer := none, run := { b.le.run with sub := .preparing, stall := .noStall } } }
  refine ⟨fun h => ?_, fun h => ?_⟩
  · have h : b.le.run.desc.fails .list = true := h
    unfold Block.listRunStart Block.startRun
    simp only [Block.run, h, if_true, Block.listHalt_eq]
    rfl
  · have h : b.le.run.desc.fails .list = false := h
    have e : ∀ p : Progress, p = b0.prepare .list → b.listRunStart = Block.listProgress p := by
      rintro ⟨c, r⟩ hp
      have hs : b0.startRun .list = (c, r) := by
        unfold Block.startRun
        rw [if_neg (by rw [show (b0.run .list).desc = b.le.run.desc from rfl, h]; decide), hp]
      unfold Block.listRunStart
      simp only [show ({ b with le := _ } : Block) = b0 from rfl, hs]
      cases r with
      | none => rfl
      | some res =>
        have := Block.prepare_results b0 .list (res := res) (by rw [← hp])
        rcases this with rfl | rfl | rfl <;> rfl
    rw [e _ rfl]
    exact Block.prepare_or b0 .list (take := fun p => Block.listProgress p) (fun _ => rfl)
      (fun c res hr => Block.listProgress_ends c (by rcases hr with rfl | rfl | rfl <;> simp)
        (.inl (by rcases hr with rfl | rfl | rfl <;> rfl)))
      (fun _ _ _ _ => Block.ListEnds.of_sub)

theorem Block.wouldPost_iff (b : Block) (c : Condition) : b.wouldPost c = true ↔ b.asksForSlot c := by
  simp [Block.wouldPost, Block.asksForSlot]

/-- The claim passes to the List Engine that waits for it (R57): what the operations leave is what the claims write. -/
theorem Block.claimPassed_eq (b : Block) (res : Result) (side : FifoSide) : b.claimPassed res side =
    { ((b.directResults res).releaseDirect).setClaim side .list with le := { b.le with
      activity := .running, stallTimer := none, run := { b.le.run with stall := .noStall } } } := by
  rw [Block.releaseDirect_eq]
  cases side <;> simp only [Block.claimPassed, Block.setClaim, Block.setFifo, Block.directResults, Fifo.withClaim,
    Block.fifo, Fp.without] <;> rfl

/-- The end of the Direct Unit's run, in the terms of the claims (R57, R88). -/
theorem Block.directEnd_ends (b : Block) (res : Result) : b.DirectEnds res (b.directEnd res) := by
  unfold Block.directEnd
  refine ⟨fun h => ?_, fun side passed ha hc hp => ?_⟩
  · rw [← Block.passingClaim_none] at h
    simp only [h, Block.releaseDirect_eq]
    rfl
  · simp only [Block.passingClaim_some.2 ⟨ha, hc⟩]
    rw [Block.claimPassed_eq] at hp
    have run : (((b.directResults res).releaseDirect).setClaim side .list).le = b.le := by cases side <;> rfl
    have asks : ∀ c, (((b.directResults res).releaseDirect).setClaim side .list).wouldPost c = true ↔ b.asksForSlot c :=
      fun c => by rw [← Block.wouldPost_iff]; cases side <;> rfl
    generalize ((b.directResults res).releaseDirect).setClaim side .list = d at hp run asks ⊢
    subst hp
    rw [← run]
    refine ⟨fun hn => ?_, fun hb => ?_⟩
    · rw [if_neg (by rwa [asks, asks])]
      exact (d.setCondition .ddone).listRunStart_starts
    · rw [if_pos (by rwa [asks, asks])]
      unfold Block.choose
      dsimp only
      split
      · exact .inl (d.chosen.setCondition .ddone).listRunStart_starts
      · exact .inr ⟨_, d.chosen.listRunStart_starts, rfl⟩

/-- A run that ends before it is COMPLETE, reported by its owner. -/
theorem Block.takeProgress_ends (b : Block) (o : Owner) {res : Result} (h : res ≠ .complete)
    (hl : res.resumable = decide (res ≠ .cellEnd ∧ res ≠ .illegal) ∨ res = .aborted) :
    b.RunEnds o res (Block.takeProgress o (b, some res)) := by
  cases o with
  | direct => exact Block.directEnd_ends b res
  | list => exact Block.listProgress_ends b h hl

/-- The word at the index of a run is prepared (R29 to R34). -/
theorem Block.prepare_prepares (b : Block) (o : Owner) : b.Prepares o (Block.takeProgress o (b.prepare o)) :=
  Block.prepare_or b o (take := fun p => Block.takeProgress o p) (fun _ => by cases o <;> rfl)
    (fun c res hr => Block.takeProgress_ends c o (by rcases hr with rfl | rfl | rfl <;> simp)
      (.inl (by rcases hr with rfl | rfl | rfl <;> rfl)))
    (fun _ _ _ _ => by cases o <;> exact id)

/-- What preparing a word comes to does not depend on the sub-state it is found in. -/
theorem Block.Prepares.of_sub {b : Block} {o : Owner} {s : SubState} {b' : Block}
    (h : (b.setRun o { b.run o with sub := s }).Prepares o b') : b.Prepares o b' := by
  cases o <;> exact h

/-- The entry's run starts with its word prepared, where its start checks pass (R121). -/
theorem Block.listRunStart_prepares {b : Block} (h : b.le.run.desc.fails .list = false) :
    Block.Prepares
      { b with le := { b.le with activity := .running, stallTimer := none, run := { b.le.run with stall := .noStall } } }
      .list b.listRunStart := b.listRunStart_starts.2 h

theorem Block.listRunStart_illegal {b : Block} (h : b.le.run.desc.fails .list = true) :
    b.listRunStart = b.listHalted .illegal false := b.listRunStart_starts.1 h

/-- A claim that the List Engine takes and gives back again leaves what giving it back leaves (R57). -/
theorem Block.setClaim_without {b : Block} {side : FifoSide} (h : (b.fifo side).claim ≠ .direct) :
    (b.setClaim side .list).fp.without .list = b.fp.without .list := by
  have hc : ∀ c : Claim, c ≠ .direct → Claim.unclaimed = if c = .list then .unclaimed else c := by
    intro c hc; cases c <;> simp_all
  unfold Fp.without Block.setClaim Block.setFifo Fifo.withClaim
  cases side
  · simp only [if_true, Block.fifo] at h ⊢; rw [← hc _ h]
  · simp only [if_true, Block.fifo] at h ⊢; rw [← hc _ h]

/-- The claim an entry's run needs is taken before the run starts, or waited for (R56, R122). -/
theorem Block.listClaimAndStart_runs (b : Block) : b.EntryRuns b.listClaimAndStart := by
  unfold Block.listClaimAndStart
  refine ⟨fun side hs hc => ?_, fun hn => ⟨fun hf => ?_, fun hf => ?_⟩⟩
  · simp only [hs, hc, if_true]; rfl
  · cases hs : b.le.run.desc.fifoSide with
    | none => exact Block.listRunStart_illegal hf
    | some side =>
      simp only [if_neg (hn side hs)]
      rw [Block.listRunStart_illegal (b := b.setClaim side .list) (by cases side <;> exact hf)]
      unfold Block.listHalted
      rw [Block.setClaim_without (hn side hs)]
      cases side <;> rfl
  · cases hs : b.le.run.desc.fifoSide with
    | none =>
      have := Block.listRunStart_prepares hf
      rw [RunDesc.fifoSide_eq] at hs
      split at hs <;> [cases hs; skip]
      split at hs <;> [cases hs; skip]
      simp_all
    | some side =>
      simp only [if_neg (hn side hs)]
      have := Block.listRunStart_prepares (b := b.setClaim side .list) (by cases side <;> exact hf)
      rw [RunDesc.fifoSide_eq] at hs
      split at hs
      · next ho => cases hs; rw [if_pos ho]; exact this
      · next ho =>
        split at hs
        · next hi => cases hs; rw [if_neg ho, if_pos hi]; exact this
        · cases hs

/-- Where the engine has come to a new entry, a host access that falls together comes first, or it reads on (R120). -/
theorem Block.goesOn_cases (access : Bool) (read : Block → Block) (b : Block) :
    (access = true ∧ b.goesOn access read = b.chosen) ∨
      b.goesOn access read = read (if access then b.chosen else b) := by
  unfold Block.goesOn Block.choose
  cases access
  · exact .inr rfl
  · simp only [if_true]
    split
    · exact .inr rfl
    · exact .inl ⟨trivial, rfl⟩

/-- Reading on through entries, in the terms of the claims (R120). -/
theorem Block.listRead_reads (access : Bool) :
    ∀ (slots : Nat) (b : Block), slots = 16 - b.ru.nq.length → b.Reads access (Block.listRead access slots b)
  | slots, b, hn => by
    unfold Block.listRead
    split
    · next h => rw [Block.listHalt_eq]; exact .malformed h
    · next h => rw [Block.listEnd_eq]; exact .endOfList h
    · next h => exact .pause h
    · next h => exact .run h (Block.listClaimAndStart_runs _)
    · next tag h => match slots with
      | 0 => exact .markWaits h (by omega)
      | more + 1 =>
        have hl : b.ru.nq.length < 16 := by omega
        have hf : b.ru.hasFree = true := by simp [Ru.hasFree, hl]
        have hlen : more = 16 - ((b.postMark tag).listAdvance 2).ru.nq.length := by
          show more = 16 - (b.ru.nq ++ _).length
          rw [List.length_append, List.length_singleton]; omega
        simp only [hf, if_true]
        rcases Block.goesOn_cases access (Block.listRead access more) ((b.postMark tag).listAdvance 2) with k | k
        · rw [k.2]
          exact .markFollowed (posted := (b.postMark tag).listAdvance 2) k.1 h hl rfl
        · rw [k]
          refine .markReadsOn (posted := (b.postMark tag).listAdvance 2) h hl rfl (Block.listRead_reads access more _ ?_)
          cases access <;> exact hlen

theorem Block.listGo_reads (b : Block) : b.Reads false b.listGo := Block.listRead_reads _ _ b rfl

/-- What follows a finished entry, in the terms of the claims (R120). -/
theorem Block.listPass_goesOn (b : Block) (n : Nat) (access : Bool) : (b.nextEntry n).GoesOn access (b.listPass n access) := by
  refine ⟨fun h => ?_, fun h => ?_⟩ <;> subst h
  · exact Block.listRead_reads _ _ _ rfl
  · refine (Block.goesOn_cases true (fun b => b.listRead true b.ru.freeSlots) (b.listAdvance n)).imp (·.2) fun k => ?_
    show Block.Reads true _ (Block.goesOn _ _ _)
    rw [k]
    exact Block.listRead_reads _ _ _ rfl

/-- What follows a host access that came between two entries, in the terms of the claims. -/
theorem Block.listReadBehind_reads (b : Block) : b.ThenReads b.listReadBehind := by
  unfold Block.listReadBehind
  exact ⟨fun h => by simp [h], fun h => by simpa [h] using b.listGo_reads⟩

theorem Block.Reads.at_end {access : Bool} {b b' : Block} (h : b.Reads access b')
    (he : entryAt b.storeAt b.le.cursor = .endOfList) : b' = b.listOver .complete := by
  cases h <;> simp_all

/-- Only a run that is COMPLETE finishes its list entry (R121). -/
theorem Block.takeProgress_access {o : Owner} {p : Progress} {access : Bool} (h : p.2 ≠ some .complete) :
    Block.takeProgress o p access = Block.takeProgress o p := by
  obtain ⟨b, r⟩ := p
  cases o
  · rfl
  · cases r with
    | none => rfl
    | some res => cases res <;> first | rfl | exact absurd rfl h

/-- The run goes on behind the word before its index (R35 step 4, R36). -/
theorem Block.nextWord_after (b : Block) (o : Owner) (access : Bool) :
    b.AfterWord o access (Block.takeProgress o (b.nextWord o) access) := by
  refine ⟨fun h => ?_, fun h => ⟨fun ho => ?_, fun ho => ?_⟩⟩ <;> unfold Block.nextWord
  · rw [if_neg h, Block.takeProgress_access fun he => by simpa using Block.prepare_results b o he]
    exact Block.prepare_prepares b o
  · subst ho
    rw [if_pos h]
    exact Block.directEnd_ends b .complete
  · subst ho
    rw [if_pos h]
    show Block.GoesOn _ access (Block.listNext b access)
    unfold Block.listNext
    rw [Block.releaseList_eq]
    exact Block.listPass_goesOn { b with fp := b.fp.without .list } _ _

/-! ### Outcomes of words -/

theorem Fifo.leave_eq {f : Fifo} (h : f.words ≠ []) : f.leave = { f with words := f.words.tail, removed := f.removed + 1 } := by
  unfold Fifo.leave
  split <;> simp_all

theorem Fifo.join_eq {f : Fifo} (w : Word) (h : f.words.length < 64) :
    f.join w = { f with words := f.words ++ [w], joined := f.joined + 1 } := by
  unfold Fifo.join Fifo.level
  rw [if_pos h]

/-- A DONE outcome, in the terms of the claims (R35). -/
theorem Block.takeDone_eq {b : Block} {o : Owner} (v : Word) (h : b.dataReady (b.run o).desc) :
    b.takeDone o v = b.wordDone o v := by
  have e : b.moveDoneWord o v = b.wordMoved (b.run o).desc (b.run o).index v := by
    unfold Block.dataReady RunDesc.storesFifo RunDesc.fetchesFifo at h
    unfold Block.moveDoneWord Block.wordMoved RunDesc.storesFifo RunDesc.fetchesFifo
    dsimp only
    cases hm : (b.run o).desc.mode <;> cases hv : (b.run o).desc.verb <;> simp [hm, hv, Block.setFifo] at h ⊢
    · rw [Fifo.join_eq _ h]
    · rw [Fifo.leave_eq h]; rfl
    · rfl
  have r : (b.moveDoneWord o v).run o = b.run o := by
    unfold Block.moveDoneWord
    dsimp only
    split <;> cases o <;> rfl
  unfold Block.takeDone Block.wordDone
  dsimp only
  rw [r, e]
  have r' : (b.wordMoved (b.run o).desc (b.run o).index v).run o = b.run o := by rw [← e, r]
  rw [r']

/-- A word passed over, in the terms of the claims (R36, R38). -/
theorem Block.takeSkip_eq {b : Block} {o : Owner} (reply : LastReply)
    (h : (b.run o).desc.storesFifo = true → b.fp.out.words ≠ []) : b.takeSkip o reply = b.wordSkipped o reply := by
  unfold Block.takeSkip Block.wordSkipped Block.discardWord
  simp only [RunDesc.fifoSide_eq]
  by_cases a : (b.run o).desc.storesFifo = true
  · simp only [a, if_true, Block.setFifo, Fifo.leave_eq (h a)]
    cases o <;> rfl
  · by_cases c : (b.run o).desc.fetchesFifo = true <;> simp [a, c]

theorem Block.applyAborting_eq {b : Block} {o : Owner} (e : Ending) (v : Word) (h : b.dataReady (b.run o).desc) :
    b.applyAborting o e v = b.abortLeaves o e v := by
  unfold Block.applyAborting Block.abortLeaves
  cases e <;> simp [Block.takeDone_eq v h, Block.takeSkip_eq _ h.1, Block.setReply, Block.replyNoted]

/-- An outcome that leaves a run ABORTING (R46). -/
theorem Block.applyOutcome_aborting {b : Block} {o : Owner} (e : Ending) (v : Word) (hs : (b.run o).sub = .aborting)
    (h : b.dataReady (b.run o).desc) : b.applyOutcome o e v = (b.abortLeaves o e v, some .aborted) := by
  unfold Block.applyOutcome
  rw [if_pos hs, Block.applyAborting_eq e v h]

/-- The requester of an owner's run receives an outcome (R35 to R39). -/
theorem Block.deliver_eq {b : Block} {c : Client} {o : Owner} (h : c = clientOf o) (e : Ending) (v : Word) (access : Bool) :
    b.deliver c e v access = Block.takeProgress o (b.applyOutcome o e v) access := by
  subst h; cases o <;> rfl

/-- A stalled run that is woken prepares its word again (R32, R33). -/
theorem Block.wake_prepares {b : Block} {o : Owner} (h : b.stallOver o = true) : (b.stallLeft o).Prepares o (b.wake o) := by
  unfold Block.wake
  rw [if_pos h]
  refine Block.Prepares.of_sub (s := .preparing) ?_
  have := Block.prepare_prepares
    (b.setRun o { b.run o with sub := .preparing, stall := .noStall, fullSeen := false, stallTimer := none }) o
  cases o <;> exact this

end Sys2Proof.Machine
end

