-- ==== Sys2Proof/Laws/Services.lean ====
section
/-! SUPPORT. Said once: what the service sequence (R159 to R163) does to the Booking Unit and to the slots of the
Notification Queue, and what ending a service and starting the next come to in the terms of the claims. -/

namespace Sys2Proof.Machine

/-! ## Operations outside the Booking Unit -/

/-- No operation of the other blocks changes the Booking Unit. -/
theorem Evolves.bu_eq {a b : Block} (h : Evolves a b) : b.bu = a.bu := by
  induction h with
  | trans _ _ i j => rw [j, i]
  | join => rw [Block.setFifo_bu]
  | leave => rw [Block.setFifo_bu]
  | claim => unfold Block.setClaim; rw [Block.setFifo_bu]
  | _ => rfl

/-- The slots of the queue after a block's report: as they were, or with one record behind them, at most 16. -/
theorem Ru.setCondition_nq (r : Ru) (c : Condition) :
    (r.setCondition c).nq = r.nq ∨
      (r.nq.length < 16 ∧ (r.setCondition c).nq = r.nq ++ [.occupied (.condition c)]) := by
  unfold Ru.setCondition
  split
  · exact .inl rfl
  · dsimp only
    split
    · split
      · next h => exact .inr ⟨by simpa [Ru.hasFree] using h, rfl⟩
      · exact .inl rfl
    · exact .inl rfl

/-- The slots of the queue hold at most 16, with the given number of reservations (R173). -/
def Ru.Slots (r : Ru) (reserved : Nat) : Prop := r.nq.length ≤ 16 ∧ r.nq.count .reserved = reserved

theorem Ru.Slots.setCondition {r : Ru} {n : Nat} (h : r.Slots n) (c : Condition) : (r.setCondition c).Slots n := by
  obtain e | ⟨hl, e⟩ := r.setCondition_nq c
  · exact ⟨by rw [e]; exact h.1, by rw [e]; exact h.2⟩
  · exact ⟨by rw [e]; simp; omega, by rw [e]; simp [h.2]⟩

theorem Evolves.slots {a b : Block} (h : Evolves a b) {n : Nat} : a.ru.Slots n → b.ru.Slots n := by
  induction h with
  | trans _ _ i j => exact fun x => j (i x)
  | join => rw [Block.setFifo_ru]; exact id
  | leave => rw [Block.setFifo_ru]; exact id
  | claim => unfold Block.setClaim; rw [Block.setFifo_ru]; exact id
  | condition b c => exact fun x => x.setCondition c
  | record b r hf =>
    refine fun x => ⟨?_, ?_⟩
    · have : b.ru.nq.length < 16 := by simpa [Ru.hasFree] using hf
      simp [Ru.join]; omega
    · simp [Ru.join, x.2]
  | _ => exact id

theorem fillReservation_length (r : Record) (l : List Slot) : (fillReservation r l).length = l.length := by
  induction l with
  | nil => rfl
  | cons x rest ih => cases x <;> simp [fillReservation, ih]

theorem fillReservation_count (r : Record) (l : List Slot) :
    (fillReservation r l).count .reserved = l.count .reserved - 1 := by
  induction l with
  | nil => rfl
  | cons x rest ih => cases x <;> simp [fillReservation, ih]

theorem Ru.Slots.fill {r : Ru} {n : Nat} (h : r.Slots n) (rec : Record) :
    ({ r with nq := fillReservation rec r.nq } : Ru).Slots (n - 1) :=
  ⟨by simpa [fillReservation_length] using h.1, by simp [fillReservation_count, h.2]⟩

theorem Ru.Slots.reserve {r : Ru} {n : Nat} (h : r.Slots n) (hf : r.hasFree = true) :
    (r.join .reserved).Slots (n + 1) := by
  have : r.nq.length < 16 := by simpa [Ru.hasFree] using hf
  exact ⟨by simp [Ru.join]; omega, by simp [Ru.join, h.2]⟩

/-- Occupied and reserved slots are all the slots. -/
theorem Ru.occupied_add_reserved (r : Ru) : r.occupied + r.reservedSlots = r.nq.length := by
  unfold Ru.occupied Ru.reservedSlots
  induction r.nq with
  | nil => rfl
  | cons x rest ih => cases x <;> simp_all <;> omega

/-! ## The service sequence -/

/-- A service at its actions, or waiting for none: the reservations a context calls for (R160). -/
def SvcState.reservations : SvcState → Nat
  | .action1 => 1
  | .action2 => 1
  | .idle => 0
  | .reserving => 0
  | .posting => 1

/-- The Booking Unit and the queue's slots agree with R157 and R173, and no service is left in POSTING. -/
structure Block.Serving (b : Block) : Prop where
  sound : b.bu.Sound
  slots : b.ru.Slots b.bu.ctx.reservations
  posted : b.bu.ctx ≠ .posting

theorem Evolves.serving {a b : Block} (h : Evolves a b) (s : a.Serving) : b.Serving := by
  refine ⟨?_, ?_, ?_⟩
  · rw [h.bu_eq]; exact s.sound
  · rw [h.bu_eq]; exact h.slots s.slots
  · rw [h.bu_eq]; exact s.posted

/-- A posting, from any context of a service under way that holds its reservation. -/
theorem Block.postService_serving (b : Block) (h : b.bu.Sound) (hi : b.bu.ctx ≠ .idle) (hr : b.ru.Slots 1) :
    b.postService.Serving := by
  have hin : (b.bu.entry b.bu.station).state = .inService := (h.served _).mpr ⟨hi, rfl⟩
  have hk : isStation b.bu.station := b.bu.isStation_of_state _ (by rw [hin]; decide)
  have hother : ∀ j, j ≠ b.bu.station → (b.bu.entry j).state ≠ .inService := fun j hj hs =>
    hj ((h.served j).mp hs).2.symm
  have hnext : ∀ m e c, nextBookState m e c ≠ .queued ∧ nextBookState m e c ≠ .inService := by
    intro m e c; cases m <;> cases e <;> cases c <;> decide
  have hs : ∀ e : Booking, e.state ≠ .queued → e.state ≠ .inService →
      ({ b.bu.setEntry b.bu.station e with ctx := .idle, station := 0, outcome := .done, value := none } : Bu).Sound := by
    intro e h1 h2
    have hent : ∀ j, ({ b.bu.setEntry b.bu.station e with
        ctx := .idle, station := 0, outcome := .done, value := none } : Bu).entry j
        = (b.bu.setEntry b.bu.station e).entry j := fun j => by cases j <;> rfl
    refine ⟨by simpa using h.nodup, fun j => ?_, fun j => ?_⟩
    · rw [hent]
      by_cases hj : j = b.bu.station
      · subst hj
        rw [Bu.entry_setEntry_same _ _ _ hk]
        simp only [Bu.setEntry_queue, h1, iff_false]
        intro hm
        have := (h.queued _).mp hm
        rw [hin] at this; cases this
      · rw [Bu.entry_setEntry_other _ _ j _ hj]
        simp only [Bu.setEntry_queue]
        exact h.queued j
    · rw [hent]
      by_cases hj : j = b.bu.station
      · subst hj; rw [Bu.entry_setEntry_same _ _ _ hk]; simp [h2]
      · rw [Bu.entry_setEntry_other _ _ j _ hj]; simp [hother j hj]
  have hq : ∀ rec, ({ b.ru with nq := fillReservation rec b.ru.nq } : Ru).Slots 0 := fun rec => hr.fill rec
  unfold Block.postService
  dsimp only
  split
  · exact ⟨hs _ (hnext _ _ _).1 (hnext _ _ _).2, (hq _).setCondition _, by simp [Block.setCondition]⟩
  · exact ⟨hs _ (hnext _ _ _).1 (hnext _ _ _).2, hq _, by simp⟩

theorem Block.finishService_serving (b : Block) (e : Ending) (h : b.bu.Sound) (hi : b.bu.ctx ≠ .idle)
    (hr : b.ru.Slots 1) : (b.finishService e).Serving :=
  Block.postService_serving _ (h.goOn rfl rfl rfl ⟨fun _ => hi, fun _ => by simp⟩) (by simp) hr

theorem Block.postAction_serving (b : Block) (c : SvcState) (a : Action) (h : b.bu.Sound) (hi : b.bu.ctx ≠ .idle)
    (hr : b.ru.Slots 1) (hc : c = .action1 ∨ c = .action2) : (b.postAction c a).Serving := by
  have hne : c ≠ .idle := by rcases hc with rfl | rfl <;> decide
  have hs : ({ b.bu with ctx := c } : Bu).Sound := h.goOn rfl rfl rfl ⟨fun _ => hi, fun _ => hne⟩
  unfold Block.postAction
  dsimp only
  split
  · refine (Evolves.post _ _ _).serving ⟨hs, ?_, ?_⟩
    · rcases hc with rfl | rfl <;> exact hr
    · rcases hc with rfl | rfl <;> simp
  · exact Block.finishService_serving _ _ hs hne hr

theorem Block.beginActions_serving (b : Block) (h : b.bu.Sound) (hi : b.bu.ctx ≠ .idle) (hr : b.ru.Slots 1) :
    b.beginActions.Serving := by
  unfold Block.beginActions
  dsimp only
  split
  · exact b.finishService_serving _ h hi hr
  · exact b.postAction_serving _ _ h hi hr (.inl rfl)
  · exact b.postAction_serving _ _ h hi hr (.inl rfl)

theorem Block.tryReserve_serving (b : Block) (h : b.Serving) (hc : b.bu.ctx = .reserving) : b.tryReserve.Serving := by
  have hr : b.ru.Slots 0 := by have := h.slots; rw [hc] at this; exact this
  unfold Block.tryReserve
  split
  · next hf =>
    exact Block.beginActions_serving _ h.sound (by dsimp only; rw [hc]; decide) (hr.reserve hf)
  · exact h

theorem Block.takeHead_serving (b : Block) (h : b.Serving) (hready : b.serviceReady = true) :
    b.takeHead.Serving ∧ b.takeHead.bu.ctx = .reserving := by
  have hi : b.bu.ctx = .idle := by
    unfold Block.serviceReady at hready; simp at hready; exact hready.1.1
  have hne : b.bu.queue ≠ [] := by
    unfold Block.serviceReady at hready; simp at hready; exact hready.1.2
  have hr : b.ru.Slots 0 := by have := h.slots; rw [hi] at this; exact this
  have hctx : b.takeHead.bu.ctx = .reserving := by
    unfold Block.takeHead; split
    · next hq => exact absurd hq hne
    · rfl
  have hru : b.takeHead.ru = b.ru := by unfold Block.takeHead; split <;> rfl
  refine ⟨⟨b.takeHead_sound h.sound hi, ?_, ?_⟩, hctx⟩
  · rw [hctx, hru]; exact hr
  · rw [hctx]; decide

theorem Block.startUpTo_serving (n : Nat) (b : Block) (h : b.Serving) : (b.startUpTo n).Serving := by
  induction n generalizing b with
  | zero => exact h
  | succ n ih =>
    unfold Block.startUpTo
    split
    · next hready =>
      obtain ⟨h1, h2⟩ := b.takeHead_serving h hready
      exact ih _ (Block.tryReserve_serving _ h1 h2)
    · exact h

theorem Block.startServices_serving (b : Block) (h : b.Serving) : b.startServices.Serving := b.startUpTo_serving _ h

theorem Block.applyAction_serving (b : Block) (e : Ending) (v : Word) (h : b.Serving) :
    (b.applyAction e v).Serving := by
  have key : ∀ c, b.bu.ctx = c → (c = .action1 ∨ c = .action2) → b.ru.Slots 1 ∧ b.bu.ctx ≠ .idle := by
    intro c hc hor
    have := h.slots
    rw [hc] at this ⊢
    rcases hor with rfl | rfl
    · exact ⟨this, by decide⟩
    · exact ⟨this, by decide⟩
  unfold Block.applyAction
  dsimp only
  split
  · next hc =>
    obtain ⟨hr, hi⟩ := key _ hc (.inl rfl)
    split
    · have hv : ∀ b', b' = (if (b.bu.entry b.bu.station).clear.verb = .fetch then
          { b with bu := { b.bu with value := some v } } else b) → b'.bu.Sound ∧ b'.bu.ctx ≠ .idle ∧ b'.ru.Slots 1 := by
        rintro b' rfl
        split
        · exact ⟨h.sound.goOn rfl rfl rfl Iff.rfl, hi, hr⟩
        · exact ⟨h.sound, hi, hr⟩
      obtain ⟨h1, h2, h3⟩ := hv _ rfl
      split
      · exact Block.postAction_serving _ _ _ h1 h2 h3 (.inr rfl)
      · exact Block.finishService_serving _ _ h1 h2 h3
      · exact Block.finishService_serving _ _ h1 h2 h3
    · exact b.finishService_serving e h.sound hi hr
  · next hc =>
    obtain ⟨hr, hi⟩ := key _ hc (.inr rfl)
    exact b.finishService_serving e h.sound hi hr
  all_goals exact h

theorem Block.serviceOutcome_serving (b : Block) (e : Ending) (v : Word) (h : b.Serving) :
    (b.serviceOutcome e v).Serving :=
  Block.startServices_serving _ (b.applyAction_serving e v h)

theorem Block.retryReservation_serving (b : Block) (h : b.Serving) : b.retryReservation.Serving := by
  unfold Block.retryReservation
  split
  · next hc => exact Block.startServices_serving _ (b.tryReserve_serving h hc)
  · exact h

theorem Bu.select_ctx (u : Bu) (k : Nat) : (u.select k).1.ctx = u.ctx := by
  unfold Bu.select
  split
  · exact u.setEntry_ctx k _
  all_goals rfl

theorem Bu.selectAll_ctx (l : List Nat) (u : Bu) : (Bu.selectAll l u).1.ctx = u.ctx := by
  induction l generalizing u with
  | nil => rfl
  | cons k rest ih => exact (ih _).trans (u.select_ctx k)

theorem Block.startWithUnbk_serving (n : Nat) (b : Block) (h : b.Serving) : (b.startWithUnbk n).Serving := by
  induction n generalizing b with
  | zero => exact (Evolves.condition _ _).serving h
  | succ n ih =>
    unfold Block.startWithUnbk
    dsimp only
    split
    · next hw =>
      have hc : ({ b with choices := b.choices + 1 } : Block).Serving := (Evolves.choices b (b.choices + 1)).serving h
      split
      · exact Block.startUpTo_serving _ _ ((Evolves.condition _ _).serving hc)
      · obtain ⟨h1, h2⟩ := Block.takeHead_serving _ hc hw.2
        exact ih _ (Block.tryReserve_serving _ h1 h2)
    · exact Block.startUpTo_serving _ _ ((Evolves.condition _ _).serving h)

theorem Block.handOver_serving (b : Block) (l : List Nat) (h : b.Serving) : (b.handOver l).Serving := by
  have h1 : ({ b with bu := (Bu.selectAll l b.bu).1 } : Block).Serving :=
    ⟨h.sound.selectAll l, by dsimp only; rw [Bu.selectAll_ctx]; exact h.slots,
     by dsimp only; rw [Bu.selectAll_ctx]; exact h.posted⟩
  unfold Block.handOver
  dsimp only
  split
  · exact Block.startWithUnbk_serving _ _ h1
  · exact Block.startServices_serving _ h1

theorem Block.attemptReservation_serving (b : Block) (h : b.Serving) : b.attemptReservation.Serving := by
  unfold Block.attemptReservation Block.attempt
  dsimp only
  have hc := (Evolves.choices b (b.choices + 1)).serving h
  split
  · split
    · exact Block.retryReservation_serving _ hc
    · exact hc
  · exact h

theorem Block.attemptMark_serving (b : Block) (h : b.Serving) : b.attemptMark.Serving := by
  unfold Block.attemptMark Block.attempt
  dsimp only
  have hc := (Evolves.choices b (b.choices + 1)).serving h
  split
  · split
    · exact (Evolves.retryMark _).serving hc
    · exact hc
  · exact h

/-! ## The service sequence in the terms of the claims -/

/-- A write of an entry, as the claims write it (R148). -/
theorem Bu.setEntry_eq (u : Bu) (k : Nat) (e : Booking) : u.setEntry k e = u.withEntry k e := by
  unfold Bu.withEntry
  match k with
  | 0 =>
    show u = _
    have : u.table = Vector.ofFn fun i => if i.val + 1 = 0 then e else u.table[i] := by ext i hi; simp
    rw [← this]
  | n + 1 =>
    have : u.table.setIfInBounds n e = Vector.ofFn fun i => if i.val + 1 = n + 1 then e else u.table[i] := by
      ext i hi
      simp [Vector.getElem_setIfInBounds, eq_comm]
    rw [← this]
    rfl

/-- The record takes the first reservation (R162). -/
theorem fillReservation_split {rec : Record} {before after : List Slot} (h : .reserved ∉ before) :
    fillReservation rec (before ++ .reserved :: after) = before ++ .occupied rec :: after := by
  induction before with
  | nil => rfl
  | cons x rest ih => cases x <;> simp_all [fillReservation]

theorem nextBookState_eq (mark : PendingMark) (e : Ending) (cls : BookClass) : nextBookState mark e cls =
    match mark with
    | .unbook => .unbooked
    | .disarm => .disarmed
    | .noMark => if e = .offline ∨ (e = .done ∧ cls = .repeat) then .armed else .disarmed := by
  cases mark <;> cases e <;> cases cls <;> rfl

/-- A service's record is posted, in the terms of the claims (R162, R163). -/
theorem Block.finishService_posts (b : Block) (e : Ending) : b.ServicePosts e b.bu.value (b.finishService e) := by
  rintro ent n before after posted rfl rfl hq hb rfl
  have hs : ∀ mark : PendingMark, serviceFault mark e = true ↔ mark = .noMark ∧ e ≠ .done ∧ e ≠ .offline := by
    intro mark; simp [serviceFault, and_assoc]
  unfold Block.finishService Block.postService
  simp only [hq, fillReservation_split hb, hs, Bu.setEntry_eq, nextBookState_eq, nextCount]
  rfl

/-- A service with an action posts it with SEGEN at 1, in the terms of the claims (R161). -/
theorem Block.postAction_posted {b : Block} {ctx : SvcState} {a : Action} (hs : b.sm.segen = true) :
    b.ActionPosted ctx a (b.postAction ctx a) := by
  unfold Block.postAction
  rw [if_pos hs]
  exact Block.arbitrate_judged hs

/-- A service with actions begins with its clear action (R160). -/
theorem Block.beginActions_acts (b : Block) (hc : (b.bu.entry b.bu.station).cls ≠ .notify) :
    b.beginActions = b.postAction .action1 (b.bu.entry b.bu.station).clear := by
  unfold Block.beginActions
  dsimp only
  split
  · next h => exact absurd h hc
  all_goals rfl

/-- A service that has its slot begins its actions, or posts its record (R160, R161, R164). -/
theorem Block.beginActions_cases (b : Block) :
    ((b.bu.entry b.bu.station).cls = .notify → b.ServicePosts .done b.bu.value b.beginActions) ∧
      ((b.bu.entry b.bu.station).cls ≠ .notify →
        (b.sm.segen = true → b.ActionPosted .action1 (b.bu.entry b.bu.station).clear b.beginActions) ∧
        (b.sm.segen = false → b.ServicePosts .offline b.bu.value b.beginActions)) := by
  have off : ∀ a, b.sm.segen = false → b.ServicePosts .offline b.bu.value (b.postAction .action1 a) := fun a hs => by
    unfold Block.postAction
    rw [if_neg (by simp [hs])]
    exact Block.finishService_posts { b with bu := { b.bu with ctx := .action1 } } .offline
  refine ⟨fun hc => ?_, fun hc => ⟨fun hs => ?_, fun hs => ?_⟩⟩
  · unfold Block.beginActions
    simp only [hc]
    exact b.finishService_posts .done
  · rw [b.beginActions_acts hc]; exact Block.postAction_posted hs
  · rw [b.beginActions_acts hc]; exact off _ hs

theorem Block.startUpTo_stays {b : Block} (n : Nat) (h : b.serviceReady = false) : b.startUpTo n = b := by
  cases n with
  | zero => rfl
  | succ n => unfold Block.startUpTo; rw [if_neg (by simp [h])]

theorem Block.takeHead_eq {b : Block} {k : Nat} {rest : List Nat} (h : b.bu.queue = k :: rest) :
    b.takeHead = b.serviceTaken k rest := by
  unfold Block.takeHead Block.serviceTaken
  simp only [h, Bu.setState, Bu.setEntry_eq]

/-- Being served changes the state of an entry alone. -/
theorem Block.serviceTaken_entry (b : Block) (k : Nat) (rest : List Nat) :
    ((b.serviceTaken k rest).bu.entry k).cls = (b.bu.entry k).cls ∧
      ((b.serviceTaken k rest).bu.entry k).clear = (b.bu.entry k).clear := by
  have e : (b.serviceTaken k rest).bu.entry k =
      (b.bu.setEntry k { b.bu.entry k with state := .inService }).entry k := by
    rw [Bu.setEntry_eq]; cases k <;> rfl
  rw [e]
  by_cases h : isStation k
  · rw [Bu.entry_setEntry_same _ _ _ h]; exact ⟨rfl, rfl⟩
  · rw [Bu.setEntry_none _ _ _ h]; exact ⟨rfl, rfl⟩

theorem Block.finishService_queue (b : Block) (e : Ending) : (b.finishService e).bu.queue = b.bu.queue := by
  unfold Block.finishService Block.postService
  dsimp only
  split <;> exact Bu.setEntry_queue _ _ _

theorem Block.postAction_ctx {b : Block} {c : SvcState} {a : Action} (hs : b.sm.segen = true) :
    (b.postAction c a).bu.ctx = c := by
  unfold Block.postAction
  rw [if_pos hs]
  exact congrArg Bu.ctx (Evolves.post _ _ _).bu_eq

/-- The services that can start do, in the terms of the claims (R159 to R163). -/
theorem Block.startUpTo_starts :
    ∀ (n : Nat) (b : Block), b.bu.queue.length ≤ n → b.ServicesStart (b.startUpTo n)
  | 0, b, h => .rests fun _ hq => absurd (List.eq_nil_of_length_eq_zero (Nat.le_zero.1 h)) hq
  | n + 1, b, h => by
    unfold Block.startUpTo
    split
    · next hr =>
      unfold Block.serviceReady at hr
      simp only [Bool.and_eq_true, decide_eq_true_eq, Bool.not_eq_true'] at hr
      obtain ⟨⟨hi, hq⟩, hs⟩ := hr
      obtain ⟨k, rest, hq⟩ : ∃ k rest, b.bu.queue = k :: rest := by
        cases hb : b.bu.queue with
        | nil => simp [hb] at hq
        | cons k rest => exact ⟨k, rest, rfl⟩
      obtain ⟨hcls, hclear⟩ := b.serviceTaken_entry k rest
      rw [Block.takeHead_eq hq]
      unfold Block.tryReserve
      split
      · next hf =>
        have hl : b.ru.nq.length < 16 := of_decide_eq_true hf
        show b.ServicesStart (Block.startUpTo n (b.serviceTaken k rest).slotReserved.beginActions)
        by_cases hc : (b.bu.entry k).cls = .notify
        · refine .notifies hi hq hs hl hc ((b.serviceTaken k rest).slotReserved.beginActions_cases.1 (hcls.trans hc))
            (Block.startUpTo_starts n _ ?_)
          have : (b.serviceTaken k rest).slotReserved.beginActions =
              (b.serviceTaken k rest).slotReserved.finishService .done := by
            unfold Block.beginActions
            simp only [show ((b.serviceTaken k rest).slotReserved.bu.entry
              (b.serviceTaken k rest).slotReserved.bu.station).cls = .notify from hcls.trans hc]
          rw [this, Block.finishService_queue]
          show rest.length ≤ n
          rw [hq] at h
          exact Nat.le_of_succ_le_succ h
        · have hn := (b.serviceTaken k rest).slotReserved.beginActions_acts fun x => hc (hcls.symm.trans x)
          rw [Block.startUpTo_stays n (by simp [Block.serviceReady, hn, Block.postAction_ctx
            (b := (b.serviceTaken k rest).slotReserved) hs])]
          have := ((b.serviceTaken k rest).slotReserved.beginActions_cases.2 fun x => hc (hcls.symm.trans x)).1 hs
          rw [show ((b.serviceTaken k rest).slotReserved.bu.entry (b.serviceTaken k rest).slotReserved.bu.station).clear =
            (b.bu.entry k).clear from hclear] at this
          exact .acts hi hq hs hl hc this
      · next hf =>
        rw [Block.startUpTo_stays n (by simp [Block.serviceReady, Block.serviceTaken])]
        exact .waits hi hq hs (Nat.not_lt.1 fun hl => hf (decide_eq_true hl))
    · next hr =>
      refine .rests fun hi hq => ?_
      unfold Block.serviceReady at hr
      cases hs : b.sm.segen with
      | false => rfl
      | true => cases hb : b.bu.queue with
        | nil => exact absurd hb hq
        | cons k rest => simp [hi, hb, hs] at hr

theorem Block.startServices_starts (b : Block) : b.ServicesStart b.startServices := b.startUpTo_starts _ (Nat.le_refl _)

/-- A service's actions are over, and the services that can start behind it do (R159, R162, R163). -/
theorem Block.finishService_over (b : Block) (e : Ending) :
    b.ServiceOver e b.bu.value (b.finishService e).startServices :=
  fun _ => ⟨_, b.finishService_posts e, Block.startServices_starts _⟩

end Sys2Proof.Machine
end

