-- ==== Sys2Proof/WellFormed.lean ====
section
/-! DEFINITION. Which commands are well formed: the operands whose length the segment protocol fixes. Every other
operand is well formed by its type. The machine gives the ill-formed ones a meaning too (missing bits and slots read
as the idle line, surplus ones are not taken); no outside agent of the manual sends them. -/

namespace Sys2Proof

/-- A reply is read over at most 26 bit times after its sync pattern (R3). -/
def replyBitsOk (bits : List Bool) : Bool := bits.length ≤ 26

/-- A census has 30 slots (R7). -/
def censusSlotsOk (slots : List (BitVec 3)) : Bool := slots.length = 30

/-- The command is one the manual's agents can send. -/
def Instr.wellFormed : Instr → Bool
  | .replyEnd bits => replyBitsOk bits
  | .censusSlotsEnd slots => censusSlotsOk slots
  | .powerOnReset | .initEnd | .pinReset | .resetRelease | .softReset | .segenSet | .segenClear => true
  | .censusNow _ | .atnAsserted | .atnReleased | .frameSent | .replyTimeout _ | .discardedReply | .gapEnd => true
  | .tim0Write _ | .dcmdGo | .dcmdAbort | .persistExpiry _ | .runStallExpiry _ | .runStallEnd _ => true
  | .odatWrite _ | .idatRead | .flushOut | .flushIn | .fmkiWrite _ | .fmkoWrite _ => true
  | .spanWrite _ _ | .spanEnable | .spanDisable | .ldatRead | .ldatWrite _ => true
  | .lcmdStart | .lcmdResume | .lcmdAbort | .markPostRetry | .listClaimGranted | .listStallExpiry => true
  | .pauseExpiry | .holdoffExpiry | .bkcmdRead | .bkcmdBook | .bkcmdUnbook | .bkcmdArm | .bkcmdDisarm => true
  | .reservationRetry | .nqadv | .cndWrite _ | .rteWrite _ _ | .lenWrite _ | .lockWrite _ => true
  | .registerWrite _ _ | .replyStart | .syncBreakOff => true

end Sys2Proof
end

