-- ==== Sys2Proof/Tests/Slice0.lean ====
section
/-! SUPPORT. The model's own tests. Expected values come from spec/: the register layouts of section 11.7, the worked
examples, and hand calculation by the rule a comment names. The second half shows, for each statement with hypotheses,
states and operands that meet them. -/

namespace Sys2Proof.Tests

open Sys2Proof Sys2Proof.Machine

/-! ## States for the tests -/

/-- The part that `c` leaves. -/
def after (c : Instr) (b : Block) : Block :=
  match exec c ⟨b, []⟩ with
  | .next s => s.block
  | .fault _ => b
  | .refused _ => b

/-- After INIT: the reset values, accesses decoded, the segment off. -/
def quiet : Block := { Block.reset with hp := { Hp.reset with initRunning := false } }

/-- As `quiet`, the segment enabled and the Segment Master IDLE. -/
def live : Block := { quiet with sm := { quiet.sm with segen := true, phase := .idle } }

/-- As `live`, the Segment Master in the gap after an exchange. -/
def gap : Block := { live with sm := { live.sm with phase := .gap, gap := some .interFrame } }

def locked : Block := { quiet with hp := { quiet.hp with lock := true } }

/-- A STATION-form description of count 1. -/
def oneWord (verb : Verb) (mode : DataMode) : RunDesc :=
  { form := .station, station := 3, start := 20, verb := verb, count := 1, advance := .fixed, wait := .halt,
    tolerant := false, retries := 1, mode := mode }

/-- A run of that description at word 0. -/
def runAt (sub : SubState) (verb : Verb) (mode : DataMode) : Run :=
  { Run.fresh with desc := oneWord verb mode, sub := sub, lastStation := 3, lastCell := 20, stallTimer := some 100,
                   persist := some 50 }

def record (client : Client) (verb : Verb) : WordTx :=
  { client := client, station := 3, verb := verb, cell := 20, data := none, retryLimit := 1, retriesUsed := 0,
    latest := none, final := false }

def onWire (phase : SmPhase) (w : WordTx) (b : Block) : Block :=
  { b with sm := { b.sm with phase := phase, tx := some (.word w), timing := true, partialSync := true } }

def withDirect (r : Run) (b : Block) : Block := { b with du := { b.du with run := r } }

def withList (a : Activity) (b : Block) : Block := { b with le := { b.le with activity := a, stallTimer := some 100 } }

def withListRun (r : Run) (b : Block) : Block := { b with le := { b.le with run := r } }

/-- With these words in the List Store from address 0. -/
def withStore (m : Memory) (b : Block) : Block := { b with le := { b.le with store := m } }

def withEntry (station : Nat) (e : Booking) (b : Block) : Block :=
  { b with bu := { b.bu.setEntry station e with bksel := BitVec.ofNat 5 station } }

def armed : Booking := { Booking.blank with state := .armed, cls := .repeat, tag := 7 }

/-- Station 3, with this entry, is in service. -/
def servingA (e : Booking) (ctx : SvcState) (b : Block) : Block :=
  { withEntry 3 e b with bu := { (withEntry 3 e b).bu with ctx := ctx, station := 3 } }

def serving (ctx : SvcState) (b : Block) : Block :=
  servingA { armed with state := .inService, clear := { verb := .store, cell := 9, data := 1 } } ctx b

/-- Stations 3 and 5 wait in the Service Queue. -/
def queued (b : Block) : Block :=
  { withEntry 5 { armed with state := .queued } (withEntry 3 { armed with state := .queued } b) with
    bu := { (withEntry 5 { armed with state := .queued } (withEntry 3 { armed with state := .queued } b)).bu with
      queue := [3, 5] } }

/-- With this claim of the Outbound FIFO and these words in it. -/
def withOutbound (c : Claim) (words : List Word) (b : Block) : Block :=
  { b with fp := { b.fp with out := { b.fp.out with claim := c, words := words, joined := words.length } } }

/-- A direct STORE from the claimed, empty Outbound FIFO is stalled, and the List Engine waits for that claim. -/
def claimWaits : Block :=
  withDirect { runAt .stalled .store .fifo with stall := .fifoData }
    (withListRun { runAt .ended .store .fifo with stall := .claim } (withList (.waitClaim .outbound)
      (withOutbound .direct [] gap)))

def fullQueue : List Slot := List.replicate 16 (.occupied (.condition .ddone))

def withQueue (l : List Slot) (b : Block) : Block := { b with ru := { b.ru with nq := l } }

def census : Block := { live with sm := { live.sm with phase := .await, tx := some (.census []) } }

/-- The three-station map of the example of spec/04, enabled. -/
def exampleMap : Sd :=
  { spans := #v[{ upper := 16, station := 3, base := 0 }, { upper := 16, station := 0, base := 0 },
      { upper := 48, station := 7, base := 8 }, { upper := 48, station := 0, base := 0 },
      { upper := 48, station := 0, base := 0 }, { upper := 48, station := 0, base := 0 },
      { upper := 48, station := 0, base := 0 }, { upper := 48, station := 0, base := 0 }]
    en := true, bad := none, sel := 0 }

/-! ## Well-formedness: each check refuses an ill-formed command -/

theorem test_reply_of_27_bits_is_ill_formed : (Instr.replyEnd (List.replicate 27 true)).wellFormed = false := by decide

theorem test_reply_of_26_bits_is_well_formed : (Instr.replyEnd (List.replicate 26 true)).wellFormed = true := by decide

theorem test_census_of_29_slots_is_ill_formed :
    (Instr.censusSlotsEnd (List.replicate 29 7)).wellFormed = false := by decide

theorem test_census_of_30_slots_is_well_formed :
    (Instr.censusSlotsEnd (List.replicate 30 7)).wellFormed = true := by decide

theorem test_no_word_spells_a_command : decodeTableWord 16 0 = none := by decide

/-! ## The wire: hand calculation by R5 and R188 -/

-- Register FFh; bit 0: FEh xor 2Dh = D3h; bit 1: A6h.
theorem test_check_of_a_done_reply : checkOf [false, true] = 0xA6#8 := by decide

-- Register FFh; bit 1: FEh; bit 0: FCh xor 2Dh = D1h.
theorem test_check_of_a_wait_reply : checkOf [true, false] = 0xD1#8 := by decide

-- R188: the census frame is the FETCH of cell 0 of station 31, 35 bits behind the sync pattern 1Bh.
theorem test_census_frame_opens : ((Tx.census []).frame.take 15, (Tx.census []).frame.length) =
    ([false, false, false, true, true, false, true, true, true, true, true, true, true, false, false], 35) := by decide

/-! ## Resets and the Host Port -/

theorem test_init_reads (a : BitVec 6) (h : a = 0x01#6 ∨ a = 0x04#6) :
    State.reset.block.hostRead a = if a = 0x01#6 then 0x8000 else 0 := by
  rcases h with rfl | rfl <;> decide

theorem test_init_end : (after .initEnd Block.reset).hostRead 0x01#6 = 0 ∧ (after .initEnd Block.reset).hostRead 0x04#6 = 0x0014 := by
  decide

theorem test_power_on_reset : (after .powerOnReset live).hp.initRunning = true ∧ (after .powerOnReset live).sm.segen = false := by
  decide

theorem test_pin_reset : (after .pinReset live).hostRead 0x05#6 = 0 ∧ (after .pinReset live).alert = false := by decide

-- R182: an access that comes behind an access that was ignored is ignored too.
theorem test_ldat_under_reset :
    (let b := after .ldatRead (after (.odatWrite 5) (after .pinReset (withStore [(0, 9)] quiet)))
     b.hp.readData = 0 ∧ b.le.lptr = 0 ∧ b.le.store = [(0, 9)]) := by decide

theorem test_reset_release : (after .resetRelease (after .pinReset live)).hostRead 0x05#6 = 0x6432 := by decide

-- R184: SEGEN and the holdoff setting are kept, the flags are cleared.
theorem test_soft_reset : (after .softReset (live.setCondition .ddone)).hostRead 0x00#6 = 1 ∧
    (after .softReset (live.setCondition .ddone)).hostRead 0x07#6 = 0 := by decide

theorem test_soft_reset_cuts_a_frame : (after .softReset (onWire .send (record .direct .fetch) live)).hostRead 0x01#6 = 4 := by
  decide

theorem test_lock_write : (after (.lockWrite 1) quiet).hostRead 0x02#6 = 1 ∧ (after (.lockWrite 0) locked).hostRead 0x02#6 = 1 := by
  decide

theorem test_locked_tim0_write : (after (.tim0Write 0x0214) locked).hostRead 0x04#6 = 0x0014 ∧
    (after (.tim0Write 0x0214) locked).hostRead 0x07#6 = 0x0080 := by decide

theorem test_tim0_write : (after (.tim0Write 0xFE14) quiet).hostRead 0x04#6 = 0x0214 := by decide

-- R79: a written 4097 is stored as its remainder after division by 4096.
theorem test_register_write_masks : (after (.registerWrite 0x13#6 4097) quiet).hostRead 0x13#6 = 1 := by decide

theorem test_register_write_read_only : after (.registerWrite 0x17#6 0xFFFF) quiet = quiet := by decide

/-! ## The Segment Master -/

theorem test_segen_set : (after .segenSet quiet).hostRead 0x01#6 = 1 := by decide

-- R134: ATN asserted at the set takes a QUIET Attention Unit to a census, granted at once (STA: SEND, CENSUS).
theorem test_segen_set_with_atn : (after .segenSet (after .atnAsserted quiet)).hostRead 0x01#6 = 0x000A := by decide

theorem test_segen_clear : (after .segenClear live).hostRead 0x01#6 = 0 := by decide

theorem test_frame_sent : (after .frameSent (onWire .send (record .direct .fetch) live)).sm.phase = .await := by decide

theorem test_reply_start : (after .replyStart (onWire .await (record .direct .fetch) live)).sm.timing = false := by decide

-- WAIT under HALT: outcome WAIT, last reply WAIT, last station 3 (DOUT 3803h), DDONE.
theorem test_reply_end_wait :
    (after (.replyEnd ([true, false] ++ bitsMsbFirst 0xD1#8))
      (onWire .await (record .direct .fetch) (withDirect (runAt .inFlight .fetch .register) live))).hostRead 0x17#6 = 0x3803 := by
  decide

theorem test_reply_end_with_a_wrong_check :
    (after (.replyEnd ([true, false] ++ bitsMsbFirst 0xD0#8)) (onWire .await (record .direct .fetch) live)).sm.after = .retry := by
  decide

theorem test_reply_timeout : (after (.replyTimeout false) (onWire .await (record .direct .fetch) live)).sm.after = .retry := by
  decide

theorem test_sync_break_off : (after .syncBreakOff (onWire .await (record .direct .fetch) live)).sm.phase = .gap := by decide

theorem test_discarded_reply : after .discardedReply live = live := by decide

theorem test_gap_end : (after .gapEnd gap).hostRead 0x01#6 = 1 := by decide

/-! ## Attention and census -/

theorem test_atn_asserted : (after .atnAsserted live).au.state = .census := by decide

theorem test_atn_released : (after .atnReleased (after .atnAsserted quiet)).hostRead 0x2F#6 = 0x000A := by decide

theorem test_census_now_refused : (after (.censusNow false) quiet).hostRead 0x03#6 = 12 := by decide

-- Station 1 QUIET, station 2 ATTENTION, station 16 GARBLED, the others ABSENT.
set_option maxRecDepth 8000 in
theorem test_census_slots_end :
    let b := after (.censusSlotsEnd ([3, 1] ++ List.replicate 13 7 ++ [5] ++ List.replicate 14 7)) census
    b.hostRead 0x32#6 = 2 ∧ b.hostRead 0x34#6 = 3 ∧ b.hostRead 0x35#6 = 1 ∧ b.hostRead 0x07#6 = 0x0010 := by decide

theorem test_holdoff_expiry :
    (after .holdoffExpiry { live with au := { live.au with state := .holdoff, timer := some 10 } }).au.state = .quiet := by
  decide

/-! ## Runs, direct requests, FIFOs -/

-- R79: a DTGT of 33 names station 1. DOUT: IN-PROGRESS, BUSY, last station 1.
theorem test_dcmd_go :
    (after .dcmdGo { gap with du := { gap.du with dtgt := 33, dcnt := 1, dmod := 0x0010 } }).hostRead 0x17#6 = 0x1021 := by
  decide

-- DMOD = 0000h fails the start checks (section 11.7): outcome ILLEGAL, BUSY 0.
theorem test_dcmd_go_illegal : (after .dcmdGo quiet).hostRead 0x17#6 = 0xD000 := by decide

theorem test_dcmd_abort :
    (after .dcmdAbort (withDirect (runAt .requesting .fetch .register) gap)).hostRead 0x17#6 = 0xC003 := by decide

theorem test_persist_expiry :
    (after (.persistExpiry .direct) (withDirect (runAt .requesting .fetch .register) gap)).hostRead 0x17#6 = 0x7003 := by decide

theorem test_run_stall_expiry :
    (after (.runStallExpiry .direct)
      (withDirect { runAt .stalled .store .fifo with stall := .fifoData } gap)).hostRead 0x17#6 = 0x8103 := by decide

theorem test_run_stall_end :
    (after (.runStallEnd .direct) (withDirect { runAt .stalled .store .fifo with stall := .fifoData } gap)).du.run.sub = .stalled := by
  decide

-- R52, R32: the arrival of a word ends the stall of the claimant run.
theorem test_odat_write_ends_a_stall :
    (after (.odatWrite 5) { withDirect { runAt .stalled .store .fifo with stall := .fifoData } gap with
      fp := { gap.fp with out := { gap.fp.out with claim := .direct } } }).du.run.sub = .requesting := by decide

theorem test_odat_write : (after (.odatWrite 5) quiet).hostRead 0x27#6 = 0x0081 := by decide

theorem test_idat_read_empty : (after .idatRead quiet).hostRead 0x07#6 = 0x0040 := by decide

theorem test_flush_out : (after .flushOut (after (.odatWrite 5) quiet)).hostRead 0x27#6 = 0x0080 := by decide

theorem test_flush_in_claimed :
    (after .flushIn { quiet with fp := { quiet.fp with inb := { quiet.fp.inb with claim := .list } } }).hostRead 0x03#6 = 4 := by
  decide

-- R60: an IDRQ mark of 0 is stored as 1, one above 64 as 64.
theorem test_fmki_write : (after (.fmkiWrite 0x0005) quiet).hostRead 0x29#6 = 0x0105 ∧
    (after (.fmkiWrite 0x7F05) quiet).hostRead 0x29#6 = 0x4005 := by decide

theorem test_fmko_write : (after (.fmkoWrite 0x0000) (after (.odatWrite 5) quiet)).hostRead 0x27#6 = 0x0001 := by decide

/-! ## The span table: the examples of spec/04 -/

theorem test_span_example_1500 : exampleMap.decode 1500 = some (7, 988) := by decide

theorem test_span_example_3072 : exampleMap.decode 3071 = some (7, 2559) ∧ exampleMap.decode 3072 = none := by decide

-- The refused enable: span 2's base 40 and span 4's boundary 40 give BAD 2, SPAN-INVALID.
theorem test_span_enable_refused :
    let sd := { exampleMap with
      en := false
      spans := (exampleMap.spans.set 2 { upper := 48, station := 7, base := 40 }).set 4 { upper := 40, station := 0, base := 0 } }
    (after .spanEnable { quiet with sd := sd }).hostRead 0x2E#6 = 0x0200 ∧
      (after .spanEnable { quiet with sd := sd }).hostRead 0x03#6 = 6 := by decide

theorem test_span_disable : (after .spanDisable { quiet with sd := exampleMap }).hostRead 0x2E#6 = 0x0800 := by decide

-- R67: a boundary above 1024 is stored as 1024.
theorem test_span_write : (after (.spanWrite .spbnd 0x07FF) quiet).hostRead 0x2C#6 = 0x0400 := by decide

/-! ## Lists -/

theorem test_ldat_write_wraps :
    let b := after (.ldatWrite 0x1234) (after (.registerWrite 0x1B#6 4095) quiet)
    b.hostRead 0x1B#6 = 0 ∧ b.le.store.read 4095 = 0x1234 := by decide

theorem test_ldat_read : (after .ldatRead (withStore [(0, 9)] quiet)).hp.readData = 9 ∧
    (after .ldatRead (withStore [(0, 9)] quiet)).hostRead 0x1B#6 = 1 := by decide

-- After INIT every word is an END header: a START ends COMPLETE at once (R109). LOUT 2000h, LDONE.
theorem test_lcmd_start_on_an_end : (after .lcmdStart quiet).hostRead 0x23#6 = 0x2000 ∧
    (after .lcmdStart quiet).hostRead 0x07#6 = 0x0001 := by decide

-- The example list of spec/06: entry 2, RUN FETCH of count 6 at 104, has its slots from 108 and length 10.
theorem test_example_list_run :
    entryAt (Memory.read [(104, 0x4000), (105, 4), (106, 21), (107, 6)]) 104 =
      .run { form := .station, station := 4, start := 21, verb := .fetch, count := 6, advance := .fixed, wait := .halt,
             tolerant := false, retries := 0, mode := .inline } 10 108 := by decide

-- The same entry with a count of 4092: 104 + 4 + 4092 is greater than 4096.
theorem test_example_list_count : entryAt (Memory.read [(104, 0x4000), (107, 4092)]) 104 = .malformed := by decide

theorem test_lcmd_resume_refused : (after .lcmdResume quiet).hostRead 0x03#6 = 3 := by decide

theorem test_lcmd_abort_halted :
    (after .lcmdAbort { withList .halted quiet with le := { quiet.le with activity := .halted, resumable := true } }).hostRead 0x23#6 = 0 := by
  decide

-- The MARK at 302 of the example of spec/10 takes the slot that is free.
theorem test_mark_post_retry :
    (after .markPostRetry { quiet with le := { quiet.le with activity := .waitNq, cursor := 302, tag := 0x21 } }).ru.nq =
      [.occupied (.mark 302 0x21)] := by decide

-- R118: an ABORT while the engine reads an entry ends the list ABORTED at once, the cursor at the entry (here an END).
theorem test_lcmd_abort_reading : (after .lcmdAbort (withList .running quiet)).hostRead 0x23#6 = 0xC000 ∧
    (after .lcmdAbort (withList .running quiet)).hostRead 0x07#6 = 0x0001 := by decide

-- R62, R120: a flush that comes before the reading finds no claim; the same engine then reads the END.
theorem test_flush_between_entries :
    (after .flushOut (withOutbound .unclaimed [5] (withList .running quiet))).hostRead 0x23#6 = 0x2000 ∧
      (after .flushOut (withOutbound .unclaimed [5] (withList .running quiet))).fp.out.words = [] := by decide

-- What falls together is the access right behind: an ABORT, or a GO written at DCMD, but none behind the gap's end.
theorem test_access_behind :
    State.accessBehind ⟨quiet, [.lcmdAbort]⟩ = true ∧ State.accessBehind ⟨quiet, [.registerWrite 0x16#6 1]⟩ = true ∧
      State.accessBehind ⟨quiet, [.gapEnd, .lcmdAbort]⟩ = false ∧ State.accessBehind ⟨quiet, []⟩ = false := by decide

-- R57: the claim passes to the List Engine at the end of the direct run, whose stalled STORE it then finds empty.
theorem test_run_stall_expiry_passes_the_claim :
    (after (.runStallExpiry .direct) claimWaits).hostRead 0x28#6 = 2 ∧
      (after (.runStallExpiry .direct) claimWaits).du.outcome = .starved ∧
      (after (.runStallExpiry .direct) claimWaits).le.run.stall = .fifoData := by decide

theorem test_list_claim_granted :
    (after .listClaimGranted (withListRun (runAt .ended .store .fifo) (withList (.waitClaim .outbound) gap))).hostRead 0x28#6 = 2 := by
  decide

theorem test_list_stall_expiry : (after .listStallExpiry (withList .waitNq quiet)).hostRead 0x07#6 = 0x0002 := by decide

theorem test_pause_expiry : (after .pauseExpiry (withList .pausing quiet)).hostRead 0x1F#6 = 2 ∧
    (after .pauseExpiry (withList .pausing quiet)).hostRead 0x23#6 = 0x2000 := by decide

/-! ## Bookings and reports -/

theorem test_bkcmd_bad_station : (after .bkcmdRead quiet).hostRead 0x03#6 = 9 := by decide

-- State ARMED, count 0.
theorem test_bkcmd_read : (after .bkcmdRead (withEntry 3 armed quiet)).hostRead 0x3D#6 = 0x0100 ∧
    (after .bkcmdRead (withEntry 3 armed quiet)).hostRead 0x3C#6 = 7 := by decide

-- An action the class does not call for is made absent, whatever staging holds (R152).
theorem test_bkcmd_book :
    let b := after .bkcmdBook { quiet with bu := { quiet.bu with bksel := 30, bka1v := 0x4001, bka1d := 5 } }
    (b.bu.entry 30).state = .armed ∧ (b.bu.entry 30).clear = Action.absent := by decide

theorem test_bkcmd_unbook : ((after .bkcmdUnbook (withEntry 3 armed quiet)).bu.entry 3).state = .unbooked := by decide

theorem test_bkcmd_arm : (after .bkcmdArm (withEntry 3 Booking.blank quiet)).hostRead 0x03#6 = 8 := by decide

theorem test_bkcmd_disarm :
    ((after .bkcmdDisarm (withEntry 3 { armed with state := .inService, mark := .unbook } quiet)).bu.entry 3).mark = .unbook := by
  decide

theorem test_reservation_retry : (after .reservationRetry (serving .reserving gap)).hostRead 0x10#6 = 0x0100 := by decide

theorem test_nqadv_empty : (after .nqadv quiet).hostRead 0x03#6 = 11 := by decide

theorem test_spill : (Block.setCondition { withQueue fullQueue quiet with ru := { quiet.ru with nq := fullQueue, rte0 := 0x0030 } } .ddone).hostRead 0x08#6 = 4 := by
  decide

theorem test_cnd_write : (after (.cndWrite 4) (quiet.setCondition .ddone)).hostRead 0x07#6 = 0 := by decide

theorem test_rte_write : (after (.rteWrite .rte1 0xFFFF) quiet).hostRead 0x0A#6 = 3 := by decide

-- ODRQ is active on the empty Outbound FIFO: its enable asserts IRQ at once.
theorem test_len_write : (after (.lenWrite 4) quiet).irq = true ∧ (after (.lenWrite 3) quiet).irq = false := by decide

/-! ## Witnesses: states and operands that meet the hypotheses of each statement, clause by clause -/

/-- RESET asserted while INIT runs, and the same after INIT has cleared the store. -/
def heldInInit : Block := after .pinReset Block.reset
def heldCleared : Block := after .initEnd heldInInit

theorem test_hyps_StepRunsTheFrontCommand :
    (State.mk quiet [.nqadv, .dcmdGo]).pending = .nqadv :: [.dcmdGo] ∧ State.reset.pending = [] := by decide

theorem test_hyps_HardResetsGiveTheResetValues :
    (Instr.powerOnReset = .powerOnReset ∨ Instr.powerOnReset = .pinReset) ∧
      (Instr.pinReset = .powerOnReset ∨ Instr.pinReset = .pinReset) := by decide

theorem test_hyps_InitEndAndResetRelease :
    (Block.reset.hp.initRunning = true ∧ Block.reset.hp.resetAsserted = false) ∧
      (heldInInit.hp.initRunning = true ∧ heldInInit.hp.resetAsserted = true) ∧
      (heldCleared.hp.initRunning = true ∧ heldCleared.hp.initCleared = true) ∧
      (after .pinReset quiet).hp.initCleared = false := by decide

theorem test_hyps_NothingReachesAHeldPart :
    (Block.reset.operating = false ∧ actsOnHeldPart .ldatRead = false ∧ Block.reset.hp.resetAsserted = false ∧
      reachesLdat .idatRead = false) ∧
      (let b := after .pinReset quiet
       (b.operating = false ∧ b.hp.resetAsserted = true ∧ b.hp.initRunning = false ∧ b.hp.resetEdge = true ∧
         b.le.lptr = 0 ∧ b.le.activity = .idle) ∧ b.StoreCanonical) ∧
      -- an LDAT access behind one that was ignored, and behind a second PIN_RESET
      (after (.odatWrite 1) (after .pinReset quiet)).hp.resetEdge = false ∧
      (after .pinReset (after .pinReset quiet)).hp.resetEdge = false :=
  ⟨by decide, ⟨by decide, by unfold Block.StoreCanonical; decide⟩, by decide⟩

theorem test_hyps_SoftResetEndsTheWorkAndKeepsTheSetup :
    (quiet.operating = true ∧ quiet.sm.phase = .off ∧ ¬ (quiet.sm.segen = true ∧ quiet.au.atn = true)) ∧
      (gap.operating = true ∧ gap.sm.phase = .gap) ∧
      (let b := { live with au := { live.au with atn := true } }
       b.operating = true ∧ b.sm.segen = true ∧ b.au.atn = true ∧ b.sm.phase = .idle) ∧
      (let b := { gap with au := { gap.au with atn := true } }
       b.operating = true ∧ b.sm.segen = true ∧ b.au.atn = true ∧ b.sm.phase ≠ .idle) := by decide

theorem test_hyps_LockHoldsTheLockedGroup :
    quiet.operating = true ∧ locked.operating = true ∧ locked.hp.lock = true ∧ isHardReset .softReset = false := by
  decide

theorem test_hyps_LockedWritesSetLockwAlone :
    locked.operating = true ∧ locked.hp.lock = true ∧ writesLockedGroup (.rteWrite .rte1 3) = true ∧
      writesLockedGroup (.registerWrite 0x2E#6 1) = true := by decide

theorem test_hyps_UnlockedWritesStoreTheirFields : quiet.operating = true ∧ quiet.hp.lock = false := by decide

theorem test_hyps_PlainRegistersStoreTheirFields :
    quiet.operating = true ∧ plainMask 0x05#6 = some 0xFFFF ∧ plainMask 0x2F#6 = some 0x00FF ∧
      plainMask 0x3C#6 = some 0xFFFF := by decide

theorem test_hyps_RegisterWritesReachTheirOwner :
    isReadOnly 0x03#6 = true ∧ isReadOnly 0x3F#6 = true ∧ (2 : Word).bit 1 = true ∧ (0xFFFD : Word).bit 1 = false ∧
      (2 : Word).bit 0 = false ∧ (3 : Word).bit 0 = true ∧ quiet.le.reading = false := by decide

theorem test_hyps_RequestFramesAreWellFormed :
    some (5 : Word) = some 5 ∧ census.sm.phase ≠ .send ∧
      { census.sm with phase := .send }.tx = some (.census []) ∧
      (onWire .send (record .list .store) live).sm.phase = .send ∧
      (onWire .send (record .list .store) live).sm.tx = some (.word (record .list .store)) := by decide

set_option maxRecDepth 4000 in
theorem test_hyps_RepliesAreJudgedByCodeAndCheck :
    Verb.store ≠ .fetch ∧
      (let body := [false, true] ++ List.replicate 16 true
       body.length = (if Verb.fetch = .fetch ∧ body.take 2 = [false, true] then 18 else 2) ∧
         List.replicate 8 true ≠ bitsMsbFirst (checkOf body)) ∧
      (let body := [true, false]
       body.length = (if Verb.store = .fetch ∧ body.take 2 = [false, true] then 18 else 2) ∧
         List.replicate 8 true ≠ bitsMsbFirst (checkOf body)) := by decide

theorem test_hyps_FramesGoOutAndRepliesArrive :
    (let b := onWire .send (record .direct .fetch) live
     b.operating = true ∧ b.sm.phase = .send ∧ b.sm.tx = some (.word (record .direct .fetch)) ∧
       ¬ ((record .direct .fetch).station = 31 ∧ (record .direct .fetch).verb ≠ .fetch)) ∧
      (let b := { census with sm := { census.sm with phase := .send } }
       b.operating = true ∧ b.sm.phase = .send ∧ b.sm.tx = some (.census [])) ∧
      (let b := onWire .await (record .direct .fetch) live
       b.operating = true ∧ b.sm.phase = .await ∧ b.sm.tx = some (.word (record .direct .fetch)) ∧
         b.sm.timing = true) ∧
      live.sm.phase ≠ .await := by decide

theorem test_hyps_BroadcastsEndDoneAtTheirFrame :
    (let w := { record .direct .trigger with station := 31 }
     let b := onWire .send w (withDirect (runAt .inFlight .trigger .noData) live)
     (b.operating = true ∧ b.sm.phase = .send ∧ b.sm.tx = some (.word w) ∧ w.client = .direct ∧ w.station = 31 ∧
       w.verb ≠ .fetch ∧ b.du.run.sub = .inFlight ∧ b.du.run.desc.verb = w.verb ∧ b.du.run.desc.mode ≠ .fifo ∧
       b.du.run.index + 1 = b.du.run.desc.count) ∧ b.claimsNone .direct) ∧
      (let w := { record .list .store with station := 31 }
       let b := onWire .send w (withOutbound .list [5] (withListRun (runAt .inFlight .store .fifo) (withList .running live)))
       b.operating = true ∧ b.sm.phase = .send ∧ b.sm.tx = some (.word w) ∧ w.client = clientOf .list ∧ w.station = 31 ∧
         w.verb ≠ .fetch ∧ (b.run .list).sub = .inFlight ∧ (b.run .list).desc.verb = w.verb ∧
         (b.run .list).desc.storesFifo = true ∧ b.fp.out.words ≠ [] ∧
         (b.run .list).index + 1 = (b.run .list).desc.count ∧
         entryAt b.storeAt (b.le.cursor + b.le.entryLen) = .endOfList ∧
         State.accessBehind ⟨b, []⟩ = false ∧ State.accessBehind ⟨b, [.flushOut]⟩ = true) ∧
      -- ABORTING, of either owner
      (∀ o,
        let w := { record (clientOf o) .store with station := 31 }
        let r := runAt .aborting .store .fifo
        let b := onWire .send w (withOutbound (claimOf o) [5] (withDirect r (withListRun r (withList .running live))))
        b.operating = true ∧ b.sm.phase = .send ∧ b.sm.tx = some (.word w) ∧ w.client = clientOf o ∧ w.station = 31 ∧
          w.verb ≠ .fetch ∧ (b.run o).sub = .aborting ∧ (b.run o).desc.verb = w.verb ∧ b.fp.out.words ≠ []) :=
  ⟨⟨by decide, by decide, by decide⟩, by decide, fun o => by cases o <;> decide⟩

theorem test_hyps_FailedAttemptsRetryOrDeliver :
    let w := record .direct .store
    let b := onWire .await w live
    b.operating = true ∧ b.sm.phase = .await ∧ b.sm.tx = some (.word w) ∧ b.sm.timing = true ∧
      b.sm.partialSync = true ∧ (judgeReply w.verb (replyBits 0 [])).1 = .corrupt ∧
      (w.retriesUsed < w.retryLimit ∧ w.final = false) ∧
      (let v := { w with retriesUsed := 1 }
       (onWire .await v live).sm.tx = some (.word v) ∧ v.retryLimit ≤ v.retriesUsed) := by decide

theorem test_hyps_RegisterFetchDeliversItsValue :
    (let w := record .direct .fetch
     let b := onWire .await w (withDirect (runAt .inFlight .fetch .register) live)
     (b.operating = true ∧ b.sm.phase = .await ∧ b.sm.tx = some (.word w) ∧ w.client = .direct ∧ w.verb = .fetch ∧
       b.du.run.sub = .inFlight ∧ b.du.run.desc.verb = .fetch ∧ b.du.run.desc.mode = .register ∧
       b.du.run.index + 1 = b.du.run.desc.count) ∧ b.claimsNone .direct) ∧
      (∀ policy tolerant sub held,
        let w := record .list .store
        let r := { runAt sub .store .fifo with
          held := held, desc := { (runAt sub .store .fifo).desc with wait := policy, tolerant := tolerant } }
        let b := onWire .await w (withOutbound .list [5] (withListRun r (withList .running live)))
        (b.operating = true ∧ b.sm.phase = .await ∧ b.sm.tx = some (.word w) ∧ w.client = clientOf .list ∧
          (b.run .list).sub = sub ∧ (b.run .list).held = held ∧ (b.run .list).desc.wait = policy ∧
          (b.run .list).desc.tolerant = tolerant ∧ b.fp.out.words ≠ [] ∧ b.sm.segen = true) ∧
          b.dataReady (b.run .list).desc) ∧
      judgeReply .store (replyBits 1 []) = (.done, 0) ∧ judgeReply .store (replyBits 2 []) = (.wait, 0) ∧
      judgeReply .store (replyBits 3 []) = (.refused, 0) :=
  ⟨⟨by decide, by decide, by decide⟩,
    fun _ _ _ _ => ⟨⟨rfl, rfl, rfl, rfl, rfl, rfl, rfl, rfl, List.cons_ne_nil _ _, rfl⟩,
      fun _ => List.cons_ne_nil _ _, fun _ => (by decide : 0 < 64)⟩,
    by decide⟩

/-- A direct STORE from the claimed Outbound FIFO is at `sub`, with one word left there; the List Engine waits for that
claim with a STORE of `d` at word `i`. DDONE and LHALT have the routes of `routes`. -/
def claimPasses (sub : SubState) (d : RunDesc) (i : Nat) (segen : Bool) (routes : BitVec 16) : Block :=
  let b := withDirect (runAt sub .store .fifo) (withListRun { Run.fresh with desc := d, index := i, done := i, stall := .claim }
    (withList (.waitClaim .outbound) (withOutbound .direct [5] gap)))
  { b with sm := { b.sm with segen := segen }, ru := { b.ru with rte0 := routes } }

-- The clauses of DirectEnds, which seven statements share.
theorem test_hyps_claimPasses :
    (∀ sub d i segen routes, let b := claimPasses sub d i segen routes
      b.operating = true ∧ b.du.run.sub = sub ∧ b.le.activity = .waitClaim .outbound ∧
        (b.fifo .outbound).claim = .direct ∧ b.le.run.fullSeen = false ∧ b.le.run.desc = d ∧ b.le.run.index = i) ∧
      -- neither, one or both of the conditions ask for a slot
      ((let b := claimPasses .stalled (oneWord .store .fifo) 0 true 0
        ¬ b.asksForSlot .ddone ∧ ¬ b.asksForSlot .lhalt) ∧
        (let b := claimPasses .stalled (oneWord .store .fifo) 0 true 0x000C
         ¬ b.asksForSlot .ddone ∧ b.asksForSlot .lhalt) ∧
        (let b := claimPasses .stalled (oneWord .store .fifo) 0 true 0x003C
         b.asksForSlot .ddone ∧ b.asksForSlot .lhalt)) ∧
      -- the run that starts is ILLEGAL, UNMAPPED, CELL-END, or finds its word
      { oneWord .store .fifo with count := 0 }.fails .list = true ∧
      (let d := { oneWord .store .fifo with form := .window, start := 65535 }
       d.fails .list = false ∧ gap.sd.target d 0 = .error .unmapped) ∧
      (let d := { oneWord .store .fifo with start := 4095, count := 2, advance := .step }
       d.fails .list = false ∧ gap.sd.target d 1 = .error .cellEnd ∧ gap.sd.target d 0 = .ok (3, 4095)) ∧
      (claimPasses .stalled (oneWord .store .fifo) 0 false 0x003C).sm.segen = false ∧
      (claimPasses .stalled (oneWord .store .fifo) 0 false 0x003C).dataReady (oneWord .store .fifo) ∧
      ¬ claimWaits.dataReady (oneWord .store .fifo) :=
  ⟨fun _ _ _ _ _ => ⟨rfl, rfl, rfl, rfl, rfl, rfl, rfl⟩,
    by unfold Block.asksForSlot; decide, by decide, ⟨by decide, rfl⟩, ⟨by decide, rfl, rfl⟩, rfl,
    ⟨fun _ => by decide, fun _ => by decide⟩, fun h => h.1 rfl rfl⟩

/-- A pending FETCH of cell 20 of station 3. -/
def fetchRequest : Request := { station := 3, verb := .fetch, cell := 20, retries := 1, source := .noData }

/-- As `gap`, with LIST and SERVICE pending; the pointer names LIST. -/
def twoPending : Block :=
  { gap with sm := { gap.sm with pendList := some fetchRequest, pendService := some fetchRequest } }

theorem test_hyps_ArbiterGrantsInRotation :
    (gap.operating = true ∧ gap.sm.phase = .gap ∧ gap.sm.after = .rest ∧ gap.sm.segen = true) ∧
      { gap.sm with pendCensus := true }.pendCensus = true ∧
      -- the first, the second and the third requester after the pointer
      (twoPending.sm.pendCensus = false ∧ twoPending.sm.request .service = some fetchRequest ∧
        Client.service = cycleAfter twoPending.sm.pointer) ∧
      (let s := { twoPending.sm with pendService := none, pendDirect := some fetchRequest }
       s.request .direct = some fetchRequest ∧ Client.direct = cycleAfter (cycleAfter s.pointer) ∧
         s.request (cycleAfter s.pointer) = none) ∧
      (let s := { twoPending.sm with pendService := none }
       s.request .list = some fetchRequest ∧ Client.list = s.pointer ∧ s.request (cycleAfter s.pointer) = none ∧
         s.request (cycleAfter (cycleAfter s.pointer)) = none) ∧
      { fetchRequest with source := .word 5 }.source = .word 5 ∧ fetchRequest.source = .noData ∧
      (∀ c, gap.sm.request c = none) :=
  ⟨by decide, by decide, by decide, by decide, by decide, rfl, rfl, fun c => by cases c <;> rfl⟩

-- The clauses of Judged, which every statement about a posted request shares.
theorem test_hyps_judgedRequests :
    gap.sm.phase ≠ .idle ∧
      (let b := { twoPending with sm := { twoPending.sm with phase := .idle, pendCensus := true } }
       b.sm.phase = .idle ∧ b.sm.pendCensus = true) ∧
      (let b := live.wordPosted .list 3 20
       b.sm.phase = .idle ∧ b.sm.pendCensus = false ∧ b.sm.request .list = some (live.wordRequest .list 3 20) ∧
         Client.list = b.sm.pointer ∧ b.sm.request (cycleAfter b.sm.pointer) = none ∧
         b.sm.request (cycleAfter (cycleAfter b.sm.pointer)) = none) ∧
      (let b := live.wordPosted .direct 3 20
       b.sm.request .direct = some (live.wordRequest .direct 3 20) ∧
         Client.direct = cycleAfter (cycleAfter b.sm.pointer) ∧ b.sm.request (cycleAfter b.sm.pointer) = none) ∧
      (let b := { live with sm := { live.sm with pendService := some fetchRequest } }
       b.sm.request .service = some fetchRequest ∧ Client.service = cycleAfter b.sm.pointer) := by
  decide

theorem test_hyps_GapEndRetriesDeliversOrRests :
    (let b := { gap with sm := { gap.sm with after := .retry, tx := some (.word (record .list .fetch)) } }
     b.operating = true ∧ b.sm.phase = .gap ∧ b.sm.after = .retry ∧ b.sm.tx = some (.word (record .list .fetch))) ∧
      (let b := { gap with sm := { gap.sm with segen := false } }
       b.operating = true ∧ b.sm.phase = .gap ∧ b.sm.after = .rest ∧ b.sm.segen = false) ∧
      (∀ client ending sub,
        let w := { record client .fetch with latest := some ending }
        let b := withListRun (runAt sub .fetch .inline) (withDirect (runAt sub .fetch .register)
          { gap with sm := { gap.sm with after := .deliver, tx := some (.word w) } })
        (b.operating = true ∧ b.sm.phase = .gap ∧ b.sm.after = .deliver ∧ b.sm.tx = some (.word w) ∧
          w.latest = some ending ∧ w.client = client ∧ b.du.run.sub = sub ∧ b.le.run.sub = sub ∧
          b.sm.pendCensus = false) ∧ b.noClaimPasses ∧ ∀ c, b.sm.request c = none) ∧
      -- a service's action
      (∀ ctx ∈ [SvcState.action1, .action2], ∀ ending ∈ [Ending.silent, .corrupt],
        let w := { record .service .store with latest := some ending }
        let b := withQueue [.reserved] (serving ctx
          { gap with sm := { gap.sm with after := .deliver, tx := some (.word w) } })
        (b.operating = true ∧ b.sm.phase = .gap ∧ b.sm.after = .deliver ∧ b.sm.tx = some (.word w) ∧
          w.latest = some ending ∧ w.client = .service ∧ b.bu.ctx = ctx ∧ b.sm.pendCensus = false ∧
          1 ≤ b.bu.station ∧ b.bu.station ≤ 30 ∧ b.bu.queue = [] ∧ b.ru.nq = [] ++ .reserved :: []) ∧
          ∀ c, b.sm.request c = none) ∧
      -- a direct run whose claim passes on
      (∀ sub ∈ [SubState.inFlight, .aborting],
        let w := { record .direct .store with latest := some .silent }
        let c := claimPasses sub (oneWord .store .fifo) 0 false 0x003C
        let b := { c with sm := { c.sm with after := .deliver, tx := some (.word w) } }
        (b.operating = true ∧ b.sm.phase = .gap ∧ b.sm.after = .deliver ∧ b.sm.tx = some (.word w) ∧
          w.client = .direct ∧ b.du.run.sub = sub ∧ b.sm.pendCensus = false ∧
          b.le.activity = .waitClaim .outbound ∧ (b.fifo .outbound).claim = .direct) ∧
          ∀ c, b.sm.request c = none) :=
  ⟨by decide, by decide,
    fun _ _ _ =>
      ⟨⟨rfl, rfl, rfl, rfl, rfl, rfl, rfl, rfl, rfl⟩, fun side (h : Activity.idle = .waitClaim side) => (nomatch h),
        fun c => by cases c <;> rfl⟩,
    fun _ _ _ _ =>
      ⟨⟨rfl, rfl, rfl, rfl, rfl, rfl, rfl, rfl, (by decide : 1 ≤ 3), (by decide : 3 ≤ 30), rfl, rfl⟩,
        fun c => by cases c <;> rfl⟩,
    fun _ _ => ⟨⟨rfl, rfl, rfl, rfl, rfl, rfl, rfl, rfl, rfl⟩, fun c => by cases c <;> rfl⟩⟩

theorem test_hyps_SegenSetEnablesTheSegment :
    (live.operating = true ∧ live.sm.segen = true) ∧
      (∀ atn phase,
        let b := { quiet with au := { quiet.au with atn := atn }, sm := { quiet.sm with phase := phase } }
        (b.operating = true ∧ b.sm.segen = false ∧ b.au.state = .quiet ∧ b.au.atn = atn ∧ b.sm.pendCensus = false ∧
          b.bu.ctx = .idle ∧ b.bu.queue = []) ∧ ∀ c, b.sm.request c = none) ∧
      (∀ atn, ∀ phase ∈ [SmPhase.off, .gap], ∀ nq ∈ [[], fullQueue], ∀ cls,
        let b := withQueue nq (queued
          { quiet with au := { quiet.au with atn := atn }, sm := { quiet.sm with phase := phase } })
        (b.operating = true ∧ b.sm.segen = false ∧ b.au.state = .quiet ∧ b.au.atn = atn ∧ b.sm.phase = phase ∧
          b.sm.pendCensus = false ∧ b.bu.ctx = .idle ∧ b.bu.queue = 3 :: [5] ∧ b.ru.nq = nq) ∧
        (∀ c, b.sm.request c = none) ∧
        (let one := { withEntry 3 { armed with state := .queued, cls := cls } b with
           bu := { (withEntry 3 { armed with state := .queued, cls := cls } b).bu with queue := [3] } }
         one.bu.queue = 3 :: [] ∧ (one.bu.entry 3).cls = cls)) ∧
      fullQueue.length = 16 ∧ Slot.reserved ∉ ([] : List Slot) ∧ SmPhase.gap ≠ .idle ∧ SmPhase.off ≠ .idle :=
  ⟨by decide, fun _ _ => ⟨⟨rfl, rfl, rfl, rfl, rfl, rfl, rfl⟩, fun c => by cases c <;> rfl⟩,
    fun _ _ _ _ _ _ => ⟨⟨rfl, rfl, rfl, rfl, rfl, rfl, rfl, rfl, rfl⟩, fun c => by cases c <;> rfl, rfl, rfl⟩, by decide⟩

theorem test_hyps_SegenClearStopsNewWork :
    (live.operating = true ∧ live.sm.segen = true ∧ gap.operating = true ∧ gap.sm.segen = true ∧ gap.sm.phase = .gap) ∧
      (let b := onWire .await (record .list .store) live
       b.sm.segen = true ∧ b.sm.phase = .await ∧ b.sm.tx = some (.word (record .list .store))) ∧
      (live.sm.pendCensus = false ∧ ∀ c, live.sm.request c = none) ∧
      -- one requester waits
      (let b := withDirect (runAt .requesting .fetch .register)
         { gap with sm := { gap.sm with pendDirect := some fetchRequest } }
       (b.operating = true ∧ b.sm.segen = true ∧ b.sm.pendService = none ∧ b.sm.pendDirect.isSome ∧ b.sm.pendList = none ∧
         b.du.run.sub = .requesting) ∧ b.noClaimPasses) ∧
      (let b := withListRun (runAt .requesting .fetch .inline) (withList .running
         { gap with sm := { gap.sm with pendList := some fetchRequest } })
       b.sm.pendDirect = none ∧ b.sm.pendList.isSome ∧ b.le.run.sub = .requesting) ∧
      (let b := withQueue [.occupied (.condition .ddone), .reserved] (serving .action2
         { gap with sm := { gap.sm with pendService := some fetchRequest } })
       b.sm.pendCensus = false ∧ b.sm.pendService.isSome ∧ b.sm.pendDirect = none ∧ b.sm.pendList = none ∧
         b.bu.ctx = .action2 ∧ 1 ≤ b.bu.station ∧ b.bu.station ≤ 30 ∧
         b.ru.nq = [.occupied (.condition .ddone)] ++ .reserved :: [] ∧
         Slot.reserved ∉ [Slot.occupied (.condition .ddone)]) ∧
      -- the claim of the direct run passes on
      (let c := claimPasses .requesting (oneWord .store .fifo) 0 true 0x003C
       let b := { c with sm := { c.sm with pendDirect := some fetchRequest } }
       b.operating = true ∧ b.sm.segen = true ∧ b.sm.pendCensus = false ∧ b.sm.pendService = none ∧
         b.sm.pendDirect.isSome ∧ b.sm.pendList = none ∧ b.du.run.sub = .requesting ∧
         b.le.activity = .waitClaim .outbound ∧ (b.fifo .outbound).claim = .direct) :=
  ⟨by decide, by decide, ⟨by decide, fun c => by cases c <;> rfl⟩,
    ⟨by decide, fun side => by cases side <;> decide⟩, by decide, by decide, by decide⟩

theorem test_hyps_CensusNowAsksForACensus :
    (gap.operating = true ∧ gap.sm.segen = true ∧ gap.au.state = .quiet ∧ gap.sm.phase ≠ .idle) ∧
      (live.operating = true ∧ live.sm.segen = true ∧ live.au.state = .quiet ∧ live.sm.phase = .idle) ∧
      (let b := { live with au := { live.au with state := .census } }
       b.sm.segen = true ∧ b.au.state = .census) ∧
      (∀ state, let b := { quiet with au := { quiet.au with state := state } }
       (b.operating = true ∧ b.sm.segen = false ∧ b.sm.pendCensus = false ∧ b.bu.ctx = .idle ∧ b.bu.queue = [] ∧
         b.au.state = state) ∧ ∀ c, b.sm.request c = none) :=
  ⟨by decide, by decide, by decide, fun _ => ⟨⟨rfl, rfl, rfl, rfl, rfl, rfl⟩, fun c => by cases c <;> rfl⟩⟩

theorem test_hyps_AttentionUnitActsOnAtn :
    (∀ b ∈ [gap, live], b.operating = true ∧ b.au.state = .quiet ∧ b.sm.segen = true) ∧
      (quiet.operating = true ∧ quiet.sm.segen = false) ∧
      (∀ b ∈ [gap, live], ∀ atn, let b := { b with au := { b.au with state := .holdoff, timer := some 10, atn := atn } }
       b.operating = true ∧ b.au.state = .holdoff ∧ b.au.timer = some 10 ∧ b.au.atn = atn ∧ b.sm.segen = true) ∧
      live.sm.phase = .idle ∧ gap.sm.phase ≠ .idle := by decide

theorem test_hyps_CensusReplacesThePatterns :
    (∀ setting atn segen, let b := { census with au := { census.au with setting := setting, atn := atn }
                                                 sm := { census.sm with segen := segen } }
     b.operating = true ∧ b.sm.phase = .await ∧ b.sm.tx = some (.census []) ∧ b.au.setting = setting ∧ b.au.atn = atn ∧
       b.sm.segen = segen) :=
  fun _ _ _ => ⟨rfl, rfl, rfl, rfl, rfl, rfl⟩

theorem test_hyps_CensusHandsOverTheSelectedSet :
    (let b := { census with sm := { census.sm with segen := false } }
     b.operating = true ∧ b.sm.phase = .await ∧ b.sm.tx = some (.census []) ∧ b.sm.segen = false) ∧
      (let b := withEntry 5 armed (withEntry 3 armed { census with au := { census.au with mask := 0x3FFFFFFF#30 } })
       let slots := List.replicate 30 1#3
       b.operating = true ∧ b.sm.phase = .await ∧ b.sm.tx = some (.census []) ∧ b.sm.segen = true ∧ b.bu.ctx = .idle ∧
         b.bu.queue = [] ∧ b.ru.nq.length ≤ 13 ∧ (b.bu.entry 3).cls ≠ .notify ∧
         (List.range' 1 30).filter (fun k =>
           slots.getD (k - 1) 7 = 0b001#3 ∧ hasStation b.au.mask k = true ∧ (b.bu.entry k).state = .armed) = 3 :: [5]) := by
  decide

/-- As `gap`, with the request registers set to a REGISTER-mode STORE of cell 4095 of station 31. -/
def readyToGo : Block := { gap with du := { gap.du with dtgt := 31, dcel := 4095, dcnt := 1, dmod := 0x2010 } }

theorem test_hyps_GoPostsTheFirstWord :
    (let d := readyToGo.du.describe
     readyToGo.operating = true ∧ readyToGo.du.run.sub = .ended ∧ d.fails .direct = false ∧ d.form = .station ∧
       d.mode ≠ .fifo ∧ readyToGo.sm.segen = true ∧ readyToGo.sm.phase ≠ .idle ∧
       readyToGo.le.reading = false) ∧
      -- between two entries
      (let b := withList .running readyToGo
       b.operating = true ∧ b.du.run.sub = .ended ∧ b.du.describe.fails .direct = false ∧ b.le.reading = true ∧
         entryAt b.storeAt b.le.cursor = .endOfList) ∧
      (let b := { withOutbound .unclaimed [5] gap with du := { gap.du with dtgt := 3, dcnt := 2, dmod := 0x2020 } }
       let d := b.du.describe
       (b.operating = true ∧ b.du.run.sub = .ended ∧ d.fails .direct = false ∧ d.storesFifo = true ∧
         b.fp.out.claim ≠ .list ∧ (b.goTaken.run .direct).fullSeen = false) ∧ b.goTaken.dataReady d ∧
         b.goTaken.sd.target d 0 = .ok (3, 0)) ∧
      -- with an IDLE Segment Master
      (let b := { live with du := readyToGo.du }
       b.operating = true ∧ b.du.run.sub = .ended ∧ b.du.describe.fails .direct = false ∧ b.sm.segen = true ∧
         b.goTaken.sm.phase = .idle ∧ b.goTaken.sd.target b.du.describe 0 = .ok (31, 4095)) ∧
      (let b := { gap with du := { gap.du with dtgt := 1500, dcnt := 1, dmod := 0x8010 }, sd := exampleMap }
       let d := b.du.describe
       d.form = .window ∧ d.fails .direct = false ∧ d.fetchesFifo = false ∧ d.cellAt 0 ≤ 65535 ∧
         b.sd.decode (d.cellAt 0) = some (7, 988)) ∧
      ({ oneWord .fetch .register with form := .window, start := 65535, advance := .step }.cellAt 1 = 65536 ∧
        exampleMap.decode 3072 = none) :=
  ⟨by decide, by decide, ⟨by decide, ⟨fun _ => by decide, fun _ => by decide⟩, rfl⟩, by decide, by decide⟩

theorem test_hyps_GoThatDoesNotStart :
    (let b := withDirect (runAt .requesting .fetch .register) gap
     b.operating = true ∧ b.du.run.sub ≠ .ended) ∧
      (let b := { withOutbound .list [] gap with du := { gap.du with dtgt := 3, dcnt := 2, dmod := 0x2020 } }
       b.operating = true ∧ b.du.run.sub = .ended ∧ b.du.describe.fifoSide = some .outbound ∧
         (b.fifo .outbound).claim = .list) ∧
      -- a STORE in FIFO mode with a count of 0
      (let b := { gap with du := { gap.du with dtgt := 3, dmod := 0x2020 } }
       (b.operating = true ∧ b.du.run.sub = .ended ∧ b.du.describe.fails .direct = true ∧
         b.du.describe.storesFifo = true ∧ b.fp.out.claim ≠ .list) ∧ b.goTaken.noClaimPasses) :=
  ⟨by decide, by decide, by decide, fun side => by cases side <;> decide⟩

theorem test_hyps_DirectAbort :
    ∀ sub, (claimPasses sub (oneWord .store .fifo) 0 false 0x003C).du.run.sub = sub ∧ (withDirect (runAt sub .store .fifo) (withOutbound .direct [5] gap)).operating = true ∧
      (withDirect (runAt sub .store .fifo) (withOutbound .direct [5] gap)).du.run.sub = sub := fun _ => ⟨rfl, rfl, rfl⟩

theorem test_hyps_RunTimersExpire :
    (∀ sub o,
      let b := withListRun (runAt sub .store .fifo) (withDirect (runAt sub .store .fifo) (withOutbound .direct [] gap))
      (b.operating = true ∧ (b.run o).sub = sub ∧ (b.run o).persist = some 50 ∧ (b.run o).stallTimer = some 100) ∧
        b.noClaimPasses) ∧
      ((quiet.run .list).persist = none ∧ (quiet.run .list).sub ≠ .stalled) ∧
      -- the claim passes
      (claimWaits.operating = true ∧ (claimWaits.run .direct).sub = .stalled ∧
        (claimWaits.run .direct).stallTimer = some 100 ∧ claimWaits.le.activity = .waitClaim .outbound ∧
        (claimWaits.fifo .outbound).claim = .direct ∧ claimWaits.le.run.desc.fails .list = false ∧
        claimWaits.le.run.fullSeen = false ∧ claimWaits.sm.segen = true) ∧
      claimWaits.sd.target claimWaits.le.run.desc claimWaits.le.run.index = .ok (3, 20) :=
  ⟨fun _ o => ⟨⟨rfl, by cases o <;> rfl, by cases o <;> rfl, by cases o <;> rfl⟩,
      fun side (h : Activity.idle = .waitClaim side) => nomatch h⟩,
    by decide, by decide, rfl⟩

theorem test_hyps_StalledRunsGoOn :
    (let r := { runAt .stalled .store .fifo with stall := .fifoData }
     let b := withDirect r { gap with fp := { gap.fp with out := { gap.fp.out with words := [5], joined := 1 } } }
     b.operating = true ∧ (b.run .direct).sub = .stalled ∧ (b.run .direct).desc.mode = .fifo ∧
       (b.run .direct).desc.form = .station ∧ (b.run .direct).desc.cellAt (b.run .direct).index ≤ 4095 ∧
       b.sm.segen = true ∧ b.sm.phase ≠ .idle ∧ (b.run .direct).desc.verb = .store ∧
       (b.run .direct).stall = .fifoData ∧ b.fp.out.words ≠ []) ∧
      (let r := { runAt .stalled .fetch .fifo with stall := .fifoRoom }
       let b := withListRun r { gap with fp := { gap.fp with inb := { gap.fp.inb with words := List.replicate 32 5 } } }
       b.operating = true ∧ (b.run .list).sub = .stalled ∧ (b.run .list).desc.mode = .fifo ∧
         (b.run .list).desc.form = .station ∧ (b.run .list).desc.cellAt (b.run .list).index ≤ 4095 ∧
         (b.run .list).desc.verb = .fetch ∧ (b.run .list).stall = .fifoRoom ∧
         b.fp.inb.words.length ≤ b.fp.resumeMark.toNat) ∧
      (let b := withDirect { runAt .stalled .store .fifo with stall := .fifoData } gap
       b.operating = true ∧ (b.run .direct).sub = .stalled ∧ (b.run .direct).stall = .fifoData ∧
         b.fp.out.words = []) ∧
      (let r := { runAt .stalled .fetch .fifo with stall := .fifoRoom }
       let b := withDirect r { gap with fp := { gap.fp with inb := { gap.fp.inb with words := List.replicate 33 5 } } }
       b.operating = true ∧ (b.run .direct).sub = .stalled ∧ (b.run .direct).stall = .fifoRoom ∧
         b.fp.resumeMark.toNat < b.fp.inb.words.length) := by decide

theorem test_hyps_RunCountsAddUp :
    State.reset.block.RunsCounted ∧ step State.reset = .next State.reset := ⟨⟨rfl, rfl⟩, rfl⟩

/-- A list's FETCH with the Inbound claim is stalled above or at the resume mark, with these words in the FIFO. -/
def roomWaits (words : List Word) : Block :=
  withListRun { runAt .stalled .fetch .fifo with stall := .fifoRoom } (withList .running
    { gap with fp := { gap.fp with inb := { gap.fp.inb with claim := .list, words := words } } })

theorem test_hyps_HostPortsMoveOneWord :
    (quiet.operating = true ∧ quiet.fp.out.words.length < 64 ∧ quiet.fp.inb.words = []) ∧
      (∀ o, quiet.fp.out.claim = claimOf o → (quiet.run o).sub ≠ .stalled) ∧
      (claimWaits.operating = true ∧ claimWaits.fp.out.words.length < 64 ∧ claimWaits.fp.out.claim = claimOf .direct ∧
        (claimWaits.run .direct).sub = .stalled ∧ (claimWaits.run .direct).stall = .fifoData) ∧
      (List.replicate 63 (5 : Word)).length < 64 ∧ (List.replicate 64 (5 : Word)).length = 64 ∧
      (let b := roomWaits (5 :: List.replicate 32 6)
       b.operating = true ∧ b.fp.inb.words = 5 :: List.replicate 32 6 ∧ b.fp.inb.claim = claimOf .list ∧
         (b.run .list).sub = .stalled ∧ (b.run .list).stall = .fifoRoom ∧
         (List.replicate 32 (6 : Word)).length ≤ b.fp.resumeMark.toNat ∧
         b.fp.resumeMark.toNat < (List.replicate 33 (6 : Word)).length) :=
  ⟨by decide, fun o => by cases o <;> decide, by decide, by decide, by decide, by decide⟩

theorem test_hyps_FlushesEmptyUnclaimedFifos :
    quiet.operating = true ∧ quiet.fp.out.claim = .unclaimed ∧ quiet.fp.inb.claim = .unclaimed ∧
      quiet.le.reading = false ∧ (withList .running quiet).le.reading = true ∧
      { quiet.fp.out with claim := .direct }.claim ≠ .unclaimed ∧ (3 : Word).bit 0 = true ∧ (3 : Word).bit 1 = true := by
  decide

theorem test_hyps_MarksPaceTheFifos :
    quiet.operating = true ∧ (∀ o, quiet.fp.inb.claim = claimOf o → (quiet.run o).sub ≠ .stalled) ∧
      (let b := roomWaits (List.replicate 40 5)
       b.operating = true ∧ b.fp.inb.claim = claimOf .list ∧ (b.run .list).sub = .stalled ∧
         (b.run .list).stall = .fifoRoom ∧ b.fp.inb.words.length ≤ ((40 : Word).field 0 6).toNat ∧
         ((39 : Word).field 0 6).toNat < b.fp.inb.words.length) :=
  ⟨by decide, fun o => by cases o <;> decide, by decide⟩

theorem test_hyps_FifoAccountingIsKept : State.reset.block.FifosAccounted :=
  ⟨⟨by decide, by decide⟩, by decide, by decide⟩

theorem test_hyps_SpanWritesSetTheSelectedSpan :
    quiet.operating = true ∧ quiet.hp.lock = false ∧ quiet.sd.en = false ∧
      { quiet with sd := exampleMap }.operating = true ∧ exampleMap.en = true := by decide

/-- The table of the refused enable of spec/04, disabled. -/
def refusedMap : Sd :=
  { exampleMap with
    en := false
    spans := (exampleMap.spans.set 2 { upper := 48, station := 7, base := 40 }).set 4 { upper := 40, station := 0, base := 0 } }

theorem test_hyps_SpanEnableAndDisable :
    (locked.operating = true ∧ locked.hp.lock = true ∧ quiet.operating = true ∧ quiet.hp.lock = false) ∧
      (quiet.sd.en = false ∧ quiet.sd.check = none) ∧ (refusedMap.en = false ∧ refusedMap.check = some 2) ∧
      exampleMap.en = true := by decide

theorem test_hyps_DecodeFindsTheLowestSpan :
    quiet.sd.en = false ∧
      -- address 1024 lies in span 2 alone, the first address above the boundary of spans 0 and 1
      (exampleMap.en = true ∧ 1024 < 64 * exampleMap.spans[2].upper ∧
        ∀ j : Fin 8, j < 2 → 64 * exampleMap.spans[j].upper ≤ 1024) ∧
      (∀ j : Fin 8, 64 * exampleMap.spans[j].upper ≤ 3072) ∧ exampleMap.check = none := by decide

theorem test_hyps_EnableCheckNamesTheLowestFailure (d : Sd) :
    ∃ (lower : Fin 8 → Nat) (failing : Fin 8 → Prop),
      (∀ k : Fin 8, lower k = if h : k.val = 0 then 0 else d.spans[k.val - 1].upper) ∧
      (∀ k : Fin 8, failing k ↔
        d.spans[k].upper < lower k ∨
        (lower k < d.spans[k].upper ∧ (d.spans[k].station = 0 ∨ d.spans[k].station = 31)) ∨
        (lower k < d.spans[k].upper ∧ 64 < d.spans[k].base.toNat + (d.spans[k].upper - lower k))) :=
  ⟨_, _, fun _ => rfl, fun _ => Iff.rfl⟩

theorem test_hyps_EnabledTableStaysValid : Block.EnabledTableValid { quiet with sd := exampleMap } :=
  fun _ => by decide

theorem test_hyps_ListStorePort :
    (quiet.operating = true ∧ quiet.le.state = .idle ∧ (withList .halted quiet).le.state = .halted ∧
      (withList .pausing quiet).le.state ≠ .idle ∧ (withList .pausing quiet).le.state ≠ .halted) ∧
      (withStore [(0, 9), (4095, 1)] quiet).StoreCanonical :=
  ⟨by decide, by unfold Block.StoreCanonical; decide⟩

theorem test_hyps_StoreStaysCanonical : State.reset.block.StoreCanonical := by unfold Block.StoreCanonical; decide

theorem test_hyps_MalformedEntries :
    ((4095 : Nat) ≤ 4096 ∧ (4096 : Nat) ≤ 4096) ∧
      -- a SINGLE STORE in WINDOW form at 4092, a RUN TRIGGER, a PAUSE, a MARK, an END at 4095
      (let m := Memory.read [(4092, 0x3400)]
       entryAt m 4092 ≠ .malformed ∧ (m 4092).field 13 3 = 1) ∧
      (let m := Memory.read [(0, 0x4804), (3, 4095)]
       entryAt m 0 ≠ .malformed ∧ (m 0).field 13 3 = 2) ∧
      (let m := Memory.read [(0, 0x6000), (1, 2), (2, 0x8000)]
       entryAt m 0 ≠ .malformed ∧ (m 0).field 13 3 = 3 ∧ entryAt m 2 ≠ .malformed ∧ (m 2).field 13 3 = 4 ∧
         (m 4095).field 13 3 = 0) := by decide

/-- A SINGLE STORE of the inline word at 3 to cell 21 of station 4, at address 0; an END at 4. -/
def singleStore : Memory := [(0, 0x2400), (1, 4), (2, 21), (3, 7)]

/-- A PAUSE of 2 at address 0; an END at 2. -/
def pauseStore : Memory := [(0, 0x6000), (1, 2)]

theorem test_hyps_StartBeginsTheList :
    (let b := withList .pausing quiet
     b.operating = true ∧ b.le.state ≠ .idle ∧ b.le.state ≠ .halted) ∧
      ((quiet.operating = true ∧ quiet.le.state = .idle ∧ entryAt quiet.storeAt quiet.le.lsta.toNat = .endOfList) ∧
        quiet.claimsNone .list) ∧
      (let b := withStore pauseStore quiet
       b.le.state = .idle ∧ entryAt b.storeAt b.le.lsta.toNat = .pause 2) ∧
      (let b := withStore singleStore gap
       let d := { oneWord .store .inline with station := 4, start := 21, retries := 0 }
       b.operating = true ∧ b.le.state = .idle ∧ entryAt b.storeAt b.le.lsta.toNat = .run d 4 3 ∧
         d.fails .list = false ∧ d.form = .station ∧ d.mode = .inline ∧ d.start ≤ 4095 ∧ b.sm.segen = true ∧
         b.sm.phase ≠ .idle) :=
  ⟨by decide, ⟨by decide, by decide, by decide⟩, by decide, by decide⟩

theorem test_hyps_ResumeGoesOnAtTheWord :
    (quiet.operating = true ∧ ¬ (quiet.le.activity = .halted ∧ quiet.le.resumable = true)) ∧
      (let b := withStore singleStore { gap with le := { gap.le with activity := .halted, resumable := true } }
       let d := { oneWord .store .inline with station := 4, start := 21, retries := 0 }
       b.operating = true ∧ b.le.activity = .halted ∧ b.le.resumable = true ∧
         entryAt b.storeAt b.le.cursor = .run d 4 3 ∧ b.le.run.index < d.count ∧ d.fails .list = false ∧
         d.form = .station ∧ d.mode = .inline ∧ d.cellAt b.le.run.index ≤ 4095 ∧ b.sm.segen = true ∧
         b.sm.phase ≠ .idle) ∧
      -- the same entry with its word dealt with, and with station 0; a PAUSE, an END, a malformed entry
      1 ≤ { Run.fresh with index := 1, done := 1 }.index ∧
      (let d := { oneWord .store .inline with station := 0, start := 21, retries := 0 }
       entryAt (Memory.read [(0, 0x2400), (2, 21)]) 0 = .run d 4 3 ∧ d.fails .list = true) ∧
      entryAt (withStore pauseStore quiet).storeAt 0 = .pause 2 ∧ entryAt quiet.storeAt 0 = .endOfList ∧
      entryAt (withStore [(0, 0xE000)] quiet).storeAt 0 = .malformed := by decide

theorem test_hyps_ListAbort :
    ∀ activity sub,
      let b := withListRun (runAt sub .fetch .fifo) (withList activity (withOutbound .list [] gap))
      b.operating = true ∧ b.le.activity = activity ∧ b.le.run.sub = sub := fun _ _ => ⟨rfl, rfl, rfl⟩

theorem test_hyps_EngineWaitsEnd :
    (let b := withStore pauseStore (withList .pausing quiet)
     b.operating = true ∧ b.le.activity = .pausing ∧ entryAt b.storeAt (b.le.cursor + 2) = .endOfList) ∧
      (let b := withQueue (fullQueue.take 15) (withList .waitNq quiet)
       b.operating = true ∧ b.le.activity = .waitNq ∧ b.ru.nq.length < 16 ∧
         entryAt b.storeAt (b.le.cursor + 2) = .endOfList) ∧
      16 ≤ (withQueue fullQueue (withList .waitNq quiet)).ru.nq.length ∧
      (withList .waitNq quiet).le.stallTimer = some 100 ∧
      (withList (.waitClaim .inbound) quiet).le.stallTimer = some 100 ∧
      (withList .waitNq quiet).claimsNone .list ∧
      -- between two entries: at an END, a PAUSE, a malformed entry, a MARK
      (let b := withList .running quiet
       b.operating = true ∧ b.le.activity = .running ∧ b.le.run.sub = .ended ∧ b.sm.phase ≠ .idle ∧
         State.accessBehind ⟨b, [.lcmdAbort]⟩ = true ∧ State.accessBehind ⟨b, []⟩ = false ∧
         entryAt b.storeAt b.le.cursor = .endOfList) ∧
      entryAt (withStore pauseStore quiet).storeAt 0 = .pause 2 ∧
      entryAt (withStore [(0, 0xE000)] quiet).storeAt 0 = .malformed ∧
      (entryAt (withStore [(0, 0x8000), (1, 7)] quiet).storeAt 0 = .mark 7 ∧
        entryAt (withStore [(0, 0x8000), (1, 7)] quiet).storeAt (0 + 2) = .endOfList) :=
  ⟨by decide, by decide, by decide, by decide, by decide, ⟨by decide, by decide⟩, by decide, by decide, by decide,
    by decide⟩

theorem test_hyps_GrantedClaimStartsTheRun :
    (let r := runAt .ended .store .fifo
     let b := withListRun r (withList (.waitClaim .outbound) gap)
     let held := withOutbound .direct [] b
     let ready := withOutbound .unclaimed [5] b
     (held.operating = true ∧ held.le.activity = .waitClaim .outbound ∧ held.fp.out.claim = .direct) ∧
       ready.operating = true ∧ ready.le.activity = .waitClaim .outbound ∧ ready.fp.out.claim = .unclaimed ∧
       r.desc.mode = .fifo ∧ r.desc.verb = .store ∧ r.desc.fails .list = false ∧ r.desc.form = .station ∧
       r.desc.cellAt r.index ≤ 4095 ∧ ready.fp.out.words ≠ [] ∧ ready.sm.segen = true ∧ ready.sm.phase ≠ .idle) ∧
      -- at the end of a PAUSE and between two entries, before a RUN STORE of count 1 in FIFO mode
      (let d := { oneWord .store .fifo with retries := 0 }
       let paused := fun c => withStore [(2, 0x4404), (3, 3), (4, 20), (5, 1)] (withOutbound c [5] (withList .pausing gap))
       let b := { withStore [(0, 0x4404), (1, 3), (2, 20), (3, 1)] (withOutbound .unclaimed [5] (withList .running gap)) with
         du := { gap.du with dtgt := 3, dcnt := 2, dmod := 0x2020 } }
       d.fifoSide = some .outbound ∧ d.fails .list = false ∧
       (∀ c ∈ [Claim.unclaimed, .direct], (paused c).operating = true ∧ (paused c).le.activity = .pausing ∧
         State.accessBehind ⟨paused c, []⟩ = false ∧ entryAt (paused c).storeAt ((paused c).le.cursor + 2) = .run d 4 6 ∧
         ((paused c).fifo .outbound).claim = c) ∧
       b.operating = true ∧ b.le.activity = .running ∧ b.le.run.sub = .ended ∧ b.du.run.sub = .ended ∧
         b.sm.phase ≠ .idle ∧ b.du.describe.fails .direct = false ∧ b.du.describe.fifoSide = some .outbound ∧
         (b.fifo .outbound).claim ≠ .list ∧ entryAt b.storeAt b.le.cursor = .run d 4 4) :=
  by decide

theorem test_hyps_BookingReadAndBadStation :
    quiet.operating = true ∧ quiet.bu.bksel = 0 ∧ { quiet.bu with bksel := 31 }.bksel = 31 ∧
      (withEntry 1 armed quiet).bu.bksel ≠ 0 ∧ (withEntry 30 armed quiet).bu.bksel ≠ 31 := by decide

/-- Station 30 selected, with these staging values and this entry. -/
def staged (cls : BitVec 2) (a1 a2 : Word) (e : Booking) : Block :=
  { withEntry 30 e quiet with
    bu := { (withEntry 30 e quiet).bu with bkcls := cls, bka1v := a1, bka2v := a2 } }

theorem test_hyps_BookWritesTheEntry :
    let act (v : Word) : Action :=
      { verb := Verb.ofCode (v.field 14 2), cell := v.field 0 12, data := if v.field 14 2 = 1 then 0 else 0 }
    ((staged 0 0 0 armed).operating = true ∧ (staged 0 0 0 armed).bu.bksel ≠ 0 ∧
      (staged 0 0 0 armed).bu.bksel ≠ 31) ∧
      ((staged 0 0 0 { armed with state := .queued }).bu.entry 30).state = .queued ∧
      ((staged 0 0 0 { armed with state := .inService }).bu.entry 30).state = .inService ∧
      ((staged 0 0 0 Booking.blank).bu.entry 30).state = .unbooked ∧
      (staged 3 0 0 armed).bu.bkcls = 3 ∧ (act 0xC000).verb = .unused ∧
      ((staged 1 0x4001 0 armed).bu.bkcls = 1 ∧ (act 0x4001).verb ≠ .unused) ∧
      ((staged 2 0x4001 0x8002 armed).bu.bkcls = 2 ∧ (act 0x8002).verb ≠ .unused) := by decide

theorem test_hyps_ArmReturnsADisarmedBooking :
    ((withEntry 30 armed quiet).operating = true ∧ (withEntry 30 armed quiet).bu.bksel ≠ 0 ∧
      (withEntry 30 armed quiet).bu.bksel ≠ 31) ∧
      ((withEntry 30 Booking.blank quiet).bu.entry 30).state = .unbooked ∧
      ((withEntry 30 armed quiet).bu.entry 30).state = .armed ∧
      ((withEntry 1 { armed with state := .inService } quiet).bu.entry 1).state = .inService ∧
      ((withEntry 1 { armed with state := .disarmed } quiet).bu.entry 1).state = .disarmed := by decide

theorem test_hyps_UnbookAndDisarm :
    ((withEntry 1 armed quiet).operating = true ∧ (withEntry 1 armed quiet).bu.bksel ≠ 0 ∧
      (withEntry 1 armed quiet).bu.bksel ≠ 31) ∧
      ((withEntry 1 Booking.blank quiet).bu.entry 1).state = .unbooked ∧
      ((withEntry 1 armed quiet).bu.entry 1).state = .armed ∧
      ((withEntry 1 { armed with state := .disarmed } quiet).bu.entry 1).state = .disarmed ∧
      ((withEntry 30 { armed with state := .queued } quiet).bu.entry 30).state = .queued ∧
      ((withEntry 30 { armed with state := .inService, mark := .unbook } quiet).bu.entry 30).state = .inService := by
  decide

theorem test_hyps_ReservationPostsTheClearAction :
    (let b := serving .reserving gap
     (b.operating = true ∧ b.bu.ctx = .reserving ∧ 16 ≤ (withQueue fullQueue b).ru.nq.length) ∧
       (withQueue (fullQueue.take 15) b).ru.nq.length < 16 ∧ (b.bu.entry b.bu.station).cls ≠ .notify ∧
       b.sm.segen = true ∧ b.sm.phase ≠ .idle) ∧
      (let b := { withEntry 30 { armed with state := .inService, cls := .notify } gap with
         bu := { (withEntry 30 { armed with state := .inService, cls := .notify } gap).bu with
           ctx := .reserving, station := 30 } }
       b.operating = true ∧ b.bu.ctx = .reserving ∧ b.ru.nq.length < 16 ∧ .reserved ∉ b.ru.nq ∧
         (b.bu.entry b.bu.station).cls = .notify) ∧
      -- an IDLE Segment Master grants the action at once; with SEGEN at 0 it is answered OFFLINE
      (∀ segen, let b := serving .reserving { live with sm := { live.sm with segen := segen } }
       b.operating = true ∧ b.bu.ctx = .reserving ∧ b.ru.nq.length < 16 ∧ (b.bu.entry b.bu.station).cls ≠ .notify ∧
         b.sm.segen = segen ∧ b.sm.phase = .idle) := by decide

/-- Station 3 is in service; station 5, of this class, waits behind it. -/
def servedBefore (cls : BookClass) (ctx : SvcState) (b : Block) : Block :=
  let s := withEntry 5 { armed with state := .queued, cls := cls } (serving ctx b)
  { s with bu := { s.bu with queue := [5] } }

-- The clauses of ServiceOver, which three statements share: what starts behind a service that ends.
theorem test_hyps_servicesStart :
    (∀ cls ∈ [BookClass.notify, .repeat], ∀ nq ∈ [[.reserved], .reserved :: fullQueue.tail],
      let b := withQueue nq (servedBefore cls .action1 gap)
      let posted := withQueue [.occupied (.condition .ddone)] { b with bu := { b.bu with ctx := .idle } }
      Slot.reserved ∈ b.ru.nq ∧ b.ru.nq = [] ++ .reserved :: nq.tail ∧ Slot.reserved ∉ ([] : List Slot) ∧
        -- behind the record
        posted.bu.ctx = .idle ∧ posted.bu.queue = 5 :: [] ∧ posted.sm.segen = true ∧ posted.ru.nq.length < 16 ∧
        16 ≤ (withQueue fullQueue posted).ru.nq.length ∧ (posted.bu.entry 5).cls = cls) ∧
      (gap.bu.ctx = .idle ∧ gap.bu.queue = []) ∧ ({ gap.sm with segen := false }).segen = false := by
  decide

theorem test_hyps_ServicePostsItsRecord :
    ∀ cls mark segen, ∀ ctx ∈ [SvcState.action1, .action2],
      let w := record .service .store
      let on := { live with sm := { live.sm with segen := segen } }
      let b := withQueue [.occupied (.condition .ddone), .reserved]
        (onWire .await w (servingA { armed with state := .inService, cls := cls, mark := mark } ctx on))
      (b.operating = true ∧ b.sm.phase = .await ∧ b.sm.tx = some (.word w) ∧ w.client = .service ∧ b.sm.segen = segen) ∧
        judgeReply w.verb (replyBits 1 []) = (.done, 0) ∧ judgeReply w.verb (replyBits 3 []) = (.refused, 0) ∧
        b.bu.ctx = ctx ∧ 1 ≤ b.bu.station ∧ b.bu.station ≤ 30 ∧ (b.bu.entry b.bu.station).cls = cls ∧
        (b.bu.entry b.bu.station).mark = mark ∧ b.bu.queue = [] ∧
        b.ru.nq = [.occupied (.condition .ddone)] ++ .reserved :: [] ∧
        Slot.reserved ∉ [Slot.occupied (.condition .ddone)] ∧
        -- with a station behind it
        (let b := withQueue [.reserved] (onWire .await w (servedBefore cls ctx on))
         b.operating = true ∧ b.sm.phase = .await ∧ b.sm.tx = some (.word w) ∧ b.bu.ctx = ctx ∧ b.bu.queue = [5] ∧
           b.sm.segen = segen) :=
  fun _ _ _ _ _ =>
    ⟨⟨rfl, rfl, rfl, rfl, rfl⟩, by decide, by decide, rfl, (by decide : 1 ≤ 3), (by decide : 3 ≤ 30), rfl, rfl, rfl, rfl,
      by decide, rfl, rfl, rfl, rfl, rfl, rfl⟩

set_option maxRecDepth 8000 in
theorem test_hyps_ServiceQueueStaysSound :
    let b := withQueue [.reserved] (serving .action1 live)
    b.QueueBounded ∧ b.ServiceQueueSound := by
  intro b
  have low : ∀ k < 31, (b.bu.entry k).state = (if k = 3 then .inService else .unbooked) := by decide
  have all : ∀ k, (b.bu.entry k).state = (if k = 3 then BookState.inService else .unbooked) := fun k => by
    by_cases h : k < 31
    · exact low k h
    · obtain ⟨j, rfl⟩ : ∃ j, k = j + 1 := ⟨k - 1, by omega⟩
      have : (b.bu.table[j]?) = none := Vector.getElem?_eq_none (by omega)
      simp [Bu.entry, this, Booking.blank]; omega
  refine ⟨⟨by decide, by decide, by decide⟩, by decide, fun k => ?_, fun k => ?_⟩
  · rw [all]
    show k ∈ [] ↔ _
    split <;> simp
  · rw [all]
    show _ ↔ (SvcState.action1 ≠ .idle ∧ 3 = k)
    by_cases h : k = 3 <;> simp [h]; omega

theorem test_hyps_CndAndLenWrites : quiet.operating = true ∧ (quiet.setCondition .refuse).operating = true := by decide

theorem test_hyps_ConditionsSetPostAndSpill :
    (quiet.setCondition .svflt).ru.flag .svflt = true ∧ quiet.ru.flag .svflt = false ∧
      quiet.ru.route .svflt ≠ .queue ∧ { quiet.ru with rte1 := 3 }.route .refuse = .queue ∧
      quiet.ru.nq.length < 16 ∧ 16 ≤ (withQueue fullQueue quiet).ru.nq.length := by decide

theorem test_hyps_LinesFollowTheirTerms : quiet.operating = true := by decide

theorem test_hyps_SpilledConditionsStaySet :
    let b := Block.setCondition { quiet with ru := { quiet.ru with rte0 := 0x0030, nq := fullQueue } } .ddone
    b.SpilledAreSet ∧ b.ru.spilled .ddone = true :=
  ⟨fun c h => by cases c <;> first | rfl | exact absurd h (by decide), by decide⟩

theorem test_hyps_NqadvFreesOneSlot :
    (quiet.operating = true ∧ quiet.ru.nq = [] ∧ (withQueue [.reserved] quiet).ru.nq = .reserved :: []) ∧
      ((withQueue fullQueue quiet).ru.nq = .occupied (.condition .ddone) :: fullQueue.tail ∧
        quiet.bu.ctx ≠ .reserving ∧ quiet.le.activity ≠ .waitNq) ∧
      (let b := withQueue fullQueue (withList .waitNq (serving .reserving gap))
       b.operating = true ∧ fullQueue.tail.length = 15 ∧ b.bu.ctx = .reserving ∧ b.le.activity = .waitNq ∧
         (b.bu.entry b.bu.station).cls ≠ .notify ∧ b.sm.segen = true ∧ b.sm.phase ≠ .idle) := by decide

end Sys2Proof.Tests
end

/-! The Span Decoder (chapter 4): which span of a table answers a window address, and what the enable check says of the
answer. The rules are about a list of spans above a given lower boundary; the decoder is the table of eight above 0. -/

namespace Sys2Proof.Machine

/-! ### The lowest span above an address (R68) -/

/-- The lower boundary U(k−1) of span `k` of a list whose first span starts at `lower` (R68). -/
def lowerBoundary (lower : Nat) : List Span → Nat → Nat
  | sp :: rest, k + 1 => lowerBoundary sp.upper rest k
  | _, _ => lower

@[simp] theorem lowerBoundary_zero (lower : Nat) (spans : List Span) : lowerBoundary lower spans 0 = lower := by
  cases spans <;> rfl

@[simp] theorem lowerBoundary_cons_succ (lower : Nat) (sp : Span) (rest : List Span) (k : Nat) :
    lowerBoundary lower (sp :: rest) (k + 1) = lowerBoundary sp.upper rest k := rfl

theorem lowerBoundary_succ (lower : Nat) {spans : List Span} {k : Nat} (hk : k < spans.length) :
    lowerBoundary lower spans (k + 1) = spans[k].upper := by
  induction spans generalizing lower k with
  | nil => cases hk
  | cons sp rest ih =>
    cases k with
    | zero => simp
    | succ k => simpa using ih sp.upper (Nat.lt_of_succ_lt_succ hk)

theorem decodeFrom_cons_of_lt {lower : Nat} {sp : Span} {rest : List Span} {a : Nat} (h : a < 64 * sp.upper) :
    decodeFrom lower (sp :: rest) a = some (sp.station.toNat, 64 * sp.base.toNat + (a - 64 * lower)) := if_pos h

theorem decodeFrom_cons_of_le {lower : Nat} {sp : Span} {rest : List Span} {a : Nat} (h : 64 * sp.upper ≤ a) :
    decodeFrom lower (sp :: rest) a = decodeFrom sp.upper rest a := if_neg (Nat.not_lt.mpr h)

/-- R68, steps 1 and 2: the spans at or below the address are passed over, each one the lower boundary of the next. -/
theorem decodeFrom_lowest {lower a : Nat} {spans : List Span} {k : Nat} (hk : k < spans.length)
    (above : a < 64 * spans[k].upper) (below : ∀ j (hj : j < k), 64 * spans[j].upper ≤ a) :
    decodeFrom lower spans a =
      some (spans[k].station.toNat, 64 * spans[k].base.toNat + (a - 64 * lowerBoundary lower spans k)) := by
  induction spans generalizing lower k with
  | nil => cases hk
  | cons sp rest ih =>
    cases k with
    | zero => simpa using decodeFrom_cons_of_lt above
    | succ k =>
      have passed : 64 * sp.upper ≤ a := below 0 k.succ_pos
      have inRest := ih (lower := sp.upper) (Nat.lt_of_succ_lt_succ hk) above
        fun j hj => below (j + 1) (Nat.succ_lt_succ hj)
      simpa [decodeFrom_cons_of_le passed] using inRest

/-- R68, step 3: UNMAPPED is the answer exactly for an address at or above every boundary. -/
theorem decodeFrom_eq_none_iff {lower : Nat} {spans : List Span} {a : Nat} :
    decodeFrom lower spans a = none ↔ ∀ sp ∈ spans, 64 * sp.upper ≤ a := by
  induction spans generalizing lower with
  | nil => simp [decodeFrom]
  | cons sp rest ih =>
    rcases Nat.lt_or_ge a (64 * sp.upper) with h | h
    · simp [decodeFrom_cons_of_lt h, h]
    · simp [decodeFrom_cons_of_le h, h, ih]

/-! ### A table that passed the enable check (R70) -/

/-- A span passes when it does not fall and, if it holds an address, names a station and fits its cells. -/
theorem Span.fails_eq_false_iff {lower : Nat} {sp : Span} :
    sp.fails lower = false ↔
      lower ≤ sp.upper ∧
      (lower < sp.upper → sp.station ≠ 0 ∧ sp.station ≠ 31 ∧ sp.base.toNat + (sp.upper - lower) ≤ 64) := by
  simp [Span.fails, and_assoc]

theorem checkFrom_cons_eq_none_iff {lower k : Nat} {sp : Span} {rest : List Span} :
    checkFrom lower k (sp :: rest) = none ↔ sp.fails lower = false ∧ checkFrom sp.upper (k + 1) rest = none := by
  cases h : sp.fails lower <;> simp [checkFrom, h]

/-- The boundaries of a checked list rise by at most 64 units per span (R68). -/
theorem checkFrom_none_upper_le {lower k : Nat} {spans : List Span} (passes : checkFrom lower k spans = none) :
    ∀ sp ∈ spans, sp.upper ≤ lower + 64 * spans.length := by
  induction spans generalizing lower k with
  | nil => simp
  | cons sp rest ih =>
    obtain ⟨first, others⟩ := checkFrom_cons_eq_none_iff.mp passes
    obtain ⟨-, fits⟩ := Span.fails_eq_false_iff.mp first
    have rise : sp.upper ≤ lower + 64 := by
      rcases Nat.lt_or_ge lower sp.upper with h | h
      · obtain ⟨-, -, fitsCells⟩ := fits h
        omega
      · omega
    have restRise := ih others
    simp only [List.forall_mem_cons, List.length_cons]
    exact ⟨by omega, fun t ht => by have := restRise t ht; omega⟩

/-- A station number other than the two the check refuses is that of a station. -/
theorem station_bounds {station : BitVec 5} (h0 : station ≠ 0) (h31 : station ≠ 31) :
    1 ≤ station.toNat ∧ station.toNat ≤ 30 := by
  bv_omega

/-- An address that a checked list maps is answered with a station on the segment and a cell of it (R68): the span that
answers holds the address, so it is not empty and the tests on a non-empty span hold. -/
theorem decodeFrom_bounds {lower k a station cell : Nat} {spans : List Span} (passes : checkFrom lower k spans = none)
    (fromLower : 64 * lower ≤ a) (answer : decodeFrom lower spans a = some (station, cell)) :
    1 ≤ station ∧ station ≤ 30 ∧ cell ≤ 4095 := by
  induction spans generalizing lower k with
  | nil => cases answer
  | cons sp rest ih =>
    obtain ⟨first, others⟩ := checkFrom_cons_eq_none_iff.mp passes
    rcases Nat.lt_or_ge a (64 * sp.upper) with h | h
    · rw [decodeFrom_cons_of_lt h] at answer
      cases answer
      obtain ⟨-, nonempty⟩ := Span.fails_eq_false_iff.mp first
      obtain ⟨h0, h31, fits⟩ := nonempty (by omega)
      obtain ⟨low, high⟩ := station_bounds h0 h31
      exact ⟨low, high, by omega⟩
    · rw [decodeFrom_cons_of_le h] at answer
      exact ih others h answer

/-! ### The table of eight spans -/

theorem Sd.decode_disabled {d : Sd} (h : d.en = false) (a : Nat) : d.decode a = none := by simp [Sd.decode, h]

theorem Sd.decode_enabled {d : Sd} (h : d.en = true) (a : Nat) : d.decode a = decodeFrom 0 d.spans.toList a := by
  simp [Sd.decode, h]

/-- The lower boundary of a span of the table, as the statements write it: that of span 0 is 0. -/
theorem Sd.lowerBoundary_eq (d : Sd) (k : Fin 8) :
    lowerBoundary 0 d.spans.toList k = if h : k.val = 0 then 0 else d.spans[k.val - 1].upper := by
  obtain ⟨k, hk⟩ := k
  cases k with
  | zero => simp
  | succ k => exact lowerBoundary_succ 0 (by rw [Vector.length_toList]; omega)

/-- The lowest span above an address holds the address, so it is not empty (R68). -/
theorem Sd.lowerBoundary_lt_upper {d : Sd} {a : Nat} {k : Fin 8} (above : a < 64 * d.spans[k].upper)
    (below : ∀ j : Fin 8, j < k → 64 * d.spans[j].upper ≤ a) :
    lowerBoundary 0 d.spans.toList k < d.spans[k].upper := by
  rw [Sd.lowerBoundary_eq]
  split
  next => omega
  next h =>
    have before : 64 * d.spans[k.val - 1].upper ≤ a := below ⟨k - 1, by omega⟩ (Fin.lt_def.mpr (by simp; omega))
    omega

theorem Sd.decode_lowest {d : Sd} {a : Nat} {k : Fin 8} (enabled : d.en = true) (above : a < 64 * d.spans[k].upper)
    (below : ∀ j : Fin 8, j < k → 64 * d.spans[j].upper ≤ a) :
    d.decode a = some (d.spans[k].station.toNat,
      64 * d.spans[k].base.toNat + (a - 64 * lowerBoundary 0 d.spans.toList k)) := by
  rw [Sd.decode_enabled enabled]
  exact decodeFrom_lowest (spans := d.spans.toList) (k := k) (by simp) above
    fun j hj => below ⟨j, hj.trans k.isLt⟩ hj

theorem Sd.decode_eq_none_iff {d : Sd} {a : Nat} (enabled : d.en = true) :
    d.decode a = none ↔ ∀ j : Fin 8, 64 * d.spans[j].upper ≤ a := by
  rw [Sd.decode_enabled enabled, decodeFrom_eq_none_iff]
  simp only [Vector.mem_toList_iff, Vector.mem_iff_getElem]
  constructor
  · exact fun h j => h _ ⟨j, j.isLt, rfl⟩
  · rintro h _ ⟨j, hj, rfl⟩
    exact h ⟨j, hj⟩

theorem Sd.upper_le_of_check {d : Sd} (passes : d.check = none) (j : Fin 8) : d.spans[j].upper ≤ 512 := by
  have rise := checkFrom_none_upper_le passes d.spans[j] (by simp)
  simpa using rise

/-- The highest mapped address lies below the boundary of the span that maps it, and no boundary is above 512 units. -/
theorem Sd.lt_of_decode_some {d : Sd} {a : Nat} {t : Nat × Nat} (enabled : d.en = true) (passes : d.check = none)
    (answer : d.decode a = some t) : a < 32768 := by
  by_contra high
  have unmapped : d.decode a = none :=
    (Sd.decode_eq_none_iff enabled).mpr fun j => by have := Sd.upper_le_of_check passes j; omega
  simp [unmapped] at answer

/-- Settles O37: the rules for the lowest span and for no span, and what the enable check says of each answer. -/
theorem decodeFindsTheLowestSpan : Obligations.DecodeFindsTheLowestSpan := by
  intro d a lower hlower
  have lower_eq : ∀ k, lower k = lowerBoundary 0 d.spans.toList k := fun k =>
    (hlower k).trans (d.lowerBoundary_eq k).symm
  refine ⟨fun disabled => Sd.decode_disabled disabled a, fun k enabled above below => ?_,
    fun enabled => (Sd.decode_eq_none_iff enabled).mpr, fun enabled passes => ⟨Sd.upper_le_of_check passes 7, ?_⟩⟩
  · rw [lower_eq]
    exact ⟨Sd.lowerBoundary_lt_upper above below, Sd.decode_lowest enabled above below⟩
  · intro station cell answer
    obtain ⟨low, high, fits⟩ :=
      decodeFrom_bounds passes (Nat.zero_le a) ((Sd.decode_enabled enabled a).symm.trans answer)
    exact ⟨low, high, fits, Sd.lt_of_decode_some enabled passes answer⟩

end Sys2Proof.Machine

/-! The Booking Unit's commands (chapter 9): a command of BKCMD reaches the entry of the station that BKSEL names, and
what ARM makes of that entry. -/

namespace Sys2Proof.Machine

/-! ### A command of a station (R150) -/

/-- A command of BKCMD is not refused for a station 1 to 30: it acts on that station's entry. -/
theorem Block.bookCommand_of_station {b : Block} (h0 : b.bu.bksel ≠ 0) (h31 : b.bu.bksel ≠ 31)
    (f : Nat → Booking → Block → Block) :
    b.bookCommand f = f b.bu.bksel.toNat (b.bu.entry b.bu.bksel.toNat) b :=
  if_neg (not_or.mpr ⟨h0, h31⟩)

theorem Bu.setEntry_eq_table (u : Bu) (k : Nat) (e : Booking) :
    u.setEntry k e = { u with table := (u.setEntry k e).table } := by
  cases k <;> rfl

/-! ### ARM by the state of the entry (R154) -/

section Arm

variable {b : Block} (h0 : b.bu.bksel ≠ 0) (h31 : b.bu.bksel ≠ 31)
include h0 h31

theorem Block.arm_of_unbooked (state : (b.bu.entry b.bu.bksel.toNat).state = .unbooked) :
    b.arm = b.refuse .notBooked := by
  simp [Block.arm, Block.bookCommand_of_station h0 h31, state]

/-- An ARMED or QUEUED booking is active already. -/
theorem Block.arm_of_active
    (state : (b.bu.entry b.bu.bksel.toNat).state = .armed ∨ (b.bu.entry b.bu.bksel.toNat).state = .queued) :
    b.arm = b := by
  rcases state with state | state <;> simp [Block.arm, Block.bookCommand_of_station h0 h31, state]

theorem Block.arm_of_inService (state : (b.bu.entry b.bu.bksel.toNat).state = .inService) :
    b.arm = b.refuse .bookingBusy := by
  simp [Block.arm, Block.bookCommand_of_station h0 h31, state]

theorem Block.arm_of_disarmed (state : (b.bu.entry b.bu.bksel.toNat).state = .disarmed) :
    b.arm = { b with bu := b.bu.setState b.bu.bksel.toNat .armed } := by
  simp [Block.arm, Block.bookCommand_of_station h0 h31, state]

end Arm

theorem answers_arm {b : Block} (q : List Instr) (operates : b.operating = true) :
    Answers .bkcmdArm ⟨b, q⟩ b.arm := by
  have answer : Answers .bkcmdArm ⟨b, q⟩ (b.whenOperating fun b => b.arm) := answers_become rfl
  rwa [Block.whenOperating_of operates] at answer

/-- Settles O50, by the state of the entry; the entry written for a DISARMED one is read back, and every other entry is
as it was. -/
theorem armReturnsADisarmedBooking : Obligations.ArmReturnsADisarmedBooking := by
  rintro b q _ _ operates h0 h31 rfl rfl
  have answer := answers_arm q operates
  refine ⟨fun state => ?unbooked, fun state => ?active, fun state => ?inService, fun state => ?disarmed⟩
  case unbooked => rwa [Block.arm_of_unbooked h0 h31 state] at answer
  case active => rwa [Block.arm_of_active h0 h31 state] at answer
  case inService => rwa [Block.arm_of_inService h0 h31 state] at answer
  case disarmed =>
    rw [Block.arm_of_disarmed h0 h31 state] at answer
    refine ⟨_, answer, ?_, ?_, fun j other => ?_⟩
    · exact congrArg (fun u => { b with bu := u }) (Bu.setEntry_eq_table _ _ _)
    · exact Bu.entry_setEntry_same _ _ _ (station_bounds h0 h31)
    · exact Bu.entry_setEntry_other _ _ _ _ other

end Sys2Proof.Machine

/-! The configuration lock (chapter 11): what a write of LOCK, a read of it and the resets do, and that while the lock is
set every change that a command can make keeps the lock and the values of the locked group. -/

namespace Sys2Proof.Machine

/-! ### What the lock holds (R185) -/

/-- The lock together with the values of the locked group. -/
def Block.configuration (b : Block) : Bool × LockedGroup := (b.hp.lock, b.lockedGroup)

theorem Block.configuration_eq_iff {a b : Block} :
    b.configuration = a.configuration ↔ b.hp.lock = a.hp.lock ∧ b.lockedGroup = a.lockedGroup :=
  Prod.mk_inj

/-- The routes are no part of what an event of a condition changes (R167, R176). -/
@[simp] theorem Ru.setCondition_rte0 (r : Ru) (c : Condition) : (r.setCondition c).rte0 = r.rte0 := by
  simp only [Ru.setCondition]
  split_ifs <;> rfl

@[simp] theorem Ru.setCondition_rte1 (r : Ru) (c : Condition) : (r.setCondition c).rte1 = r.rte1 := by
  simp only [Ru.setCondition]
  split_ifs <;> rfl

@[simp] theorem Block.setCondition_configuration (b : Block) (c : Condition) :
    (b.setCondition c).configuration = b.configuration := by
  simp [Block.configuration, Block.lockedGroup]

@[simp] theorem Block.refuse_configuration (b : Block) (r : Reason) :
    (b.refuse r).configuration = b.configuration := by
  simp [Block.configuration, Block.lockedGroup]

@[simp] theorem Block.setFifo_configuration (b : Block) (d : FifoSide) (f : Fifo) :
    (b.setFifo d f).configuration = b.configuration := by
  simp [Block.configuration, Block.lockedGroup]

/-! ### The part at work keeps the configuration -/

/-- The operations outside the Booking Unit leave TIM0, the span table, the routes and the lock alone. -/
theorem Evolves.configuration_eq {a b : Block} (h : Evolves a b) : b.configuration = a.configuration := by
  induction h with
  | refl b => rfl
  | trans _ _ first second => exact second.trans first
  | sm b m hr ht => simp [Block.configuration, Block.lockedGroup, hr, ht]
  | du b d h => rfl
  | le b l hs hc => rfl
  | au b u => rfl
  | store b a w => rfl
  | join b d w => exact b.setFifo_configuration d _
  | leave b d => exact b.setFifo_configuration d _
  | claim b d c => simp [Block.configuration, Block.lockedGroup]
  | condition b c => exact b.setCondition_configuration c
  | record b r h => rfl
  | choices b n => rfl

theorem Works.configuration_eq {a b : Block} (h : Works a b) : b.configuration = a.configuration := by
  induction h with
  | of h => exact h.configuration_eq
  | trans _ _ first second => exact second.trans first
  | bu b u => rfl
  | hp b h hl => simp [Block.configuration, Block.lockedGroup, hl]
  | reserve b h => rfl
  | fill b r => rfl
  | advance b r rest h => rfl
  | clear b keep => rfl
  | len b x => rfl
  | flush b d => exact b.setFifo_configuration d _
  | marks b p ho hi => rfl
  | select b d hs he => simp [Block.configuration, Block.lockedGroup, hs, he]
  | timing b d l => rfl

/-! ### Commands and the lock -/

theorem Sm.softReset_tim0Rate (m : Sm) : m.softReset.tim0Rate = m.tim0Rate := by
  unfold Sm.softReset
  cases m.phase <;> rfl

theorem Sm.softReset_tim0Timeout (m : Sm) : m.softReset.tim0Timeout = m.tim0Timeout := by
  unfold Sm.softReset
  cases m.phase <;> rfl

/-- The soft reset keeps TIM0 (R24) and, with it, the whole configuration, whether the lock is set or not (R184); the
Attention Unit's look at ATN is part of the work. -/
theorem Block.softReset_configuration (b : Block) : b.softReset.configuration = b.configuration := by
  rw [Block.softReset, (Evolves.lookAtn _).configuration_eq]
  simp [Block.configuration, Block.lockedGroup, Sm.softReset_tim0Rate, Sm.softReset_tim0Timeout]

theorem Block.endInit_configuration (b : Block) : b.endInit.configuration = b.configuration := by
  unfold Block.endInit
  split <;> rfl

/-- With the lock set, what a command other than the hard resets can do keeps the configuration: the change of the
locked group asks for a clear lock, and a refused enable writes BAD alone. -/
theorem Acts.configuration_eq {a b : Block} (h : Acts a b) (locked : a.hp.lock = true) :
    b.configuration = a.configuration := by
  cases h with
  | of works => exact works.configuration_eq
  | group m d r0 r1 clear hd => simp [clear] at locked
  | refusedGroup d k hbad r =>
    subst hbad
    exact Block.refuse_configuration _ r
  | lock => simp [Block.configuration, Block.lockedGroup, locked]
  | soft => exact a.softReset_configuration
  | initEnd => exact a.endInit_configuration

/-- R185, the step lemma: a command other than the hard resets completes and leaves a locked configuration as it is. -/
theorem answers_locked (c : Instr) {b : Block} (q : List Instr) (notHard : isHardReset c = false)
    (locked : b.hp.lock = true) :
    ∃ b', Answers c ⟨b, q⟩ b' ∧ b'.hp.lock = true ∧ b'.lockedGroup = b.lockedGroup := by
  obtain ⟨b', answer, acts⟩ := exec_acts c ⟨b, q⟩ notHard
  obtain ⟨keepsLock, keepsGroup⟩ := Block.configuration_eq_iff.mp (acts.configuration_eq locked)
  exact ⟨b', answer, keepsLock.trans locked, keepsGroup⟩

theorem answers_lockWrite {b : Block} (q : List Instr) (v : Word) (operates : b.operating = true) :
    Answers (.lockWrite v) ⟨b, q⟩ (b.writeLock v) := by
  have answer : Answers (.lockWrite v) ⟨b, q⟩ (b.whenOperating fun b => b.writeLock v) := answers_become rfl
  rwa [Block.whenOperating_of operates] at answer

theorem answers_softReset {b : Block} (q : List Instr) (operates : b.operating = true) :
    Answers .softReset ⟨b, q⟩ b.softReset := by
  have answer : Answers .softReset ⟨b, q⟩ (b.whenOperating fun b => b.softReset) := answers_become rfl
  rwa [Block.whenOperating_of operates] at answer

/-- A read of LOCK returns the lock as bit 0 and nothing else (R185 and section 11.7). -/
theorem Block.hostRead_lock {b : Block} (operates : b.operating = true) :
    b.hostRead 0x02#6 = if b.hp.lock then 1 else 0 := by
  have decoded : b.hostRead 0x02#6 = bitAt b.hp.lock 0 := Block.hostRead_operating operates 0x02#6
  rw [decoded]
  cases b.hp.lock <;> rfl

theorem answers_hardReset (c : Instr) (b : Block) (q : List Instr) (hard : c = .powerOnReset ∨ c = .pinReset) :
    ∃ b', Answers c ⟨b, q⟩ b' ∧ b'.hp.lock = false := by
  have isHard : isHardReset c = true := by rcases hard with rfl | rfl <;> rfl
  obtain ⟨hp, clear, answer⟩ := exec_hardReset c ⟨b, q⟩ isHard
  exact ⟨b.hardReset hp, answer, clear⟩

/-- Settles O6: the write and read of LOCK, the two hard resets, the soft reset, and the step lemma for every other
command. -/
theorem lockHoldsTheLockedGroup : Obligations.LockHoldsTheLockedGroup := by
  refine ⟨fun _ q v operates => ⟨answers_lockWrite q v operates, Block.hostRead_lock operates⟩,
    answers_hardReset, fun b q operates => ?softReset, fun c _ q => answers_locked c q⟩
  case softReset =>
    exact ⟨b.softReset, answers_softReset q operates, Block.configuration_eq_iff.mp b.softReset_configuration⟩

end Sys2Proof.Machine

/-! What every step keeps (chapters 2, 3, 4, 6 and 10). A step makes one of the changes of `Acts` or is a hard reset, so an
invariant is settled by its primitive changes: for each one below, those that touch what it speaks of. -/

namespace Sys2Proof.Machine

/-- A predicate that the changes of a command and the hard resets keep is kept by every step. -/
theorem keptByEveryStep_of_acts {P : Block → Prop} (acts : ∀ {a b : Block}, Acts a b → P a → P b)
    (reset : ∀ (b : Block) (hp : Hp), P b → P (b.hardReset hp)) : KeptByEveryStep P := by
  intro s t holds taken
  rcases step_acts taken with changed | ⟨hp, -, isReset⟩
  · exact acts changed holds
  · rw [isReset]
    exact reset _ hp holds

/-! ### The words of the FIFOs (R51) -/

theorem Fifo.Accounted.join {f : Fifo} (h : f.Accounted) (w : Word) : (f.join w).Accounted := by
  obtain ⟨bound, counts⟩ := h
  unfold Fifo.join
  split
  next room =>
    simp only [Fifo.Accounted, Fifo.level, List.length_append, List.length_singleton] at *
    omega
  next => exact ⟨bound, counts⟩

theorem Fifo.Accounted.leave {f : Fifo} (h : f.Accounted) : f.leave.Accounted := by
  obtain ⟨bound, counts⟩ := h
  unfold Fifo.leave
  split
  next => exact ⟨bound, counts⟩
  next w rest words =>
    simp only [Fifo.Accounted, Fifo.level, words, List.length_cons] at *
    omega

theorem Fifo.Accounted.flush {f : Fifo} (h : f.Accounted) : f.flush.Accounted := by
  obtain ⟨bound, counts⟩ := h
  simp only [Fifo.Accounted, Fifo.flush, Fifo.level, List.length_nil] at *
  omega

theorem Fifo.reset_accounted : Fifo.reset.Accounted := by
  simp [Fifo.Accounted, Fifo.reset, Fifo.level]

theorem Block.FifosAccounted.fifo {b : Block} (h : b.FifosAccounted) (d : FifoSide) : (b.fifo d).Accounted := by
  cases d
  · exact h.1
  · exact h.2

theorem Block.FifosAccounted.setFifo {b : Block} (h : b.FifosAccounted) (d : FifoSide) {f : Fifo}
    (changed : (b.fifo d).Accounted → f.Accounted) : (b.setFifo d f).FifosAccounted := by
  cases d
  · exact ⟨changed h.1, h.2⟩
  · exact ⟨h.1, changed h.2⟩

theorem Evolves.fifosAccounted {a b : Block} (h : Evolves a b) : a.FifosAccounted → b.FifosAccounted := by
  induction h with
  | trans _ _ first second => exact second ∘ first
  | join b d w => exact fun h => h.setFifo d fun f => f.join w
  | leave b d => exact fun h => h.setFifo d fun f => f.leave
  | claim b d c => exact fun h => h.setFifo d id
  | _ => exact id

theorem Works.fifosAccounted {a b : Block} (h : Works a b) : a.FifosAccounted → b.FifosAccounted := by
  induction h with
  | of h => exact h.fifosAccounted
  | trans _ _ first second => exact second ∘ first
  | flush b d => exact fun h => h.setFifo d fun f => f.flush
  | marks b p out inb => exact fun ⟨hout, hinb⟩ => ⟨out ▸ hout, inb ▸ hinb⟩
  | _ => exact id

/-- A soft reset empties both FIFOs and their counts (R63). -/
theorem Acts.fifosAccounted {a b : Block} (h : Acts a b) : a.FifosAccounted → b.FifosAccounted := by
  cases h with
  | of works => exact works.fifosAccounted
  | soft => exact fun _ => (Evolves.lookAtn _).fifosAccounted ⟨Fifo.reset_accounted, Fifo.reset_accounted⟩
  | initEnd =>
    unfold Block.endInit
    split <;> exact id
  | _ => exact id

/-- Settles O34: a word joins only below level 64, and each word that joins is later removed or flushed. -/
theorem fifoAccountingIsKept : Obligations.FifoAccountingIsKept :=
  keptByEveryStep_of_acts Acts.fifosAccounted fun _ _ _ => ⟨Fifo.reset_accounted, Fifo.reset_accounted⟩

/-! ### The span table while EN is 1 (R70) -/

theorem Evolves.sd_eq {a b : Block} (h : Evolves a b) : b.sd = a.sd := by
  induction h with
  | trans _ _ first second => exact second.trans first
  | join => exact Block.setFifo_sd ..
  | leave => exact Block.setFifo_sd ..
  | claim => exact Block.setClaim_sd ..
  | _ => rfl

/-- The work of a part changes of the Span Decoder no more than SPSEL and BAD. -/
theorem Works.spans_eq {a b : Block} (h : Works a b) : b.sd.en = a.sd.en ∧ b.sd.spans = a.sd.spans := by
  induction h with
  | of h => rw [h.sd_eq]; exact ⟨rfl, rfl⟩
  | trans _ _ first second => exact ⟨second.1.trans first.1, second.2.trans first.2⟩
  | flush b d => rw [Block.setFifo_sd]; exact ⟨rfl, rfl⟩
  | select b d spans en => exact ⟨en, spans⟩
  | _ => exact ⟨rfl, rfl⟩

theorem Block.EnabledTableValid.of_spans_eq {a b : Block} (h : a.EnabledTableValid) (en : b.sd.en = a.sd.en)
    (spans : b.sd.spans = a.sd.spans) : b.EnabledTableValid := by
  unfold Block.EnabledTableValid Sd.check at *
  rwa [en, spans]

/-- A change of the locked group brings its own check of an enabled table (R71). -/
theorem Acts.enabledTableValid {a b : Block} (h : Acts a b) (valid : a.EnabledTableValid) : b.EnabledTableValid := by
  cases h with
  | of works => exact valid.of_spans_eq works.spans_eq.1 works.spans_eq.2
  | group m d r0 r1 clear checked => exact checked valid
  | refusedGroup d k bad r => subst bad; exact valid
  | lock => exact valid
  | soft =>
    have kept : a.softReset.sd = a.sd := (Evolves.lookAtn _).sd_eq
    exact valid.of_spans_eq (by rw [kept]) (by rw [kept])
  | initEnd =>
    unfold Block.endInit
    split <;> exact valid

/-- Settles O39: the spans of an enabled table are written by no command, and EN is set behind the check alone. -/
theorem enabledTableStaysValid : Obligations.EnabledTableStaysValid :=
  keptByEveryStep_of_acts Acts.enabledTableValid fun _ _ _ (enabled : false = true) => nomatch enabled

/-! ### The form of the List Store (log entry 20) -/

theorem Evolves.storeCanonical {a b : Block} (h : Evolves a b) : a.StoreCanonical → b.StoreCanonical := by
  unfold Block.StoreCanonical
  induction h with
  | trans _ _ first second => exact second ∘ first
  | le b l store counted => rw [store]; exact id
  | store b a w => exact b.le.store.write_wf a w
  | join => rw [Block.setFifo_le]; exact id
  | leave => rw [Block.setFifo_le]; exact id
  | claim => rw [Block.setClaim_le]; exact id
  | _ => exact id

theorem Works.storeCanonical {a b : Block} (h : Works a b) : a.StoreCanonical → b.StoreCanonical := by
  induction h with
  | of h => exact h.storeCanonical
  | trans _ _ first second => exact second ∘ first
  | flush b d => unfold Block.StoreCanonical; rw [Block.setFifo_le]; exact id
  | _ => exact id

/-- The empty store, which the end of INIT leaves, is canonical. -/
theorem Memory.wf_nil : Memory.wf [] := ⟨List.Pairwise.nil, by simp⟩

theorem Acts.storeCanonical {a b : Block} (h : Acts a b) (canonical : a.StoreCanonical) : b.StoreCanonical := by
  cases h with
  | of works => exact works.storeCanonical canonical
  | soft => exact (Evolves.lookAtn _).storeCanonical canonical
  | initEnd =>
    unfold Block.endInit
    split
    · exact Memory.wf_nil
    · exact canonical
  | _ => exact canonical

/-- Settles O41: the store changes by writes, which keep the form, by the clearing of INIT, and by nothing else. -/
theorem storeStaysCanonical : Obligations.StoreStaysCanonical :=
  keptByEveryStep_of_acts Acts.storeCanonical fun _ _ canonical => canonical

/-! ### The counts of the runs (section 2.2) -/

theorem Evolves.runsCounted {a b : Block} (h : Evolves a b) : a.RunsCounted → b.RunsCounted := by
  induction h with
  | trans _ _ first second => exact second ∘ first
  | du b d counted => exact fun ⟨inDirect, inList⟩ => ⟨counted inDirect, inList⟩
  | le b l store counted => exact fun ⟨inDirect, inList⟩ => ⟨inDirect, counted inList⟩
  | join => unfold Block.RunsCounted; rw [Block.setFifo_du, Block.setFifo_le]; exact id
  | leave => unfold Block.RunsCounted; rw [Block.setFifo_du, Block.setFifo_le]; exact id
  | claim => unfold Block.RunsCounted; rw [Block.setClaim_du, Block.setClaim_le]; exact id
  | _ => exact id

theorem Works.runsCounted {a b : Block} (h : Works a b) : a.RunsCounted → b.RunsCounted := by
  induction h with
  | of h => exact h.runsCounted
  | trans _ _ first second => exact second ∘ first
  | flush b d => unfold Block.RunsCounted; rw [Block.setFifo_du, Block.setFifo_le]; exact id
  | _ => exact id

theorem Acts.runsCounted {a b : Block} (h : Acts a b) (counted : a.RunsCounted) : b.RunsCounted := by
  cases h with
  | of works => exact works.runsCounted counted
  | soft => exact (Evolves.lookAtn _).runsCounted ⟨rfl, rfl⟩
  | initEnd =>
    unfold Block.endInit
    split <;> exact counted
  | _ => exact counted

/-- Settles O30: a word done or skipped moves the index with its count, and every new run starts at 0. -/
theorem runCountsAddUp : Obligations.RunCountsAddUp :=
  keptByEveryStep_of_acts Acts.runsCounted fun _ _ _ => ⟨rfl, rfl⟩

/-! ### Flags and spill marks (R167 to R169, R176) -/

theorem Condition.mask_getLsbD (c d : Condition) : c.mask.getLsbD d.number = decide (d = c) := by
  cases c <;> cases d <;> rfl

theorem Ru.setCondition_flags {r : Ru} {c : Condition} (clear : r.flag c = false) :
    (r.setCondition c).flags = r.flags ||| c.mask := by
  simp only [Ru.setCondition, clear]
  split_ifs <;> first | rfl | contradiction

theorem Ru.setCondition_of_flag {r : Ru} {c : Condition} (set : r.flag c = true) : r.setCondition c = r := if_pos set

/-- An event sets the flag of its condition and leaves the other flags (R167). -/
theorem Ru.setCondition_flag (r : Ru) (c d : Condition) : (r.setCondition c).flag d = (r.flag d || decide (d = c)) := by
  cases set : r.flag c with
  | true =>
    rw [Ru.setCondition_of_flag set]
    by_cases same : d = c
    · simp [same, set]
    · simp [same]
  | false =>
    unfold Ru.flag
    rw [Ru.setCondition_flags set]
    simp [Condition.mask_getLsbD]

/-- An event can leave a spill mark on its own condition alone (R176). -/
theorem Ru.setCondition_spilled {r : Ru} {c d : Condition} (h : (r.setCondition c).spilled d = true) :
    r.spilled d = true ∨ d = c := by
  unfold Ru.setCondition at h
  dsimp only at h
  split at h
  · exact .inl h
  · split at h
    · split at h
      · exact .inl h
      · simpa [Ru.spilled, Condition.mask_getLsbD] using h
    · exact .inl h

theorem Block.SpilledAreSet.setCondition {b : Block} (h : b.SpilledAreSet) (c : Condition) :
    (b.setCondition c).SpilledAreSet := by
  intro d spilled
  rw [Block.setCondition_ru, Ru.setCondition_flag]
  rcases Ru.setCondition_spilled spilled with before | rfl
  · simp [h d before]
  · simp

theorem Evolves.spilledAreSet {a b : Block} (h : Evolves a b) : a.SpilledAreSet → b.SpilledAreSet := by
  induction h with
  | trans _ _ first second => exact second ∘ first
  | join => unfold Block.SpilledAreSet; rw [Block.setFifo_ru]; exact id
  | leave => unfold Block.SpilledAreSet; rw [Block.setFifo_ru]; exact id
  | claim => unfold Block.SpilledAreSet; rw [Block.setClaim_ru]; exact id
  | condition b c => exact fun h => h.setCondition c
  | _ => exact id

theorem Works.spilledAreSet {a b : Block} (h : Works a b) : a.SpilledAreSet → b.SpilledAreSet := by
  induction h with
  | of h => exact h.spilledAreSet
  | trans _ _ first second => exact second ∘ first
  | clear b keep =>
    intro h c spilled
    simp only [Ru.spilled, Ru.flag, BitVec.getLsbD_and, Bool.and_eq_true] at spilled ⊢
    exact ⟨h c spilled.1, spilled.2⟩
  | flush b d => unfold Block.SpilledAreSet; rw [Block.setFifo_ru]; exact id
  | _ => exact id

/-- No condition is spilled right after a reset. -/
theorem Block.spilledAreSet_of_clear {b : Block} (h : b.ru.spills = 0) : b.SpilledAreSet := by
  intro c spilled
  simp [Ru.spilled, h] at spilled

theorem Acts.spilledAreSet {a b : Block} (h : Acts a b) (holds : a.SpilledAreSet) : b.SpilledAreSet := by
  cases h with
  | of works => exact works.spilledAreSet holds
  | group => exact holds
  | refusedGroup d k bad r => exact Block.SpilledAreSet.setCondition (b := { a with sd := d, hp := _ }) holds .refuse
  | lock => exact holds
  | soft => exact (Evolves.lookAtn _).spilledAreSet (Block.spilledAreSet_of_clear rfl)
  | initEnd =>
    unfold Block.endInit
    split <;> exact holds

/-- Settles O58: an event spills only where it sets its flag, and a flag and its mark are cleared together. -/
theorem spilledConditionsStaySet : Obligations.SpilledConditionsStaySet :=
  keptByEveryStep_of_acts Acts.spilledAreSet fun _ _ _ => Block.spilledAreSet_of_clear rfl

end Sys2Proof.Machine

/-! The Service Queue, the booking entries, the service and the slots of the Notification Queue (chapters 9 and 10) at every
step. `Block.Serving` is what R157 and R173 say together; each command keeps it, since the operations outside the Booking Unit
leave that unit alone and report only into free slots, and the Booking Unit's own follow R150 to R163. -/

namespace Sys2Proof.Machine

/-- R157 and R173, as the statement writes them. -/
theorem Block.serving_iff (b : Block) : b.Serving ↔ b.QueueBounded ∧ b.ServiceQueueSound := by
  have reserved : b.bu.ctx ≠ .posting →
      b.bu.ctx.reservations = if b.bu.ctx = .action1 ∨ b.bu.ctx = .action2 then 1 else 0 := by
    cases b.bu.ctx <;> simp [SvcState.reservations]
  constructor
  · rintro ⟨⟨nodup, queued, served⟩, ⟨bound, count⟩, posted⟩
    exact ⟨⟨b.ru.occupied_add_reserved ▸ bound, count.trans (reserved posted), posted⟩, nodup, queued, served⟩
  · rintro ⟨⟨bound, count, posted⟩, nodup, queued, served⟩
    exact ⟨⟨nodup, queued, served⟩, ⟨b.ru.occupied_add_reserved ▸ bound, count.trans (reserved posted).symm⟩, posted⟩

/-! ### Changes outside the service -/

/-- A change that leaves table, queue, service and slots. -/
theorem Block.Serving.congr {a b : Block} (h : a.Serving) (table : b.bu.table = a.bu.table) (queue : b.bu.queue = a.bu.queue)
    (ctx : b.bu.ctx = a.bu.ctx) (station : b.bu.station = a.bu.station) (nq : b.ru.nq = a.ru.nq) : b.Serving := by
  refine ⟨h.sound.goOn table queue station (by rw [ctx]), ?_, by rw [ctx]; exact h.posted⟩
  unfold Ru.Slots
  rw [nq, ctx]
  exact h.slots

/-- A state of the Booking Unit in which nothing is queued or served, with an empty Notification Queue. -/
theorem Block.serving_of_resting {b : Block} (queue : b.bu.queue = []) (ctx : b.bu.ctx = .idle) (nq : b.ru.nq = [])
    (rest : ∀ k, (b.bu.entry k).state ≠ .queued ∧ (b.bu.entry k).state ≠ .inService) : b.Serving := by
  refine ⟨⟨by simp [queue], fun k => ?_, fun k => ?_⟩, ?_, by simp [ctx]⟩
  · simp [queue, (rest k).1]
  · simp [ctx, (rest k).2]
  · simp [Ru.Slots, nq, ctx, SvcState.reservations]

section Kept

variable {b : Block} (h : b.Serving)
include h

theorem Block.Serving.setCondition (c : Condition) : (b.setCondition c).Serving := (Evolves.condition b c).serving h

theorem Block.Serving.choose : ({ b with choices := b.choices + 1 } : Block).Serving := h.congr rfl rfl rfl rfl rfl

theorem Block.Serving.refuse (r : Reason) : (b.refuse r).Serving :=
  Block.Serving.setCondition (b := { b with hp := { b.hp with rsn := r } }) (h.congr rfl rfl rfl rfl rfl) .refuse

theorem Block.Serving.lockedWrite {f : Block → Block} (unlocked : (f b).Serving) : (b.lockedWrite f).Serving := by
  unfold Block.lockedWrite
  split
  · exact h.setCondition _
  · exact unlocked

theorem Block.Serving.flushFifo (d : FifoSide) : (b.flushFifo d).Serving := by
  unfold Block.flushFifo
  split
  · exact h.congr (by rw [Block.setFifo_bu]) (by rw [Block.setFifo_bu]) (by rw [Block.setFifo_bu]) (by rw [Block.setFifo_bu])
      (by rw [Block.setFifo_ru])
  · exact h.refuse _

theorem Block.Serving.writeFcmd (v : Word) : (b.writeFcmd v).Serving := by
  have out : (if v.bit 0 then b.flushFifo .outbound else b).Serving := by
    split
    · exact h.flushFifo _
    · exact h
  unfold Block.writeFcmd
  dsimp only
  generalize (if v.bit 0 then b.flushFifo .outbound else b) = c at out ⊢
  have both : (if v.bit 1 then c.flushFifo .inbound else c).Serving := by
    split
    · exact out.flushFifo _
    · exact out
  split
  · exact (Evolves.listReadBehind _).serving both
  · exact both

theorem Block.Serving.writeOdat (v : Word) : (b.writeOdat v).Serving := by
  unfold Block.writeOdat
  split
  · exact (Evolves.trans (.join b .outbound v) (.tellClaimant _ _)).serving h
  · exact h.setCondition _

theorem Block.Serving.readIdat : b.readIdat.Serving := by
  unfold Block.readIdat
  split
  · refine Block.Serving.setCondition ?_ _
    exact h.congr rfl rfl rfl rfl rfl
  · exact (Evolves.trans (.leave _ .inbound) (.tellClaimant _ _)).serving (h.congr rfl rfl rfl rfl rfl)

theorem Block.Serving.writeFmki (v : Word) : (b.writeFmki v).Serving :=
  (Evolves.tellClaimant _ _).serving (h.congr rfl rfl rfl rfl rfl)

theorem Block.Serving.writeLdat (v : Word) : (b.writeLdat v).Serving := by
  unfold Block.writeLdat
  split
  · exact h.congr rfl rfl rfl rfl rfl
  · refine Block.Serving.refuse ?_ _
    exact h.congr rfl rfl rfl rfl rfl

theorem Block.Serving.writeSpan (reg : SpanReg) (v : Word) : (b.writeSpan reg v).Serving := by
  refine h.lockedWrite ?_
  split
  · exact h.refuse _
  · exact h.congr rfl rfl rfl rfl rfl

theorem Block.Serving.writeSpctl (en : Bool) : (b.writeSpctl en).Serving := by
  refine h.lockedWrite ?_
  split
  · unfold Block.enableSpans
    split
    · exact h
    · split
      · exact h.congr rfl rfl rfl rfl rfl
      · refine Block.Serving.refuse ?_ _
        exact h.congr rfl rfl rfl rfl rfl
  · exact h.congr rfl rfl rfl rfl rfl

theorem Block.Serving.writeRoute (reg : RouteReg) (v : Word) : (b.writeRoute reg v).Serving := by
  refine h.lockedWrite ?_
  cases reg <;> exact h.congr rfl rfl rfl rfl rfl

theorem Block.Serving.writeTim0 (v : Word) : (b.writeTim0 v).Serving := h.lockedWrite (h.congr rfl rfl rfl rfl rfl)

theorem Block.Serving.writeLock (v : Word) : (b.writeLock v).Serving := by
  unfold Block.writeLock
  split
  · exact h.congr rfl rfl rfl rfl rfl
  · exact h

theorem Block.Serving.directGo : b.directGo.Serving := by
  have taken : Block.Serving b.directSnapshot := h.congr rfl rfl rfl rfl rfl
  unfold Block.directGo
  split
  · exact h.refuse _
  · split
    · exact (Evolves.trans (.startRun _ .direct) (.directProgress _)).serving taken
    · split
      · refine Block.Serving.setCondition ?_ _
        exact h.congr rfl rfl rfl rfl rfl
      · exact (Evolves.trans (.claim _ _ _) (.trans (.startRun _ .direct) (.directProgress _))).serving taken

theorem Block.Serving.writeDcmd (v : Word) : (b.writeDcmd v).Serving := by
  unfold Block.writeDcmd
  split
  · exact (Evolves.directAbort b).serving h
  · split
    · exact (Evolves.listReadBehind _).serving h.directGo
    · exact h

theorem Block.Serving.listStart : b.listStart.Serving := by
  unfold Block.listStart
  split
  · exact (Evolves.listGo _).serving (h.congr rfl rfl rfl rfl rfl)
  · exact h.refuse _

theorem Block.Serving.listResume : b.listResume.Serving := by
  unfold Block.listResume
  split
  · exact (Evolves.listContinue _).serving (h.congr rfl rfl rfl rfl rfl)
  · exact h.refuse _

theorem Block.Serving.writeLcmd (v : Word) : (b.writeLcmd v).Serving := by
  unfold Block.writeLcmd
  split_ifs
  · exact (Evolves.listAbort b).serving h
  · exact h.listStart
  · exact h.listResume
  · exact h

theorem Block.Serving.censusCommand : b.censusCommand.Serving := by
  unfold Block.censusCommand
  split
  · split
    · exact (Evolves.requestCensus b).serving h
    · exact (Evolves.requestCensus b).serving h
    · exact h
    · exact h
  · exact h.refuse _

theorem Block.Serving.attentionAtEnable (now : Bool) : (b.attentionAtEnable now).Serving := by
  have looked := (Evolves.lookAtn b).serving h
  unfold Block.attentionAtEnable
  dsimp only
  split
  · exact looked.censusCommand
  · exact looked

theorem Block.Serving.tellAtn : b.tellAtn.Serving := by
  unfold Block.tellAtn
  split
  · exact (Evolves.lookAtn b).serving h
  · exact h

theorem Block.Serving.expireHoldoff : b.expireHoldoff.Serving := by
  unfold Block.expireHoldoff
  split
  · exact (Evolves.endHoldoff b).serving h
  · exact h

/-! ### Deliveries to the service, the wire and SEGEN -/

theorem Block.Serving.deliver (c : Client) (e : Ending) (v : Word) (access : Bool := false) :
    (b.deliver c e v access).Serving := by
  cases c
  · exact b.serviceOutcome_serving e v h
  · exact (Evolves.deliverRun b .direct e v access).serving h
  · exact (Evolves.deliverRun b .list e v access).serving h

theorem Block.Serving.attemptEnds (w : WordTx) (e : Ending) (v : Word) (access : Bool := false) :
    (b.attemptEnds w e v access).Serving := by
  have ended : Block.Serving { b with sm := b.sm.endAttempt w e } := h.congr rfl rfl rfl rfl rfl
  cases e
  case silent => exact ended
  case corrupt => exact ended
  all_goals exact ended.deliver _ _ _ _

theorem Block.Serving.onAwait {f : WordTx → Block} (kept : ∀ w, (f w).Serving) : (b.onAwait f).Serving := by
  unfold Block.onAwait
  split
  · exact kept _
  · exact h

theorem Block.Serving.frameSent (access : Bool) : (b.frameSent access).Serving := by
  unfold Block.frameSent
  split
  · exact h.congr rfl rfl rfl rfl rfl
  · split
    · refine Block.Serving.deliver ?_ _ _ _ _
      exact h.congr rfl rfl rfl rfl rfl
    · exact h.congr rfl rfl rfl rfl rfl
  · exact h

theorem Block.Serving.replyEnd (bits : List Bool) (access : Bool) : (b.replyEnd bits access).Serving :=
  h.onAwait fun _ => h.attemptEnds _ _ _ _

theorem Block.Serving.replyStart : b.replyStart.Serving := h.onAwait fun _ => h.congr rfl rfl rfl rfl rfl

theorem Block.Serving.replyTimeout (partialSync : Bool) : (b.replyTimeout partialSync).Serving := by
  refine h.onAwait fun w => ?_
  split_ifs
  · exact h.congr rfl rfl rfl rfl rfl
  · exact h.attemptEnds _ _ _
  · exact h

theorem Block.Serving.syncBreakOff : b.syncBreakOff.Serving := by
  refine h.onAwait fun w => ?_
  split_ifs
  · exact h.attemptEnds _ _ _
  · exact h

theorem Block.Serving.takeCensus (slots : List SlotResult) : (b.takeCensus slots).Serving := by
  unfold Block.takeCensus
  dsimp only
  refine (Evolves.enterHoldoff _).serving (Block.handOver_serving _ _ ?_)
  split
  · refine Block.Serving.setCondition ?_ _
    exact h.congr rfl rfl rfl rfl rfl
  · exact h.congr rfl rfl rfl rfl rfl

theorem Block.Serving.censusSlotsEnd (slots : List (BitVec 3)) : (b.censusSlotsEnd slots).Serving := by
  unfold Block.censusSlotsEnd
  split
  · refine Block.Serving.takeCensus ?_ _
    exact h.congr rfl rfl rfl rfl rfl
  · exact h

theorem Block.Serving.comeToRest : b.comeToRest.Serving :=
  (Evolves.arbitrate _).serving (h.congr rfl rfl rfl rfl rfl)

theorem Block.Serving.gapEnd : b.gapEnd.Serving := by
  unfold Block.gapEnd
  split
  · split
    · exact h.congr rfl rfl rfl rfl rfl
    · split
      · exact (h.deliver _ _ _).comeToRest
      · exact h.comeToRest
    · exact h.comeToRest
  · exact h

theorem Block.Serving.offlineClient (c : Client) : (b.offlineClient c).Serving := by
  unfold Block.offlineClient
  split
  · exact ((Evolves.withdraw b c).serving h).deliver _ _ _
  · exact h

theorem Block.Serving.offlineCensus : b.offlineCensus.Serving := by
  unfold Block.offlineCensus
  split
  · exact h.congr rfl rfl rfl rfl rfl
  · exact h

theorem Block.Serving.lowerSegen : b.lowerSegen.Serving := by
  have disabled : Block.Serving { b with sm := b.sm.disable } := h.congr rfl rfl rfl rfl rfl
  have served := disabled.offlineCensus.offlineClient .service
  have chosen := served.choose
  unfold Block.lowerSegen
  dsimp only
  split
  · split
    · exact (chosen.offlineClient .direct).offlineClient .list
    · exact (chosen.offlineClient .list).offlineClient .direct
  · exact (served.offlineClient .direct).offlineClient .list

theorem Block.Serving.raiseSegen (now : Bool) : (b.raiseSegen now).Serving := by
  have enabled : Block.Serving (Block.arbitrate { b with sm := b.sm.enable }) :=
    (Evolves.arbitrate _).serving (h.congr rfl rfl rfl rfl rfl)
  have chosen := enabled.choose
  unfold Block.raiseSegen
  dsimp only
  split
  · split
    · exact Block.startServices_serving _ (chosen.attentionAtEnable now)
    · exact (Block.startServices_serving _ chosen).attentionAtEnable now
  · exact Block.startServices_serving _ (enabled.attentionAtEnable now)

theorem Block.Serving.setSegen (segen now : Bool) : (b.setSegen segen now).Serving := by
  unfold Block.setSegen
  dsimp only
  split
  · exact h.raiseSegen now
  · have lowered : (if segen = false ∧ b.sm.segen then b.lowerSegen else b).Serving := by
      split
      · exact h.lowerSegen
      · exact h
    split
    · exact lowered.censusCommand
    · exact lowered

/-! ### The commands of BKCMD and NQADV -/

theorem Block.Serving.withBu {u : Bu} (sound : u.Sound) (ctx : u.ctx = b.bu.ctx) : ({ b with bu := u } : Block).Serving :=
  ⟨sound, by rw [ctx]; exact h.slots, by rw [ctx]; exact h.posted⟩

/-- An entry is written whose being QUEUED and being IN-SERVICE stay as they were. -/
theorem Block.Serving.setEntry {k : Nat} {e : Booking} (queued : e.state = .queued ↔ (b.bu.entry k).state = .queued)
    (served : e.state = .inService ↔ (b.bu.entry k).state = .inService) :
    ({ b with bu := b.bu.setEntry k e } : Block).Serving :=
  h.withBu (h.sound.setEntry k e queued served) (Bu.setEntry_ctx ..)

/-- A QUEUED station leaves the queue for a state that is neither QUEUED nor IN-SERVICE (R153, R155). -/
theorem Block.Serving.unqueue {k : Nat} {st : BookState} (queued : (b.bu.entry k).state = .queued) (notQueued : st ≠ .queued)
    (notServed : st ≠ .inService) : ({ b with bu := (b.bu.dequeue k).setState k st } : Block).Serving :=
  h.withBu
    (h.sound.remove k _ notQueued notServed (by rw [queued]; decide) (b.bu.isStation_of_state k (by rw [queued]; decide)))
    (Bu.setEntry_ctx ..)

theorem Block.Serving.bookCommand {f : Nat → Booking → Block → Block} (kept : ∀ k, (f k (b.bu.entry k) b).Serving) :
    (b.bookCommand f).Serving := by
  unfold Block.bookCommand
  split
  · exact h.refuse _
  · exact kept _

theorem Block.Serving.readBooking : b.readBooking.Serving := h.bookCommand fun _ => h.congr rfl rfl rfl rfl rfl

theorem Block.Serving.book : b.book.Serving := by
  refine h.bookCommand fun k => ?_
  split
  · exact h.refuse _
  next free =>
    rw [not_or] at free
    split
    · exact h.refuse _
    next e staged =>
      have armed : e.state = .armed := by
        unfold Bu.stagedBooking at staged
        dsimp only at staged
        split at staged
        · cases staged
        · cases staged; rfl
        · split at staged <;> cases staged; rfl
        · split at staged <;> cases staged; rfl
      exact h.setEntry (by simp [armed, free.1]) (by simp [armed, free.2])

theorem Block.Serving.unbook : b.unbook.Serving := by
  refine h.bookCommand fun k => ?_
  split
  · exact h
  next state => exact h.setEntry (by simp [state]) (by simp [state])
  next state => exact h.setEntry (by simp [state]) (by simp [state])
  next state => exact h.unqueue state (by decide) (by decide)
  next state => exact h.setEntry (by simp) (by simp)

theorem Block.Serving.arm : b.arm.Serving := by
  refine h.bookCommand fun k => ?_
  split
  · exact h.refuse _
  · exact h
  · exact h
  · exact h.refuse _
  next state => exact h.setEntry (by simp [state]) (by simp [state])

theorem Block.Serving.disarmBooking : b.disarmBooking.Serving := by
  refine h.bookCommand fun k => ?_
  split
  · exact h.refuse _
  next state => exact h.setEntry (by simp [state]) (by simp [state])
  next state => exact h.unqueue state (by decide) (by decide)
  next state =>
    split
    · exact h
    · exact h.setEntry (by simp) (by simp)
  · exact h

theorem Block.Serving.writeBkcmd (v : Word) : (b.writeBkcmd v).Serving := by
  unfold Block.writeBkcmd
  split_ifs
  · exact h.readBooking
  · exact h.book
  · exact h.unbook
  · exact h.arm
  · exact h.disarmBooking
  · exact h

/-- NQADV removes a record and no reservation (R178). -/
theorem Block.Serving.writeNqadv : b.writeNqadv.Serving := by
  unfold Block.writeNqadv
  split
  next r rest head =>
    have advanced : Block.Serving { b with ru := { b.ru with nq := rest } } := by
      obtain ⟨bound, count⟩ := h.slots
      rw [head] at bound count
      exact ⟨h.sound, ⟨(Nat.le_succ _).trans bound, by simpa using count⟩, h.posted⟩
    have chosen := advanced.choose
    dsimp only
    split
    · split
      · exact Block.attemptMark_serving _ (Block.attemptReservation_serving _ chosen)
      · exact Block.attemptReservation_serving _ (Block.attemptMark_serving _ chosen)
    · exact Block.attemptMark_serving _ (Block.attemptReservation_serving _ advanced)
  · exact h.refuse _
  · exact h.refuse _

/-! ### Every command -/

theorem Block.Serving.whenOperating {f : Block → Block} (kept : (f b).Serving) : (b.whenOperating f).Serving := by
  unfold Block.whenOperating
  split
  · exact kept
  · exact h.congr rfl rfl rfl rfl rfl

theorem Block.Serving.accessLdat {f held : Block → Block} (acts : ∀ {c : Block}, c.Serving → (f c).Serving)
    (ignores : ∀ {c : Block}, c.Serving → (held c).Serving) : (b.accessLdat f held).Serving := by
  have ignored : b.ignored.choose.2.Serving := h.congr rfl rfl rfl rfl rfl
  unfold Block.accessLdat
  split
  · exact acts h
  · split
    · dsimp only
      split
      · exact acts ignored
      · exact ignores ignored
    · exact ignores h

theorem Block.Serving.ignored : b.ignored.Serving := h.congr rfl rfl rfl rfl rfl

end Kept

/-- The entries of a soft reset (R166), station by station. -/
theorem Bu.entry_softReset {u v : Bu} (table : v.table = u.table.map Booking.softReset) (k : Nat) :
    v.entry k = (u.entry k).softReset := by
  cases k with
  | zero => rfl
  | succ n =>
    by_cases inside : n < 30
    · simp [Bu.entry, table, inside]
    · simp [Bu.entry, inside]; rfl

theorem Booking.softReset_state (e : Booking) : e.softReset.state ≠ .queued ∧ e.softReset.state ≠ .inService := by
  unfold Booking.softReset
  cases e.state <;> cases e.mark <;> simp

/-- A soft reset ends every service and leaves no station queued (R166). -/
theorem Block.softReset_serving (b : Block) : b.softReset.Serving := by
  refine (Evolves.lookAtn _).serving (Block.serving_of_resting rfl rfl rfl fun k => ?_)
  rw [Bu.entry_softReset (u := b.bu) rfl]
  exact Booking.softReset_state _

theorem Bu.reset_entry (k : Nat) : Bu.reset.entry k = Booking.blank := by
  cases k with
  | zero => rfl
  | succ n => by_cases inside : n < 30 <;> simp [Bu.reset, Bu.entry, inside]

theorem Block.hardReset_serving (b : Block) (hp : Hp) : (b.hardReset hp).Serving :=
  Block.serving_of_resting rfl rfl rfl fun k => by
    rw [show (b.hardReset hp).bu = Bu.reset from rfl, Bu.reset_entry]
    decide

section Kept

variable {b : Block} (h : b.Serving)
include h

theorem Block.Serving.endInit : b.endInit.Serving := by
  unfold Block.endInit
  split
  · exact h.congr rfl rfl rfl rfl rfl
  · exact h

theorem Block.Serving.writeCtl (v : Word) : (b.writeCtl v).Serving := by
  unfold Block.writeCtl
  split
  · exact b.softReset_serving
  · exact h.setSegen _ _

/-- A host write reaches a command, a register of the Booking Unit beside its table, or a register of another block. -/
theorem Block.Serving.hostWrite (addr : BitVec 6) (v : Word) : (b.hostWrite addr v).Serving := by
  unfold Block.hostWrite
  split
  · exact h.writeCtl v
  · exact h.writeNqadv
  · exact h.writeLock v
  · exact h.writeTim0 v
  · exact h.congr rfl rfl rfl rfl rfl
  · exact h.congr rfl rfl rfl rfl rfl
  · exact h.congr rfl rfl rfl rfl rfl
  · exact h.writeRoute _ v
  · exact h.writeRoute _ v
  · exact h.congr rfl rfl rfl rfl rfl
  · exact h.congr rfl rfl rfl rfl rfl
  · exact h.congr rfl rfl rfl rfl rfl
  · exact h.congr rfl rfl rfl rfl rfl
  · exact h.congr rfl rfl rfl rfl rfl
  · exact h.congr rfl rfl rfl rfl rfl
  · exact h.writeDcmd v
  · exact h.congr rfl rfl rfl rfl rfl
  · exact h.writeLdat v
  · exact h.congr rfl rfl rfl rfl rfl
  · exact h.writeLcmd v
  · exact h.writeOdat v
  · exact h.writeFcmd v
  · exact h.writeFmki v
  · exact h.congr rfl rfl rfl rfl rfl
  · exact h.congr rfl rfl rfl rfl rfl
  · exact h.writeSpan _ v
  · exact h.writeSpan _ v
  · exact h.writeSpctl _
  · exact h.congr rfl rfl rfl rfl rfl
  · exact h.congr rfl rfl rfl rfl rfl
  · exact h.congr rfl rfl rfl rfl rfl
  · exact h.congr rfl rfl rfl rfl rfl
  · exact h.congr rfl rfl rfl rfl rfl
  · exact h.congr rfl rfl rfl rfl rfl
  · exact h.congr rfl rfl rfl rfl rfl
  · exact h.congr rfl rfl rfl rfl rfl
  · exact h.congr rfl rfl rfl rfl rfl
  · exact h.congr rfl rfl rfl rfl rfl
  · exact h.writeBkcmd v
  · exact h

end Kept

/-- R157 and R173 behind every command, the hard resets among them. -/
theorem exec_serving (c : Instr) {s : State} (h : s.block.Serving) :
    ∃ b, exec c s = .next { s with block := b } ∧ b.Serving := by
  cases c with
  | powerOnReset => exact ⟨_, rfl, s.block.hardReset_serving _⟩
  | pinReset => exact ⟨_, rfl, s.block.hardReset_serving _⟩
  | initEnd => exact ⟨_, rfl, h.endInit⟩
  | resetRelease => exact ⟨_, rfl, h.congr rfl rfl rfl rfl rfl⟩
  | softReset => exact ⟨_, rfl, h.whenOperating s.block.softReset_serving⟩
  | segenSet => exact ⟨_, rfl, h.whenOperating (h.setSegen _ _)⟩
  | segenClear => exact ⟨_, rfl, h.whenOperating (h.setSegen _ _)⟩
  | censusNow segen => exact ⟨_, rfl, h.whenOperating (h.setSegen _ _)⟩
  | atnAsserted =>
    exact ⟨_, rfl, Block.Serving.tellAtn (b := { s.block with au := _ }) (h.congr rfl rfl rfl rfl rfl)⟩
  | atnReleased => exact ⟨_, rfl, h.congr rfl rfl rfl rfl rfl⟩
  | frameSent => exact ⟨_, rfl, h.whenOperating (h.frameSent _)⟩
  | replyEnd bits => exact ⟨_, rfl, h.whenOperating (h.replyEnd _ _)⟩
  | replyTimeout p => exact ⟨_, rfl, h.whenOperating (h.replyTimeout _)⟩
  | discardedReply => exact ⟨_, rfl, h.whenOperating h⟩
  | censusSlotsEnd slots => exact ⟨_, rfl, h.whenOperating (h.censusSlotsEnd _)⟩
  | gapEnd => exact ⟨_, rfl, h.whenOperating h.gapEnd⟩
  | tim0Write v => exact ⟨_, rfl, h.whenOperating (h.writeTim0 _)⟩
  | dcmdGo => exact ⟨_, rfl, h.whenOperating ((Evolves.listReadBehind _).serving h.directGo)⟩
  | dcmdAbort => exact ⟨_, rfl, h.whenOperating ((Evolves.directAbort _).serving h)⟩
  | persistExpiry o => exact ⟨_, rfl, h.whenOperating ((Evolves.expirePersist _ o).serving h)⟩
  | runStallExpiry o => exact ⟨_, rfl, h.whenOperating ((Evolves.expireRunStall _ o).serving h)⟩
  | runStallEnd o => exact ⟨_, rfl, h.whenOperating ((Evolves.wake _ o).serving h)⟩
  | odatWrite v => exact ⟨_, rfl, h.whenOperating (h.writeOdat _)⟩
  | idatRead =>
    refine ⟨_, rfl, ?_⟩
    unfold Block.whenReadable
    split
    · exact h.readIdat
    · exact h.congr rfl rfl rfl rfl rfl
  | flushOut => exact ⟨_, rfl, h.whenOperating ((Evolves.listReadBehind _).serving (h.flushFifo _))⟩
  | flushIn => exact ⟨_, rfl, h.whenOperating ((Evolves.listReadBehind _).serving (h.flushFifo _))⟩
  | fmkiWrite v => exact ⟨_, rfl, h.whenOperating (h.writeFmki _)⟩
  | fmkoWrite v => exact ⟨_, rfl, h.whenOperating (h.congr rfl rfl rfl rfl rfl)⟩
  | spanWrite reg v => exact ⟨_, rfl, h.whenOperating (h.writeSpan _ _)⟩
  | spanEnable => exact ⟨_, rfl, h.whenOperating (h.writeSpctl _)⟩
  | spanDisable => exact ⟨_, rfl, h.whenOperating (h.writeSpctl _)⟩
  | ldatRead => exact ⟨_, rfl, h.accessLdat (·.congr rfl rfl rfl rfl rfl) (·.congr rfl rfl rfl rfl rfl)⟩
  | ldatWrite v => exact ⟨_, rfl, h.accessLdat (·.writeLdat v) (·.ignored)⟩
  | lcmdStart => exact ⟨_, rfl, h.whenOperating h.listStart⟩
  | lcmdResume => exact ⟨_, rfl, h.whenOperating h.listResume⟩
  | lcmdAbort => exact ⟨_, rfl, h.whenOperating ((Evolves.listAbort _).serving h)⟩
  | markPostRetry => exact ⟨_, rfl, h.whenOperating ((Evolves.retryMark _ _).serving h)⟩
  | listClaimGranted => exact ⟨_, rfl, h.whenOperating ((Evolves.grantListClaim _).serving h)⟩
  | listStallExpiry => exact ⟨_, rfl, h.whenOperating ((Evolves.expireListStall _).serving h)⟩
  | pauseExpiry => exact ⟨_, rfl, h.whenOperating ((Evolves.expirePause _ _).serving h)⟩
  | holdoffExpiry => exact ⟨_, rfl, h.whenOperating h.expireHoldoff⟩
  | bkcmdRead => exact ⟨_, rfl, h.whenOperating h.readBooking⟩
  | bkcmdBook => exact ⟨_, rfl, h.whenOperating h.book⟩
  | bkcmdUnbook => exact ⟨_, rfl, h.whenOperating h.unbook⟩
  | bkcmdArm => exact ⟨_, rfl, h.whenOperating h.arm⟩
  | bkcmdDisarm => exact ⟨_, rfl, h.whenOperating h.disarmBooking⟩
  | reservationRetry => exact ⟨_, rfl, h.whenOperating (Block.retryReservation_serving _ h)⟩
  | nqadv => exact ⟨_, rfl, h.whenOperating h.writeNqadv⟩
  | cndWrite v => exact ⟨_, rfl, h.whenOperating (h.congr rfl rfl rfl rfl rfl)⟩
  | rteWrite reg v => exact ⟨_, rfl, h.whenOperating (h.writeRoute _ _)⟩
  | lenWrite v => exact ⟨_, rfl, h.whenOperating (h.congr rfl rfl rfl rfl rfl)⟩
  | lockWrite v => exact ⟨_, rfl, h.whenOperating (h.writeLock _)⟩
  | registerWrite addr v =>
    by_cases ldat : addr = 0x1C#6
    · exact ⟨_, if_pos ldat, h.accessLdat (·.writeLdat v) (·.ignored)⟩
    · exact ⟨_, if_neg ldat, h.whenOperating (h.hostWrite _ _)⟩
  | replyStart => exact ⟨_, rfl, h.whenOperating h.replyStart⟩
  | syncBreakOff => exact ⟨_, rfl, h.whenOperating h.syncBreakOff⟩

/-- Settles O54: `exec_serving` for the command at the front of the queue. -/
theorem serviceQueueStaysSound : Obligations.ServiceQueueStaysSound := by
  intro s t holds taken
  rw [← Block.serving_iff] at holds ⊢
  unfold step at taken
  split at taken
  next => cases taken; exact holds
  next c rest pending =>
    obtain ⟨b, answer, serving⟩ := exec_serving c (s := { s with pending := rest }) holds
    rw [answer] at taken
    cases taken
    exact serving

/-- Settles O60: the empty store, the empty FIFOs and queue, and a Booking Unit at rest. -/
theorem resetStateIsSound : Obligations.ResetStateIsSound := by
  have serving : State.reset.block.Serving := Block.serving_of_resting rfl rfl rfl fun k => by
    rw [show State.reset.block.bu = Bu.reset from rfl, Bu.reset_entry]
    decide
  obtain ⟨bounded, sound⟩ := (Block.serving_iff _).mp serving
  exact ⟨Memory.wf_nil, ⟨Fifo.reset_accounted, Fifo.reset_accounted⟩,
    Block.spilledAreSet_of_clear (b := State.reset.block) rfl,
    (fun (enabled : false = true) => nomatch enabled), ⟨rfl, rfl⟩, bounded, sound, rfl⟩

/-- Settles O1, by the definition of a step. -/
theorem stepRunsTheFrontCommand : Obligations.StepRunsTheFrontCommand :=
  ⟨fun c rest s pending => by unfold step; rw [pending], fun s pending => by unfold step; rw [pending]⟩

end Sys2Proof.Machine

/-! The host's commands to the Span Decoder (chapter 4): what the enable check answers, and what each write of SPBND, SPMAP
and SPCTL does, by the lock and by EN. -/

namespace Sys2Proof.Machine

/-- A command that acts only on an operating part answers what its operation leaves. -/
theorem answers_operating {c : Instr} {b : Block} {q : List Instr} {f : Block → Block} (operates : b.operating = true)
    (meaning : exec c ⟨b, q⟩ = State.become (Block.whenOperating f) ⟨b, q⟩) : Answers c ⟨b, q⟩ (f b) := by
  have answer : Answers c ⟨b, q⟩ (b.whenOperating f) := answers_become meaning
  rwa [Block.whenOperating_of operates] at answer

theorem Block.lockedWrite_of_clear {b : Block} (clear : b.hp.lock = false) (f : Block → Block) : b.lockedWrite f = f b := by
  simp [Block.lockedWrite, clear]

theorem Block.lockedWrite_of_set {b : Block} (set : b.hp.lock = true) (f : Block → Block) :
    b.lockedWrite f = b.setCondition .lockw := by
  simp [Block.lockedWrite, set]

/-! ### The enable check (R70) -/

/-- The index of the first span counts on through the list. -/
theorem checkFrom_index (lower k : Nat) (spans : List Span) :
    checkFrom lower k spans = (checkFrom lower 0 spans).map (k + ·) := by
  induction spans generalizing lower k with
  | nil => rfl
  | cons sp rest ih =>
    unfold checkFrom
    split
    · rfl
    · rw [ih _ (k + 1), ih _ (0 + 1), Option.map_map]
      exact congrArg (Option.map · _) (funext fun i => by simp only [Function.comp]; omega)

/-- The check passes a list of which no span fails above its lower boundary. -/
theorem checkFrom_eq_none_iff {lower k : Nat} {spans : List Span} :
    checkFrom lower k spans = none ↔
      ∀ i (h : i < spans.length), spans[i].fails (lowerBoundary lower spans i) = false := by
  induction spans generalizing lower k with
  | nil => simp [checkFrom]
  | cons sp rest ih =>
    rw [checkFrom_cons_eq_none_iff, ih]
    constructor
    · rintro ⟨first, others⟩ (_ | i) h
      · simpa using first
      · simpa using others i (Nat.lt_of_succ_lt_succ h)
    · exact fun all => ⟨all 0 (Nat.succ_pos _), fun i h => all (i + 1) (Nat.succ_lt_succ h)⟩

/-- The check names the lowest span that fails above its lower boundary. -/
theorem checkFrom_eq_some_iff {lower : Nat} {spans : List Span} {i : Nat} (h : i < spans.length) :
    checkFrom lower 0 spans = some i ↔
      spans[i].fails (lowerBoundary lower spans i) = true ∧
      ∀ j (hj : j < i), spans[j].fails (lowerBoundary lower spans j) = false := by
  induction spans generalizing lower i with
  | nil => cases h
  | cons sp rest ih =>
    cases first : sp.fails lower with
    | true =>
      have answer : checkFrom lower 0 (sp :: rest) = some 0 := if_pos first
      rw [answer]
      cases i with
      | zero => simp [first]
      | succ i => exact ⟨fun e => by simp at e, fun ⟨_, below⟩ => by simpa [first] using below 0 i.succ_pos⟩
    | false =>
      have answer : checkFrom lower 0 (sp :: rest) = (checkFrom sp.upper 0 rest).map (1 + ·) :=
        (if_neg (by simp [first])).trans (checkFrom_index ..)
      rw [answer]
      cases i with
      | zero => simp [first]
      | succ i =>
        have later := ih (lower := sp.upper) (Nat.lt_of_succ_lt_succ h)
        have shifted : (checkFrom sp.upper 0 rest).map (1 + ·) = some (i + 1) ↔ checkFrom sp.upper 0 rest = some i := by
          simp [Nat.add_comm 1]
        rw [shifted, later]
        refine and_congr (by simp) ⟨fun below j hj => ?_, fun below j hj => ?_⟩
        · cases j with
          | zero => simpa using first
          | succ j => simpa using below j (Nat.lt_of_succ_lt_succ hj)
        · simpa using below (j + 1) (Nat.succ_lt_succ hj)

/-- The three tests of R70, as the statement writes them. -/
theorem Span.fails_iff {lower : Nat} {sp : Span} : sp.fails lower = true ↔
    sp.upper < lower ∨ (lower < sp.upper ∧ (sp.station = 0 ∨ sp.station = 31)) ∨
      (lower < sp.upper ∧ 64 < sp.base.toNat + (sp.upper - lower)) := by
  simp [Span.fails, and_or_left, or_assoc]

/-- Settles O38: the tests of each span are those of `Span.fails` above its lower boundary. -/
theorem enableCheckNamesTheLowestFailure : Obligations.EnableCheckNamesTheLowestFailure := by
  intro d lower failing hlower hfailing
  have tests : ∀ k : Fin 8, failing k ↔ d.spans[k].fails (lowerBoundary 0 d.spans.toList k) = true := fun k => by
    rw [hfailing, hlower, ← d.lowerBoundary_eq, Span.fails_iff]
  refine ⟨fun k => ?_, ?_⟩
  · unfold Sd.check
    rw [checkFrom_eq_some_iff (by simp), tests]
    refine and_congr (by simp) ⟨fun below j hj => ?_, fun below j hj => ?_⟩
    · rw [tests]
      simpa using below j hj
    · have := below ⟨j, hj.trans k.isLt⟩ hj
      rw [tests] at this
      simpa using this
  · unfold Sd.check
    rw [checkFrom_eq_none_iff]
    constructor
    · intro none k
      rw [tests]
      simpa using none k (by simp)
    · intro none i h
      have := none ⟨i, by simpa using h⟩
      rw [tests] at this
      simpa using this

/-! ### Writes of the span registers (R67) -/

/-- Settles O35: the write replaces one element of the table. -/
theorem spanWritesSetTheSelectedSpan : Obligations.SpanWritesSetTheSelectedSpan := by
  intro b q reg v operates clear
  have answer : Answers (.spanWrite reg v) ⟨b, q⟩ (b.writeSpan reg v) :=
    answers_operating (f := fun b => b.writeSpan reg v) operates rfl
  rw [Block.writeSpan, Block.lockedWrite_of_clear clear] at answer
  refine ⟨fun en => ?refused, fun en => ?stored⟩
  case refused => simpa [en] using answer
  case stored =>
    simp only [en] at answer
    refine ⟨_, answer, rfl, ?_, fun k other => ?_⟩
    · cases reg <;> simp [Sd.selected, Sd.setSelected, spanField, boundStored]
    · simp [Sd.setSelected, Ne.symm other]

/-! ### Writes of SPCTL (R71, R72) -/

theorem Block.enableSpans_of_enabled {b : Block} (en : b.sd.en = true) : b.enableSpans = b := if_pos en

/-- The enable of a disabled decoder goes by the check. -/
theorem Block.enableSpans_of_disabled {b : Block} (en : b.sd.en = false) : b.enableSpans =
    match b.sd.check with
    | none => { b with sd := { b.sd with en := true, bad := none } }
    | some k => ({ b with sd := { b.sd with bad := some k } }).refuse .spanInvalid := if_neg (by simp [en])

theorem exec_registerWrite_spctl (s : State) (v : Word) :
    exec (.registerWrite 0x2E#6 v) s = if v.bit 0 then exec .spanEnable s else exec .spanDisable s := by
  have meaning : exec (.registerWrite 0x2E#6 v) s = s.become (Block.whenOperating fun b => b.writeSpctl (v.bit 0)) := rfl
  rw [meaning]
  cases v.bit 0 <;> rfl

/-- Settles O36: the enable by lock, EN and check; a write to the register goes by its EN bit. -/
theorem spanEnableAndDisable : Obligations.SpanEnableAndDisable := by
  refine ⟨fun b q operates => ?_, exec_registerWrite_spctl⟩
  have enable : Answers .spanEnable ⟨b, q⟩ (b.writeSpctl true) :=
    answers_operating (f := fun b => b.writeSpctl true) operates rfl
  have disable : Answers .spanDisable ⟨b, q⟩ (b.writeSpctl false) :=
    answers_operating (f := fun b => b.writeSpctl false) operates rfl
  refine ⟨fun set => ?locked, fun clear => ?unlocked⟩
  case locked =>
    rw [Block.writeSpctl, Block.lockedWrite_of_set set] at enable disable
    exact ⟨enable, disable⟩
  case unlocked =>
    rw [Block.writeSpctl, Block.lockedWrite_of_clear clear] at enable disable
    simp only [if_true] at enable
    refine ⟨fun en passes => ?_, fun k en fails => ?_, fun en => ?_, fun _ => disable, fun en => ?_⟩
    · simpa [Block.enableSpans_of_disabled en, passes] using enable
    · simpa [Block.enableSpans_of_disabled en, fails] using enable
    · rwa [Block.enableSpans_of_enabled en] at enable
    · have same : ({ b with sd := { b.sd with en := false } } : Block) = b := by rw [← en]
      exact same ▸ disable

end Sys2Proof.Machine

/-! The host's commands to the Booking Unit (chapter 9): READ, BOOK, UNBOOK and DISARM by the station that BKSEL names and
by the state of its entry. -/

namespace Sys2Proof.Machine

theorem Block.bookCommand_refused {b : Block} (bad : b.bu.bksel = 0 ∨ b.bu.bksel = 31)
    (f : Nat → Booking → Block → Block) : b.bookCommand f = b.refuse .badStation := if_pos bad

/-! ### The words of the staging registers (section 11.7) -/

theorem BookClass.ofCode_code (cls : BookClass) : BookClass.ofCode cls.code = some cls := by cases cls <;> rfl

theorem Verb.ofCode_code (verb : Verb) : Verb.ofCode verb.code = verb := by cases verb <;> rfl

theorem Verb.ofCode_eq_store (c : BitVec 2) : Verb.ofCode c = .store ↔ c = 1 := by
  revert c; decide

theorem Action.verbCell_verb (a : Action) : a.verbCell.field 14 2 = a.verb.code := by
  ext i h
  interval_cases i <;> simp [Action.verbCell, place]

theorem Action.verbCell_cell (a : Action) : a.verbCell.field 0 12 = a.cell := by
  ext i h
  have inside : i < 16 := by omega
  simp [Action.verbCell, place, inside, h]
  omega

theorem Booking.countWord_count (e : Booking) : e.countWord.field 0 8 = e.count := by
  ext i h
  have inside : i < 16 := by omega
  simp [Booking.countWord, place, inside, h]
  omega

theorem Booking.countWord_state (e : Booking) : e.countWord.field 8 3 = e.state.code := by
  ext i h
  interval_cases i <;> simp [Booking.countWord, place]

theorem Booking.countWord_mark (e : Booking) : e.countWord.field 12 2 = e.mark.code := by
  ext i h
  interval_cases i <;> simp [Booking.countWord, place]

/-! ### READ (R150, R151) -/

/-- A command of BKCMD is refused where BKSEL names no station. -/
theorem answers_bookCommand_refused {c : Instr} {b : Block} {q : List Instr} {f : Nat → Booking → Block → Block}
    (operates : b.operating = true) (bad : b.bu.bksel = 0 ∨ b.bu.bksel = 31)
    (meaning : exec c ⟨b, q⟩ = State.become (Block.whenOperating (Block.bookCommand f)) ⟨b, q⟩) :
    Answers c ⟨b, q⟩ (b.refuse .badStation) := by
  rw [← Block.bookCommand_refused bad f]
  exact answers_operating operates meaning

theorem Block.readBooking_of_station {b : Block} {e : Booking} (h0 : b.bu.bksel ≠ 0) (h31 : b.bu.bksel ≠ 31)
    (entry : e = b.bu.entry b.bu.bksel.toNat) :
    b.readBooking = { b with bu := { b.bu with
      bkcls := e.cls.code, bka1v := e.clear.verbCell, bka1d := e.clear.data, bka2v := e.disarm.verbCell,
      bka2d := e.disarm.data, bktag := e.tag, bkcnt := e.countWord } } := by
  subst entry
  exact Block.bookCommand_of_station h0 h31 _

/-- Settles O48: the refusal, and the fields of the words that a READ stages. -/
theorem bookingReadAndBadStation : Obligations.BookingReadAndBadStation := by
  intro b q e operates entry
  refine ⟨fun c command bad => ?refused, fun h0 h31 => ?read⟩
  case refused =>
    simp only [List.mem_cons, List.not_mem_nil, or_false] at command
    rcases command with rfl | rfl | rfl | rfl | rfl <;> exact answers_bookCommand_refused operates bad rfl
  case read =>
    have answer := answers_operating (c := .bkcmdRead) (q := q) (f := fun b => b.readBooking) operates rfl
    simp only [Block.readBooking_of_station h0 h31 entry] at answer
    refine ⟨_, answer, rfl, BookClass.ofCode_code _, ?_, e.clear.verbCell_cell, rfl, ?_, e.disarm.verbCell_cell, rfl, rfl,
      e.countWord_count, e.countWord_state, e.countWord_mark⟩
    · exact (congrArg Verb.ofCode e.clear.verbCell_verb).trans (Verb.ofCode_code _)
    · exact (congrArg Verb.ofCode e.disarm.verbCell_verb).trans (Verb.ofCode_code _)

/-! ### Writing the entry of a station -/

/-- A command that writes the entry of a station leaves that entry as written, and nothing else in the part changes. -/
theorem answers_setEntry {c : Instr} {b : Block} {q : List Instr} {k : Nat} {e : Booking} (hk : isStation k)
    (answer : Answers c ⟨b, q⟩ { b with bu := b.bu.setEntry k e }) :
    ∃ b', Answers c ⟨b, q⟩ b' ∧ b' = { b with bu := { b.bu with table := b'.bu.table } } ∧
      b'.bu.entry k = e ∧ ∀ j, j ≠ k → b'.bu.entry j = b.bu.entry j :=
  ⟨_, answer, congrArg (fun u => { b with bu := u }) (Bu.setEntry_eq_table _ _ _), Bu.entry_setEntry_same _ _ _ hk,
    fun _ other => Bu.entry_setEntry_other _ _ _ _ other⟩

/-! ### BOOK (R152) -/

theorem stagedAction_eq (v d : Word) : stagedAction v d =
    { verb := Verb.ofCode (v.field 14 2), cell := v.field 0 12, data := if v.field 14 2 = 1 then d else 0 } := by
  simp only [stagedAction, Verb.ofCode_eq_store]

section Book

variable {b : Block} (h0 : b.bu.bksel ≠ 0) (h31 : b.bu.bksel ≠ 31)
include h0 h31

theorem Block.book_of_busy (busy : (b.bu.entry b.bu.bksel.toNat).state = .queued ∨
    (b.bu.entry b.bu.bksel.toNat).state = .inService) : b.book = b.refuse .bookingBusy :=
  (Block.bookCommand_of_station h0 h31 _).trans (if_pos busy)

theorem Block.book_of_badClass (queued : (b.bu.entry b.bu.bksel.toNat).state ≠ .queued)
    (inService : (b.bu.entry b.bu.bksel.toNat).state ≠ .inService) (staged : b.bu.stagedBooking = none) :
    b.book = b.refuse .badClass := by
  simp [Block.book, Block.bookCommand_of_station h0 h31, queued, inService, staged]

theorem Block.book_of_staged {e : Booking} (queued : (b.bu.entry b.bu.bksel.toNat).state ≠ .queued)
    (inService : (b.bu.entry b.bu.bksel.toNat).state ≠ .inService) (staged : b.bu.stagedBooking = some e) :
    b.book = { b with bu := b.bu.setEntry b.bu.bksel.toNat e } := by
  simp [Block.book, Block.bookCommand_of_station h0 h31, queued, inService, staged]

end Book

/-- Settles O49, by the state of the entry and by the staged class and actions. -/
theorem bookWritesTheEntry : Obligations.BookWritesTheEntry := by
  rintro b q _ _ a1 a2 operates h0 h31 rfl rfl first second
  rw [← stagedAction_eq] at first second
  have answer := answers_operating (c := .bkcmdBook) (q := q) (f := fun b => b.book) operates rfl
  refine ⟨fun busy => ?busy, fun queued inService => ⟨fun bad => ?badClass, fun cls clear disarm staging => ?booked⟩⟩
  case busy => rwa [Block.book_of_busy h0 h31 busy] at answer
  case badClass =>
    have staged : b.bu.stagedBooking = none := by
      rcases bad with cls | ⟨cls | cls, unused⟩ | ⟨cls, unused⟩ <;> simp_all [Bu.stagedBooking, BookClass.ofCode]
    rwa [Block.book_of_badClass h0 h31 queued inService staged] at answer
  case booked =>
    have staged : b.bu.stagedBooking = some { state := .armed, cls := cls, clear := clear, disarm := disarm
                                              tag := b.bu.bktag, count := 0, mark := .noMark } := by
      rcases staging with ⟨code, rfl, rfl, rfl⟩ | ⟨code, rfl, rfl, rfl, used⟩ | ⟨code, rfl, rfl, rfl, used, used'⟩ <;>
        simp_all [Bu.stagedBooking, BookClass.ofCode]
    simp only [Block.book_of_staged h0 h31 queued inService staged] at answer
    exact answers_setEntry (station_bounds h0 h31) answer

/-! ### UNBOOK and DISARM (R153, R155) -/

theorem Bu.setEntry_entry (u : Bu) (k : Nat) : u.setEntry k (u.entry k) = u := by
  match k with
  | 0 => rfl
  | n + 1 =>
    have same : u.table.setIfInBounds n (u.entry (n + 1)) = u.table := by
      ext i hi
      rw [Vector.getElem_setIfInBounds]
      split
      · next at_ => subst at_; simp [Bu.entry, hi]
      · rfl
    exact congrArg (fun table => { u with table := table }) same

/-- What UNBOOK and DISARM leave of an entry, by its state; `goal` and `mark` are the command's own. -/
theorem answers_unbookOrDisarm {b : Block} {c : Instr} {goal : BookState} {mark : PendingMark} {k : Nat} {e : Booking}
    (q : List Instr) (operates : b.operating = true) (h0 : b.bu.bksel ≠ 0) (h31 : b.bu.bksel ≠ 31)
    (station : k = b.bu.bksel.toNat) (entry : e = b.bu.entry k)
    (command : (c = .bkcmdUnbook ∧ goal = .unbooked ∧ mark = .unbook) ∨
      (c = .bkcmdDisarm ∧ goal = .disarmed ∧ mark = .disarm)) :
    Answers c ⟨b, q⟩
      (match e.state with
        | .unbooked => if c = .bkcmdDisarm then b.refuse .notBooked else b
        | .armed => { b with bu := b.bu.setState k goal }
        | .disarmed => if goal = .unbooked then { b with bu := b.bu.setState k goal } else b
        | .queued => { b with bu := (b.bu.dequeue k).setState k goal }
        | .inService =>
          { b with bu := b.bu.setEntry k { e with mark := if e.mark = .unbook then .unbook else mark } }) := by
  subst station entry
  rcases command with ⟨rfl, rfl, rfl⟩ | ⟨rfl, rfl, rfl⟩
  case inl =>
    have answer := answers_operating (c := .bkcmdUnbook) (q := q) (f := fun b => b.unbook) operates rfl
    simp only [Block.unbook, Block.bookCommand_of_station h0 h31] at answer
    cases state : (b.bu.entry b.bu.bksel.toNat).state <;> simpa [state] using answer
  case inr =>
    have answer := answers_operating (c := .bkcmdDisarm) (q := q) (f := fun b => b.disarmBooking) operates rfl
    simp only [Block.disarmBooking, Block.bookCommand_of_station h0 h31] at answer
    cases state : (b.bu.entry b.bu.bksel.toNat).state with
    | inService =>
      cases marked : (b.bu.entry b.bu.bksel.toNat).mark with
      | unbook =>
        have kept : { b.bu.entry b.bu.bksel.toNat with state := .inService, mark := .unbook } =
            b.bu.entry b.bu.bksel.toNat := by rw [← marked, ← state]
        simpa [state, marked, kept, Bu.setEntry_entry] using answer
      | noMark | disarm => simpa [state, marked] using answer
    | _ => simpa [state] using answer

/-- Settles O51, by the state of the entry; a marker that UNBOOK has set stays. -/
theorem unbookAndDisarm : Obligations.UnbookAndDisarm := by
  intro b q k e c goal mark operates h0 h31 station entry command
  have answer := answers_unbookOrDisarm q operates h0 h31 station entry command
  have hk : isStation k := station ▸ station_bounds h0 h31
  refine ⟨fun state => ?unbooked, fun state => ?leaves, fun state same => ?disarmed, fun state => ?queued,
    fun state => ?inService⟩
  case unbooked => simpa only [state] using answer
  case leaves =>
    rcases state with state | ⟨state, rfl⟩
    · simp only [state, Bu.setState, ← entry] at answer
      exact answers_setEntry hk answer
    · simp only [state, Bu.setState, ← entry, if_true] at answer
      exact answers_setEntry hk answer
  case disarmed => simpa [state, same] using answer
  case queued =>
    have kept : (b.bu.dequeue k).entry k = e := by rw [entry]; cases k <;> rfl
    simp only [state, Bu.setState, kept] at answer
    refine ⟨_, answer, ?_, Bu.entry_setEntry_same _ _ _ hk, fun j other => ?_⟩
    · exact congrArg (fun u => { b with bu := u }) (Bu.setEntry_eq_table _ _ _)
    · exact (Bu.entry_setEntry_other _ _ _ _ other).trans (by cases j <;> rfl)
  case inService =>
    simp only [state] at answer ⊢
    exact answers_setEntry hk answer

end Sys2Proof.Machine

/-! The service sequence of the Booking Unit (sections 9.4 and 10.3): the retried reservation, and what a reply to a
service's action leads to. -/

namespace Sys2Proof.Machine

/-! ### The reservation (R160) -/

/-- While a service is under way no other starts (R159). -/
theorem Block.startServices_busy {b : Block} (busy : b.bu.ctx ≠ .idle) : b.startServices = b :=
  Block.startUpTo_stays _ (by simp [Block.serviceReady, busy])

theorem Block.retryReservation_of_full {b : Block} (reserving : b.bu.ctx = .reserving) (full : 16 ≤ b.ru.nq.length) :
    b.retryReservation = b := by
  have stays : b.tryReserve = b := if_neg (by simpa [Ru.hasFree] using full)
  unfold Block.retryReservation
  rw [if_pos reserving, stays]
  exact Block.startServices_busy (by simp [reserving])

theorem Block.retryReservation_of_free {b : Block} (reserving : b.bu.ctx = .reserving) (free : b.ru.nq.length < 16) :
    b.retryReservation = b.slotReserved.beginActions.startServices := by
  have reserves : b.tryReserve = b.slotReserved.beginActions := if_pos (by simpa [Ru.hasFree] using free)
  unfold Block.retryReservation
  rw [if_pos reserving, reserves]

/-- With SEGEN at 1 a service that posts an action is under way, and no other starts behind it. -/
theorem Block.postAction_startServices {b : Block} {ctx : SvcState} (a : Action) (segen : b.sm.segen = true)
    (acts : ctx ≠ .idle) : (b.postAction ctx a).startServices = b.postAction ctx a :=
  Block.startServices_busy (by rwa [Block.postAction_ctx segen])

/-- The posted action waits unless the Segment Master is IDLE (R21). -/
theorem Block.postAction_waits {b : Block} {ctx : SvcState} {a : Action} (segen : b.sm.segen = true)
    (busy : b.sm.phase ≠ .idle) : b.postAction ctx a =
      { b with
        bu := { b.bu with ctx := ctx }
        sm := { b.sm with pendService := some (serviceRequest b.bu.tim2 b.bu.station a) } } :=
  (Block.postAction_posted segen).1 busy

/-- With SEGEN at 0 the action is answered OFFLINE, and the service ends with it (R164). -/
theorem Block.postAction_offline {b : Block} {ctx : SvcState} (a : Action) (off : b.sm.segen = false) :
    b.postAction ctx a = Block.finishService { b with bu := { b.bu with ctx := ctx } } .offline :=
  if_neg (by simp [off])

theorem Block.retryReservation_posts {b : Block} (reserving : b.bu.ctx = .reserving) (free : b.ru.nq.length < 16)
    (acts : (b.bu.entry b.bu.station).cls ≠ .notify) (segen : b.sm.segen = true) :
    b.slotReserved.ActionPosted .action1 (b.bu.entry b.bu.station).clear b.retryReservation := by
  rw [Block.retryReservation_of_free reserving free, b.slotReserved.beginActions_acts acts,
    Block.postAction_startServices (b := b.slotReserved) _ segen (by decide)]
  exact Block.postAction_posted (b := b.slotReserved) segen

/-- Settles O52, by the free slot, the class and SEGEN; the written-out state is that of a request which waits. -/
theorem reservationPostsTheClearAction : Obligations.ReservationPostsTheClearAction := by
  rintro b q e operates reserving rfl
  have answer := answers_operating (c := .reservationRetry) (q := q) (f := fun b => b.retryReservation) operates rfl
  refine ⟨fun full => ?full, fun free acts segen busy => ?waits,
    fun free acts segen => ⟨_, answer, Block.retryReservation_posts reserving free acts segen⟩,
    fun free acts off => ?offline, fun free notify => ?notify⟩
  case full => simpa only [Block.retryReservation_of_full reserving full] using answer
  case waits =>
    rwa [(Block.retryReservation_posts reserving free acts segen).1 busy] at answer
  case offline =>
    simp only [Block.retryReservation_of_free reserving free] at answer
    exact ⟨_, answer, fun _ => ⟨_, (b.slotReserved.beginActions_cases.2 acts).2 off, Block.startServices_starts _⟩⟩
  case notify =>
    simp only [Block.retryReservation_of_free reserving free] at answer
    exact ⟨_, answer, fun _ => ⟨_, b.slotReserved.beginActions_cases.1 notify, Block.startServices_starts _⟩⟩

/-! ### The end of a reply (R4, R15) -/

/-- The outcomes that a reply can have (R4). -/
theorem judgeReply_ending {verb : Verb} {bits : List Bool} {e : Ending} {v : Word}
    (judged : judgeReply verb bits = (e, v)) : e = .done ∨ e = .wait ∨ e = .refused ∨ e = .corrupt := by
  unfold judgeReply at judged
  dsimp only at judged
  split_ifs at judged <;> cases judged <;> simp

/-- A reply that is not CORRUPT takes the Segment Master into the inter-frame gap, and its outcome is delivered. -/
theorem answers_replyEnd {b : Block} {w : WordTx} {bits : List Bool} {e : Ending} {v : Word} (q : List Instr)
    (operates : b.operating = true) (phase : b.sm.phase = .await) (tx : b.sm.tx = some (.word w))
    (judged : judgeReply w.verb bits = (e, v)) (taken : e ≠ .corrupt) :
    Answers (.replyEnd bits) ⟨b, q⟩ ((b.replied w e).deliver w.client e v (State.accessBehind ⟨b, q⟩)) := by
  have answer := answers_operating (c := .replyEnd bits) (q := q)
    (f := fun b' => b'.replyEnd bits (State.accessBehind ⟨b, q⟩)) operates rfl
  simp only [Block.replyEnd, Block.onAwait, phase, tx, judged] at answer
  rcases judgeReply_ending judged with rfl | rfl | rfl | rfl
  · exact answer
  · exact answer
  · exact answer
  · exact absurd rfl taken

/-! ### A reply to a service's action (R161 to R164) -/

section Reply

variable {b : Block} {e : Ending} {v : Word} {value : Option Word}
  (kept : value = if b.bu.ctx = .action1 ∧ e = .done ∧ (b.bu.entry b.bu.station).clear.verb = .fetch then some v
    else b.bu.value)
include kept

/-- A DONE to a ONCE booking's clear action goes on to the disarm action, with a fetched value kept. -/
theorem Block.applyAction_once (ctx : b.bu.ctx = .action1) (once : (b.bu.entry b.bu.station).cls = .once)
    (done : e = .done) : b.applyAction e v =
      Block.postAction { b with bu := { b.bu with value := value } } .action2 (b.bu.entry b.bu.station).disarm := by
  unfold Block.applyAction
  simp only [ctx, once, done, kept, if_true, true_and]
  split <;> rfl

/-- Any other reply to an action ends the service with its outcome. -/
theorem Block.applyAction_ends
    (ends : (b.bu.ctx = .action1 ∧ ((b.bu.entry b.bu.station).cls = .repeat ∨ e ≠ .done)) ∨ b.bu.ctx = .action2) :
    b.applyAction e v = Block.finishService { b with bu := { b.bu with value := value } } e := by
  unfold Block.applyAction
  rcases ends with ⟨ctx, ends⟩ | ctx
  · by_cases done : e = .done
    · have cls := ends.resolve_right (not_not.mpr done)
      simp only [ctx, cls, done, kept, if_true, true_and]
      split <;> rfl
    · have same : value = b.bu.value := by simp [kept, done]
      subst same
      simp only [ctx, done, if_false]
      rfl
  · have same : value = b.bu.value := by simp [kept, ctx]
    subst same
    simp only [ctx]
    rfl

theorem Block.serviceOutcome_posts (ctx : b.bu.ctx = .action1) (once : (b.bu.entry b.bu.station).cls = .once)
    (done : e = .done) (segen : b.sm.segen = true) (busy : b.sm.phase ≠ .idle) : b.serviceOutcome e v =
      { b with
        bu := { b.bu with ctx := .action2, value := value }
        sm := { b.sm with
          pendService := some (serviceRequest b.bu.tim2 b.bu.station (b.bu.entry b.bu.station).disarm) } } := by
  let fetched : Block := { b with bu := { b.bu with value := value } }
  unfold Block.serviceOutcome
  rw [Block.applyAction_once kept ctx once done, Block.postAction_startServices (b := fetched) _ segen (by decide)]
  exact Block.postAction_waits (b := fetched) segen busy

theorem Block.serviceOutcome_offline (ctx : b.bu.ctx = .action1) (once : (b.bu.entry b.bu.station).cls = .once)
    (done : e = .done) (off : b.sm.segen = false) : b.ServiceOver .offline value (b.serviceOutcome e v) := by
  let fetched : Block := { b with bu := { b.bu with value := value } }
  unfold Block.serviceOutcome
  rw [Block.applyAction_once kept ctx once done, Block.postAction_offline (b := fetched) _ off]
  exact Block.finishService_over { fetched with bu := { fetched.bu with ctx := .action2 } } .offline

theorem Block.serviceOutcome_ends
    (ends : (b.bu.ctx = .action1 ∧ ((b.bu.entry b.bu.station).cls = .repeat ∨ e ≠ .done)) ∨ b.bu.ctx = .action2) :
    b.ServiceOver e value (b.serviceOutcome e v) := by
  unfold Block.serviceOutcome
  rw [Block.applyAction_ends kept ends]
  exact Block.finishService_over { b with bu := { b.bu with value := value } } e

end Reply

/-- Settles O53: a DONE to the clear action of a ONCE booking, by SEGEN, and every reply that ends the service. -/
theorem servicePostsItsRecord : Obligations.ServicePostsItsRecord := by
  rintro b q w bits e v _ value operates phase tx client judged taken rfl kept
  have answer := answers_replyEnd q operates phase tx judged taken
  simp only [client, Block.deliver] at answer
  refine ⟨fun ctx once done => ⟨fun segen => ?posted, fun off => ?offline⟩, fun ends => ?ends⟩
  case posted =>
    rwa [Block.serviceOutcome_posts (b := b.replied w e) kept ctx once done segen (by simp [Block.replied])] at answer
  case offline => exact ⟨_, answer, Block.serviceOutcome_offline (b := b.replied w e) kept ctx once done off⟩
  case ends => exact ⟨_, answer, Block.serviceOutcome_ends (b := b.replied w e) kept ends⟩

end Sys2Proof.Machine

/-! The Report Unit (chapter 10): what an event of a condition leaves, the writes of CND and LEN, and NQADV. -/

namespace Sys2Proof.Machine

/-! ### An event of a condition whose flag is clear, by its route and the free slots (R167, R176) -/

section Event

variable {r : Ru} {c : Condition} (clear : r.flag c = false)
include clear

theorem Ru.setCondition_of_route (route : r.route c ≠ .queue) :
    r.setCondition c = { r with flags := r.flags ||| c.mask } := by
  simp [Ru.setCondition, clear, route]

theorem Ru.setCondition_of_free (route : r.route c = .queue) (free : r.nq.length < 16) : r.setCondition c =
    { r with flags := r.flags ||| c.mask, nq := r.nq ++ [.occupied (.condition c)] } := by
  simp [Ru.setCondition, clear, route, Ru.hasFree, free, Ru.join]

theorem Ru.setCondition_of_full (route : r.route c = .queue) (full : 16 ≤ r.nq.length) : r.setCondition c =
    { r with flags := r.flags ||| c.mask, spills := r.spills ||| c.mask } := by
  simp [Ru.setCondition, clear, route, Ru.hasFree, Nat.not_lt.mpr full]

end Event

/-- An event changes the flags, the spill marks and the queue alone. -/
theorem Ru.setCondition_frame (r : Ru) (c : Condition) : r.setCondition c =
    { r with flags := (r.setCondition c).flags, spills := (r.setCondition c).spills, nq := (r.setCondition c).nq } := by
  unfold Ru.setCondition
  split_ifs <;> rfl

/-- Settles O55, by the flag, the route and the free slots. -/
theorem conditionsSetPostAndSpill : Obligations.ConditionsSetPostAndSpill := by
  intro b c
  refine ⟨fun set => ?set, fun clear => ⟨b.ru.setCondition c, ?frame, fun d => Ru.setCondition_flag _ c d,
    fun route => ?elsewhere, fun route free => ?posted, fun route full => ?spilled⟩, fun _ => rfl⟩
  case set => exact congrArg (fun r => { b with ru := r }) (Ru.setCondition_of_flag set)
  case frame => exact congrArg (fun r => { b with ru := r }) (Ru.setCondition_frame _ c)
  case elsewhere => rw [Ru.setCondition_of_route clear route]; exact ⟨rfl, rfl⟩
  case posted => rw [Ru.setCondition_of_free clear route free]; exact ⟨rfl, rfl⟩
  case spilled =>
    rw [Ru.setCondition_of_full clear route full]
    exact ⟨rfl, fun d => by simp [Ru.spilled, Condition.mask_getLsbD]⟩

/-! ### CND and LEN (R168, R171) -/

theorem Condition.number_lt (c : Condition) : c.number < 9 := by cases c <;> decide

/-- A flag or a mark stays set where CND is written with 0. -/
theorem Condition.keep_getLsbD (marks : BitVec 9) (v : Word) (c : Condition) :
    (marks &&& ~~~ (v.field 0 9)).getLsbD c.number = (marks.getLsbD c.number && !v.bit c.number) := by
  simp [c.number_lt]

/-- Settles O57. -/
theorem cndAndLenWrites : Obligations.CndAndLenWrites := by
  intro b q v operates
  refine ⟨⟨(b.writeCnd v).ru, answers_operating (f := fun b => b.writeCnd v) operates rfl, fun c => ?_⟩,
    answers_operating (f := fun b => b.writeLen v) operates rfl⟩
  exact ⟨Condition.keep_getLsbD _ v c, Condition.keep_getLsbD _ v c⟩

/-! ### NQADV and the producers that wait (R160, R175, R178) -/

/-- Nothing outside the Booking Unit changes a queue that is full. -/
theorem Evolves.nq_of_full {a b : Block} (h : Evolves a b) : 16 ≤ a.ru.nq.length → b.ru.nq = a.ru.nq := by
  induction h with
  | trans _ _ first second => exact fun full => (second (by rw [first full]; exact full)).trans (first full)
  | join | leave | claim => intro _; simp
  | condition b c =>
    intro full
    rcases b.ru.setCondition_nq c with same | ⟨free, -⟩
    · exact same
    · omega
  | record b r free => exact fun full => absurd free (by simpa [Ru.hasFree] using full)
  | _ => exact fun _ => rfl

/-- The attempt that a freed slot gives a waiting producer is made, or left to the producer's own command. -/
theorem Block.attempt_cases (retry : Block → Block) (b : Block) :
    b.attempt retry = retry b.chosen ∨ b.attempt retry = b.chosen := by
  unfold Block.attempt Block.choose
  dsimp only
  split
  · exact .inl rfl
  · exact .inr rfl

theorem Block.retryMark_of_full {b : Block} (full : 16 ≤ b.ru.nq.length) (access : Bool) : b.retryMark access = b :=
  if_neg (by simp [Ru.hasFree, full])

theorem Block.retryMark_of_free {b : Block} (waits : b.le.activity = .waitNq) (free : b.ru.nq.length < 16) (access : Bool) :
    b.retryMark access = (b.postMark b.le.tag).listPass 2 access := if_pos ⟨waits, by simp [Ru.hasFree, free]⟩

/-- `x` is what the producers that wait in `b` have made of its one free slot: it is free still, or the service's, or holds
the MARK. -/
inductive Block.SlotGoes (b x : Block) : Prop where
  | stays : x.ru.nq = b.ru.nq → x.bu = b.bu → x.le = b.le → x.sm = b.sm → SlotGoes b x
  | reserved : b.bu.ctx = .reserving → x.ru.nq = b.ru.nq ++ [.reserved] → x.bu = { b.bu with ctx := .action1 } →
      x.le = b.le → x.sm = b.sm.setRequest .service
        (some (serviceRequest b.bu.tim2 b.bu.station (b.bu.entry b.bu.station).clear)) → SlotGoes b x
  | marked : b.le.activity = .waitNq → x.ru.nq = b.ru.nq ++ [.occupied (.mark b.le.cursor b.le.tag)] → x.bu = b.bu →
      SlotGoes b x

section Slot

variable {b x : Block}

theorem Block.SlotGoes.chosen (goes : b.SlotGoes x) : b.SlotGoes x.chosen := by
  cases goes with
  | stays nq bu le sm => exact .stays nq bu le sm
  | reserved ctx nq bu le sm => exact .reserved ctx nq bu le sm
  | marked waits nq bu => exact .marked waits nq bu

theorem Block.SlotGoes.attempt {retry : Block → Block} (made : b.SlotGoes x.chosen → b.SlotGoes (retry x.chosen))
    (goes : b.SlotGoes x) : b.SlotGoes (x.attempt retry) := by
  rcases x.attempt_cases retry with now | later
  · rw [now]; exact made goes.chosen
  · rw [later]; exact goes.chosen

variable (one : b.ru.nq.length = 15)
include one

theorem Block.SlotGoes.retryMark (waits : x.le.activity = .waitNq) (goes : b.SlotGoes x) : b.SlotGoes x.retryMark := by
  cases goes with
  | stays nq bu le sm =>
    have posted : (x.postMark x.le.tag).ru.nq = b.ru.nq ++ [.occupied (.mark b.le.cursor b.le.tag)] := by
      rw [← nq, ← le]; rfl
    have passes := Evolves.listPass (x.postMark x.le.tag) 2 false
    rw [Block.retryMark_of_free waits (by rw [nq]; omega)]
    exact .marked (le ▸ waits) ((passes.nq_of_full (by simp [posted, one])).trans posted) (passes.bu_eq.trans bu)
  | reserved ctx nq bu le sm =>
    rw [Block.retryMark_of_full (by simp [nq, one])]
    exact .reserved ctx nq bu le sm
  | marked waits nq bu =>
    rw [Block.retryMark_of_full (by simp [nq, one])]
    exact .marked waits nq bu

theorem Block.SlotGoes.attemptMark (goes : b.SlotGoes x) : b.SlotGoes x.attemptMark := by
  unfold Block.attemptMark
  split
  · next waits => exact goes.attempt fun goes => goes.retryMark one waits
  · exact goes

variable (acts : b.bu.ctx = .reserving → (b.bu.entry b.bu.station).cls ≠ .notify) (segen : b.sm.segen = true)
  (busy : b.sm.phase ≠ .idle)
include acts segen busy

theorem Block.SlotGoes.retryReservation (waits : x.bu.ctx = .reserving) (goes : b.SlotGoes x) :
    b.SlotGoes x.retryReservation := by
  cases goes with
  | stays nq bu le sm =>
    have posts := Block.retryReservation_posts waits (by rw [nq]; omega) (bu ▸ acts (bu ▸ waits)) (sm ▸ segen)
    rw [posts.1 (sm ▸ busy)]
    refine .reserved (bu ▸ waits) ?_ ?_ le ?_
    · rw [← nq]; rfl
    · rw [← bu]; rfl
    · rw [← bu, ← sm]; rfl
  | reserved ctx nq bu le sm => simp [bu] at waits
  | marked mark nq bu =>
    rw [Block.retryReservation_of_full waits (by simp [nq, one])]
    exact .marked mark nq bu

theorem Block.SlotGoes.attemptReservation (goes : b.SlotGoes x) : b.SlotGoes x.attemptReservation := by
  unfold Block.attemptReservation
  split
  · next waits => exact goes.attempt fun goes => goes.retryReservation one acts segen busy waits
  · exact goes

end Slot

/-- The part without the record at the head of its queue (R178). -/
def Block.headTaken (b : Block) (rest : List Slot) : Block := { b with ru := { b.ru with nq := rest } }

theorem Block.writeNqadv_of_occupied {b : Block} {r : Record} {rest : List Slot} (head : b.ru.nq = .occupied r :: rest) :
    b.writeNqadv =
      if b.bu.ctx = .reserving ∧ b.le.activity = .waitNq then
        if Config.firstTaken b.choices then (b.headTaken rest).chosen.attemptReservation.attemptMark
        else (b.headTaken rest).chosen.attemptMark.attemptReservation
      else (b.headTaken rest).attemptReservation.attemptMark := by
  unfold Block.writeNqadv
  rw [head]
  rfl

theorem Block.attempts_of_none {b : Block} (service : b.bu.ctx ≠ .reserving) (engine : b.le.activity ≠ .waitNq) :
    b.attemptReservation.attemptMark = b := by
  rw [show b.attemptReservation = b from if_neg service]
  exact if_neg engine

/-- Settles O59: the refusal, a queue that no producer waits for, and the slot freed in a full queue. -/
theorem nqadvFreesOneSlot : Obligations.NqadvFreesOneSlot := by
  intro b q r rest operates
  have answer := answers_operating (c := .nqadv) (q := q) (f := fun b => b.writeNqadv) operates rfl
  refine ⟨fun noRecord => ?refused, fun head service engine => ?taken, fun head one acts segen busy => ⟨_, answer, ?slot⟩⟩
  case refused =>
    have refuses : b.writeNqadv = b.refuse .nqEmpty := by
      unfold Block.writeNqadv
      rcases noRecord with nq | nq <;> rw [nq]
    rwa [refuses] at answer
  case taken =>
    simp only [Block.writeNqadv_of_occupied head, service, false_and, if_false] at answer
    rwa [Block.attempts_of_none (b := b.headTaken rest) service engine] at answer
  case slot =>
    have start : (b.headTaken rest).SlotGoes (b.headTaken rest) := .stays rfl rfl rfl rfl
    have reserves {x : Block} (goes : (b.headTaken rest).SlotGoes x) :=
      Block.SlotGoes.attemptReservation (b := b.headTaken rest) one acts segen busy goes
    have goes : (b.headTaken rest).SlotGoes b.writeNqadv := by
      rw [Block.writeNqadv_of_occupied head]
      split_ifs
      · exact (reserves start.chosen).attemptMark one
      · exact reserves (start.chosen.attemptMark one)
      · exact (reserves start).attemptMark one
    cases goes with
    | stays nq bu le sm => exact .inl ⟨nq, bu, le, sm⟩
    | reserved ctx nq bu le sm => exact .inr (.inl ⟨ctx, nq, bu, le, sm⟩)
    | marked waits nq bu => exact .inr (.inr ⟨waits, nq, bu⟩)

end Sys2Proof.Machine

/-! The interrupt lines and the host's reads (sections 10.2, 11.5 to 11.7): the two lines by their terms, and the number
that each register reads as. -/

namespace Sys2Proof.Machine

/-! ### The lines (R172) -/

theorem mem_allConditions (c : Condition) : c ∈ allConditions := by cases c <;> decide

theorem allConditions_any (p : Condition → Bool) : allConditions.any p = true ↔ ∃ c, p c = true := by
  simp [List.any_eq_true, mem_allConditions]

theorem Block.nqne_iff (b : Block) : b.nqne = true ↔ ∃ r rest, b.ru.nq = .occupied r :: rest := by
  unfold Block.nqne
  split
  · next r rest head => simp [head]
  · next other => simpa using other

theorem Block.idrq_iff (b : Block) : b.idrq = true ↔ b.fp.idrqMark.toNat ≤ b.fp.inb.words.length := decide_eq_true_iff

theorem Block.odrq_iff (b : Block) : b.odrq = true ↔ b.fp.out.words.length ≤ b.fp.odrqMark.toNat := decide_eq_true_iff

theorem Block.irq_iff {b : Block} (operates : b.operating = true) : b.irq = true ↔
    (∃ c, b.ru.flag c = true ∧ b.ru.route c = .irq) ∨
      (b.ru.len.getLsbD 0 = true ∧ ∃ r rest, b.ru.nq = .occupied r :: rest) ∨
      (b.ru.len.getLsbD 1 = true ∧ b.fp.idrqMark.toNat ≤ b.fp.inb.words.length) ∨
      (b.ru.len.getLsbD 2 = true ∧ b.fp.out.words.length ≤ b.fp.odrqMark.toNat) := by
  simp only [Block.irq, operates, Bool.true_and, Bool.or_eq_true, Bool.and_eq_true, allConditions_any, decide_eq_true_eq,
    Block.nqne_iff, Block.idrq_iff, Block.odrq_iff, or_assoc]

theorem Block.alert_iff {b : Block} (operates : b.operating = true) : b.alert = true ↔
    (∃ c, b.ru.flag c = true ∧ b.ru.route c = .alert) ∨ ∃ c, b.ru.spilled c = true := by
  simp only [Block.alert, operates, Bool.true_and, Bool.or_eq_true, Bool.and_eq_true, allConditions_any,
    decide_eq_true_eq]

/-! ### Fields side by side -/

/-- A field above the bits of a register counts its value times its factor beside them. -/
theorem or_place_toNat {n : Nat} {x : Word} {v : BitVec n} {lo : Nat} (below : x.toNat < 2 ^ lo) (fits : n + lo ≤ 16) :
    (x ||| place v lo).toNat = x.toNat + v.toNat * 2 ^ lo := by
  rw [BitVec.toNat_or, place_toNat v lo fits, or_field _ _ _ below]

theorem or_place_lt {n k : Nat} {x : Word} {v : BitVec n} {lo : Nat} (below : x.toNat < 2 ^ lo) (fits : n + lo ≤ k)
    (inWord : k ≤ 16) : (x ||| place v lo).toNat < 2 ^ k := by
  rw [or_place_toNat below (by omega)]
  calc x.toNat + v.toNat * 2 ^ lo < (v.toNat + 1) * 2 ^ lo := by rw [Nat.add_mul, Nat.one_mul]; omega
    _ ≤ 2 ^ n * 2 ^ lo := Nat.mul_le_mul_right _ v.isLt
    _ = 2 ^ (n + lo) := (Nat.pow_add ..).symm
    _ ≤ 2 ^ k := Nat.pow_le_pow_right (by decide) fits

theorem place_zero_toNat {n : Nat} (v : BitVec n) (fits : n ≤ 16) : (place v 0).toNat = v.toNat := by
  rw [place_toNat v 0 fits, Nat.pow_zero, Nat.mul_one]

theorem place_zero_lt {n k : Nat} (v : BitVec n) (fits : n ≤ k) (inWord : k ≤ 16) : (place v 0).toNat < 2 ^ k := by
  rw [place_zero_toNat v (by omega)]
  exact Nat.lt_of_lt_of_le v.isLt (Nat.pow_le_pow_right (by decide) fits)

/-- A register of two fields, given upwards. -/
theorem fields2_toNat {n m : Nat} (v : BitVec n) (w : BitVec m) (lo : Nat) (first : n ≤ lo) (second : m + lo ≤ 16) :
    (place v 0 ||| place w lo).toNat = v.toNat + w.toNat * 2 ^ lo := by
  rw [or_place_toNat (place_zero_lt v first (by omega)) second, place_zero_toNat v (by omega)]

/-- A register of three fields, given upwards. -/
theorem fields3_toNat {n m k : Nat} (v : BitVec n) (w : BitVec m) (x : BitVec k) (lo hi : Nat) (first : n ≤ lo)
    (second : m + lo ≤ hi) (third : k + hi ≤ 16) :
    (place v 0 ||| place w lo ||| place x hi).toNat = v.toNat + w.toNat * 2 ^ lo + x.toNat * 2 ^ hi := by
  rw [or_place_toNat (or_place_lt (place_zero_lt v first (by omega)) second (by omega)) third,
    fields2_toNat v w lo first (by omega)]

/-- A register of four fields, given upwards. -/
theorem fields4_toNat {n m k l : Nat} (v : BitVec n) (w : BitVec m) (x : BitVec k) (y : BitVec l) (i j h : Nat)
    (first : n ≤ i) (second : m + i ≤ j) (third : k + j ≤ h) (fourth : l + h ≤ 16) :
    (place v 0 ||| place w i ||| place x j ||| place y h).toNat =
      v.toNat + w.toNat * 2 ^ i + x.toNat * 2 ^ j + y.toNat * 2 ^ h := by
  have below := or_place_lt (v := x) (or_place_lt (v := w) (place_zero_lt v first (by omega)) second (by omega)) third
    (by omega)
  rw [or_place_toNat below fourth, fields3_toNat v w x i j first second (by omega)]

/-- A register of five fields, given upwards. -/
theorem fields5_toNat {n m k l o : Nat} (v : BitVec n) (w : BitVec m) (x : BitVec k) (y : BitVec l) (z : BitVec o)
    (h i j g : Nat) (first : n ≤ h) (second : m + h ≤ i) (third : k + i ≤ j) (fourth : l + j ≤ g) (fifth : o + g ≤ 16) :
    (place v 0 ||| place w h ||| place x i ||| place y j ||| place z g).toNat =
      v.toNat + w.toNat * 2 ^ h + x.toNat * 2 ^ i + y.toNat * 2 ^ j + z.toNat * 2 ^ g := by
  have below := or_place_lt (v := y) (or_place_lt (v := x)
    (or_place_lt (v := w) (place_zero_lt v first (by omega)) second (by omega)) third (by omega)) fourth (by omega)
  rw [or_place_toNat below fifth, fields4_toNat v w x y h i j first second third (by omega)]

theorem Block.reads_of_decoded {b : Block} {addr : BitVec 6} {n : Nat} (operates : b.operating = true)
    (decoded : (b.decodedRead addr).toNat = n) : b.reads addr n := by
  rwa [Block.reads, Block.hostRead_operating operates]

/-! ### The codes of section 11.7 are the places in the lists of the statements -/

theorem SmPhase.code_toNat (p : SmPhase) : p.code.toNat = [SmPhase.off, .idle, .send, .await, .gap].idxOf p := by
  cases p <;> rfl

theorem Sm.grantCode_toNat (s : Sm) : s.grantCode.toNat = s.shownRequester := by
  unfold Sm.grantCode Sm.shownRequester
  cases s.tx with
  | none => rfl
  | some tx => cases tx with
    | census l => rfl
    | word w => dsimp only; cases w.client <;> rfl

theorem Reason.code_toNat (r : Reason) : r.code.toNat = reasonCodes.idxOf r := by cases r <;> rfl

theorem Result.code_toNat (r : Result) : r.code.toNat = outcomeCodes.idxOf r := by cases r <;> rfl

theorem LastReply.code_toNat (r : LastReply) : r.code.toNat = replyCodes.idxOf r := by cases r <;> rfl

theorem Claim.code_toNat (c : Claim) : c.code.toNat = [Claim.unclaimed, .direct, .list].idxOf c := by cases c <;> rfl

theorem AuState.code_toNat (s : AuState) : s.code.toNat = [AuState.quiet, .requested, .census, .holdoff].idxOf s := by
  cases s <;> rfl

theorem SvcState.code_toNat (s : SvcState) :
    s.code.toNat = [SvcState.idle, .reserving, .action1, .action2, .posting].idxOf s := by cases s <;> rfl

theorem Ending.code_toNat (e : Ending) :
    e.code.toNat = [Ending.done, .wait, .refused, .silent, .corrupt, .offline].idxOf e + 1 := by cases e <;> rfl

theorem conditionNumbers_number {c : Condition} {k : Nat} (at_ : conditionNumbers[k]? = some c) : k = c.number := by
  obtain ⟨inside, rfl⟩ := List.getElem?_eq_some_iff.mp at_
  have small : k < 9 := inside
  interval_cases k <;> rfl

/-! ### The registers of several fields -/

section Registers

variable {b : Block}

theorem Block.regSta_toNat : b.regSta.toNat =
    [SmPhase.off, .idle, .send, .await, .gap].idxOf b.sm.phase + 8 * b.sm.shownRequester := by
  rw [Block.regSta, fields2_toNat _ _ _ (by decide) (by decide), SmPhase.code_toNat, Sm.grantCode_toNat]
  omega

theorem Block.nqne_eq : b.nqne = b.ru.headOccupied := by
  unfold Block.nqne Ru.headOccupied
  rcases b.ru.nq with _ | ⟨_ | _, _⟩ <;> rfl

theorem Block.regNqlv_toNat : b.regNqlv.toNat =
    b.ru.nq.countP (· ≠ .reserved) % 32 + 0x100 * (b.ru.nq.count .reserved % 2) + 0x8000 * b.ru.headOccupied.toNat := by
  rw [Block.regNqlv, bitAt, fields3_toNat _ _ _ _ _ (by decide) (by decide) (by decide), BitVec.toNat_ofBool,
    BitVec.toNat_ofNat, BitVec.toNat_ofNat, Block.nqne_eq, Ru.occupied, Ru.reservedSlots]
  omega

/-- NQ0 to NQ3 of a record. -/
theorem Ru.head_shown (r : Ru) : [Record.nq0, Record.nq1, Record.nq2, Record.nq3].map
    (fun word => ((r.head.map word).getD 0).toNat) = r.headShown := by
  unfold Ru.head Ru.headShown
  rcases r.nq with _ | ⟨_ | rec, rest⟩
  · rfl
  · rfl
  · cases rec with
    | service station tag outcome count value =>
      have nq0 : (Record.service station tag outcome count value).nq0 =
          place count 0 ||| place (BitVec.ofBool value.isSome) 10 ||| place outcome.code 11 ||| place (1 : BitVec 2) 14 := by
        unfold Record.nq0 bitAt; ac_rfl
      have first : (Record.service station tag outcome count value).nq0.toNat =
          0x4000 + 0x800 * [Ending.done, .wait, .refused, .silent, .corrupt, .offline].idxOf outcome + 0x800
            + 0x400 * value.isSome.toNat + count.toNat := by
        rw [nq0, fields4_toNat _ _ _ _ _ _ _ (by decide) (by decide) (by decide) (by decide), Ending.code_toNat,
          BitVec.toNat_ofBool, show (1 : BitVec 2).toNat = 1 from rfl]
        omega
      have second : (Record.service station tag outcome count value).nq1.toNat = station % 4096 :=
        (place_zero_toNat _ (by decide)).trans (BitVec.toNat_ofNat ..)
      simp [first, second, Record.nq2, Record.nq3]
    | mark addr tag =>
      have second : (Record.mark addr tag).nq1.toNat = addr % 4096 :=
        (place_zero_toNat _ (by decide)).trans (BitVec.toNat_ofNat ..)
      simp [second, Record.nq0, place, Record.nq2, Record.nq3]
    | condition c => cases c <;> rfl

theorem Block.regDout_toNat : b.regDout.toNat =
    0x1000 * outcomeCodes.idxOf b.du.outcome + 0x400 * replyCodes.idxOf b.du.run.lastReply +
      (if b.du.run.stall = .fifoData then 0x100 else if b.du.run.stall = .fifoRoom then 0x200 else 0) +
      (if b.du.run.sub = .ended then 0 else 0x20) + b.du.run.lastStation % 32 := by
  have upwards : b.regDout = place (BitVec.ofNat 5 b.du.run.lastStation) 0 ||| place (BitVec.ofBool b.du.busy) 5 |||
      place b.du.run.stall.directCode 8 ||| place b.du.run.lastReply.code 10 ||| place b.du.outcome.code 12 := by
    unfold Block.regDout statusFields bitAt; ac_rfl
  have stall : b.du.run.stall.directCode.toNat * 2 ^ 8 =
      if b.du.run.stall = .fifoData then 0x100 else if b.du.run.stall = .fifoRoom then 0x200 else 0 := by
    cases b.du.run.stall <;> rfl
  have busy : b.du.busy.toNat * 2 ^ 5 = if b.du.run.sub = .ended then 0 else 0x20 := by
    unfold Du.busy
    cases b.du.run.sub <;> rfl
  rw [upwards, fields5_toNat _ _ _ _ _ _ _ _ _ (by decide) (by decide) (by decide) (by decide) (by decide),
    Result.code_toNat, LastReply.code_toNat, BitVec.toNat_ofBool, BitVec.toNat_ofNat, stall, busy]
  omega

theorem Le.stateCode_toNat (l : Le) : l.stateCode.toNat = l.shownState := by
  unfold Le.stateCode Le.state Le.shownState
  cases l.activity with
  | running => cases l.run.sub <;> rfl
  | halted => cases l.resumable <;> rfl
  | _ => rfl

theorem Le.state_stalled_iff (l : Le) : l.state = .stalled ↔ l.shownState = 2 := by
  unfold Le.state Le.shownState
  cases l.activity with
  | running => cases l.run.sub <;> simp
  | halted => cases l.resumable <;> simp
  | _ => simp

theorem Le.shownStall_eq (l : Le) :
    (if l.state = .stalled ∨ l.outcome = .starved then l.run.stall.listCode else 0).toNat = l.shownStall := by
  unfold Le.shownStall
  simp only [Le.state_stalled_iff]
  split
  · cases l.run.stall <;> rfl
  · rfl

theorem Block.regLout_toNat : b.regLout.toNat =
    0x1000 * outcomeCodes.idxOf b.le.outcome + 0x400 * replyCodes.idxOf b.le.run.lastReply + 0x80 * b.le.shownState +
      0x20 * b.le.shownStall + b.le.run.lastStation % 32 := by
  have upwards : b.regLout = place (BitVec.ofNat 5 b.le.run.lastStation) 0 |||
      place (if b.le.state = .stalled ∨ b.le.outcome = .starved then b.le.run.stall.listCode else 0) 5 |||
      place b.le.stateCode 7 ||| place b.le.run.lastReply.code 10 ||| place b.le.outcome.code 12 := by
    unfold Block.regLout statusFields; dsimp only; ac_rfl
  rw [upwards, fields5_toNat _ _ _ _ _ _ _ _ _ (by decide) (by decide) (by decide) (by decide) (by decide),
    Result.code_toNat, LastReply.code_toNat, Le.stateCode_toNat, Le.shownStall_eq, BitVec.toNat_ofNat]
  omega

theorem Block.regFlv_toNat : b.regFlv.toNat =
    b.fp.out.words.length % 128 + (if b.fp.out.words.length ≤ b.fp.odrqMark.toNat then 0x80 else 0) +
      0x100 * (b.fp.inb.words.length % 128) + (if b.fp.idrqMark.toNat ≤ b.fp.inb.words.length then 0x8000 else 0) := by
  have odrq : b.odrq.toNat * 2 ^ 7 = if b.fp.out.words.length ≤ b.fp.odrqMark.toNat then 0x80 else 0 := by
    simp only [← Block.odrq_iff]
    cases b.odrq <;> rfl
  have idrq : b.idrq.toNat * 2 ^ 15 = if b.fp.idrqMark.toNat ≤ b.fp.inb.words.length then 0x8000 else 0 := by
    simp only [← Block.idrq_iff]
    cases b.idrq <;> rfl
  rw [Block.regFlv, bitAt, bitAt, fields4_toNat _ _ _ _ _ _ _ (by decide) (by decide) (by decide) (by decide),
    BitVec.toNat_ofBool, BitVec.toNat_ofBool, BitVec.toNat_ofNat, BitVec.toNat_ofNat, odrq, idrq, Fifo.level, Fifo.level]
  omega

theorem Block.regAucf_toNat : b.regAucf.toNat =
    b.au.setting.toNat + 0x100 * [AuState.quiet, .requested, .census, .holdoff].idxOf b.au.state +
      0x8000 * b.au.atn.toNat := by
  rw [Block.regAucf, bitAt, fields3_toNat _ _ _ _ _ (by decide) (by decide) (by decide), AuState.code_toNat,
    BitVec.toNat_ofBool]
  omega

theorem Block.regBksv_toNat : b.regBksv.toNat =
    [SvcState.idle, .reserving, .action1, .action2, .posting].idxOf b.bu.ctx + 8 * (b.bu.station % 32) +
      0x100 * (b.bu.queue.length % 32) := by
  rw [Block.regBksv, fields3_toNat _ _ _ _ _ (by decide) (by decide) (by decide), SvcState.code_toNat,
    BitVec.toNat_ofNat, BitVec.toNat_ofNat]
  omega

theorem Block.regSpctl_toNat : b.regSpctl.toNat = b.sd.en.toNat + 0x100 * (b.sd.bad.getD 8 % 16) := by
  rw [Block.regSpctl, bitAt, fields2_toNat _ _ _ (by decide) (by decide), BitVec.toNat_ofBool, BitVec.toNat_ofNat]
  omega

end Registers

/-! ### Sets of stations and conditions (R143, R144, R167 to R170) -/

theorem lowHalf_bit (set : StationSet) {k : Nat} (h1 : 1 ≤ k) (h15 : k ≤ 15) :
    (lowHalf set).bit (k - 1) = hasStation set k := by
  have inside : k - 1 < 15 := by omega
  simp [lowHalf, place, hasStation, h1, inside]
  omega

theorem highHalf_bit (set : StationSet) {k : Nat} (h1 : 1 ≤ k) (h15 : k ≤ 15) :
    (highHalf set).bit (k - 1) = hasStation set (k + 15) := by
  have inside : k - 1 < 15 := by omega
  have at_ : 15 + (k - 1) = k + 15 - 1 := by omega
  simp [highHalf, place, hasStation, inside, at_]
  omega

/-- A half of a set fills bits 0 to 14. -/
theorem halves_bit15 (set : StationSet) : (lowHalf set).bit 15 = false ∧ (highHalf set).bit 15 = false := by
  simp [lowHalf, highHalf, place]

theorem Block.showsSet_of_decoded {b : Block} {set : StationSet} {low high : BitVec 6} (operates : b.operating = true)
    (lowRead : b.decodedRead low = lowHalf set) (highRead : b.decodedRead high = highHalf set) :
    b.showsSet set low high := by
  unfold Block.showsSet
  rw [Block.hostRead_operating operates, Block.hostRead_operating operates, lowRead, highRead]
  exact ⟨fun k h1 h15 => ⟨lowHalf_bit set h1 h15, highHalf_bit set h1 h15⟩, halves_bit15 set⟩

theorem marks_bit (marks : BitVec 9) (c : Condition) : (place marks 0).bit c.number = marks.getLsbD c.number := by
  have inside : c.number < 16 := by have := c.number_lt; omega
  simp [place, inside]

/-- The route of a condition stands in RTE0, or for REFUSE in RTE1 (R170). -/
theorem Ru.route_fields (r : Ru) (c : Condition) : r.route c = Route.ofCode
    (if c.number < 8 then Word.field r.rte0 (2 * c.number) 2 else (place r.rte1 0).field 0 2) := by
  have rte1 : (place r.rte1 0).field 0 2 = r.rte1 := by ext i h; simp [place, h]; omega
  cases c with
  | refuse => exact congrArg Route.ofCode rte1.symm
  | _ => rfl

/-! ### Every register -/

section Reads

variable {b : Block} (operates : b.operating = true)
include operates

theorem Block.reads_of_place {addr : BitVec 6} {n : Nat} {v : BitVec n} (fits : n ≤ 16)
    (decoded : b.decodedRead addr = place v 0) : b.reads addr v.toNat :=
  Block.reads_of_decoded operates (decoded ▸ place_zero_toNat v fits)

theorem Block.reads_of_bit {addr : BitVec 6} {x : Bool} (decoded : b.decodedRead addr = bitAt x 0) :
    b.reads addr x.toNat := by
  have read := Block.reads_of_place (v := BitVec.ofBool x) operates (by decide) decoded
  rwa [BitVec.toNat_ofBool] at read

/-- A count that the register cuts to its field. -/
theorem Block.reads_of_ofNat {addr : BitVec 6} {n x : Nat} (fits : n ≤ 16)
    (decoded : b.decodedRead addr = place (BitVec.ofNat n x) 0) : b.reads addr (x % 2 ^ n) := by
  have read := Block.reads_of_place operates fits decoded
  rwa [BitVec.toNat_ofNat] at read

theorem Block.reads_of_fields {addr : BitVec 6} {n m : Nat} {v : BitVec n} {w : BitVec m} (first : n ≤ 8)
    (second : m ≤ 8) (decoded : b.decodedRead addr = place v 0 ||| place w 8) :
    b.reads addr (v.toNat + 0x100 * w.toNat) := by
  refine Block.reads_of_decoded operates ?_
  rw [decoded, fields2_toNat v w 8 first (by omega)]
  omega

theorem Block.conditions_read : (∀ c k, conditionNumbers[k]? = some c →
      (b.hostRead 0x07).bit k = b.ru.flag c ∧ (b.hostRead 0x08).bit k = b.ru.spilled c) ∧
    b.hostRead 0x07 < 0x200 ∧ b.hostRead 0x08 < 0x200 := by
  rw [show b.hostRead 0x07 = place b.ru.flags 0 from Block.hostRead_operating operates _,
    show b.hostRead 0x08 = place b.ru.spills 0 from Block.hostRead_operating operates _]
  refine ⟨fun c k at_ => ?_, ?_, ?_⟩
  · rw [conditionNumbers_number at_]
    exact ⟨marks_bit _ c, marks_bit _ c⟩
  · exact place_zero_lt b.ru.flags (Nat.le_refl 9) (by decide)
  · exact place_zero_lt b.ru.spills (Nat.le_refl 9) (by decide)

theorem Block.routes_read : (∀ c k, conditionNumbers[k]? = some c → b.ru.route c = Route.ofCode
      (if k < 8 then (b.hostRead 0x09).field (2 * k) 2 else (b.hostRead 0x0A).field 0 2)) ∧
    b.hostRead 0x0A < 4 ∧ b.reads 0x0B b.ru.len.toNat := by
  rw [show b.hostRead 0x09 = b.ru.rte0 from Block.hostRead_operating operates _,
    show b.hostRead 0x0A = place b.ru.rte1 0 from Block.hostRead_operating operates _]
  refine ⟨fun c k at_ => ?_, place_zero_lt b.ru.rte1 (Nat.le_refl 2) (by decide),
    Block.reads_of_place operates (by decide) rfl⟩
  rw [conditionNumbers_number at_]
  exact b.ru.route_fields c

theorem Block.head_read : [0x0C, 0x0D, 0x0E, 0x0F].map (fun a => (b.hostRead a).toNat) = b.ru.headShown := by
  rw [← Ru.head_shown]
  simp only [List.map_cons, List.map_nil, Block.hostRead_operating operates]
  rfl

theorem Block.claims_read : b.reads 0x28
    ([Claim.unclaimed, .direct, .list].idxOf b.fp.out.claim +
      4 * [Claim.unclaimed, .direct, .list].idxOf b.fp.inb.claim) := by
  refine Block.reads_of_decoded operates ?_
  rw [show b.decodedRead 0x28 = place b.fp.out.claim.code 0 ||| place b.fp.inb.claim.code 2 from rfl,
    fields2_toNat _ _ _ (by decide) (by decide), Claim.code_toNat, Claim.code_toNat]
  omega

/-- What every register reads as, by the fields of section 11.7. -/
theorem Block.registerReads : b.RegisterReads where
  ctl := Block.reads_of_bit operates rfl
  sta := Block.reads_of_decoded operates Block.regSta_toNat
  lock := Block.reads_of_bit operates rfl
  rsn := Reason.code_toNat b.hp.rsn ▸ Block.reads_of_place operates (by decide) rfl
  timing := ⟨Block.reads_of_fields operates (by decide) (by decide) rfl,
    Block.reads_of_fields operates (by decide) (by decide) rfl, Block.reads_of_place operates (by decide) rfl⟩
  conditions := Block.conditions_read operates
  routes := Block.routes_read operates
  head := Block.head_read operates
  slots := Block.reads_of_decoded operates Block.regNqlv_toNat
  request := ⟨Block.reads_of_decoded operates rfl, Block.reads_of_place operates (by decide) rfl,
    Block.reads_of_place operates (by decide) rfl, Block.reads_of_decoded operates rfl,
    Block.reads_of_decoded operates rfl⟩
  dout := Block.reads_of_decoded operates Block.regDout_toNat
  results := ⟨Block.reads_of_ofNat (n := 12) operates (by decide) rfl,
    Block.reads_of_ofNat (n := 12) operates (by decide) rfl, Block.reads_of_ofNat (n := 12) operates (by decide) rfl⟩
  store := ⟨Block.reads_of_place operates (by decide) rfl, Block.reads_of_decoded operates rfl,
    Block.reads_of_place operates (by decide) rfl⟩
  context := ⟨Block.reads_of_ofNat (n := 13) operates (by decide) rfl,
    Block.reads_of_ofNat (n := 12) operates (by decide) rfl, Block.reads_of_ofNat (n := 12) operates (by decide) rfl,
    Block.reads_of_ofNat (n := 12) operates (by decide) rfl, Block.reads_of_ofNat (n := 12) operates (by decide) rfl⟩
  lout := Block.reads_of_decoded operates Block.regLout_toNat
  levels := Block.reads_of_decoded operates Block.regFlv_toNat
  idat := Block.reads_of_decoded operates rfl
  claims := Block.claims_read operates
  marks := ⟨Block.reads_of_fields operates (by decide) (by decide) rfl, Block.reads_of_place operates (by decide) rfl⟩
  spans := ⟨Block.reads_of_place operates (by decide) rfl, Block.reads_of_ofNat (n := 11) operates (by decide) rfl,
    Block.reads_of_fields operates (by decide) (by decide) rfl, Block.reads_of_decoded operates Block.regSpctl_toNat⟩
  aucf := Block.reads_of_decoded operates Block.regAucf_toNat
  patterns := ⟨Block.showsSet_of_decoded operates rfl rfl, Block.showsSet_of_decoded operates rfl rfl,
    Block.showsSet_of_decoded operates rfl rfl⟩
  staging := ⟨Block.reads_of_place operates (by decide) rfl, Block.reads_of_place operates (by decide) rfl,
    Block.reads_of_decoded operates rfl, Block.reads_of_decoded operates rfl, Block.reads_of_decoded operates rfl,
    Block.reads_of_decoded operates rfl, Block.reads_of_decoded operates rfl, Block.reads_of_decoded operates rfl⟩
  service := Block.reads_of_decoded operates Block.regBksv_toNat
  writeOnly := ⟨Block.reads_of_decoded operates rfl, Block.reads_of_decoded operates rfl,
    Block.reads_of_decoded operates rfl, Block.reads_of_decoded operates rfl⟩

end Reads

/-- Settles O56. -/
theorem linesFollowTheirTerms : Obligations.LinesFollowTheirTerms := fun _ operates =>
  ⟨Block.irq_iff operates, Block.alert_iff operates, Block.registerReads operates⟩

end Sys2Proof.Machine

/-! What goes over the wire (sections 1.2, 1.4 and 11.7): fields sent most significant bit first, the check of R5, the
request frames and how a reply is judged. -/

namespace Sys2Proof.Machine

/-! ### Fields, most significant bit first (R188) -/

@[simp] theorem bitsMsbFirst_length {n : Nat} (v : BitVec n) : (bitsMsbFirst v).length = n := by simp [bitsMsbFirst]

/-- The number that bits received most significant first make. -/
def msbFirstValue (bits : List Bool) : Nat := bits.foldl (fun acc b => 2 * acc + b.toNat) 0

theorem ofBitsMsbFirst_eq (n : Nat) (bits : List Bool) : ofBitsMsbFirst n bits = BitVec.ofNat n (msbFirstValue bits) := rfl

theorem msbFirstValue_append (bits : List Bool) (b : Bool) :
    msbFirstValue (bits ++ [b]) = 2 * msbFirstValue bits + b.toNat := by simp [msbFirstValue]

theorem msbFirstValue_lt (bits : List Bool) : msbFirstValue bits < 2 ^ bits.length := by
  induction bits using List.reverseRecOn with
  | nil => decide
  | append_singleton bits b ih =>
    have bit := b.toNat_lt
    rw [msbFirstValue_append, List.length_append, List.length_singleton, Nat.pow_succ]
    omega

/-- The first `k` bits of a field are its value without the bits below them. -/
theorem msbFirstValue_take {n : Nat} (v : BitVec n) {k : Nat} (inside : k ≤ n) :
    msbFirstValue ((List.range k).map v.getMsbD) = v.toNat / 2 ^ (n - k) := by
  induction k with
  | zero => simp [msbFirstValue, Nat.div_eq_of_lt v.isLt]
  | succ k ih =>
    have bit : (v.getMsbD k).toNat = v.toNat / 2 ^ (n - (k + 1)) % 2 := by
      rw [BitVec.getMsbD_eq_getLsbD, decide_eq_true (by omega : k < n), Bool.true_and, BitVec.getLsbD, Nat.toNat_testBit,
        show n - 1 - k = n - (k + 1) by omega]
    rw [List.range_succ, List.map_append, List.map_singleton, msbFirstValue_append, ih (by omega), bit,
      show n - k = n - (k + 1) + 1 by omega, Nat.pow_succ, ← Nat.div_div_eq_div_mul]
    omega

/-- A field arrives as it was sent. -/
@[simp] theorem ofBitsMsbFirst_bitsMsbFirst {n : Nat} (v : BitVec n) : ofBitsMsbFirst n (bitsMsbFirst v) = v := by
  rw [ofBitsMsbFirst_eq, bitsMsbFirst, msbFirstValue_take v (Nat.le_refl n), Nat.sub_self, Nat.pow_zero, Nat.div_one,
    BitVec.ofNat_toNat, BitVec.setWidth_eq]

theorem msbFirstValue_inj {l l' : List Bool} (length : l.length = l'.length)
    (same : msbFirstValue l = msbFirstValue l') : l = l' := by
  induction l using List.reverseRecOn generalizing l' with
  | nil => exact (List.eq_nil_of_length_eq_zero length.symm).symm
  | append_singleton l b ih =>
    obtain ⟨l', b', rfl⟩ : ∃ m x, l' = m ++ [x] := by
      have nonempty : l' ≠ [] := by rintro rfl; simp at length
      exact ⟨_, _, (List.dropLast_append_getLast nonempty).symm⟩
    rw [msbFirstValue_append, msbFirstValue_append] at same
    have bit := b.toNat_lt
    have bit' := b'.toNat_lt
    have first : l = l' := ih (by simpa using length) (by omega)
    have last : b = b' := by cases b <;> cases b' <;> simp_all
    rw [first, last]

theorem ofBitsMsbFirst_inj {n : Nat} {l l' : List Bool} (length : l.length = n) (length' : l'.length = n)
    (same : ofBitsMsbFirst n l = ofBitsMsbFirst n l') : l = l' := by
  have bound := msbFirstValue_lt l
  have bound' := msbFirstValue_lt l'
  rw [length] at bound
  rw [length'] at bound'
  have values := congrArg BitVec.toNat same
  rw [ofBitsMsbFirst_eq, ofBitsMsbFirst_eq, BitVec.toNat_ofNat, BitVec.toNat_ofNat, Nat.mod_eq_of_lt bound,
    Nat.mod_eq_of_lt bound'] at values
  exact msbFirstValue_inj (length.trans length'.symm) values

/-! ### The check (R5) -/

theorem checkOf_append (bits more : List Bool) : checkOf (bits ++ more) = more.foldl checkStep (checkOf bits) :=
  List.foldl_append

/-- A register that takes its own top bits in shifts them out. -/
theorem foldl_checkStep_own (r : BitVec 8) {k : Nat} (inside : k ≤ 8) :
    ((List.range k).map r.getMsbD).foldl checkStep r = r <<< k := by
  induction k with
  | zero => simp
  | succ k ih =>
    have top : (r <<< k).msb = r.getMsbD k := by
      rw [BitVec.msb_shiftLeft]
    rw [List.range_succ, List.map_append, List.foldl_append, ih (by omega)]
    simp [checkStep, top, BitVec.shiftLeft_add]

theorem checkOf_withCheck (body : List Bool) : checkOf (body ++ bitsMsbFirst (checkOf body)) = 0 := by
  rw [checkOf_append, bitsMsbFirst, foldl_checkStep_own _ (Nat.le_refl 8)]
  exact BitVec.shiftLeft_eq_zero (Nat.le_refl 8)

theorem checkOf_step (bits : List Bool) (x : Bool) : checkOf (bits ++ [x]) =
    if (checkOf bits).msb = x then checkOf bits <<< 1 else (checkOf bits <<< 1) ^^^ 0x2D#8 := by
  rw [checkOf_append]
  show checkStep _ x = _
  unfold checkStep
  cases (checkOf bits).msb <;> cases x <;> rfl

/-! ### Request frames (R2, R7) -/

theorem syncPattern_bits : bitsMsbFirst syncPattern = [false, false, false, true, true, false, true, true] := by decide

/-- The data field of a frame: 16 bits, or none. -/
def dataBits (data : Option Word) : List Bool := data.elim [] bitsMsbFirst

theorem requestBody_eq (station : Nat) (verb : Verb) (cell : Nat) (data : Option Word) :
    requestBody station verb cell data =
      bitsMsbFirst (BitVec.ofNat 5 station) ++ (bitsMsbFirst verb.code ++ (bitsMsbFirst (BitVec.ofNat 12 cell) ++ dataBits data)) := by
  unfold requestBody dataBits
  simp only [List.append_assoc]
  cases data <;> rfl

theorem requestBody_length (station : Nat) (verb : Verb) (cell : Nat) (data : Option Word) :
    (requestBody station verb cell data).length = if data.isSome then 35 else 19 := by
  rw [requestBody_eq]
  cases data <;> simp [dataBits]

theorem requestFrame_eq (station : Nat) (verb : Verb) (cell : Nat) (data : Option Word) :
    requestFrame station verb cell data = bitsMsbFirst syncPattern ++
      (requestBody station verb cell data ++ bitsMsbFirst (checkOf (requestBody station verb cell data))) := by
  simp only [requestFrame, List.append_assoc]

/-- The fields of a frame, at their places. -/
theorem requestFrame_fields (station : Nat) (verb : Verb) (cell : Nat) (data : Option Word) (frame : List Bool)
    (is : frame = requestFrame station verb cell data) :
    frame.length = (if data.isSome then 51 else 35) ∧
    frame.take 8 = [false, false, false, true, true, false, true, true] ∧
    ofBitsMsbFirst 5 (frame.drop 8 |>.take 5) = BitVec.ofNat 5 station ∧
    ofBitsMsbFirst 2 (frame.drop 13 |>.take 2) = verb.code ∧
    ofBitsMsbFirst 12 (frame.drop 15 |>.take 12) = BitVec.ofNat 12 cell ∧
    (∀ w, data = some w → ofBitsMsbFirst 16 (frame.drop 27 |>.take 16) = w) ∧
    ofBitsMsbFirst 8 (frame.drop (if data.isSome then 43 else 27)) =
      checkOf (frame.drop 8 |>.take (if data.isSome then 35 else 19)) ∧
    checkOf (frame.drop 8) = 0 := by
  have bodyLength := requestBody_length station verb cell data
  have behindSync : frame.drop 8 =
      requestBody station verb cell data ++ bitsMsbFirst (checkOf (requestBody station verb cell data)) := by
    rw [is, requestFrame_eq, List.drop_left' (bitsMsbFirst_length _)]
  have fields : frame = bitsMsbFirst syncPattern ++ (bitsMsbFirst (BitVec.ofNat 5 station) ++ (bitsMsbFirst verb.code ++
      (bitsMsbFirst (BitVec.ofNat 12 cell) ++ (dataBits data ++
        bitsMsbFirst (checkOf (requestBody station verb cell data)))))) := by
    rw [is, requestFrame_eq]
    nth_rw 1 [requestBody_eq]
    simp only [List.append_assoc]
  refine ⟨?_, ?_, ?_, ?_, ?_, fun w is => ?_, ?_, ?_⟩
  · rw [is, requestFrame_eq]
    cases data <;> simp [requestBody_length]
  · rw [is, requestFrame_eq, List.take_left' (bitsMsbFirst_length _), syncPattern_bits]
  · simp [fields]
  · simp [fields, List.drop_append, List.drop_eq_nil_of_le]
  · simp [fields, List.drop_append, List.drop_eq_nil_of_le]
  · simp [fields, List.drop_append, List.drop_eq_nil_of_le, is, dataBits]
  · rw [behindSync, List.take_left' bodyLength]
    have drops : frame.drop (if data.isSome then 43 else 27) = (frame.drop 8).drop (if data.isSome then 35 else 19) := by
      rw [List.drop_drop]
      split <;> rfl
    rw [drops, behindSync, List.drop_left' bodyLength, ofBitsMsbFirst_bitsMsbFirst]
  · rw [behindSync, checkOf_withCheck]

/-- Settles O11: the fields of every frame, the check step by step and over its own field, and the line in SEND. -/
theorem requestFramesAreWellFormed : Obligations.RequestFramesAreWellFormed := by
  refine ⟨requestFrame_fields, ⟨rfl, checkOf_step⟩, checkOf_withCheck, fun b => ⟨?ste, fun silent => ?silent,
    fun l sending tx => ?census, fun w sending tx => ?word⟩⟩
  case ste => exact decide_eq_true_iff
  case silent => exact if_neg silent
  case census => simp [Block.frameOut, sending, tx, Tx.frame]
  case word => simp [Block.frameOut, sending, tx, Tx.frame]

/-! ### Replies (R3, R4) -/

theorem lineSlice_eq {bits : List Bool} {lo n : Nat} (inside : lo + n ≤ bits.length) :
    lineSlice bits lo n = (bits.drop lo).take n := by
  refine List.ext_getElem (by simp [lineSlice]; omega) fun i h _ => ?_
  have at_ : i < n := by simpa [lineSlice] using h
  have onLine : lo + i < bits.length := by omega
  simp [lineSlice, lineAt, List.getD_eq_getElem?_getD, onLine]

theorem ofBitsMsbFirst_eq_one {code : List Bool} (length : code.length = 2) :
    ofBitsMsbFirst 2 code = 1 ↔ code = [false, true] := by
  obtain ⟨x, y, rfl⟩ := List.length_eq_two.mp length
  cases x <;> cases y <;> decide

/-- How a reply of this body and check field is judged, whatever follows it on the line. -/
theorem judgeReply_split {verb : Verb} {body check : List Bool} (tail : List Bool)
    (covers : body.length = if verb = .fetch ∧ body.take 2 = [false, true] then 18 else 2) (eight : check.length = 8) :
    judgeReply verb (body ++ check ++ tail) =
      if check ≠ bitsMsbFirst (checkOf body) then (.corrupt, 0)
      else if body.take 2 = [false, true] then
        (.done, if verb = .fetch then ofBitsMsbFirst 16 (body.drop 2) else 0)
      else if ofBitsMsbFirst 2 (body.take 2) = 2 then (.wait, 0)
      else if ofBitsMsbFirst 2 (body.take 2) = 3 then (.refused, 0)
      else (.corrupt, 0) := by
  have two : 2 ≤ body.length := by rw [covers]; split <;> decide
  have code : lineSlice (body ++ check ++ tail) 0 2 = body.take 2 := by
    rw [lineSlice_eq (by simp; omega), List.drop_zero, List.append_assoc, List.take_append_of_le_length two]
  have isDone : ofBitsMsbFirst 2 (body.take 2) = 1 ↔ body.take 2 = [false, true] :=
    ofBitsMsbFirst_eq_one (by simp [two])
  have covered : (if body.take 2 = [false, true] ∧ verb = .fetch then 18 else 2) = body.length := by
    simp only [covers, and_comm]
  have bodyBits : lineSlice (body ++ check ++ tail) 0 body.length = body := by
    rw [lineSlice_eq (by simp), List.drop_zero, List.append_assoc, List.take_left]
  have checkBits : lineSlice (body ++ check ++ tail) body.length 8 = check := by
    rw [lineSlice_eq (by simp; omega), List.append_assoc, List.drop_left, ← eight, List.take_left]
  have good : checkOf body = ofBitsMsbFirst 8 check ↔ ¬ check ≠ bitsMsbFirst (checkOf body) := by
    rw [not_not]
    constructor
    · exact fun same => ofBitsMsbFirst_inj eight (bitsMsbFirst_length _) (by rw [ofBitsMsbFirst_bitsMsbFirst, same])
    · exact fun same => by rw [same, ofBitsMsbFirst_bitsMsbFirst]
  have value (done : body.take 2 = [false, true]) (fetch : verb = .fetch) :
      lineSlice (body ++ check ++ tail) 2 16 = body.drop 2 := by
    have all : body.length = 18 := by simpa [done, fetch] using covers
    rw [lineSlice_eq (by simp; omega), List.append_assoc, List.drop_append_of_le_length two,
      List.take_left' (by simp [all])]
  unfold judgeReply
  simp only [code, isDone, covered, bodyBits, checkBits, good, not_not]
  by_cases done : body.take 2 = [false, true]
  · by_cases fetch : verb = .fetch
    · simp only [done, fetch, value done fetch]
    · simp only [done, fetch, if_false]
  · simp only [done, if_false]

/-- A well-checked reply is judged by its code. -/
theorem judgeReply_replyBits {verb : Verb} (code : BitVec 2) (data tail : List Bool)
    (covers : (bitsMsbFirst code ++ data).length = if verb = .fetch ∧ code = 1 then 18 else 2) :
    judgeReply verb (replyBits code data ++ tail) =
      if code = 1 then (.done, if verb = .fetch then ofBitsMsbFirst 16 data else 0)
      else if code = 2 then (.wait, 0) else if code = 3 then (.refused, 0) else (.corrupt, 0) := by
  have first : (bitsMsbFirst code ++ data).take 2 = bitsMsbFirst code := List.take_left' (bitsMsbFirst_length _)
  have isDone : bitsMsbFirst code = [false, true] ↔ code = 1 := by
    rw [← ofBitsMsbFirst_eq_one (bitsMsbFirst_length _), ofBitsMsbFirst_bitsMsbFirst]
  unfold replyBits
  rw [judgeReply_split tail (by simp only [first, isDone, covers]) (bitsMsbFirst_length _)]
  simp only [ne_eq, not_true, if_false, first, isDone, ofBitsMsbFirst_bitsMsbFirst,
    List.drop_left' (bitsMsbFirst_length code)]

/-- Settles O12: the four codes well checked, and a check field that is not the body's. -/
theorem repliesAreJudgedByCodeAndCheck : Obligations.RepliesAreJudgedByCodeAndCheck := by
  refine ⟨fun v tail => ?fetched, fun verb tail other => ?done, fun verb tail => ⟨?wait, ?refused, ?unused⟩,
    fun verb body check tail covers eight wrong => ?wrong⟩
  case fetched =>
    rw [judgeReply_replyBits 1 (bitsMsbFirst v) tail (by simp)]
    simp
  case done =>
    rw [judgeReply_replyBits 1 [] tail (by simp [other])]
    simp [other]
  case wait => exact judgeReply_replyBits 2 [] tail (by simp)
  case refused => exact judgeReply_replyBits 3 [] tail (by simp)
  case unused => exact judgeReply_replyBits 0 [] tail (by simp)
  case wrong => rw [judgeReply_split tail covers eight, if_pos wrong]

end Sys2Proof.Machine

/-! The List Store and its entries (chapter 6): the port LDAT, and what the engine reads at its cursor. -/

namespace Sys2Proof.Machine

/-! ### LDAT (R95 to R97) -/

theorem answers_ldat {c : Instr} {b : Block} {q : List Instr} {f held : Block → Block} (operates : b.operating = true)
    (meaning : exec c ⟨b, q⟩ = State.become (Block.accessLdat f held) ⟨b, q⟩) : Answers c ⟨b, q⟩ (f b) := by
  have answer : Answers c ⟨b, q⟩ (b.accessLdat f held) := answers_become meaning
  rwa [show b.accessLdat f held = f b from if_pos operates] at answer

/-- A store that is written below its end and read again (R94). -/
theorem Memory.read_write (m : Memory) {a : Nat} (w : Word) (canonical : m.wf) (inside : a < 4096) (x : Nat) :
    (m.write a w).read x = if x = a then w else m.read x := by
  by_cases same : x = a
  · rw [same, if_pos rfl, Memory.read_write_same w canonical inside]
  · rw [if_neg same, Memory.read_write_other m w same]

/-- Settles O40. -/
theorem listStorePort : Obligations.ListStorePort := by
  intro b q v operates
  have written := answers_ldat (c := .ldatWrite v) (q := q) (f := fun b => b.writeLdat v) (held := Block.ignored)
    operates rfl
  refine ⟨answers_ldat (f := Block.readLdat) (held := Block.readHeld) operates rfl, fun canonical rests => ?write,
    fun idle halted => ?refused⟩
  case write =>
    rw [show b.writeLdat v = (b.storePut b.le.lptr.toNat v).advanceLptr from if_pos rests] at written
    exact ⟨_, written, rfl, Memory.read_write _ v canonical b.le.lptr.isLt⟩
  case refused =>
    rwa [show b.writeLdat v = b.advanceLptr.refuse .listBusy from if_neg (not_or.mpr ⟨idle, halted⟩)] at written

/-! ### Entries (R100 to R108) -/

theorem Verb.code_ofCode (c : BitVec 2) : (Verb.ofCode c).code = c := by revert c; decide

theorem entryMode_eq (c : BitVec 2) (own : DataMode) :
    entryMode (Verb.ofCode c) own = if c.toNat ≤ 1 then own else .noData := by revert c; cases own <;> decide

theorem headerDesc_eq (h w1 w2 : Word) (count : Nat) (advance : Advance) (mode : DataMode) :
    headerDesc h w1 w2 count advance mode =
      { form := if h.bit 12 then .window else .station
        station := if h.bit 12 then 0 else w1.toNat % 32
        start := if h.bit 12 then w1.toNat else w2.toNat % 4096
        verb := Verb.ofCode (h.field 10 2), count := count, advance := advance, wait := WaitPolicy.ofCode (h.field 8 2)
        tolerant := h.bit 7, retries := (h.field 4 3).toNat, mode := mode } := by
  unfold headerDesc Form.ofBit
  cases h.bit 12 <;> rfl

/-- The words of an entry's kind, in the store below its end. -/
theorem kind_cases (kind : BitVec 3) : kind = 0 ∨ kind = 1 ∨ kind = 2 ∨ kind = 3 ∨ kind = 4 ∨ 5 ≤ kind.toNat := by
  revert kind; decide

/-- The data mode of a RUN entry with this header (R102). -/
def runMode (h : Word) : DataMode := if (h.field 10 2).toNat ≤ 1 then (if h.bit 2 then .fifo else .inline) else .noData

theorem runMode_inline_iff (h : Word) : runMode h = .inline ↔ (h.field 10 2).toNat ≤ 1 ∧ h.bit 2 = false := by
  unfold runMode
  by_cases data : (h.field 10 2).toNat ≤ 1
  · cases h.bit 2 <;> simp only [data, true_and] <;> decide
  · simp only [data, if_false, false_and, reduceCtorEq]

/-- The length of a RUN entry with this header and count (R103). -/
def runLength (h : Word) (count : Nat) : Nat := if runMode h = .inline then 4 + count else 4

theorem runEntry_eq (rd : Nat → Word) (a : Nat) : runEntry rd a =
    if (rd (a + 3)).toNat = 0 ∨ 4096 ≤ (rd (a + 3)).toNat ∨ 4096 < a + runLength (rd a) (rd (a + 3)).toNat then .malformed
    else .run (headerDesc (rd a) (rd (a + 1)) (rd (a + 2)) (rd (a + 3)).toNat (Advance.ofBit ((rd a).bit 3)) (runMode (rd a)))
      (runLength (rd a) (rd (a + 3)).toNat) (a + 4) := by
  unfold runEntry
  simp only [entryMode_eq]
  by_cases count : (rd (a + 3)).toNat = 0 ∨ 4096 ≤ (rd (a + 3)).toNat
  · rw [if_pos count, if_pos (by omega)]
  · rw [if_neg count]
    simp only [not_or] at count
    simp only [count, false_or]
    rfl

section Entries

variable {rd : Nat → Word} {a : Nat}

theorem entryAt_end (inside : a < 4096) (kind : (rd a).field 13 3 = 0) : entryAt rd a = .endOfList := by
  unfold entryAt
  rw [kind]
  exact if_neg (Nat.not_le.mpr inside)

theorem entryAt_single (kind : (rd a).field 13 3 = 1) :
    entryAt rd a = if 4093 ≤ a then .malformed else singleEntry rd a := by
  unfold entryAt
  rw [kind]
  by_cases outside : 4096 ≤ a
  · exact (if_pos outside).trans (if_pos (by omega)).symm
  · exact if_neg outside

theorem entryAt_run (kind : (rd a).field 13 3 = 2) :
    entryAt rd a = if 4093 ≤ a then .malformed else runEntry rd a := by
  unfold entryAt
  rw [kind]
  by_cases outside : 4096 ≤ a
  · exact (if_pos outside).trans (if_pos (by omega)).symm
  · exact if_neg outside

theorem entryAt_pause (kind : (rd a).field 13 3 = 3) :
    entryAt rd a = if 4095 ≤ a ∨ rd (a + 1) = 0 then .malformed else .pause (rd (a + 1)).toNat := by
  unfold entryAt
  rw [kind]
  by_cases outside : 4096 ≤ a
  · exact (if_pos outside).trans (if_pos (by omega)).symm
  · exact if_neg outside

theorem entryAt_mark (kind : (rd a).field 13 3 = 4) :
    entryAt rd a = if 4095 ≤ a then .malformed else .mark (rd (a + 1)) := by
  unfold entryAt
  rw [kind]
  by_cases outside : 4096 ≤ a
  · exact (if_pos outside).trans (if_pos (by omega)).symm
  · exact if_neg outside

theorem entryAt_unknown (kind : 5 ≤ ((rd a).field 13 3).toNat) : entryAt rd a = .malformed := by
  have other (k : BitVec 3) (small : k.toNat < 5) : (rd a).field 13 3 ≠ k := by rintro same; rw [same] at kind; omega
  simp only [entryAt, other 0 (by decide), other 1 (by decide), other 2 (by decide), other 3 (by decide),
    other 4 (by decide), if_false, ite_self]

/-! Which entry of each kind is malformed -/

theorem singleEntry_formed : singleEntry rd a ≠ .malformed := Entry.noConfusion

theorem entryAt_end_malformed_iff (kind : (rd a).field 13 3 = 0) : entryAt rd a = .malformed ↔ 4096 ≤ a := by
  rcases Nat.lt_or_ge a 4096 with below | outside
  · simp only [entryAt_end below kind, reduceCtorEq, Nat.not_le.mpr below]
  · exact iff_of_true (if_pos outside) outside

theorem entryAt_single_malformed_iff (kind : (rd a).field 13 3 = 1) : entryAt rd a = .malformed ↔ 4093 ≤ a := by
  rw [entryAt_single kind]
  by_cases near : 4093 ≤ a
  · simp only [near, if_true]
  · simp only [near, if_false, singleEntry_formed]

theorem entryAt_run_malformed_iff (kind : (rd a).field 13 3 = 2) : entryAt rd a = .malformed ↔
    4093 ≤ a ∨ (rd (a + 3)).toNat = 0 ∨ 4096 ≤ (rd (a + 3)).toNat ∨
      (((rd a).field 10 2).toNat ≤ 1 ∧ (rd a).bit 2 = false ∧ 4096 < a + 4 + (rd (a + 3)).toNat) := by
  rw [entryAt_run kind, runEntry_eq, ← and_assoc, ← runMode_inline_iff, runLength]
  by_cases near : 4093 ≤ a
  · simp only [near, if_true, true_or]
  · by_cases inline : runMode (rd a) = .inline
    · simp only [near, inline, if_false, if_true, false_or, true_and, ← Nat.add_assoc, ite_eq_left_iff, reduceCtorEq,
        imp_false, not_not]
    · simp only [near, inline, if_false, false_or, false_and, or_false, ite_eq_left_iff, reduceCtorEq, imp_false, not_not]
      omega

theorem entryAt_pause_malformed_iff (kind : (rd a).field 13 3 = 3) :
    entryAt rd a = .malformed ↔ 4095 ≤ a ∨ (rd (a + 1)).toNat = 0 := by
  have zero : rd (a + 1) = 0 ↔ (rd (a + 1)).toNat = 0 := BitVec.toNat_eq
  simp only [entryAt_pause kind, zero, ite_eq_left_iff, reduceCtorEq, imp_false, not_not]

theorem entryAt_mark_malformed_iff (kind : (rd a).field 13 3 = 4) : entryAt rd a = .malformed ↔ 4095 ≤ a := by
  rw [entryAt_mark kind]
  simp only [ite_eq_left_iff, reduceCtorEq, imp_false, not_not]

end Entries

/-- Settles O42, by the kind of the entry. -/
theorem malformedEntries : Obligations.MalformedEntries := by
  rintro rd a _ inside rfl
  refine ⟨?malformed, ?described, fun formed kind => ?pause, fun formed kind => ?mark, entryAt_end⟩
  case malformed =>
    rcases kind_cases ((rd a).field 13 3) with kind | kind | kind | kind | kind | kind
    · rw [entryAt_end_malformed_iff kind, kind]; simp; omega
    · rw [entryAt_single_malformed_iff kind, kind]; simp; omega
    · rw [entryAt_run_malformed_iff kind, kind]
      generalize (rd a).bit 2 = fifo
      cases fifo <;> simp <;> omega
    · rw [entryAt_pause_malformed_iff kind, kind]; simp; omega
    · rw [entryAt_mark_malformed_iff kind, kind]; simp; omega
    · exact iff_of_true (entryAt_unknown kind) (.inr (.inl kind))
  case pause =>
    rw [entryAt_pause kind] at formed ⊢
    exact if_neg fun bad => formed (if_pos bad)
  case mark =>
    rw [entryAt_mark kind] at formed ⊢
    exact if_neg fun bad => formed (if_pos bad)
  case described =>
    rintro formed (kind | kind)
    · have read : entryAt rd a = singleEntry rd a := by
        rw [entryAt_single kind] at formed ⊢
        exact if_neg fun bad => formed (if_pos bad)
      refine ⟨_, _, _, read, ?_⟩
      simp only [headerDesc_eq, entryMode_eq, Verb.code_ofCode, kind, true_and, and_self]
      exact ⟨fun _ => trivial, fun two => absurd two (by decide)⟩
    · have read : entryAt rd a = .run
          (headerDesc (rd a) (rd (a + 1)) (rd (a + 2)) (rd (a + 3)).toNat (Advance.ofBit ((rd a).bit 3)) (runMode (rd a)))
          (runLength (rd a) (rd (a + 3)).toNat) (a + 4) := by
        rw [entryAt_run kind, runEntry_eq] at formed ⊢
        have fits : ¬ 4093 ≤ a := fun bad => formed (if_pos bad)
        rw [if_neg fits] at formed ⊢
        exact if_neg fun bad => formed (if_pos bad)
      refine ⟨_, _, _, read, ?_⟩
      simp only [headerDesc_eq, Verb.code_ofCode, kind, true_and]
      exact ⟨fun one => absurd one (by decide), fun _ => ⟨rfl, rfl, rfl⟩⟩

end Sys2Proof.Machine

/-! The Segment Master (chapter 1): frames and replies, failed attempts, and what the end of a gap brings. -/

namespace Sys2Proof.Machine

/-! ### Frames and replies (R3, R13, R14, R16) -/

section Wire

variable {b : Block} {q : List Instr}

theorem answers_frameSent (operates : b.operating = true) :
    Answers .frameSent ⟨b, q⟩ (b.frameSent (State.accessBehind ⟨b, q⟩)) :=
  answers_operating (f := fun b' => b'.frameSent (State.accessBehind ⟨b, q⟩)) operates rfl

theorem WordTx.isBroadcast_iff (w : WordTx) : w.isBroadcast = true ↔ w.station = 31 ∧ w.verb ≠ .fetch := by
  simp [WordTx.isBroadcast]

theorem Block.onAwait_word {w : WordTx} (phase : b.sm.phase = .await) (tx : b.sm.tx = some (.word w))
    (f : WordTx → Block) : b.onAwait f = f w := by
  simp only [Block.onAwait, phase, tx]

theorem Block.onAwait_elsewhere (phase : b.sm.phase ≠ .await) (f : WordTx → Block) : b.onAwait f = b := by
  unfold Block.onAwait
  split
  · next awaits _ => exact absurd awaits phase
  · rfl

end Wire

/-- Settles O13. -/
theorem framesGoOutAndRepliesArrive : Obligations.FramesGoOutAndRepliesArrive := by
  intro b q operates
  have sent := answers_frameSent (q := q) operates
  refine ⟨fun w phase tx single => ?frame, fun l phase tx => ?census, fun w phase tx => ?sync, fun w phase tx timing => ?waits,
    answers_operating (f := id) operates rfl, fun bits phase => ?discarded⟩
  case frame =>
    have notBroadcast : w.isBroadcast = false := by rw [← Bool.not_eq_true, WordTx.isBroadcast_iff]; exact single
    simpa only [Block.frameSent, phase, tx, notBroadcast, Bool.false_eq_true, if_false] using sent
  case census => simpa only [Block.frameSent, phase, tx] using sent
  case sync =>
    have answer := answers_operating (c := .replyStart) (q := q) (f := fun b => b.replyStart) operates rfl
    rwa [Block.replyStart, Block.onAwait_word phase tx] at answer
  case waits =>
    have answer := answers_operating (c := .replyTimeout true) (q := q) (f := fun b => b.replyTimeout true) operates rfl
    rwa [Block.replyTimeout, Block.onAwait_word phase tx, if_pos timing, if_pos rfl] at answer
  case discarded =>
    have answer := answers_operating (c := .replyEnd bits) (q := q)
      (f := fun b' => b'.replyEnd bits (State.accessBehind ⟨b, q⟩)) operates rfl
    rwa [Block.replyEnd, Block.onAwait_elsewhere phase] at answer

/-! ### Failed attempts (R14, R15, R18) -/

/-- The three ways an attempt can fail. -/
theorem answers_failedAttempt {b : Block} {q : List Instr} {w : WordTx} {c : Instr} {e : Ending}
    (operates : b.operating = true) (phase : b.sm.phase = .await) (tx : b.sm.tx = some (.word w))
    (fails : (c = .replyTimeout false ∧ b.sm.timing = true ∧ e = .silent) ∨
      (c = .syncBreakOff ∧ b.sm.partialSync = true ∧ e = .silent) ∨
      (∃ bits, c = .replyEnd bits ∧ (judgeReply w.verb bits).1 = .corrupt ∧ e = .corrupt)) :
    Answers c ⟨b, q⟩ { b with sm := b.sm.endAttempt w e } := by
  rcases fails with ⟨rfl, timing, rfl⟩ | ⟨rfl, broken, rfl⟩ | ⟨bits, rfl, judged, rfl⟩
  · have answer := answers_operating (c := .replyTimeout false) (q := q) (f := fun b => b.replyTimeout false) operates rfl
    rwa [Block.replyTimeout, Block.onAwait_word phase tx, if_pos timing, if_neg Bool.false_ne_true] at answer
  · have answer := answers_operating (c := .syncBreakOff) (q := q) (f := fun b => b.syncBreakOff) operates rfl
    rwa [Block.syncBreakOff, Block.onAwait_word phase tx, if_pos broken] at answer
  · have answer := answers_operating (c := .replyEnd bits) (q := q)
      (f := fun b' => b'.replyEnd bits (State.accessBehind ⟨b, q⟩)) operates rfl
    rw [Block.replyEnd, Block.onAwait_word phase tx] at answer
    simp only [judged] at answer
    exact answer

theorem Sm.endAttempt_failed (s : Sm) (w : WordTx) {e : Ending} (failure : e = .silent ∨ e = .corrupt) :
    s.endAttempt w e =
      if w.retriesUsed < w.retryLimit ∧ w.final = false then
        { s.enterGap .recovery .retry with
          tx := some (.word { w with latest := some e, retriesUsed := w.retriesUsed + 1 }) }
      else { s.enterGap .recovery .deliver with tx := some (.word { w with latest := some e }) } := by
  rcases failure with rfl | rfl <;> rfl

/-- Settles O15, by the retries left. -/
theorem failedAttemptsRetryOrDeliver : Obligations.FailedAttemptsRetryOrDeliver := by
  intro b q w c e operates phase tx fails
  have answer := answers_failedAttempt (q := q) operates phase tx fails
  have failure : e = .silent ∨ e = .corrupt := by
    rcases fails with ⟨_, _, rfl⟩ | ⟨_, _, rfl⟩ | ⟨_, _, _, rfl⟩ <;> simp
  refine ⟨fun left notFinal => ?retry, fun noneLeft => ?deliver⟩
  case retry =>
    rwa [Sm.endAttempt_failed b.sm w failure, if_pos ⟨left, notFinal⟩] at answer
  case deliver =>
    have noRetry : ¬ (w.retriesUsed < w.retryLimit ∧ w.final = false) := by
      rintro ⟨left, notFinal⟩
      rcases noneLeft with used | final
      · omega
      · simp [final] at notFinal
    rwa [Sm.endAttempt_failed b.sm w failure, if_neg noRetry] at answer

/-! ### Rest behind a gap, and the arbiter (R17, R22) -/

/-- The Segment Master has left its last gap for IDLE or OFF, and nothing has been granted yet. -/
def Block.rested (b : Block) : Block := { b with sm := b.sm.enterRest }

/-- No request is pending, of any requester. -/
structure Sm.Unasked (s : Sm) : Prop where
  census : s.pendCensus = false
  clients : ∀ c, s.request c = none

theorem Sm.Unasked.nextClient {s : Sm} (unasked : s.Unasked) : s.nextClient = none := by
  simp [Sm.nextClient, unasked.clients]

theorem Sm.enterRest_request (s : Sm) (c : Client) : s.enterRest.request c = s.request c := by cases c <;> rfl

theorem Sm.Unasked.enterRest {s : Sm} (unasked : s.Unasked) : s.enterRest.Unasked :=
  ⟨unasked.census, fun c => (s.enterRest_request c).trans (unasked.clients c)⟩

theorem Block.arbitrate_unasked {b : Block} (unasked : b.sm.Unasked) : b.arbitrate = b := by
  unfold Block.arbitrate
  simp only [unasked.census, unasked.nextClient, Bool.false_eq_true, if_false, ite_self]

theorem answers_gapEnd {b : Block} (q : List Instr) (operates : b.operating = true) : Answers .gapEnd ⟨b, q⟩ b.gapEnd :=
  answers_operating (f := fun b => b.gapEnd) operates rfl

theorem Block.gapEnd_of_rest {b : Block} (phase : b.sm.phase = .gap) (after : b.sm.after = .rest) :
    b.gapEnd = b.rested.arbitrate := by
  unfold Block.gapEnd
  rw [if_pos phase]
  simp only [after]
  rfl

/-- Settles O17: the arbiter's judgement of the Segment Master that has come to rest. -/
theorem arbiterGrantsInRotation : Obligations.ArbiterGrantsInRotation := by
  intro b q operates phase after segen
  have answer := answers_gapEnd q operates
  rw [Block.gapEnd_of_rest phase after] at answer
  have idle : b.rested.sm.phase = .idle := if_pos segen
  obtain ⟨-, census, rotation⟩ := Block.arbitrate_judged (b := b.rested) segen
  refine ⟨fun pending => ?census, fun c r noCensus pending turn => ?granted, fun noCensus none => ?idle⟩
  case census =>
    rw [census idle pending] at answer
    dsimp only
    rw [after]
    exact answer
  case granted =>
    simp only [Block.rested, Sm.enterRest_request] at rotation
    rw [Block.rested, rotation c r idle noCensus pending turn] at answer
    refine ⟨_, answer, rfl, rfl, by cases c <;> rfl, fun d other => ?_, rfl, rfl,
      ⟨_, rfl, rfl, rfl, rfl, rfl, rfl, rfl, rfl, rfl, ?_⟩, rfl, rfl, rfl, rfl, rfl, rfl⟩
    · cases c <;> cases d <;> first | rfl | exact absurd rfl other
    · refine ⟨fun source => ?_, fun source => ?_, fun x source => ?_, fun source => ?_, fun a source => ?inline⟩
      case inline =>
        simp only [source]
        rfl
      all_goals simp only [source]
  case idle =>
    rw [Block.arbitrate_unasked (Sm.Unasked.enterRest ⟨noCensus, none⟩), Block.rested, Sm.enterRest, if_pos segen] at answer
    dsimp only
    rw [after]
    exact answer

end Sys2Proof.Machine

/-! The Direct Unit's commands, the timers of either owner's run and the end of a run's stall (chapters 2 and 5): what
each does, by the sub-state it finds the run in. -/

namespace Sys2Proof.Machine

/-! ### ABORT (R45, R46, R86) -/

theorem Block.directAbort_eq (b : Block) : b.directAbort = Block.directProgress (b.abortRun .direct) := by
  unfold Block.directAbort
  split
  · rfl
  · next idle =>
    have ended : b.du.run.sub = .ended := by simpa [Du.busy] using idle
    simp only [Block.abortRun, Block.run, ended]
    rfl

theorem Block.abortRun_of_inFlight {b : Block} {o : Owner} (sub : (b.run o).sub = .inFlight) :
    b.abortRun o = (b.setRun o { b.run o with sub := .aborting }, none) := by simp only [Block.abortRun, sub]

theorem Block.abortRun_of_requesting {b : Block} {o : Owner} (sub : (b.run o).sub = .requesting) :
    b.abortRun o = (b.withdraw (clientOf o), some .aborted) := by simp only [Block.abortRun, sub]

theorem Block.abortRun_of_waiting {b : Block} {o : Owner} (sub : (b.run o).sub = .preparing ∨ (b.run o).sub = .stalled) :
    b.abortRun o = (b, some .aborted) := by
  rcases sub with sub | sub <;> simp only [Block.abortRun, sub]

theorem Block.abortRun_of_done {b : Block} {o : Owner} (sub : (b.run o).sub = .ended ∨ (b.run o).sub = .aborting) :
    b.abortRun o = (b, none) := by
  rcases sub with sub | sub <;> simp only [Block.abortRun, sub]

theorem answers_dcmdAbort {b : Block} (q : List Instr) (operates : b.operating = true) :
    Answers .dcmdAbort ⟨b, q⟩ (Block.directProgress (b.abortRun .direct)) := by
  rw [← Block.directAbort_eq]
  exact answers_operating (f := fun b => b.directAbort) operates rfl

/-- Settles O27, by the sub-state of the Direct Unit's run. -/
theorem directAbort : Obligations.DirectAbort := by
  intro b q operates
  have answer := answers_dcmdAbort q operates
  refine ⟨fun sub => ?inFlight, fun sub => ⟨_, answer, ?requesting⟩, fun sub => ⟨_, answer, ?stalled⟩, fun sub => ?done⟩
  case inFlight =>
    rw [Block.abortRun_of_inFlight (o := .direct) sub] at answer
    exact answer
  case requesting =>
    rw [Block.abortRun_of_requesting (o := .direct) sub]
    exact Block.directEnd_ends _ .aborted
  case stalled =>
    rw [Block.abortRun_of_waiting (o := .direct) (.inr sub)]
    exact Block.directEnd_ends _ .aborted
  case done =>
    rw [Block.abortRun_of_done (o := .direct) sub] at answer
    exact answer

/-! ### The timers of a run (R42 to R44) -/

theorem answers_persistExpiry {b : Block} (q : List Instr) (o : Owner) (operates : b.operating = true) :
    Answers (.persistExpiry o) ⟨b, q⟩ (b.expirePersist o) :=
  answers_operating (f := fun b => b.expirePersist o) operates rfl

theorem answers_runStallExpiry {b : Block} (q : List Instr) (o : Owner) (operates : b.operating = true) :
    Answers (.runStallExpiry o) ⟨b, q⟩ (b.expireRunStall o) :=
  answers_operating (f := fun b => b.expireRunStall o) operates rfl

theorem Block.expirePersist_of_inFlight {b : Block} {o : Owner} {n : Nat} (runs : (b.run o).persist = some n)
    (sub : (b.run o).sub = .inFlight) :
    b.expirePersist o = b.setRun o { b.run o with persist := none, held := true } := by
  simp only [Block.expirePersist, runs, sub]

theorem Block.expirePersist_of_aborting {b : Block} {o : Owner} {n : Nat} (runs : (b.run o).persist = some n)
    (sub : (b.run o).sub = .aborting) : b.expirePersist o = b.setRun o { b.run o with persist := none } := by
  simp only [Block.expirePersist, runs, sub]

theorem Block.expirePersist_of_requesting {b : Block} {o : Owner} {n : Nat} (runs : (b.run o).persist = some n)
    (sub : (b.run o).sub = .requesting) :
    b.expirePersist o = Block.takeProgress o (b.withdraw (clientOf o), some .deadline) := by
  simp only [Block.expirePersist, runs, sub]

/-- Settles O28: each expiry by whether its timer runs and by the run's sub-state. -/
theorem runTimersExpire : Obligations.RunTimersExpire := by
  intro b q o n operates
  have persist := answers_persistExpiry q o operates
  have stall := answers_runStallExpiry q o operates
  refine ⟨fun off => ?persistOff, fun runs => ⟨fun sub => ?inFlight, fun sub => ?aborting, fun sub => ?requesting⟩,
    fun off => ?stallOff, fun sub runs => ?stalled⟩
  case persistOff =>
    simp only [Block.expirePersist, off] at persist
    exact persist
  case inFlight =>
    rwa [Block.expirePersist_of_inFlight runs sub] at persist
  case aborting =>
    rwa [Block.expirePersist_of_aborting runs sub] at persist
  case requesting =>
    rw [Block.expirePersist_of_requesting runs sub] at persist
    exact ⟨_, persist, Block.takeProgress_ends _ o (by simp) (.inl rfl)⟩
  case stallOff =>
    rwa [Block.expireRunStall, if_neg fun ⟨stalled, runs⟩ => by rcases off with off | off <;> simp_all] at stall
  case stalled =>
    rw [Block.expireRunStall, if_pos ⟨sub, by simp [runs]⟩] at stall
    exact ⟨_, stall, Block.takeProgress_ends b o (by simp) (.inl rfl)⟩

/-! ### A word that is prepared and posted -/

/-- A word with a target and with its data or room, prepared while SEGEN is 1, is posted; it waits unless the Segment
Master is IDLE (R29 to R34). -/
theorem Block.Prepares.posted {b b' : Block} {o : Owner} {station cell : Nat} (prepares : b.Prepares o b')
    (fresh : (b.run o).fullSeen = false)
    (target : b.sd.target (b.run o).desc (b.run o).index = .ok (station, cell)) (ready : b.dataReady (b.run o).desc)
    (segen : b.sm.segen = true) (busy : b.sm.phase ≠ .idle) : b' = b.wordPosted o station cell := by
  obtain ⟨-, found⟩ := prepares fresh
  obtain ⟨⟨-, posts⟩, -⟩ := found station cell target
  obtain ⟨waits, -⟩ := posts ready segen
  exact waits (by cases o <;> exact busy)

theorem RunDesc.cellAt_step {d : RunDesc} (step : d.advance = .step) (i : Nat) : d.cellAt i = d.start + i := if_pos step

theorem RunDesc.cellAt_fixed {d : RunDesc} (fixed : d.advance = .fixed) (i : Nat) : d.cellAt i = d.start := by
  simp [RunDesc.cellAt, fixed]

theorem Sd.target_station (sd : Sd) {d : RunDesc} (form : d.form = .station) (i : Nat) :
    sd.target d i = if 4095 < d.cellAt i then .error .cellEnd else .ok (d.station, d.cellAt i) := by
  cases advance : d.advance with
  | step => simp only [Sd.target, form, advance, RunDesc.cellAt_step advance]
  | fixed => simp only [Sd.target, form, advance, RunDesc.cellAt_fixed advance]

theorem Sd.target_window (sd : Sd) {d : RunDesc} (form : d.form = .window) (i : Nat) :
    sd.target d i = if 65535 < d.cellAt i then .error .unmapped
      else (sd.decode (d.cellAt i)).elim (.error .unmapped) .ok := by
  cases advance : d.advance with
  | step =>
    rw [RunDesc.cellAt_step advance]
    cases found : sd.decode (d.start + i) <;> simp only [Sd.target, form, advance, found, Option.elim]
  | fixed =>
    rw [RunDesc.cellAt_fixed advance]
    cases found : sd.decode d.start <;> simp only [Sd.target, form, advance, found, Option.elim]

/-- A STATION-form word up to cell 4095 has its target. -/
theorem Sd.target_cell (sd : Sd) {d : RunDesc} {i : Nat} (form : d.form = .station) (inside : d.cellAt i ≤ 4095) :
    sd.target d i = .ok (d.station, d.cellAt i) := by
  rw [Sd.target_station sd form, if_neg (by omega)]

theorem RunDesc.storesFifo_of_mode {d : RunDesc} (mode : d.mode ≠ .fifo) : d.storesFifo = false := by
  simp [RunDesc.storesFifo, mode]

theorem RunDesc.fetchesFifo_of_mode {d : RunDesc} (mode : d.mode ≠ .fifo) : d.fetchesFifo = false := by
  simp [RunDesc.fetchesFifo, mode]

/-- A run without a FIFO waits for no word and no room. -/
theorem Block.dataReady_of_mode {b : Block} {d : RunDesc} (mode : d.mode ≠ .fifo) : b.dataReady d :=
  ⟨by simp [RunDesc.storesFifo_of_mode mode], by simp [RunDesc.fetchesFifo_of_mode mode]⟩

end Sys2Proof.Machine

/-! GO (chapter 5): when it is refused, what it takes, how its run starts, and the start checks that its description can
fail. -/

namespace Sys2Proof.Machine

theorem Block.directGo_of_busy {b : Block} (busy : b.du.run.sub ≠ .ended) : b.directGo = b.refuse .directBusy := by
  unfold Block.directGo
  exact if_pos (by simpa [Du.busy] using busy)

theorem Block.directGo_of_claimed {b : Block} {side : FifoSide} (idle : b.du.run.sub = .ended)
    (needs : b.du.describe.fifoSide = some side) (held : (b.fifo side).claim = .list) :
    b.directGo =
      Block.setCondition { b with du := { b.du with word := 0, outcome := .claimed, run := Run.fresh } } .ddone := by
  unfold Block.directGo
  rw [if_neg (by simp [Du.busy, idle])]
  simp only [needs, held, if_true]
  rfl

/-- The run of a GO that has its claim, about to be checked and to prepare its word 0. -/
def Block.goStarted (b : Block) : Block := b.goTaken.setRun .direct { b.goTaken.run .direct with sub := .preparing }

/-- The List Engine holds no FIFO that the description needs (R55, R84). -/
structure Block.ClaimFree (b : Block) (d : RunDesc) : Prop where
  stores : d.storesFifo = true → b.fp.out.claim ≠ .list
  fetches : d.fetchesFifo = true → b.fp.inb.claim ≠ .list

theorem Block.ClaimFree.of_mode {b : Block} {d : RunDesc} (mode : d.mode ≠ .fifo) : b.ClaimFree d :=
  ⟨by simp [RunDesc.storesFifo_of_mode mode], by simp [RunDesc.fetchesFifo_of_mode mode]⟩

theorem Block.directGo_of_free {b : Block} (idle : b.du.run.sub = .ended) (free : b.ClaimFree b.du.describe) :
    b.directGo = Block.directProgress (b.goStarted.startRun .direct) := by
  unfold Block.directGo
  rw [if_neg (by simp [Du.busy, idle])]
  by_cases stores : b.du.describe.storesFifo = true
  · have side : b.du.describe.fifoSide = some .outbound := by rw [RunDesc.fifoSide_eq, if_pos stores]
    have taken : b.goStarted = b.directSnapshot.setClaim .outbound .direct := by
      simp only [Block.goStarted, Block.goTaken, stores]
      rfl
    simp only [side]
    rw [if_neg (show ¬(b.fifo .outbound).claim = .list from free.stores stores), taken]
  · by_cases fetches : b.du.describe.fetchesFifo = true
    · have side : b.du.describe.fifoSide = some .inbound := by rw [RunDesc.fifoSide_eq, if_neg stores, if_pos fetches]
      have taken : b.goStarted = b.directSnapshot.setClaim .inbound .direct := by
        simp only [Block.goStarted, Block.goTaken, stores, fetches]
        rfl
      simp only [side]
      rw [if_neg (show ¬(b.fifo .inbound).claim = .list from free.fetches fetches), taken]
    · have side : b.du.describe.fifoSide = none := by rw [RunDesc.fifoSide_eq, if_neg stores, if_neg fetches]
      have taken : b.goStarted = b.directSnapshot := by
        simp only [Block.goStarted, Block.goTaken, stores, fetches]
        rfl
      simp only [side]
      rw [taken]

theorem answers_dcmdGo {b : Block} (q : List Instr) (operates : b.operating = true) :
    Answers .dcmdGo ⟨b, q⟩ b.directGo.listReadBehind :=
  answers_operating (f := fun b => b.directGo.listReadBehind) operates rfl

/-- A GO that has its claim and passes the start checks prepares word 0 (R83). -/
theorem Block.directGo_prepares {b : Block} (idle : b.du.run.sub = .ended) (free : b.ClaimFree b.du.describe)
    (passes : b.du.describe.fails .direct = false) : b.goTaken.Prepares .direct b.directGo := by
  have checked : b.goStarted.startRun .direct = b.goStarted.prepare .direct :=
    if_neg (by rw [show (b.goStarted.run .direct).desc = b.du.describe from rfl, passes]; decide)
  rw [Block.directGo_of_free idle free, checked]
  exact Block.Prepares.of_sub (s := .preparing) (b.goStarted.prepare_prepares .direct)

/-- A GO that has its claim and fails the start checks ends ILLEGAL (R84). -/
theorem Block.directGo_illegal {b : Block} (idle : b.du.run.sub = .ended) (free : b.ClaimFree b.du.describe)
    (fails : b.du.describe.fails .direct = true) : b.goTaken.DirectEnds .illegal b.directGo := by
  have checked : b.goStarted.startRun .direct = (b.goStarted, some .illegal) := if_pos fails
  rw [Block.directGo_of_free idle free, checked]
  exact b.goStarted.directEnd_ends .illegal

/-- Behind a host access that leaves the engine not between two entries nothing is read. -/
theorem Block.listReadBehind_of_not {b : Block} (elsewhere : b.le.reading = false) : b.listReadBehind = b :=
  b.listReadBehind_reads.1 elsewhere

/-- A GO without a FIFO takes no claim. -/
theorem Block.goTaken_of_mode {b : Block} (mode : b.du.describe.mode ≠ .fifo) : b.goTaken =
    { b with du := { b.du with
      word := b.du.ddat, outcome := .inProgress, run := { Run.fresh with desc := b.du.describe } } } := by
  simp [Block.goTaken, RunDesc.storesFifo_of_mode mode, RunDesc.fetchesFifo_of_mode mode]

theorem Du.describe_start {d : Du} (form : d.describe.form = .station) : d.describe.start = d.dcel.toNat := by
  unfold Du.describe at form ⊢
  dsimp only at form ⊢
  rw [form]

theorem Du.describe_station {d : Du} (form : d.describe.form = .station) : d.describe.station = d.dtgt.toNat % 32 := by
  unfold Du.describe at form ⊢
  dsimp only at form ⊢
  rw [form]

theorem RunDesc.cellAt_zero (d : RunDesc) : d.cellAt 0 = d.start := by simp [RunDesc.cellAt]

/-- A direct run without a FIFO that passes the start checks stores from DDAT alone (R26, R84). -/
theorem RunDesc.source_of_register {d : RunDesc} (passes : d.fails .direct = false) (mode : d.mode ≠ .fifo) (a : Nat) :
    (if d.verb ≠ .store then DataSource.noData
      else if d.mode = .register then .dataWord
      else if d.mode = .inline then .inline a
      else if d.mode = .fifo then .outboundHead
      else .noData) = if d.verb = .store then .dataWord else .noData := by
  by_cases store : d.verb = .store
  · have register : d.mode = .register := by
      cases found : d.mode with
      | register => rfl
      | fifo => exact absurd found mode
      | inline => simp [RunDesc.fails, found] at passes
      | noData => simp [RunDesc.fails, RunDesc.failsCommon, found, store] at passes
    rw [if_neg (not_not.2 store), if_pos register, if_pos store]
  · rw [if_pos store, if_neg store]

/-- Settles O25: word 0 of a GO is prepared; the written-out clause is the case of a target that needs no FIFO. -/
theorem goPostsTheFirstWord : Obligations.GoPostsTheFirstWord := by
  refine ⟨fun b q d operates idle snapshot passes form mode segen busy elsewhere => ⟨?posts, ?station, ?start, ?rest⟩,
    fun b q d operates idle snapshot passes outFree inFree => ?prepares,
    fun sd d i => ⟨fun form => ?cell, fun form missing => ?unmapped, fun t form inside found => ?address⟩⟩
  case posts =>
    have target : b.sd.target b.du.describe 0 = .ok (b.du.describe.station, b.du.describe.start) := by
      rw [Sd.target_cell b.sd (snapshot ▸ form) (by rw [RunDesc.cellAt_zero, Du.describe_start (snapshot ▸ form)]; omega),
        RunDesc.cellAt_zero]
    subst snapshot
    have posted := (Block.directGo_prepares idle (.of_mode mode) passes).posted rfl target
      (Block.dataReady_of_mode mode) segen busy
    have answer := answers_dcmdGo q operates
    rw [posted, Block.listReadBehind_of_not (b := b.goTaken.wordPosted .direct _ _) elsewhere] at answer
    have request : b.goTaken.wordRequest .direct b.du.describe.station b.du.describe.start =
        { station := b.du.describe.station, verb := b.du.describe.verb, cell := b.du.describe.start
          retries := b.du.describe.retries, source := if b.du.describe.verb = .store then .dataWord else .noData } :=
      congrArg (Request.mk _ _ _ _) (RunDesc.source_of_register passes mode _)
    rw [Block.wordPosted, request, Block.goTaken_of_mode mode] at answer
    exact answer
  case station => rw [snapshot, Du.describe_station (snapshot ▸ form)]
  case start => rw [snapshot, Du.describe_start (snapshot ▸ form)]
  case rest =>
    subst snapshot
    exact ⟨rfl, rfl, rfl⟩
  case prepares =>
    subst snapshot
    exact ⟨_, _, answers_dcmdGo q operates, Block.directGo_prepares idle ⟨outFree, inFree⟩ passes,
      b.directGo.listReadBehind_reads⟩
  case cell =>
    rw [Sd.target_station sd form]
    by_cases inside : d.cellAt i ≤ 4095
    · rw [if_pos inside, if_neg (by omega)]
    · rw [if_neg inside, if_pos (by omega)]
  case unmapped =>
    rw [Sd.target_window sd form]
    rcases missing with beyond | unmapped
    · rw [if_pos beyond]
    · rw [unmapped]
      exact ite_self _
  case address =>
    rw [Sd.target_window sd form, if_neg (by omega), found]
    rfl

theorem RunDesc.fails_iff (d : RunDesc) (o : Owner) : d.fails o = true ↔
    (d.form = .station ∧ d.station = 0) ∨ d.count = 0 ∨ (d.form = .station ∧ d.station = 31 ∧ d.verb = .fetch) ∨
    (d.form = .station ∧ d.station = 31 ∧ 1 < d.count) ∨ (d.mode = .register ∧ 1 < d.count) ∨
    ((d.verb = .fetch ∨ d.verb = .store) ∧ d.mode = .noData) ∨ (d.verb = .trigger ∧ d.mode ≠ .noData) ∨
    d.verb = .unused ∨ d.wait = .unused ∨ (o = .direct ∧ d.mode = .inline) := by
  simp only [RunDesc.fails, RunDesc.failsCommon, Bool.or_eq_true, Bool.and_eq_true, decide_eq_true_eq, or_assoc, and_assoc]

/-- Settles O26: a GO by what stops it; and the start checks one by one. -/
theorem goThatDoesNotStart : Obligations.GoThatDoesNotStart := by
  refine ⟨fun b q operates => ⟨fun busy => ?busy, fun side idle needs held => ?claimed,
    fun idle fails outFree inFree => ?illegal⟩, RunDesc.fails_iff⟩
  case busy =>
    refine ⟨_, answers_dcmdGo q operates, ?_⟩
    rw [Block.directGo_of_busy busy]
    exact (b.refuse .directBusy).listReadBehind_reads
  case claimed =>
    refine ⟨_, answers_dcmdGo q operates, ?_⟩
    rw [Block.directGo_of_claimed idle needs held]
    exact Block.listReadBehind_reads _
  case illegal =>
    exact ⟨_, _, answers_dcmdGo q operates, Block.directGo_illegal idle ⟨outFree, inFree⟩ fails,
      b.directGo.listReadBehind_reads⟩

end Sys2Proof.Machine

/-! The end of a stall and the host's side of the FIFO Pair (chapters 2 and 3): the two ports, the flushes and the marks,
and the claimant run that each of them can wake. -/

namespace Sys2Proof.Machine

/-! ### The run that waits for its FIFO (R32, R33, R58) -/

theorem Block.stallOver_iff (b : Block) (o : Owner) : b.stallOver o = true ↔ (b.run o).sub = .stalled ∧
    ((b.run o).stall = .fifoData ∧ b.fp.out.words ≠ [] ∨
      (b.run o).stall = .fifoRoom ∧ b.fp.inb.words.length ≤ b.fp.resumeMark.toNat) := by
  simp only [Block.stallOver, Bool.and_eq_true, Bool.or_eq_true, decide_eq_true_eq]
  simp only [Fifo.level, List.length_pos_iff]

theorem Block.wake_of_waiting {b : Block} {o : Owner} (waits : ¬ b.stallOver o = true) : b.wake o = b := if_neg waits

theorem Block.wake_of_not_stalled {b : Block} {o : Owner} (elsewhere : (b.run o).sub ≠ .stalled) : b.wake o = b :=
  b.wake_of_waiting fun done => elsewhere ((b.stallOver_iff o).1 done).1

theorem Block.tellClaimant_of_claim {b : Block} {side : FifoSide} {o : Owner} (claims : (b.fifo side).claim = claimOf o) :
    b.tellClaimant side = b.wake o := by
  cases o <;> simp only [Block.tellClaimant, claims, claimOf]

/-- A change of a FIFO whose claimant, if there is one, is not stalled moves no run. -/
theorem Block.tellClaimant_of_not_stalled {b : Block} {side : FifoSide}
    (elsewhere : ∀ o, (b.fifo side).claim = claimOf o → (b.run o).sub ≠ .stalled) : b.tellClaimant side = b := by
  cases claim : (b.fifo side).claim with
  | unclaimed => simp only [Block.tellClaimant, claim]
  | direct => rw [Block.tellClaimant_of_claim (o := .direct) claim, Block.wake_of_not_stalled (elsewhere .direct claim)]
  | list => rw [Block.tellClaimant_of_claim (o := .list) claim, Block.wake_of_not_stalled (elsewhere .list claim)]

theorem answers_runStallEnd {b : Block} (q : List Instr) (o : Owner) (operates : b.operating = true) :
    Answers (.runStallEnd o) ⟨b, q⟩ (b.wake o) :=
  answers_operating (f := fun b => b.wake o) operates rfl

/-- The Outbound FIFO has its word and the Inbound FIFO its room for a run whose stall is over. -/
theorem Block.dataReady_of_over {b : Block} {d : RunDesc} (ready : d.verb = .store ∧ b.fp.out.words ≠ [] ∨
    d.verb = .fetch ∧ b.fp.inb.words.length ≤ b.fp.resumeMark.toNat) : b.dataReady d := by
  have mark := b.fp.resumeMark.isLt
  refine ⟨fun stores => ?_, fun fetches => ?_⟩
  · simp only [RunDesc.storesFifo, Bool.and_eq_true, decide_eq_true_eq] at stores
    rcases ready with ⟨-, word⟩ | ⟨verb, -⟩
    · exact word
    · simp [stores.2] at verb
  · simp only [RunDesc.fetchesFifo, Bool.and_eq_true, decide_eq_true_eq] at fetches
    rcases ready with ⟨verb, -⟩ | ⟨-, room⟩
    · simp [fetches.2] at verb
    · omega

/-- Settles O29: a run that is told to go on, by whether its word or room is there. -/
theorem stalledRunsGoOn : Obligations.StalledRunsGoOn := by
  intro b q o operates stalled
  have answer := answers_runStallEnd q o operates
  refine ⟨fun fifo form inside segen busy ready => ?posts, fun waits empty => ?noWord, fun waits full => ?noRoom,
    fun ready => ⟨_, answer, Block.wake_prepares ((b.stallOver_iff o).2 ⟨stalled, ready⟩)⟩⟩
  case posts =>
    have wakes : b.stallOver o = true := (b.stallOver_iff o).2 ⟨stalled, ready.imp And.right And.right⟩
    have word : b.dataReady (b.run o).desc := Block.dataReady_of_over
      (ready.imp (fun h => ⟨h.1, h.2.2⟩) fun h => ⟨h.1, h.2.2⟩)
    have source : (b.stallLeft o).wordRequest o (b.run o).desc.station ((b.run o).desc.cellAt (b.run o).index) =
        { station := (b.run o).desc.station, verb := (b.run o).desc.verb
          cell := (b.run o).desc.cellAt (b.run o).index, retries := (b.run o).desc.retries
          source := if (b.run o).desc.verb = .store then .outboundHead else .noData } := by
      simp only [Block.wordRequest, Block.stallLeft, Block.run_setRun, fifo]
      by_cases store : (b.run o).desc.verb = .store <;> simp [store]
    have posted := (Block.wake_prepares wakes).posted (station := (b.run o).desc.station)
      (cell := (b.run o).desc.cellAt (b.run o).index) (by simp [Block.stallLeft])
      (by simpa [Block.stallLeft] using Sd.target_cell b.sd form inside) (by simpa [Block.stallLeft, Block.dataReady] using word)
      (by simpa [Block.stallLeft] using segen) (by simpa [Block.stallLeft] using busy)
    rw [posted, Block.wordPosted, source] at answer
    cases o <;> exact answer
  case noWord =>
    rwa [Block.wake_of_waiting] at answer
    rw [Block.stallOver_iff]
    rintro ⟨-, ⟨-, word⟩ | ⟨room, -⟩⟩
    · exact word empty
    · simp [waits] at room
  case noRoom =>
    rwa [Block.wake_of_waiting] at answer
    rw [Block.stallOver_iff]
    rintro ⟨-, ⟨word, -⟩ | ⟨-, room⟩⟩
    · simp [waits] at word
    · omega

/-! ### The two ports (R52, R53) -/

theorem answers_odatWrite {b : Block} (q : List Instr) (v : Word) (operates : b.operating = true) :
    Answers (.odatWrite v) ⟨b, q⟩ (b.writeOdat v) :=
  answers_operating (f := fun b => b.writeOdat v) operates rfl

theorem answers_idatRead {b : Block} (q : List Instr) (operates : b.operating = true) :
    Answers .idatRead ⟨b, q⟩ b.readIdat := by
  have answer : Answers .idatRead ⟨b, q⟩ (b.whenReadable Block.readIdat) := answers_become rfl
  rwa [Block.whenReadable, if_pos operates] at answer

/-- Settles O31: each port by the level it finds, and by the claimant run that waits for the access. -/
theorem hostPortsMoveOneWord : Obligations.HostPortsMoveOneWord := by
  intro b q v operates
  have write := answers_odatWrite q v operates
  have read := answers_idatRead q operates
  refine ⟨fun a room joined => ?joins, fun full => ?discarded, fun w rest a words left => ?leaves, fun empty => ?nothing⟩
  case joins =>
    have told : b.writeOdat v = a.tellClaimant .outbound := by
      rw [Block.writeOdat, Fifo.level, if_pos room, Fifo.join_eq v room, joined]
      rfl
    rw [told] at write
    subst joined
    refine ⟨fun elsewhere => ?_, fun o claims stalled waits => ?_⟩
    · rwa [Block.tellClaimant_of_not_stalled (by intro o; cases o <;> exact elsewhere _)] at write
    · rw [Block.tellClaimant_of_claim (o := o) (by exact claims)] at write
      refine ⟨_, write, Block.wake_prepares ((Block.stallOver_iff _ o).2 ?_)⟩
      cases o <;> exact ⟨stalled, .inl ⟨waits, by simp⟩⟩
  case discarded =>
    rwa [Block.writeOdat, Fifo.level, if_neg (by omega)] at write
  case leaves =>
    have told : b.readIdat = a.tellClaimant .inbound := by
      rw [left]
      simp only [Block.readIdat, words]
      simp only [Block.setFifo, Fifo.leave, words]
    rw [told] at read
    subst left
    refine ⟨fun elsewhere => ?_, fun o claims stalled waits => ⟨fun above => ?_, fun below => ?_⟩⟩
    · rwa [Block.tellClaimant_of_not_stalled (by intro o; cases o <;> exact elsewhere _)] at read
    · rw [Block.tellClaimant_of_claim (o := o) (by exact claims)] at read
      rwa [Block.wake_of_waiting] at read
      rw [Block.stallOver_iff]
      rintro ⟨-, ⟨word, -⟩ | ⟨-, room⟩⟩
      · cases o <;> exact absurd (word.symm.trans waits) (by decide)
      · exact absurd room (by simpa using above)
    · rw [Block.tellClaimant_of_claim (o := o) (by exact claims)] at read
      refine ⟨_, read, Block.wake_prepares ((Block.stallOver_iff _ o).2 ?_)⟩
      cases o <;> exact ⟨stalled, .inr ⟨waits, below⟩⟩
  case nothing =>
    simp only [Block.readIdat, empty] at read
    exact read

/-! ### The marks (R59 to R61) -/

/-- The IDRQ mark stored, as the claims write it (R60). -/
theorem idrqStored_toNat (x : BitVec 7) : (idrqStored x).toNat = min 64 (max 1 x.toNat) := by
  unfold idrqStored
  by_cases zero : x = 0
  · simp [zero]
  · have positive : 0 < x.toNat := Nat.pos_of_ne_zero fun h => zero (BitVec.eq_of_toNat_eq h)
    by_cases above : 64 < x.toNat
    · rw [if_neg zero, if_pos above]
      show 64 = _
      omega
    · rw [if_neg zero, if_neg above]
      omega

theorem answers_fmkiWrite {b : Block} (q : List Instr) (v : Word) (operates : b.operating = true) :
    Answers (.fmkiWrite v) ⟨b, q⟩ (b.writeFmki v) :=
  answers_operating (f := fun b => b.writeFmki v) operates rfl

/-- Settles O33: the marks written, and the Inbound claimant by its stall and the level. -/
theorem marksPaceTheFifos : Obligations.MarksPaceTheFifos := by
  intro b q v operates
  have inbound := answers_fmkiWrite q v operates
  refine ⟨fun mark a clamped stored => ?inbound,
    ⟨_, answers_operating (f := fun b => b.writeFmko v) operates rfl, rfl, Block.odrq_iff _⟩⟩
  case inbound =>
    have value : (BitVec.ofNat 7 mark).toNat = mark := by
      rw [BitVec.toNat_ofNat]
      omega
    have same : idrqStored (v.field 8 7) = BitVec.ofNat 7 mark :=
      BitVec.eq_of_toNat_eq (by rw [idrqStored_toNat, value, clamped])
    have told : b.writeFmki v = a.tellClaimant .inbound := by
      rw [Block.writeFmki, same, stored]
    rw [told] at inbound
    subst stored
    refine ⟨⟨value, ?line⟩, fun elsewhere => ?_, fun o claims stalled waits => ⟨fun above => ?_, fun below => ?_⟩⟩
    case line =>
      rw [Block.idrq_iff]
      dsimp only
      rw [value]
    · rwa [Block.tellClaimant_of_not_stalled (by intro o; cases o <;> exact elsewhere _)] at inbound
    · rw [Block.tellClaimant_of_claim (o := o) (by exact claims)] at inbound
      rwa [Block.wake_of_waiting] at inbound
      rw [Block.stallOver_iff]
      rintro ⟨-, ⟨word, -⟩ | ⟨-, room⟩⟩
      · cases o <;> exact absurd (word.symm.trans waits) (by decide)
      · exact absurd room (by simpa using above)
    · rw [Block.tellClaimant_of_claim (o := o) (by exact claims)] at inbound
      refine ⟨_, inbound, Block.wake_prepares ((Block.stallOver_iff _ o).2 ?_)⟩
      cases o <;> exact ⟨stalled, .inr ⟨waits, below⟩⟩

/-! ### The flushes (R62) -/

theorem Block.flushFifo_outbound (b : Block) : b.flushFifo .outbound = if b.fp.out.claim = .unclaimed then
      { b with fp := { b.fp with out := { b.fp.out with
        words := [], flushed := b.fp.out.flushed + b.fp.out.words.length } } } else b.refuse .flushClaimed := rfl

theorem Block.flushFifo_inbound (b : Block) : b.flushFifo .inbound = if b.fp.inb.claim = .unclaimed then
      { b with fp := { b.fp with inb := { b.fp.inb with
        words := [], flushed := b.fp.inb.flushed + b.fp.inb.words.length } } } else b.refuse .flushClaimed := rfl

theorem Block.flushFifo_le (b : Block) (side : FifoSide) : (b.flushFifo side).le = b.le := by
  unfold Block.flushFifo
  split
  · simp
  · rfl

theorem answers_flushOut {b : Block} (q : List Instr) (operates : b.operating = true) :
    Answers .flushOut ⟨b, q⟩ (b.flushFifo .outbound).listReadBehind :=
  answers_operating (f := fun b => (b.flushFifo .outbound).listReadBehind) operates rfl

theorem answers_flushIn {b : Block} (q : List Instr) (operates : b.operating = true) :
    Answers .flushIn ⟨b, q⟩ (b.flushFifo .inbound).listReadBehind :=
  answers_operating (f := fun b => (b.flushFifo .inbound).listReadBehind) operates rfl

/-- A write of FCMD with both flushes takes the Outbound FIFO's first. -/
theorem answers_flushBoth {b : Block} (q : List Instr) {v : Word} (operates : b.operating = true) (out : v.bit 0 = true)
    (inb : v.bit 1 = true) : Answers (.registerWrite 0x28#6 v) ⟨b, q⟩
      ((b.flushFifo .outbound).flushFifo .inbound).listReadBehind := by
  have answer : Answers (.registerWrite 0x28#6 v) ⟨b, q⟩ (b.writeFcmd v) :=
    answers_operating (f := fun b => b.hostWrite 0x28#6 v) operates rfl
  simpa only [Block.writeFcmd, out, inb, if_true, Bool.or_self] using answer

/-- Settles O32: each flush by the claim it finds, and both in one write. -/
theorem flushesEmptyUnclaimedFifos : Obligations.FlushesEmptyUnclaimedFifos := by
  intro b q noOut noIn operates outbound inbound
  rw [← Block.flushFifo_outbound] at outbound
  rw [← Block.flushFifo_inbound] at inbound
  have out := answers_flushOut q operates
  have inb := answers_flushIn q operates
  rw [← outbound] at out
  rw [← inbound] at inb
  refine ⟨fun elsewhere => ?alone, ⟨_, out, noOut.listReadBehind_reads⟩, ⟨_, inb, noIn.listReadBehind_reads⟩,
    fun v first second => ⟨_, _, answers_flushBoth q operates first second, Block.listReadBehind_reads _, ?both⟩⟩
  case alone =>
    rw [Block.listReadBehind_of_not (by rw [outbound, Block.flushFifo_le]; exact elsewhere)] at out
    rw [Block.listReadBehind_of_not (by rw [inbound, Block.flushFifo_le]; exact elsewhere)] at inb
    exact ⟨out, inb⟩
  case both =>
    have same : noOut.fp.inb = b.fp.inb := by
      rw [outbound, Block.flushFifo_outbound]
      split <;> rfl
    rw [← outbound, Block.flushFifo_inbound, same]
    by_cases free : b.fp.inb.claim = .unclaimed
    · rw [if_pos free, if_pos free, inbound, Block.flushFifo_inbound, if_pos free]
    · rw [if_neg free, if_neg free]

end Sys2Proof.Machine

/-! The outcome of a word (chapters 1 and 2): what the end of a broadcast frame and the end of a reply do to the run of
either owner. -/

namespace Sys2Proof.Machine

/-! ### An outcome delivered to a run (R35 to R39, R43, R46) -/

section Outcome

variable {b : Block} {c : Client} {o : Owner}

theorem Block.not_aborting (sub : (b.run o).sub = .inFlight) : ¬ (b.run o).sub = .aborting := by simp [sub]

theorem Block.deliver_done (client : c = clientOf o) (sub : (b.run o).sub = .inFlight) (v : Word) (access : Bool)
    (ready : b.dataReady (b.run o).desc) : (b.wordDone o v).AfterWord o access (b.deliver c .done v access) := by
  rw [Block.deliver_eq client, Block.applyOutcome, if_neg (Block.not_aborting sub), ← Block.takeDone_eq v ready]
  exact Block.nextWord_after _ o access

theorem Block.deliver_held (client : c = clientOf o) (sub : (b.run o).sub = .inFlight) (v : Word) (access : Bool)
    (held : (b.run o).held = true) : (b.replyNoted o .wait).RunEnds o .deadline (b.deliver c .wait v access) := by
  rw [Block.deliver_eq client, Block.applyOutcome, if_neg (Block.not_aborting sub)]
  simp only [Block.applyWait, held, if_true]
  rw [Block.takeProgress_access (by simp)]
  exact Block.takeProgress_ends _ o (by simp) (.inl rfl)

theorem Block.deliver_halted (client : c = clientOf o) (sub : (b.run o).sub = .inFlight) (v : Word) (access : Bool)
    (free : (b.run o).held = false) (policy : (b.run o).desc.wait = .halt) :
    (b.replyNoted o .wait).RunEnds o .wait (b.deliver c .wait v access) := by
  rw [Block.deliver_eq client, Block.applyOutcome, if_neg (Block.not_aborting sub)]
  simp only [Block.applyWait, free, policy, Bool.false_eq_true, if_false]
  rw [Block.takeProgress_access (by simp)]
  exact Block.takeProgress_ends _ o (by simp) (.inl rfl)

theorem Block.deliver_skipped (client : c = clientOf o) (sub : (b.run o).sub = .inFlight) (v : Word) (access : Bool)
    (free : (b.run o).held = false) (policy : (b.run o).desc.wait = .skip)
    (word : (b.run o).desc.storesFifo = true → b.fp.out.words ≠ []) :
    (b.wordSkipped o .wait).AfterWord o access (b.deliver c .wait v access) := by
  rw [Block.deliver_eq client, Block.applyOutcome, if_neg (Block.not_aborting sub)]
  simp only [Block.applyWait, free, policy, Bool.false_eq_true, if_false, Block.takeSkip_eq .wait word]
  exact Block.nextWord_after _ o access

theorem Block.deliver_tolerated (client : c = clientOf o) (sub : (b.run o).sub = .inFlight) (v : Word) (access : Bool)
    (tolerant : (b.run o).desc.tolerant = true) (word : (b.run o).desc.storesFifo = true → b.fp.out.words ≠ []) :
    (b.wordSkipped o .refused).AfterWord o access (b.deliver c .refused v access) := by
  rw [Block.deliver_eq client, Block.applyOutcome, if_neg (Block.not_aborting sub)]
  simp only [Block.applyRefused, tolerant, if_true, Block.takeSkip_eq .refused word]
  exact Block.nextWord_after _ o access

theorem Block.deliver_refused (client : c = clientOf o) (sub : (b.run o).sub = .inFlight) (v : Word) (access : Bool)
    (strict : (b.run o).desc.tolerant = false) :
    (b.replyNoted o .refused).RunEnds o .refused (b.deliver c .refused v access) := by
  rw [Block.deliver_eq client, Block.applyOutcome, if_neg (Block.not_aborting sub)]
  simp only [Block.applyRefused, strict, Bool.false_eq_true, if_false]
  rw [Block.takeProgress_access (by simp)]
  exact Block.takeProgress_ends _ o (by simp) (.inl rfl)

theorem Block.persistWord_eq (b : Block) (o : Owner) : b.persistWord o = (b.persisting o).postWord o := by
  cases timer : (b.run o).persist <;> simp only [Block.persistWord, Block.persisting, limitOf, timer]

/-- A WAIT under PERSIST (R37, R20). -/
theorem Block.deliver_persisting (client : c = clientOf o) (sub : (b.run o).sub = .inFlight) (v : Word) (access : Bool)
    (free : (b.run o).held = false) (policy : (b.run o).desc.wait = .persist) :
    b.deliver c .wait v access = Block.takeProgress o ((b.persisting o).postWord o) access := by
  rw [Block.deliver_eq client, Block.applyOutcome, if_neg (Block.not_aborting sub), ← Block.persistWord_eq]
  simp only [Block.applyWait, free, policy, Bool.false_eq_true, if_false]

theorem Block.deliver_persists (client : c = clientOf o) (sub : (b.run o).sub = .inFlight) (v : Word) (access : Bool)
    (free : (b.run o).held = false) (policy : (b.run o).desc.wait = .persist) (segen : b.sm.segen = true)
    (busy : b.sm.phase ≠ .idle) :
    b.deliver c .wait v access = (b.persisting o).wordPosted o (b.run o).lastStation (b.run o).lastCell := by
  obtain ⟨x, posted, waits, -⟩ := Block.postWord_spec (b := b.persisting o) (o := o) (by cases o <;> exact segen)
  have same : x = (b.persisting o).wordPosted o (b.run o).lastStation (b.run o).lastCell := by
    rw [waits (by cases o <;> exact busy)]
    cases o <;> rfl
  rw [Block.deliver_persisting client sub v access free policy, posted, same]
  cases o <;> rfl

theorem Block.deliver_persists_off (client : c = clientOf o) (sub : (b.run o).sub = .inFlight) (v : Word) (access : Bool)
    (free : (b.run o).held = false) (policy : (b.run o).desc.wait = .persist) (off : b.sm.segen = false) :
    (b.persisting o).RunEnds o .offline (b.deliver c .wait v access) := by
  have answered : (b.persisting o).postWord o = (b.persisting o, some .offline) :=
    if_neg (by rw [show (b.persisting o).sm = b.sm from Block.setRun_sm .., off]; decide)
  rw [Block.deliver_persisting client sub v access free policy, answered, Block.takeProgress_access (by simp)]
  exact Block.takeProgress_ends _ o (by simp) (.inl rfl)

theorem Block.deliver_aborting (client : c = clientOf o) (sub : (b.run o).sub = .aborting) (e : Ending) (v : Word)
    (access : Bool) (ready : b.dataReady (b.run o).desc) :
    (b.abortLeaves o e v).RunEnds o .aborted (b.deliver c e v access) := by
  rw [Block.deliver_eq client, Block.applyOutcome_aborting e v sub ready, Block.takeProgress_access (by simp)]
  exact Block.takeProgress_ends _ o (by simp) (.inr rfl)

end Outcome

/-! ### The last word of a direct run without a claim -/

theorem Fp.without_of_claimsNone {b : Block} {c : Claim} (none : b.claimsNone c) : b.fp.without c = b.fp := by
  obtain ⟨out, inb⟩ := none
  simp only [Fp.without, if_neg out, if_neg inb]

/-- Where no FIFO is claimed by the Direct Unit its run ends without a claim that passes (R57). -/
theorem Block.DirectEnds.of_claimsNone {b b' : Block} {res : Result} (ends : b.DirectEnds res b')
    (none : b.claimsNone .direct) : b' = b.directOver res := by
  obtain ⟨over_, -⟩ := ends
  exact over_ fun side _ => by cases side <;> [exact none.1; exact none.2]

theorem Block.wordMoved_trigger {b : Block} {d : RunDesc} (verb : d.verb ≠ .fetch) (mode : d.mode ≠ .fifo) (i : Nat)
    (v : Word) : b.wordMoved d i v = b := by
  simp [Block.wordMoved, verb, RunDesc.storesFifo_of_mode mode, RunDesc.fetchesFifo_of_mode mode]

theorem Block.wordMoved_register {b : Block} {d : RunDesc} (verb : d.verb = .fetch) (mode : d.mode = .register) (i : Nat)
    (v : Word) : b.wordMoved d i v = { b with du := { b.du with ddat := v } } := by
  simp [Block.wordMoved, verb, mode]

/-! ### The end of a broadcast frame -/

/-- The Segment Master behind the frame of a broadcast (R6, R13). -/
def Block.broadcastSent (b : Block) (w : WordTx) : Block :=
  { b with sm := { b.sm with
      phase := .gap, gap := some .broadcast, after := .rest, timing := false, replyStarted := false,
      partialSync := false, tx := some (.word { w with latest := some .done }) } }

theorem answers_broadcastSent {b : Block} {w : WordTx} (q : List Instr) (operates : b.operating = true)
    (phase : b.sm.phase = .send) (tx : b.sm.tx = some (.word w)) (station : w.station = 31) (verb : w.verb ≠ .fetch) :
    Answers .frameSent ⟨b, q⟩ ((b.broadcastSent w).deliver w.client .done 0 (State.accessBehind ⟨b, q⟩)) := by
  have broadcast : w.isBroadcast = true := w.isBroadcast_iff.2 ⟨station, verb⟩
  have sent := answers_frameSent (q := q) operates
  simp only [Block.frameSent, phase, tx, broadcast, if_true] at sent
  exact sent

theorem Block.dataReady_of_not_fetch {b : Block} {d : RunDesc} (verb : d.verb ≠ .fetch)
    (word : d.storesFifo = true → b.fp.out.words ≠ []) : b.dataReady d :=
  ⟨word, by simp [RunDesc.fetchesFifo, verb]⟩

/-- Settles O14: the DONE of a broadcast, delivered to the run of its owner. -/
theorem broadcastsEndDoneAtTheirFrame : Obligations.BroadcastsEndDoneAtTheirFrame := by
  refine ⟨fun b q w operates phase tx client station verb sub same mode last free => ?direct,
    fun b q w o operates phase tx client station verb sub same word =>
      ⟨_, answers_broadcastSent q operates phase tx station verb, ?inFlight⟩,
    fun b q w o operates phase tx client station verb sub same word =>
      ⟨_, answers_broadcastSent q operates phase tx station verb, ?aborting⟩⟩
  case direct =>
    have answer := answers_broadcastSent q operates phase tx station verb
    have ready : b.dataReady b.du.run.desc := Block.dataReady_of_mode mode
    have done := Block.deliver_done (b := b.broadcastSent w) (o := .direct) client sub 0 (State.accessBehind ⟨b, q⟩) ready
    have moved : (b.broadcastSent w).wordDone .direct 0 = (b.broadcastSent w).setRun .direct { b.du.run with
        done := b.du.run.done + 1, index := b.du.run.index + 1, lastReply := .done, persist := none, held := false } := by
      unfold Block.wordDone
      rw [Block.wordMoved_trigger (d := ((b.broadcastSent w).run .direct).desc) (same ▸ verb) mode]
      rfl
    rw [moved] at done
    obtain ⟨-, completes⟩ := done
    obtain ⟨ends, -⟩ := completes last
    rw [(ends rfl).of_claimsNone free, Block.directOver, Fp.without_of_claimsNone (by exact free)] at answer
    exact answer
  case inFlight =>
    exact Block.deliver_done (b := b.broadcastSent w) client (by cases o <;> exact sub) 0 _
      (by cases o <;> exact Block.dataReady_of_not_fetch (same ▸ verb) word)
  case aborting =>
    exact Block.deliver_aborting (b := b.broadcastSent w) client (by cases o <;> exact sub) .done 0 _
      (by cases o <;> exact Block.dataReady_of_not_fetch (same ▸ verb) word)

/-! ### The end of a reply -/

theorem Block.replied_run (b : Block) (w : WordTx) (e : Ending) (o : Owner) : (b.replied w e).run o = b.run o := by
  cases o <;> rfl

/-- Settles O16: each outcome of a reply, delivered to the run of its owner. -/
theorem registerFetchDeliversItsValue : Obligations.RegisterFetchDeliversItsValue := by
  refine ⟨fun b q w v tail operates phase tx client verb sub same mode last free => ?register,
    fun b q o w bits e v r a operates phase tx client judged run sub taken => ?inFlight,
    fun b q o w bits e v operates phase tx client judged taken sub ready =>
      ⟨_, answers_replyEnd q operates phase tx judged taken, ?aborting⟩⟩
  case register =>
    have judged : judgeReply w.verb (replyBits 1 (bitsMsbFirst v) ++ tail) = (.done, v) := by
      rw [verb]
      exact repliesAreJudgedByCodeAndCheck.1 v tail
    have answer := answers_replyEnd q operates phase tx judged (by decide)
    have ready : b.dataReady b.du.run.desc := Block.dataReady_of_mode (by simp [mode])
    have done := Block.deliver_done (b := b.replied w .done) (o := .direct) client sub v (State.accessBehind ⟨b, q⟩) ready
    have moved : (b.replied w .done).wordDone .direct v =
        Block.setRun { b.replied w .done with du := { b.du with ddat := v } } .direct { b.du.run with
          done := b.du.run.done + 1, index := b.du.run.index + 1, lastReply := .done, persist := none, held := false } := by
      unfold Block.wordDone
      rw [Block.wordMoved_register (d := ((b.replied w .done).run .direct).desc) same mode]
      rfl
    rw [moved] at done
    obtain ⟨-, completes⟩ := done
    obtain ⟨ends, -⟩ := completes last
    rw [(ends rfl).of_claimsNone free, Block.directOver, Fp.without_of_claimsNone (by exact free)] at answer
    exact answer
  case inFlight =>
    subst taken
    subst run
    have answer := fun known : e ≠ .corrupt => answers_replyEnd q operates phase tx judged known
    rw [← b.replied_run w e o] at sub ⊢
    refine ⟨fun done ready => ?done, fun wait held => ?held, fun wait free => ⟨fun policy => ?halt,
      fun policy word => ?skip, fun policy => ⟨fun segen => ?persist, fun off => ?offline⟩⟩,
      fun refused => ⟨fun tolerant word => ?tolerated, fun strict => ?refused⟩⟩
    case done =>
      subst done
      exact ⟨_, answer (by decide), Block.deliver_done client sub v _ ready⟩
    case held =>
      subst wait
      exact ⟨_, answer (by decide), Block.deliver_held client sub v _ held⟩
    case halt =>
      subst wait
      exact ⟨_, answer (by decide), Block.deliver_halted client sub v _ free policy⟩
    case skip =>
      subst wait
      exact ⟨_, answer (by decide), Block.deliver_skipped client sub v _ free policy word⟩
    case persist =>
      subst wait
      rw [← Block.deliver_persists client sub v (State.accessBehind ⟨b, q⟩) free policy segen (by simp [Block.replied])]
      exact answer (by decide)
    case offline =>
      subst wait
      exact ⟨_, answer (by decide), Block.deliver_persists_off client sub v _ free policy off⟩
    case tolerated =>
      subst refused
      exact ⟨_, answer (by decide), Block.deliver_tolerated client sub v _ tolerant word⟩
    case refused =>
      subst refused
      exact ⟨_, answer (by decide), Block.deliver_refused client sub v _ strict⟩
  case aborting =>
    rw [← b.replied_run w e o] at sub ready
    exact Block.deliver_aborting client sub e v _ ready

end Sys2Proof.Machine

/-! List execution (chapter 7): the commands of LCMD and the events of the List Engine's own waits. -/

namespace Sys2Proof.Machine

/-! ### The engine's state (R111) -/

theorem Le.state_idle_iff (l : Le) : l.state = .idle ↔ l.activity = .idle := by
  unfold Le.state
  cases l.activity <;> simp
  cases l.run.sub <;> simp

theorem Le.state_halted_iff (l : Le) : l.state = .halted ↔ l.activity = .halted := by
  unfold Le.state
  cases l.activity <;> simp
  cases l.run.sub <;> simp

theorem Le.reading_iff (l : Le) : l.reading = true ↔ l.activity = .running ∧ l.run.sub = .ended := by simp [Le.reading]

/-! ### What an entry at the cursor makes of the reading -/

theorem Block.Reads.at_pause {access : Bool} {b b' : Block} {n : Nat} (reads : b.Reads access b')
    (entry : entryAt b.storeAt b.le.cursor = .pause n) :
    b' = { b with le := { b.le with activity := .pausing, pauseTimer := some n } } := by
  cases reads <;> simp_all

theorem Block.Reads.at_run {access : Bool} {b b' : Block} {d : RunDesc} {len base : Nat} (reads : b.Reads access b')
    (entry : entryAt b.storeAt b.le.cursor = .run d len base) : (b.entryTaken d len base).EntryRuns b' := by
  cases reads <;> simp_all

/-- A list run without a FIFO that passes the start checks stores from the store's inline area alone (R26, R108). -/
theorem RunDesc.source_of_inline {d : RunDesc} (passes : d.fails .list = false) (mode : d.mode = .inline ∨ d.mode = .noData)
    (a : Nat) : (if d.verb ≠ .store then DataSource.noData
      else if d.mode = .register then .dataWord
      else if d.mode = .inline then .inline a
      else if d.mode = .fifo then .outboundHead
      else .noData) = if d.verb = .store then .inline a else .noData := by
  by_cases store : d.verb = .store
  · have inline : d.mode = .inline := by
      rcases mode with mode | mode
      · exact mode
      · simp [RunDesc.fails, RunDesc.failsCommon, mode, store] at passes
    rw [if_neg (not_not.2 store), if_neg (by simp [inline]), if_pos inline, if_pos store]
  · rw [if_pos store, if_neg store]

theorem RunDesc.fifoSide_of_mode {d : RunDesc} (mode : d.mode ≠ .fifo) : d.fifoSide = none := by
  simp [RunDesc.fifoSide_eq, RunDesc.storesFifo_of_mode mode, RunDesc.fetchesFifo_of_mode mode]

/-- A STATION-form entry without a FIFO posts the word at its index (R121). -/
theorem Block.EntryRuns.posts {b b' : Block} {d : RunDesc} {i : Nat} (runs : b.EntryRuns b') (desc : b.le.run.desc = d)
    (index : b.le.run.index = i) (fresh : b.le.run.fullSeen = false) (passes : d.fails .list = false)
    (form : d.form = .station) (mode : d.mode = .inline ∨ d.mode = .noData) (inside : d.cellAt i ≤ 4095)
    (segen : b.sm.segen = true) (busy : b.sm.phase ≠ .idle) :
    b' = { b with
      le := { b.le with
        activity := .running, stallTimer := none
        run := { b.le.run with stall := .noStall, sub := .requesting, lastStation := d.station, lastCell := d.cellAt i } }
      sm := { b.sm with
        pendList := some
          { station := d.station, verb := d.verb, cell := d.cellAt i, retries := d.retries
            source := if d.verb = .store then .inline (b.le.inlineBase + i) else .noData } } } := by
  subst desc index
  have noFifo : b.le.run.desc.mode ≠ .fifo := by rcases mode with mode | mode <;> simp [mode]
  have free : ∀ side, b.le.run.desc.fifoSide = some side → (b.fifo side).claim ≠ .direct := by
    simp [RunDesc.fifoSide_of_mode noFifo]
  obtain ⟨-, prepares⟩ := runs.2 free
  simp only [RunDesc.storesFifo_of_mode noFifo, RunDesc.fetchesFifo_of_mode noFifo, Bool.false_eq_true, if_false] at prepares
  have posted := (prepares passes).posted fresh (Sd.target_cell b.sd form inside) (Block.dataReady_of_mode noFifo) segen busy
  have request : b.wordRequest .list b.le.run.desc.station (b.le.run.desc.cellAt b.le.run.index) =
      { station := b.le.run.desc.station, verb := b.le.run.desc.verb, cell := b.le.run.desc.cellAt b.le.run.index
        retries := b.le.run.desc.retries
        source := if b.le.run.desc.verb = .store then .inline (b.le.inlineBase + b.le.run.index) else .noData } :=
    congrArg (Request.mk _ _ _ _) (RunDesc.source_of_inline passes mode _)
  rw [posted, ← request]
  rfl

/-! ### START (R115) -/

theorem answers_lcmdStart {b : Block} (q : List Instr) (operates : b.operating = true) :
    Answers .lcmdStart ⟨b, q⟩ b.listStart :=
  answers_operating (f := fun b => b.listStart) operates rfl

/-- Settles O43: a START by the engine's state, and what the entry at LSTA makes of it. -/
theorem startBeginsTheList : Obligations.StartBeginsTheList := by
  intro b q operates
  have answer := answers_lcmdStart q operates
  refine ⟨fun notIdle notHalted => ?refused, fun resting => ?taken⟩
  case refused =>
    rwa [Block.listStart, if_neg (not_or.2 ⟨notIdle, notHalted⟩)] at answer
  case taken =>
    rw [Block.listStart, if_pos resting] at answer
    have reads := Block.listGo_reads { b with le := { b.le with
      activity := .running, cursor := b.le.lsta.toNat, outcome := .noOutcome, resumable := false, run := Run.fresh,
      pauseTimer := none, stallTimer := none } }
    refine ⟨fun entry free => ?atEnd, fun n entry => ?pause, fun d len base entry passes form mode start segen busy => ?run,
      ⟨_, answer, reads⟩⟩
    case atEnd =>
      rw [reads.at_end entry, Block.listOver, Fp.without_of_claimsNone (by exact free)] at answer
      exact answer
    case pause =>
      rw [reads.at_pause entry] at answer
      exact answer
    case run =>
      have posted := (reads.at_run entry).posts (d := d) (i := 0) rfl rfl rfl passes form mode
        (by rwa [RunDesc.cellAt_zero]) segen busy
      rw [RunDesc.cellAt_zero] at posted
      rw [posted] at answer
      exact answer

/-! ### RESUME (R116, R117) -/

theorem answers_lcmdResume {b : Block} (q : List Instr) (operates : b.operating = true) :
    Answers .lcmdResume ⟨b, q⟩ b.listResume :=
  answers_operating (f := fun b => b.listResume) operates rfl

/-- The engine of a RESUME that is taken, before it reads its entry afresh. -/
def Block.listResumed (b : Block) : Block :=
  { b with le := { b.le with activity := .running, outcome := .noOutcome, resumable := false, run := b.le.run.resumed } }

theorem Block.listResume_of_halt {b : Block} (halted : b.le.activity = .halted) (resumable : b.le.resumable = true) :
    b.listResume = b.listResumed.listContinue := by
  unfold Block.listResume
  exact if_pos ⟨b.le.state_halted_iff.2 halted, resumable⟩

section Continue

variable {b : Block} {d : RunDesc} {len base : Nat}

theorem Block.listContinue_malformed (entry : entryAt b.storeAt b.le.cursor = .malformed) :
    b.listContinue = b.listHalted .malformed false := by
  simp only [Block.listContinue, entry]
  exact b.listHalt_eq .malformed

/-- An entry that is no run is carried out from its beginning. -/
theorem Block.listContinue_afresh (noRun : ∀ d len base, entryAt b.storeAt b.le.cursor ≠ .run d len base)
    (formed : entryAt b.storeAt b.le.cursor ≠ .malformed) : b.listContinue = (b.listAdvance 0).listGo := by
  cases entry : entryAt b.storeAt b.le.cursor with
  | run d len base => exact absurd entry (noRun d len base)
  | malformed => exact absurd entry formed
  | pause n => simp only [Block.listContinue, entry]
  | mark tag => simp only [Block.listContinue, entry]
  | endOfList => simp only [Block.listContinue, entry]

theorem Block.listContinue_passed (entry : entryAt b.storeAt b.le.cursor = .run d len base)
    (passed : d.count ≤ b.le.run.index) : b.listContinue = (b.listAdvance len).listGo := by
  simp only [Block.listContinue, entry, if_neg (Nat.not_lt.2 passed)]

theorem Block.listContinue_illegal (entry : entryAt b.storeAt b.le.cursor = .run d len base)
    (left : b.le.run.index < d.count) (fails : d.fails .list = true) :
    b.listContinue = (b.entryTaken d len base).listHalted .illegal false := by
  simp only [Block.listContinue, entry, if_pos left, fails]
  exact Block.listHalt_eq _ .illegal

theorem Block.listContinue_runs (entry : entryAt b.storeAt b.le.cursor = .run d len base)
    (left : b.le.run.index < d.count) (passes : d.fails .list = false) :
    (b.entryTaken d len base).EntryRuns b.listContinue := by
  simp only [Block.listContinue, entry, if_pos left, passes, Bool.false_eq_true, if_false]
  exact Block.listClaimAndStart_runs _

end Continue

/-- Settles O44: a RESUME by the halt that it finds, and by the entry at the cursor. -/
theorem resumeGoesOnAtTheWord : Obligations.ResumeGoesOnAtTheWord := by
  intro b q operates
  have answer := answers_lcmdResume q operates
  refine ⟨fun final => ?refused, fun d len base halted resumable entry left passes form mode inside segen busy => ?posts,
    fun a halted resumable resumed => ⟨_, answer, ?entries⟩⟩
  case refused =>
    rwa [Block.listResume, if_neg (by rwa [Le.state_halted_iff])] at answer
  case posts =>
    rw [Block.listResume_of_halt halted resumable] at answer
    have posted := (b.listResumed.listContinue_runs entry left passes).posts (d := d) (i := b.le.run.index) rfl rfl rfl
      passes form mode inside segen busy
    rw [posted] at answer
    exact answer
  case entries =>
    rw [Block.listResume_of_halt halted resumable]
    have same : b.listResumed = a := resumed.symm
    refine ⟨fun malformed => ?_, fun noRun formed => ?_, fun d len base entry => ⟨fun passed => ?_,
      fun left fails => ?_, fun left passes => ?_⟩⟩
    · rw [b.listResumed.listContinue_malformed malformed, same]
    · rw [b.listResumed.listContinue_afresh noRun formed, same, resumed]
      exact Block.listGo_reads _
    · rw [b.listResumed.listContinue_passed entry passed, same]
      exact Block.listGo_reads _
    · rw [b.listResumed.listContinue_illegal entry left fails, same]
    · rw [← same]
      exact b.listResumed.listContinue_runs entry left passes

/-! ### ABORT (R118, R129) -/

theorem answers_lcmdAbort {b : Block} (q : List Instr) (operates : b.operating = true) :
    Answers .lcmdAbort ⟨b, q⟩ b.listAbort :=
  answers_operating (f := fun b => b.listAbort) operates rfl

theorem Block.listAbort_of_waiting {b : Block}
    (waits : b.le.activity = .pausing ∨ b.le.activity = .waitNq ∨ ∃ side, b.le.activity = .waitClaim side) :
    b.listAbort = b.listOver .aborted := by
  rw [← Block.listEnd_eq]
  rcases waits with waits | waits | ⟨side, waits⟩ <;> simp only [Block.listAbort, waits]

theorem Block.listAbort_of_reading {b : Block} (runs : b.le.activity = .running) (between : b.le.run.sub = .ended) :
    b.listAbort = b.listOver .aborted := by
  rw [← Block.listEnd_eq]
  simp only [Block.listAbort, runs, b.le.reading_iff.2 ⟨runs, between⟩, if_true]

theorem Block.listAbort_of_run {b : Block} (runs : b.le.activity = .running) (under : b.le.run.sub ≠ .ended) :
    b.listAbort = Block.listProgress (b.abortRun .list) := by
  simp only [Block.listAbort, runs, if_neg fun reading => under (b.le.reading_iff.1 reading).2]

/-- Settles O45, by the engine's state and the sub-state of its run. -/
theorem listAbort : Obligations.ListAbort := by
  intro b q operates
  have answer := answers_lcmdAbort q operates
  refine ⟨fun idle => ?idle, fun halted => ?halted, fun waits => ?waits, fun runs =>
    ⟨fun sub => ?waitsOrReads, fun sub => ?requesting, fun sub => ?inFlight, fun sub => ?aborting⟩⟩
  case idle => simpa only [Block.listAbort, idle] using answer
  case halted =>
    simp only [Block.listAbort, halted] at answer
    exact answer
  case waits => rwa [Block.listAbort_of_waiting waits] at answer
  case waitsOrReads =>
    rcases sub with between | waits
    · rwa [Block.listAbort_of_reading runs between] at answer
    · rw [Block.listAbort_of_run runs (by rcases waits with waits | waits <;> simp [waits]),
        Block.abortRun_of_waiting (o := .list) waits] at answer
      rwa [← Block.listEnd_eq]
  case requesting =>
    rw [Block.listAbort_of_run runs (by simp [sub]), Block.abortRun_of_requesting (o := .list) sub] at answer
    rw [← Block.listEnd_eq]
    exact answer
  case inFlight =>
    rw [Block.listAbort_of_run runs (by simp [sub]), Block.abortRun_of_inFlight (o := .list) sub] at answer
    exact answer
  case aborting =>
    rw [Block.listAbort_of_run runs (by simp [sub]), Block.abortRun_of_done (o := .list) (.inr sub)] at answer
    exact answer

end Sys2Proof.Machine

/-! The List Engine's own waits (R120 to R126): the pause, the MARK that waits for a slot, the claim that it waits for, and
the host accesses that come between two entries. -/

namespace Sys2Proof.Machine

/-! ### A GO between two entries leaves the engine there -/

/-- An IDLE Segment Master finds no request of the List Engine to grant. -/
def Sm.ListUnasked (s : Sm) : Prop := s.phase = .idle → s.pendList = none

theorem Block.arbitrate_le {b : Block} (unasked : b.sm.ListUnasked) : b.arbitrate.le = b.le := by
  unfold Block.arbitrate
  split
  · next ready =>
    split
    · rfl
    · split
      · rfl
      · next c _ =>
        split
        · rfl
        · next r pending => cases c with
          | service => rfl
          | direct => rfl
          | list => exact absurd (pending.symm.trans (unasked ready.1)) (by simp)
  · rfl

theorem Block.postWord_le {b : Block} (unasked : b.sm.ListUnasked) : (b.postWord .direct).1.le = b.le := by
  unfold Block.postWord
  split
  · exact Block.arbitrate_le unasked
  · rfl

theorem Block.testData_le {b : Block} (unasked : b.sm.ListUnasked) : (b.testData .direct).1.le = b.le := by
  unfold Block.testData
  dsimp only
  split
  · exact Block.postWord_le unasked
  · split
    · rfl
    · exact Block.postWord_le unasked
  · split
    · split
      · exact Block.postWord_le unasked
      · rfl
    · split
      · exact Block.postWord_le unasked
      · rfl

theorem Block.startRun_le {b : Block} (unasked : b.sm.ListUnasked) : (b.startRun .direct).1.le = b.le := by
  unfold Block.startRun
  split
  · rfl
  · unfold Block.prepare
    dsimp only
    split
    · rfl
    · exact Block.testData_le unasked

/-- The end of a direct run leaves a List Engine that waits for no claim. -/
theorem Block.directEnd_le {b : Block} (running : b.le.activity = .running) (res : Result) : (b.directEnd res).le = b.le := by
  have stays : b.passingClaim = none := by simp [Block.passingClaim, running]
  simp only [Block.directEnd, stays]
  rfl

theorem Block.directProgress_le {p : Progress} (running : p.1.le.activity = .running) :
    (Block.directProgress p).le = p.1.le := by
  obtain ⟨b, _ | res⟩ := p
  · rfl
  · exact Block.directEnd_le running res

theorem Block.ClaimFree.of_side {b : Block} {d : RunDesc}
    (free : ∀ side, d.fifoSide = some side → (b.fifo side).claim ≠ .list) : b.ClaimFree d where
  stores stores := free .outbound (by rw [RunDesc.fifoSide_eq, if_pos stores])
  fetches fetches := free .inbound (by
    have notStores : ¬ d.storesFifo = true := fun stores => by
      simp only [RunDesc.storesFifo, RunDesc.fetchesFifo, Bool.and_eq_true, decide_eq_true_eq] at stores fetches
      exact absurd (stores.2.symm.trans fetches.2) (by decide)
    rw [RunDesc.fifoSide_eq, if_neg notStores, if_pos fetches])

theorem Block.directGo_le {b : Block} (running : b.le.activity = .running) (unasked : b.sm.ListUnasked) :
    b.directGo.le = b.le := by
  by_cases idle : b.du.run.sub = .ended
  · by_cases held : ∃ side, b.du.describe.fifoSide = some side ∧ (b.fifo side).claim = .list
    · obtain ⟨side, needs, held⟩ := held
      rw [Block.directGo_of_claimed idle needs held]
      rfl
    · have free : b.ClaimFree b.du.describe := .of_side fun side needs claim => held ⟨side, needs, claim⟩
      have started : (b.goStarted.startRun .direct).1.le = b.le := Block.startRun_le unasked
      rw [Block.directGo_of_free idle free, Block.directProgress_le (by rw [started]; exact running), started]
  · rw [Block.directGo_of_busy idle]
    rfl

/-- Behind an access that leaves the engine between two entries, it reads the new one. -/
theorem Block.listReadBehind_of_reading {b : Block} (reading : b.le.reading = true) : b.Reads false b.listReadBehind :=
  b.listReadBehind_reads.2 reading

/-! ### The ends of the engine's waits (R123, R124, R126) -/

theorem answers_pauseExpiry {b : Block} (q : List Instr) (operates : b.operating = true) :
    Answers .pauseExpiry ⟨b, q⟩ (b.expirePause (State.accessBehind ⟨b, q⟩)) :=
  answers_operating (f := fun b' => b'.expirePause (State.accessBehind ⟨b, q⟩)) operates rfl

theorem Block.expirePause_goesOn {b : Block} (pausing : b.le.activity = .pausing) (access : Bool) :
    (b.nextEntry 2).GoesOn access (b.expirePause access) := by
  rw [Block.expirePause, if_pos pausing]
  exact b.listPass_goesOn 2 access

theorem answers_markPostRetry {b : Block} (q : List Instr) (operates : b.operating = true) :
    Answers .markPostRetry ⟨b, q⟩ (b.retryMark (State.accessBehind ⟨b, q⟩)) :=
  answers_operating (f := fun b' => b'.retryMark (State.accessBehind ⟨b, q⟩)) operates rfl

theorem Ru.hasFree_iff (r : Ru) : r.hasFree = true ↔ r.nq.length < 16 := by simp [Ru.hasFree]

theorem Block.expireListStall_of_waiting {b : Block} {n : Nat}
    (waits : b.le.activity = .waitNq ∨ ∃ side, b.le.activity = .waitClaim side) (runs : b.le.stallTimer = some n) :
    b.expireListStall = b.listHalted .starved true := by
  have halts : b.expireListStall = b.listHalt .starved := by
    rcases waits with waits | ⟨side, waits⟩ <;> simp only [Block.expireListStall, waits, runs]
  rw [halts, Block.listHalt_eq]
  rfl

/-- Settles O46: the ends of the engine's waits, and an access that finds it between two entries. -/
theorem engineWaitsEnd : Obligations.EngineWaitsEnd := by
  intro b q operates
  have mark := answers_markPostRetry q operates
  refine ⟨fun pausing => ⟨_, answers_pauseExpiry q operates, Block.expirePause_goesOn pausing _⟩,
    fun posted waits free joined => ⟨_, mark, ?posts⟩, fun full => ?waits, fun n none waits runs => ?starves,
    fun running between => ⟨?abort, fun c comes => ?access⟩⟩
  case posts =>
    rw [Block.retryMark, if_pos ⟨waits, (b.ru.hasFree_iff).2 free⟩, joined]
    exact (b.postMark b.le.tag).listPass_goesOn 2 _
  case waits =>
    rwa [Block.retryMark, if_neg fun ⟨_, free⟩ => by have := (b.ru.hasFree_iff).1 free; omega] at mark
  case starves =>
    have answer := answers_operating (c := .listStallExpiry) (q := q) (f := fun b => b.expireListStall) operates rfl
    rw [Block.expireListStall_of_waiting waits runs, Block.listHalted, Fp.without_of_claimsNone none] at answer
    exact answer
  case abort =>
    have answer := answers_lcmdAbort q operates
    rwa [Block.listAbort_of_reading running between] at answer
  case access =>
    have reading : b.le.reading = true := b.le.reading_iff.2 ⟨running, between⟩
    rcases comes with ⟨rfl, unasked⟩ | rfl | rfl
    · have same := Block.directGo_le running unasked
      exact ⟨_, _, answers_dcmdGo q operates, same, Block.listReadBehind_of_reading (by rw [same]; exact reading)⟩
    · have same := b.flushFifo_le .outbound
      exact ⟨_, _, answers_flushOut q operates, same, Block.listReadBehind_of_reading (by rw [same]; exact reading)⟩
    · have same := b.flushFifo_le .inbound
      exact ⟨_, _, answers_flushIn q operates, same, Block.listReadBehind_of_reading (by rw [same]; exact reading)⟩

/-! ### The claim that the engine asks for (R56, R57, R122) -/

theorem answers_listClaimGranted {b : Block} (q : List Instr) (operates : b.operating = true) :
    Answers .listClaimGranted ⟨b, q⟩ b.grantListClaim :=
  answers_operating (f := fun b => b.grantListClaim) operates rfl

theorem Block.grantListClaim_of_held {b : Block} {side : FifoSide} (waits : b.le.activity = .waitClaim side)
    (held : (b.fifo side).claim = .direct) : b.grantListClaim = b := by
  simp only [Block.grantListClaim, waits, held, if_true]

theorem Block.grantListClaim_of_free {b : Block} {side : FifoSide} (waits : b.le.activity = .waitClaim side)
    (free : (b.fifo side).claim ≠ .direct) : b.grantListClaim = (b.setClaim side .list).listRunStart := by
  simp only [Block.grantListClaim, waits, if_neg free]

/-- The claim granted, the entry's run prepares the word at its index (R122). -/
theorem Block.grantListClaim_prepares {b : Block} {side : FifoSide} (waits : b.le.activity = .waitClaim side)
    (free : (b.fifo side).claim ≠ .direct) (passes : b.le.run.desc.fails .list = false) :
    Block.Prepares
      { b.setClaim side .list with le := { b.le with
        activity := .running, stallTimer := none, run := { b.le.run with stall := .noStall } } } .list
      b.grantListClaim := by
  have same : (b.setClaim side .list).le = b.le := Block.setClaim_le b side .list
  have prepares := (b.setClaim side .list).listRunStart_prepares (by rw [same]; exact passes)
  rw [Block.grantListClaim_of_free waits free]
  rwa [same] at prepares

/-- The FIFO Pair once the List Engine has taken the claim that a run needs. -/
theorem Block.claim_taken {b : Block} {d : RunDesc} {side : FifoSide} (needs : d.fifoSide = some side) :
    (if d.storesFifo then { b.fp with out := { b.fp.out with claim := .list } }
      else if d.fetchesFifo then { b.fp with inb := { b.fp.inb with claim := .list } }
      else b.fp) = (b.setClaim side .list).fp := by
  rw [RunDesc.fifoSide_eq] at needs
  by_cases stores : d.storesFifo = true
  · rw [if_pos stores] at needs ⊢
    cases needs
    rfl
  · rw [if_neg stores] at needs ⊢
    by_cases fetches : d.fetchesFifo = true
    · rw [if_pos fetches] at needs ⊢
      cases needs
      rfl
    · rw [if_neg fetches] at needs
      cases needs

/-- An entry whose run needs a FIFO takes its claim and prepares the word, where the Direct Unit does not hold it. -/
theorem Block.EntryRuns.prepares {b b' : Block} {side : FifoSide} (runs : b.EntryRuns b')
    (needs : b.le.run.desc.fifoSide = some side) (free : (b.fifo side).claim ≠ .direct)
    (passes : b.le.run.desc.fails .list = false) :
    Block.Prepares
      { b.setClaim side .list with le := { b.le with
        activity := .running, stallTimer := none, run := { b.le.run with stall := .noStall } } } .list b' := by
  obtain ⟨-, taken⟩ := runs
  have prepared := (taken (by simpa [needs] using free)).2 passes
  rw [Block.claim_taken needs] at prepared
  cases side <;> exact prepared

/-- A word that the Outbound FIFO holds is posted, whatever the run remembers of the Inbound FIFO (R32). -/
theorem Block.prepare_outbound {b : Block} {o : Owner} {station cell : Nat}
    (needs : (b.run o).desc.fifoSide = some .outbound) (word : b.fp.out.words ≠ [])
    (target : b.sd.target (b.run o).desc (b.run o).index = .ok (station, cell)) (segen : b.sm.segen = true)
    (busy : b.sm.phase ≠ .idle) : b.prepare o = (b.wordPosted o station cell, none) := by
  let found := b.setRun o { b.run o with sub := .preparing, lastStation := station, lastCell := cell }
  have level : found.fp.out.level ≠ 0 := by simpa [found, Fifo.level] using word
  have tested : b.prepare o = found.postWord o := by
    unfold Block.prepare
    simp only [target]
    unfold Block.testData
    simp only [Block.run_setRun, needs]
    exact if_neg level
  obtain ⟨x, posted, waits, -⟩ := Block.postWord_spec (b := found) (o := o) (by cases o <;> exact segen)
  rw [tested, posted, waits (by cases o <;> exact busy)]
  cases o <;> rfl

theorem Block.listRunStart_outbound {b : Block} {station cell : Nat} (passes : b.le.run.desc.fails .list = false)
    (needs : b.le.run.desc.fifoSide = some .outbound) (word : b.fp.out.words ≠ [])
    (target : b.sd.target b.le.run.desc b.le.run.index = .ok (station, cell)) (segen : b.sm.segen = true)
    (busy : b.sm.phase ≠ .idle) : b.listRunStart = Block.wordPosted
      { b with le := { b.le with activity := .running, stallTimer := none, run := { b.le.run with stall := .noStall } } }
      .list station cell := by
  let started : Block := { b with le := { b.le with
    activity := .running, stallTimer := none, run := { b.le.run with sub := .preparing, stall := .noStall } } }
  have posted : started.startRun .list = (started.wordPosted .list station cell, none) := by
    rw [Block.startRun, if_neg (by rw [show (started.run .list).desc = b.le.run.desc from rfl, passes]; decide)]
    exact Block.prepare_outbound (b := started) needs word target segen busy
  unfold Block.listRunStart
  simp only [show ({ b with le := _ } : Block) = started from rfl, posted]
  rfl

/-- Settles O47: the claim granted to a List Engine that waits, and an engine that comes to an entry with a FIFO. -/
theorem grantedClaimStartsTheRun : Obligations.GrantedClaimStartsTheRun := by
  refine ⟨fun b q d i operates waits desc index => ⟨fun held => ?waitsOn, fun free fifo store passes form inside word segen
      busy => ?posts⟩,
    fun b q side operates waits => ⟨fun held => ?held, fun free passes =>
      ⟨_, answers_listClaimGranted q operates, Block.grantListClaim_prepares waits free passes⟩⟩,
    fun b q d len base side c go operates needs passes comes => ?comes⟩
  case waitsOn =>
    have answer := answers_listClaimGranted q operates
    rwa [Block.grantListClaim_of_held waits held] at answer
  case held =>
    have answer := answers_listClaimGranted q operates
    rwa [Block.grantListClaim_of_held waits held] at answer
  case posts =>
    subst desc index
    have unheld : (b.fifo .outbound).claim ≠ .direct := by simp [Block.fifo, free]
    have needs : b.le.run.desc.fifoSide = some .outbound := by simp only [RunDesc.fifoSide, fifo, store]
    have answer := answers_listClaimGranted q operates
    have request : b.wordRequest .list b.le.run.desc.station (b.le.run.desc.cellAt b.le.run.index) =
        { station := b.le.run.desc.station, verb := .store, cell := b.le.run.desc.cellAt b.le.run.index
          retries := b.le.run.desc.retries, source := .outboundHead } := by
      simp [Block.wordRequest, Block.run, store, fifo]
    rw [Block.grantListClaim_of_free waits unheld,
      Block.listRunStart_outbound (b := b.setClaim .outbound .list) passes needs word
        (Sd.target_cell b.sd form inside) segen busy] at answer
    rw [← request]
    exact answer
  case comes =>
    suffices reads : ∃ come b' : Block, Answers c ⟨b, q⟩ b' ∧ (go = false → come = b.nextEntry 2) ∧
        (go = true → b.goTaken.Prepares .direct come ∧ come.le = b.le) ∧
        entryAt come.storeAt come.le.cursor = .run d len base ∧ come.Reads false b' by
      obtain ⟨come, b', answer, paused, gone, entry, reads⟩ := reads
      have runs := reads.at_run entry
      refine ⟨come, b', answer, paused, gone, fun held => runs.1 side needs held, fun free => ?_⟩
      have prepares := runs.prepares needs free passes
      cases side <;> exact prepares
    rcases comes with ⟨rfl, rfl, pausing, alone, entry⟩ | ⟨rfl, rfl, running, between, idle, unasked, checked, free, entry⟩
    · obtain ⟨reads, -⟩ := Block.expirePause_goesOn pausing (State.accessBehind ⟨b, q⟩)
      exact ⟨_, _, answers_pauseExpiry q operates, fun _ => rfl, by simp, entry, reads alone⟩
    · have same := Block.directGo_le running unasked
      refine ⟨_, _, answers_dcmdGo q operates, by simp, fun _ => ⟨Block.directGo_prepares idle ?_ checked, same⟩, ?_,
        Block.listReadBehind_of_reading (by rw [same]; exact b.le.reading_iff.2 ⟨running, between⟩)⟩
      · exact .of_side free
      · unfold Block.storeAt
        rw [same]
        exact entry

end Sys2Proof.Machine

/-! The Host Port (chapter 11): the hard resets, INIT and RESET, a part that is held, and the locked configuration group. -/

namespace Sys2Proof.Machine

/-! ### INIT and RESET (R109, R181, R182) -/

/-- Settles O3: with the two flags that each clause fixes put in, both commands answer as stated. -/
theorem initEndAndResetRelease : Obligations.InitEndAndResetRelease := by
  intro b q
  obtain ⟨⟨initRunning, initCleared, resetAsserted, _, _, _, _⟩, _⟩ := b
  refine ⟨fun runs released => ?ends, fun runs asserted => ?marks, fun runs cleared => ?endsAtRelease,
    fun notCleared => ?releases⟩
  case ends =>
    cases (show initRunning = true from runs)
    cases (show resetAsserted = false from released)
    exact answers_become (f := Block.endInit) rfl
  case marks =>
    cases (show initRunning = true from runs)
    cases (show resetAsserted = true from asserted)
    exact answers_become (f := Block.endInit) rfl
  case endsAtRelease =>
    cases (show initRunning = true from runs)
    cases (show initCleared = true from cleared)
    exact answers_become (f := Block.releaseReset) rfl
  case releases =>
    cases (show initCleared = false from notCleared)
    cases initRunning <;> exact answers_become (f := Block.releaseReset) rfl

/-! ### The hard resets (R181, R182) -/

/-- The part of the reset state, with a level of ATN: what the registers of a part show behind a hard reset. -/
def Block.resetShown (atn : Bool) : Block := { Block.reset with au := { Au.reset with atn := atn } }

theorem Block.resetShown_reads : ∀ (atn : Bool) (k : Fin 64),
    (Block.resetShown atn).decodedRead ⟨k⟩ = resetValue atn ⟨k⟩ := by decide

/-- The registers that the hard resets leave, LDAT apart, which shows a word of the List Store. -/
theorem Block.decodedRead_hardReset (b : Block) {hp : Hp} (lock : hp.lock = false) (rsn : hp.rsn = .noRefusal)
    {a : BitVec 6} (notLdat : a ≠ 0x1C#6) : (b.hardReset hp).decodedRead a = resetValue b.au.atn a := by
  obtain ⟨_, _, _, _, _, _, _⟩ := hp
  cases lock
  cases rsn
  obtain ⟨k⟩ := a
  rw [← Block.resetShown_reads]
  fin_cases k <;> first | rfl | exact absurd rfl notLdat

theorem Block.irq_of_held {b : Block} (held : b.operating = false) : b.irq = false := by simp [Block.irq, held]

theorem Block.alert_of_held {b : Block} (held : b.operating = false) : b.alert = false := by simp [Block.alert, held]

/-- Both hard resets give the blocks the same values; they differ in what they leave of INIT and RESET. -/
theorem answers_hardReset_hp {c : Instr} (b : Block) (q : List Instr) (hard : c = .powerOnReset ∨ c = .pinReset) :
    ∃ hp : Hp, Answers c ⟨b, q⟩ (b.hardReset hp) ∧ hp.lock = false ∧ hp.rsn = .noRefusal ∧
      (!hp.initRunning && !hp.resetAsserted) = false ∧
      hp.initRunning = (decide (c = .powerOnReset) || b.hp.initRunning) ∧
      hp.resetAsserted = (decide (c = .pinReset) || b.hp.resetAsserted) ∧
      hp.resetEdge = (decide (c = .pinReset) && !b.hp.initRunning && !b.hp.resetAsserted) := by
  rcases hard with rfl | rfl
  · exact ⟨_, answers_become (f := Block.powerOn) rfl, rfl, rfl, by simp [Hp.reset], by simp [Hp.reset], by simp, by simp [Hp.reset]⟩
  · exact ⟨_, answers_become (f := Block.assertReset) rfl, rfl, rfl, by simp, by simp, by simp, by simp⟩

/-- Settles O2. -/
theorem hardResetsGiveTheResetValues : Obligations.HardResetsGiveTheResetValues := by
  intro c b q hard
  obtain ⟨hp, answer, lock, rsn, held, init, asserted, edge⟩ := answers_hardReset_hp b q hard
  exact ⟨_, answer, fun a notLdat => b.decodedRead_hardReset lock rsn notLdat, rfl, rfl, rfl, rfl,
    fun k => by cases k <;> rfl, rfl, rfl, rfl, rfl, rfl, rfl, rfl, Bu.reset_entry, rfl, rfl, rfl, lock, rsn,
    Block.irq_of_held held, Block.alert_of_held held, rfl, init, asserted, edge⟩

/-! ### A part that is held (R109, R181, R182) -/

theorem answers_ignored {c : Instr} {b : Block} {q : List Instr} {f : Block → Block} (held : b.operating = false)
    (meaning : exec c ⟨b, q⟩ = State.become (Block.whenOperating f) ⟨b, q⟩) : Answers c ⟨b, q⟩ b.ignored := by
  have answer : Answers c ⟨b, q⟩ (b.whenOperating f) := answers_become meaning
  rwa [Block.whenOperating_of_not held] at answer

/-- Every command but the hard resets, the ends of INIT and RESET, the level of ATN, and the accesses to IDAT and LDAT acts
only on an operating part. -/
theorem exec_whenOperating {c : Instr} (s : State) (acts : actsOnHeldPart c = false) (noIdat : c ≠ .idatRead)
    (noLdat : reachesLdat c = false) : ∃ f, exec c s = s.become (Block.whenOperating f) := by
  cases c with
  | powerOnReset => cases acts
  | initEnd => cases acts
  | pinReset => cases acts
  | resetRelease => cases acts
  | atnAsserted => cases acts
  | atnReleased => cases acts
  | idatRead => exact absurd rfl noIdat
  | ldatRead => cases noLdat
  | ldatWrite v => cases noLdat
  | registerWrite addr v => exact ⟨_, if_neg (by simpa [reachesLdat] using noLdat)⟩
  | _ => exact ⟨_, rfl⟩

theorem Block.accessLdat_of_held {b : Block} (held : b.operating = false) (noEdge : b.atResetEdge = false)
    (f ignores : Block → Block) : b.accessLdat f ignores = ignores b := by
  simp [Block.accessLdat, held, noEdge]

/-- An access to LDAT at the edge of RESET falls together with the assertion, or comes later (R109; log entries 2, 29). -/
theorem Block.accessLdat_at_edge {b : Block} (held : b.operating = false) (edge : b.atResetEdge = true)
    (f ignores : Block → Block) :
    b.accessLdat f ignores = f b.ignored.chosen ∨ b.accessLdat f ignores = ignores b.ignored.chosen := by
  rw [Block.accessLdat, if_neg (by simp [held]), if_pos edge]
  by_cases together : Config.firstTaken b.ignored.choices = true
  · exact .inl (if_pos together)
  · exact .inr (if_neg together)

theorem Block.hostRead_of_held {b : Block} (held : b.operating = false) (a : BitVec 6) :
    b.hostRead a = if b.hp.resetAsserted = false ∧ a = 0x01#6 then 0x8000 else 0 := by
  unfold Block.hostRead
  cases asserted : b.hp.resetAsserted with
  | true => simp
  | false =>
    have runs : b.hp.initRunning = true := by simpa [Block.operating, asserted] using held
    simp [runs]

theorem Block.atResetEdge_iff (b : Block) : b.atResetEdge = true ↔
    b.hp.resetAsserted = true ∧ b.hp.initRunning = false ∧ b.hp.resetEdge = true := by
  simp [Block.atResetEdge, and_assoc]

theorem reachesLdat_cases {c : Instr} (reaches : reachesLdat c = true) :
    c = .ldatRead ∨ ∃ v, c = .ldatWrite v ∨ c = .registerWrite 0x1C#6 v := by
  cases c with
  | ldatRead => exact .inl rfl
  | ldatWrite v => exact .inr ⟨v, .inl rfl⟩
  | registerWrite addr v => exact .inr ⟨v, .inr (by rw [show addr = 0x1C#6 from of_decide_eq_true reaches])⟩
  | _ => cases reaches

theorem answers_ldatRead (b : Block) (q : List Instr) :
    Answers .ldatRead ⟨b, q⟩ (b.accessLdat Block.readLdat Block.readHeld) := answers_become rfl

theorem answers_ldatWrite (b : Block) (q : List Instr) {c : Instr} {v : Word}
    (write : c = .ldatWrite v ∨ c = .registerWrite 0x1C#6 v) :
    Answers c ⟨b, q⟩ (b.accessLdat (fun b => b.writeLdat v) Block.ignored) := by
  rcases write with rfl | rfl
  · exact answers_become rfl
  · exact answers_become rfl

theorem Block.readLdat_at {b : Block} {p : BitVec 12} (pointer : b.le.lptr = p) : b.readLdat =
    { b with hp := { b.hp with readData := b.le.store.read p.toNat }, le := { b.le with lptr := p + 1 } } := by
  subst pointer
  rfl

theorem Block.writeLdat_at {b : Block} {p : BitVec 12} {v : Word} (pointer : b.le.lptr = p) (idle : b.le.activity = .idle) :
    b.writeLdat v = { b with le := { b.le with lptr := p + 1, store := b.le.store.write p.toNat v } } := by
  subst pointer
  unfold Block.writeLdat
  rw [if_pos (.inl (b.le.state_idle_iff.2 idle))]
  rfl

/-- Settles O4: the commands that act on a held part apart, an access to IDAT or LDAT and every other command is ignored;
an LDAT access at the edge of RESET has both outcomes. -/
theorem nothingReachesAHeldPart : Obligations.NothingReachesAHeldPart := by
  intro c b q held
  refine ⟨fun acts noEdge => ?ignored, fun after asserted noInit edge pointer behind => ⟨fun read => ?read,
    fun v write idle canonical => ?write⟩, Block.hostRead_of_held held, Block.irq_of_held held, Block.alert_of_held held⟩
  case ignored =>
    by_cases idat : c = .idatRead
    · subst idat
      have answer : Answers .idatRead ⟨b, q⟩ (b.whenReadable Block.readIdat) := answers_become rfl
      rw [Block.whenReadable, if_neg (by simp [held])] at answer
      rw [if_pos (.inl rfl)]
      exact answer
    · cases reaches : reachesLdat c with
      | false =>
        obtain ⟨f, meaning⟩ := exec_whenOperating ⟨b, q⟩ acts idat reaches
        have noRead : ¬ (c = .idatRead ∨ c = .ldatRead) := by
          rintro (rfl | rfl)
          · exact idat rfl
          · cases reaches
        rw [if_neg noRead]
        exact answers_ignored held meaning
      | true =>
        have apart : b.atResetEdge = false := by
          rw [← Bool.not_eq_true, Block.atResetEdge_iff]
          exact fun ⟨asserted, noInit, edge⟩ => noEdge ⟨reaches, asserted, noInit, edge⟩
        rcases reachesLdat_cases reaches with rfl | ⟨v, write⟩
        · have answer := answers_ldatRead b q
          rw [Block.accessLdat_of_held held apart] at answer
          rw [if_pos (.inr rfl)]
          exact answer
        · have answer := answers_ldatWrite b q write
          rw [Block.accessLdat_of_held held apart] at answer
          rw [if_neg (by rcases write with rfl | rfl <;> simp)]
          exact answer
  case read =>
    subst read
    have answer := answers_ldatRead b q
    have first : b.atResetEdge = true := b.atResetEdge_iff.2 ⟨asserted, noInit, edge⟩
    have same : b.ignored.chosen = after := behind.symm
    have low : after.le.lptr = 0 := by rw [behind]; exact pointer
    rcases b.accessLdat_at_edge held first Block.readLdat Block.readHeld with together | later
    · left
      rw [together, same, Block.readLdat_at low] at answer
      rw [behind] at answer ⊢
      exact answer
    · right
      rw [later, same] at answer
      rw [behind] at answer ⊢
      exact answer
  case write =>
    have answer := answers_ldatWrite b q write
    have first : b.atResetEdge = true := b.atResetEdge_iff.2 ⟨asserted, noInit, edge⟩
    have same : b.ignored.chosen = after := behind.symm
    have low : after.le.lptr = 0 := by rw [behind]; exact pointer
    have resting : after.le.activity = .idle := by rw [behind]; exact idle
    rcases b.accessLdat_at_edge held first (fun b => b.writeLdat v) Block.ignored with together | later
    · right
      rw [together, same, Block.writeLdat_at low resting] at answer
      refine ⟨_, answer, ?_, ?_⟩
      · rw [behind]
        rfl
      · rw [behind]
        exact Memory.read_write (a := 0) b.le.store v canonical (by decide)
    · left
      rw [later, same] at answer
      rw [behind] at answer ⊢
      exact answer

end Sys2Proof.Machine

/-! Host writes by address (sections 11.2, 11.4 and 11.6): the locked group, the registers of a command, and the registers
that only store. -/

namespace Sys2Proof.Machine

theorem answers_registerWrite {b : Block} (q : List Instr) {addr : BitVec 6} (v : Word) (operates : b.operating = true)
    (notLdat : addr ≠ 0x1C#6) : Answers (.registerWrite addr v) ⟨b, q⟩ (b.hostWrite addr v) :=
  answers_operating (f := fun b => b.hostWrite addr v) operates (if_neg notLdat)

/-! ### The locked group (R186) -/

/-- A write to a locked register. -/
def Block.LockedWrite (b : Block) (b' : Block) : Prop := ∃ f, b' = b.lockedWrite f

theorem Block.hostWrite_locked (b : Block) {addr : BitVec 6} (v : Word)
    (group : addr.toNat ∈ [0x04, 0x09, 0x0A, 0x2C, 0x2D, 0x2E]) : b.LockedWrite (b.hostWrite addr v) := by
  simp only [List.mem_cons, List.not_mem_nil, or_false] at group
  rcases group with at_ | at_ | at_ | at_ | at_ | at_ <;> simp only [Block.hostWrite, at_] <;> exact ⟨_, rfl⟩

/-- Settles O7: each command that writes the group. -/
theorem lockedWritesSetLockwAlone : Obligations.LockedWritesSetLockwAlone := by
  intro c b q operates lock writes
  suffices answer : ∃ b', Answers c ⟨b, q⟩ b' ∧ b.LockedWrite b' by
    obtain ⟨_, answer, f, rfl⟩ := answer
    rwa [Block.lockedWrite_of_set lock] at answer
  cases c with
  | tim0Write v => exact ⟨_, answers_operating (f := fun b => b.writeTim0 v) operates rfl, _, rfl⟩
  | spanWrite reg v => exact ⟨_, answers_operating (f := fun b => b.writeSpan reg v) operates rfl, _, rfl⟩
  | spanEnable => exact ⟨_, answers_operating (f := fun b => b.writeSpctl true) operates rfl, _, rfl⟩
  | spanDisable => exact ⟨_, answers_operating (f := fun b => b.writeSpctl false) operates rfl, _, rfl⟩
  | rteWrite reg v => exact ⟨_, answers_operating (f := fun b => b.writeRoute reg v) operates rfl, _, rfl⟩
  | registerWrite addr v =>
    have group : addr.toNat ∈ [0x04, 0x09, 0x0A, 0x2C, 0x2D, 0x2E] := of_decide_eq_true writes
    have notLdat : addr ≠ 0x1C#6 := by
      rintro rfl
      revert group
      decide
    exact ⟨_, answers_registerWrite q v operates notLdat, b.hostWrite_locked v group⟩
  | _ => cases writes

/-! ### Fields written and read back (section 11.7) -/

theorem field_toNat (v : Word) (lo n : Nat) : (v.field lo n).toNat = v.toNat / 2 ^ lo % 2 ^ n := by
  rw [BitVec.extractLsb'_toNat, Nat.shiftRight_eq_div_pow]

/-- The low field of a register holds the low bits of what is written. -/
theorem place_field (v : Word) {n : Nat} (fits : n ≤ 16) : place (v.field 0 n) 0 = v &&& BitVec.ofNat 16 (2 ^ n - 1) := by
  have small : 2 ^ n ≤ 2 ^ 16 := Nat.pow_le_pow_right (by decide) fits
  refine BitVec.eq_of_toNat_eq ?_
  rw [place_zero_toNat _ fits, field_toNat, BitVec.toNat_and, BitVec.toNat_ofNat,
    Nat.mod_eq_of_lt (Nat.lt_of_lt_of_le (Nat.sub_one_lt (Nat.two_pow_pos n).ne') small), Nat.and_two_pow_sub_one_eq_mod,
    Nat.pow_zero, Nat.div_one]

theorem tim0_fields (v : Word) : place (v.field 0 8) 0 ||| place (v.field 8 2) 8 = v &&& 0x03FF := by
  refine BitVec.eq_of_toNat_eq ?_
  rw [fields2_toNat _ _ _ (by decide) (by decide), field_toNat, field_toNat, BitVec.toNat_and,
    show (0x03FF : Word).toNat = 2 ^ 10 - 1 from rfl, Nat.and_two_pow_sub_one_eq_mod]
  omega

theorem tim1_fields (v : Word) : place (v.field 0 8) 0 ||| place (v.field 8 8) 8 = v := by
  refine BitVec.eq_of_toNat_eq ?_
  rw [fields2_toNat _ _ _ (by decide) (by decide), field_toNat, field_toNat]
  omega

/-- Settles O8. -/
theorem unlockedWritesStoreTheirFields : Obligations.UnlockedWritesStoreTheirFields := by
  intro b q v operates unlocked
  have tim0 := answers_operating (c := .tim0Write v) (q := q) (f := fun b => b.writeTim0 v) operates rfl
  have rte0 := answers_operating (c := .rteWrite .rte0 v) (q := q) (f := fun b => b.writeRoute .rte0 v) operates rfl
  have rte1 := answers_operating (c := .rteWrite .rte1 v) (q := q) (f := fun b => b.writeRoute .rte1 v) operates rfl
  rw [Block.writeTim0, Block.lockedWrite_of_clear unlocked] at tim0
  rw [Block.writeRoute, Block.lockedWrite_of_clear unlocked] at rte0 rte1
  refine ⟨⟨_, rfl, tim0, ?_⟩, ⟨_, rfl, rte0, ?_⟩, ⟨_, rfl, rte1, ?_⟩⟩
  · rw [Block.hostRead_operating (by exact operates)]
    exact tim0_fields v
  · rw [Block.hostRead_operating (by exact operates)]
    rfl
  · rw [Block.hostRead_operating (by exact operates)]
    exact place_field v (by decide)

end Sys2Proof.Machine

/-! A host write to a register with a behaviour of its own is the command of the register's owner (sections 11.2 and 11.6). -/

namespace Sys2Proof.Machine

/-- A host write that does the same as a command of an operating part is that command. -/
theorem exec_hostWrite {s : State} {addr : BitVec 6} {v : Word} {f : Block → Block} (notLdat : addr ≠ 0x1C#6)
    (same : ∀ b : Block, b.hostWrite addr v = f b) :
    exec (.registerWrite addr v) s = s.become (Block.whenOperating f) := by
  rw [← funext same]
  exact if_neg notLdat

/-- A write that does nothing leaves an operating part as it is; a held one ignores it (log entry 29). -/
theorem become_untouched (s : State) :
    s.become (Block.whenOperating id) = .next { s with block := s.block.unlessHeld } := rfl

section Owners

variable (s : State) (v : Word)

theorem exec_registerWrite_ctl : exec (.registerWrite 0x00#6 v) s =
    (if v.bit 2 then exec .softReset s
     else if v.bit 1 then exec (.censusNow (v.bit 0)) s
     else if v.bit 0 then exec .segenSet s
     else exec .segenClear s) := by
  have ctl : ∀ b : Block, b.hostWrite 0x00#6 v = b.writeCtl v := fun _ => rfl
  by_cases srst : v.bit 2 = true
  · rw [if_pos srst]
    exact exec_hostWrite (by decide) fun b => by rw [ctl, Block.writeCtl, if_pos srst]
  · rw [if_neg srst]
    by_cases census : v.bit 1 = true
    · rw [if_pos census]
      exact exec_hostWrite (by decide) fun b => by rw [ctl, Block.writeCtl, if_neg srst, census]
    · rw [if_neg census]
      by_cases segen : v.bit 0 = true
      · rw [if_pos segen]
        exact exec_hostWrite (by decide) fun b => by
          rw [ctl, Block.writeCtl, if_neg srst, segen, Bool.eq_false_of_not_eq_true census]
      · rw [if_neg segen]
        exact exec_hostWrite (by decide) fun b => by
          rw [ctl, Block.writeCtl, if_neg srst, Bool.eq_false_of_not_eq_true segen, Bool.eq_false_of_not_eq_true census]

theorem exec_registerWrite_dcmd : exec (.registerWrite 0x16#6 v) s =
    (if v.bit 1 then exec .dcmdAbort s else if v.bit 0 then exec .dcmdGo s
     else .next { s with block := s.block.unlessHeld }) := by
  have dcmd : ∀ b : Block, b.hostWrite 0x16#6 v = b.writeDcmd v := fun _ => rfl
  by_cases abort : v.bit 1 = true
  · rw [if_pos abort]
    exact exec_hostWrite (by decide) fun b => by rw [dcmd, Block.writeDcmd, if_pos abort]
  · rw [if_neg abort]
    by_cases go : v.bit 0 = true
    · rw [if_pos go]
      exact exec_hostWrite (by decide) fun b => by rw [dcmd, Block.writeDcmd, if_neg abort, if_pos go]
    · rw [if_neg go, ← become_untouched]
      exact exec_hostWrite (by decide) fun b => by rw [dcmd, Block.writeDcmd, if_neg abort, if_neg go, id]

theorem exec_registerWrite_lcmd : exec (.registerWrite 0x1E#6 v) s =
    (if v.bit 2 then exec .lcmdAbort s
     else if v.bit 0 then exec .lcmdStart s
     else if v.bit 1 then exec .lcmdResume s
     else .next { s with block := s.block.unlessHeld }) := by
  have lcmd : ∀ b : Block, b.hostWrite 0x1E#6 v = b.writeLcmd v := fun _ => rfl
  by_cases abort : v.bit 2 = true
  · rw [if_pos abort]
    exact exec_hostWrite (by decide) fun b => by rw [lcmd, Block.writeLcmd, if_pos abort]
  · rw [if_neg abort]
    by_cases start : v.bit 0 = true
    · rw [if_pos start]
      exact exec_hostWrite (by decide) fun b => by rw [lcmd, Block.writeLcmd, if_neg abort, if_pos start]
    · rw [if_neg start]
      by_cases resume : v.bit 1 = true
      · rw [if_pos resume]
        exact exec_hostWrite (by decide) fun b => by
          rw [lcmd, Block.writeLcmd, if_neg abort, if_neg start, if_pos resume]
      · rw [if_neg resume, ← become_untouched]
        exact exec_hostWrite (by decide) fun b => by
          rw [lcmd, Block.writeLcmd, if_neg abort, if_neg start, if_neg resume, id]

theorem exec_registerWrite_bkcmd : exec (.registerWrite 0x3E#6 v) s =
    (if v = 1 then exec .bkcmdRead s
     else if v = 2 then exec .bkcmdBook s
     else if v = 3 then exec .bkcmdUnbook s
     else if v = 4 then exec .bkcmdArm s
     else if v = 5 then exec .bkcmdDisarm s
     else .next { s with block := s.block.unlessHeld }) := by
  have bkcmd : ∀ b : Block, b.hostWrite 0x3E#6 v = b.writeBkcmd v := fun _ => rfl
  split_ifs with read book unbook arm disarm
  · exact exec_hostWrite (by decide) fun b => by rw [bkcmd, Block.writeBkcmd, if_pos read]
  · exact exec_hostWrite (by decide) fun b => by rw [bkcmd, Block.writeBkcmd, if_neg read, if_pos book]
  · exact exec_hostWrite (by decide) fun b => by rw [bkcmd, Block.writeBkcmd, if_neg read, if_neg book, if_pos unbook]
  · exact exec_hostWrite (by decide) fun b => by
      rw [bkcmd, Block.writeBkcmd, if_neg read, if_neg book, if_neg unbook, if_pos arm]
  · exact exec_hostWrite (by decide) fun b => by
      rw [bkcmd, Block.writeBkcmd, if_neg read, if_neg book, if_neg unbook, if_neg arm, if_pos disarm]
  · rw [← become_untouched]
    exact exec_hostWrite (by decide) fun b => by
      rw [bkcmd, Block.writeBkcmd, if_neg read, if_neg book, if_neg unbook, if_neg arm, if_neg disarm, id]

/-! ### FCMD (R62) -/

theorem Block.writeFcmd_of_none {b : Block} {v : Word} (out : v.bit 0 = false) (inb : v.bit 1 = false) :
    b.writeFcmd v = b := by
  simp only [Block.writeFcmd, out, inb, Bool.or_self, Bool.false_eq_true, if_false]

theorem Block.writeFcmd_of_out {b : Block} {v : Word} (out : v.bit 0 = true) (inb : v.bit 1 = false) :
    b.writeFcmd v = (b.flushFifo .outbound).listReadBehind := by
  simp only [Block.writeFcmd, out, inb, Bool.or_false, Bool.false_eq_true, if_false, if_true]

theorem Block.writeFcmd_of_inb {b : Block} {v : Word} (out : v.bit 0 = false) (inb : v.bit 1 = true) :
    b.writeFcmd v = (b.flushFifo .inbound).listReadBehind := by
  simp only [Block.writeFcmd, out, inb, Bool.or_true, Bool.false_eq_true, if_false, if_true]

theorem Block.writeFcmd_of_both {b : Block} {v : Word} (out : v.bit 0 = true) (inb : v.bit 1 = true) :
    b.writeFcmd v = ((b.flushFifo .outbound).flushFifo .inbound).listReadBehind := by
  simp only [Block.writeFcmd, out, inb, Bool.or_self, if_true]

theorem exec_registerWrite_fcmd_out (inb : v.bit 1 = false) : exec (.registerWrite 0x28#6 v) s =
    if v.bit 0 then exec .flushOut s else .next { s with block := s.block.unlessHeld } := by
  have fcmd : ∀ b : Block, b.hostWrite 0x28#6 v = b.writeFcmd v := fun _ => rfl
  cases out : v.bit 0 with
  | true =>
    rw [if_pos rfl]
    exact exec_hostWrite (by decide) fun b => by rw [fcmd, Block.writeFcmd_of_out out inb]
  | false =>
    rw [if_neg (by decide), ← become_untouched]
    exact exec_hostWrite (by decide) fun b => by rw [fcmd, Block.writeFcmd_of_none out inb, id]

theorem Block.flushFifo_operating (b : Block) (side : FifoSide) : (b.flushFifo side).operating = b.operating := by
  unfold Block.flushFifo
  split
  · cases side <;> rfl
  · rfl

/-- Two commands one after the other, of an operating part and of a held one. -/
theorem become_become {f g h : Block → Block} (keeps : (f s.block).operating = s.block.operating)
    (same : g (f s.block) = h s.block) :
    (s.onBlock (Block.whenOperating f)).become (Block.whenOperating g) = s.become (Block.whenOperating h) := by
  cases operates : s.block.operating with
  | true =>
    simp only [State.become, State.onBlock, Block.whenOperating_of operates,
      Block.whenOperating_of (keeps.trans operates), same]
  | false =>
    have held : s.block.ignored.operating = false := operates
    simp only [State.become, State.onBlock, Block.whenOperating_of_not operates, Block.whenOperating_of_not held]
    rfl

theorem exec_registerWrite_fcmd_both (inb : v.bit 1 = true) (between : v.bit 0 = false ∨ s.block.le.reading = false) :
    ∃ t, (if v.bit 0 then exec .flushOut s else .next { s with block := s.block.unlessHeld }) = .next t ∧
      exec (.registerWrite 0x28#6 v) s = exec .flushIn t := by
  have fcmd : ∀ b : Block, b.hostWrite 0x28#6 v = b.writeFcmd v := fun _ => rfl
  have write := exec_hostWrite (s := s) (by decide) fcmd
  cases out : v.bit 0 with
  | true =>
    have stays : (s.block.flushFifo .outbound).listReadBehind = s.block.flushFifo .outbound :=
      Block.listReadBehind_of_not (by rw [Block.flushFifo_le]; exact between.resolve_left (by simp only [out, Bool.true_eq_false, not_false_eq_true]))
    refine ⟨_, if_pos rfl, ?_⟩
    rw [write]
    exact (become_become s (f := fun b => (b.flushFifo .outbound).listReadBehind)
      (g := fun b => (b.flushFifo .inbound).listReadBehind) (by rw [stays, Block.flushFifo_operating])
      (by rw [stays, Block.writeFcmd_of_both out inb])).symm
  | false =>
    refine ⟨_, if_neg (by decide), ?_⟩
    rw [write]
    exact (become_become s (f := id) (g := fun b => (b.flushFifo .inbound).listReadBehind) rfl
      (by rw [Block.writeFcmd_of_inb out inb, id])).symm

end Owners

theorem Block.hostWrite_readOnly (b : Block) {addr : BitVec 6} (v : Word) (readOnly : isReadOnly addr = true) :
    b.hostWrite addr v = b := by
  have listed := of_decide_eq_true readOnly
  unfold Block.hostWrite
  split <;> first | rfl | (rename_i at_; rw [at_] at listed; exact absurd listed (by decide))

/-- Settles O10: each register by the command of its owner. -/
theorem registerWritesReachTheirOwner : Obligations.RegisterWritesReachTheirOwner := by
  rintro s _ v rfl
  refine ⟨exec_registerWrite_ctl s v, exec_registerWrite_dcmd s v, exec_registerWrite_lcmd s v,
    exec_registerWrite_fcmd_out s v, exec_registerWrite_fcmd_both s v, exec_registerWrite_spctl s v,
    exec_registerWrite_bkcmd s v, ?nqadv, ?lock, ?tim0, ?cnd, ?rte0, ?rte1, ?len, ?ldat, ?odat, ?fmki, ?fmko, ?spbnd, ?spmap,
    fun addr readOnly => ?readOnly⟩
  case ldat => rfl
  case readOnly =>
    have notLdat : addr ≠ 0x1C#6 := by
      rintro rfl
      revert readOnly
      decide
    rw [← become_untouched]
    exact exec_hostWrite notLdat fun b => b.hostWrite_readOnly v readOnly
  all_goals exact exec_hostWrite (by decide) fun _ => rfl

end Sys2Proof.Machine

/-! Host writes to the registers that only store (R180, section 11.7). -/

namespace Sys2Proof.Machine

/-! ### The halves of the Attention Mask (R143) -/

theorem maskLow_low (m : StationSet) (v : Word) : (maskLow m v).extractLsb' 0 15 = v.field 0 15 :=
  BitVec.extractLsb'_append_eq_right

theorem maskLow_high (m : StationSet) (v : Word) : (maskLow m v).extractLsb' 15 15 = m.extractLsb' 15 15 :=
  BitVec.extractLsb'_append_eq_left

theorem maskHigh_low (m : StationSet) (v : Word) : (maskHigh m v).extractLsb' 0 15 = m.extractLsb' 0 15 :=
  BitVec.extractLsb'_append_eq_right

theorem maskHigh_high (m : StationSet) (v : Word) : (maskHigh m v).extractLsb' 15 15 = v.field 0 15 :=
  BitVec.extractLsb'_append_eq_left

theorem highHalf_maskLow (m : StationSet) (v : Word) : highHalf (maskLow m v) = highHalf m :=
  congrArg (place · 0) (maskLow_high m v)

theorem lowHalf_maskHigh (m : StationSet) (v : Word) : lowHalf (maskHigh m v) = lowHalf m :=
  congrArg (place · 0) (maskHigh_low m v)

theorem lowHalf_maskLow (m : StationSet) (v : Word) : lowHalf (maskLow m v) = v &&& 0x7FFF :=
  (congrArg (place · 0) (maskLow_low m v)).trans (place_field v (by decide))

theorem highHalf_maskHigh (m : StationSet) (v : Word) : highHalf (maskHigh m v) = v &&& 0x7FFF :=
  (congrArg (place · 0) (maskHigh_high m v)).trans (place_field v (by decide))

/-! ### The registers of a unit -/

/-- The registers that show fields of the Booking Unit, of the Direct Unit and of the Attention Unit. -/
def bookingRegisters : List (BitVec 6) :=
  [0x06#6, 0x36#6, 0x37#6, 0x38#6, 0x39#6, 0x3A#6, 0x3B#6, 0x3C#6, 0x3D#6, 0x3F#6]
def directRegisters : List (BitVec 6) := [0x11#6, 0x12#6, 0x13#6, 0x14#6, 0x15#6, 0x17#6, 0x18#6, 0x19#6, 0x1A#6]
def attentionRegisters : List (BitVec 6) := [0x2F#6, 0x30#6, 0x31#6, 0x32#6, 0x33#6, 0x34#6, 0x35#6]

/-- The registers that only store, by the unit that owns them. -/
theorem plainMask_owner : ∀ k : Fin 64, (plainMask ⟨k⟩).isSome = true →
    (⟨k⟩ ∈ bookingRegisters ∨ ⟨k⟩ ∈ directRegisters ∨ ⟨k⟩ ∈ attentionRegisters) ∨
      (⟨k⟩ : BitVec 6) ∈ [0x05#6, 0x1B#6, 0x1D#6, 0x2B#6] := by decide

section Elsewhere

variable (b : Block) {a : BitVec 6}

theorem Block.decodedRead_bu (u : Bu) (elsewhere : a ∉ bookingRegisters) :
    ({ b with bu := u } : Block).decodedRead a = b.decodedRead a := by
  obtain ⟨k⟩ := a
  fin_cases k <;> first | rfl | exact absurd (by decide) elsewhere

theorem Block.decodedRead_du (d : Du) (elsewhere : a ∉ directRegisters) :
    ({ b with du := d } : Block).decodedRead a = b.decodedRead a := by
  obtain ⟨k⟩ := a
  fin_cases k <;> first | rfl | exact absurd (by decide) elsewhere

theorem Block.decodedRead_au (u : Au) (elsewhere : a ∉ attentionRegisters) :
    ({ b with au := u } : Block).decodedRead a = b.decodedRead a := by
  obtain ⟨k⟩ := a
  fin_cases k <;> first | rfl | exact absurd (by decide) elsewhere

theorem Block.decodedRead_tim1 (x y : BitVec 8) (elsewhere : a ≠ 0x05#6) :
    ({ b with deadline := x, stallLimit := y } : Block).decodedRead a = b.decodedRead a := by
  obtain ⟨k⟩ := a
  fin_cases k <;> first | rfl | exact absurd rfl elsewhere

theorem Block.decodedRead_lptr (x : BitVec 12) (elsewhere : a ∉ [0x1B#6, 0x1C#6]) :
    ({ b with le := { b.le with lptr := x } } : Block).decodedRead a = b.decodedRead a := by
  obtain ⟨k⟩ := a
  fin_cases k <;> first | rfl | exact absurd (by decide) elsewhere

theorem Block.decodedRead_lsta (x : BitVec 12) (elsewhere : a ≠ 0x1D#6) :
    ({ b with le := { b.le with lsta := x } } : Block).decodedRead a = b.decodedRead a := by
  obtain ⟨k⟩ := a
  fin_cases k <;> first | rfl | exact absurd rfl elsewhere

theorem Block.decodedRead_sel (x : BitVec 3) (elsewhere : a ∉ [0x2B#6, 0x2C#6, 0x2D#6]) :
    ({ b with sd := { b.sd with sel := x } } : Block).decodedRead a = b.decodedRead a := by
  obtain ⟨k⟩ := a
  fin_cases k <;> first | rfl | exact absurd (by decide) elsewhere

end Elsewhere

/-! ### What the write leaves -/

/-- `b'` is what a write of `v` to a plain register leaves of `b` (R180). -/
structure Block.PlainWrite (b : Block) (addr : BitVec 6) (v mask : Word) (b' : Block) : Prop where
  reads : b'.decodedRead addr = (v &&& mask) ||| (if addr = 0x2F#6 then b.decodedRead addr &&& 0xFF00 else 0)
  others : ∀ a : BitVec 6, a ≠ addr → ¬ (addr = 0x1B#6 ∧ a = 0x1C#6) →
    ¬ (addr = 0x2B#6 ∧ (a = 0x2C#6 ∨ a = 0x2D#6)) → b'.decodedRead a = b.decodedRead a
  kept : b'.sm = b.sm ∧ b'.ru = b.ru ∧ b'.fp = b.fp ∧ b'.hp = b.hp ∧ b'.le.store = b.le.store ∧
    b'.du.run = b.du.run ∧ b'.le.run = b.le.run ∧ b'.sd.spans = b.sd.spans ∧ b'.bu.table = b.bu.table

section Writes

variable (b : Block) (v : Word) {addr : BitVec 6} {mask : Word}

theorem and_whole : v &&& 0xFFFF = v := BitVec.and_allOnes

/-- A register but AUCF that reads the masked value reads what is claimed. -/
theorem plain_reads {x : Word} (reads : x = v &&& mask) (notAucf : addr ≠ 0x2F#6) (old : Word) :
    x = (v &&& mask) ||| (if addr = 0x2F#6 then old else 0) := by
  rw [if_neg notAucf, reads]
  exact BitVec.or_zero.symm

theorem Block.plainWrite_booking (owned : addr ∈ bookingRegisters) (plain : plainMask addr = some mask) :
    b.PlainWrite addr v mask (b.hostWrite addr v) := by
  have others : ∀ a : BitVec 6, a ≠ addr → (b.hostWrite addr v).decodedRead a = b.decodedRead a := by
    intro a other
    by_cases shown : a ∈ bookingRegisters
    · fin_cases owned <;> fin_cases shown <;> first | rfl | exact absurd rfl other
    · fin_cases owned <;> exact b.decodedRead_bu _ shown
  refine ⟨plain_reads v ?_ (by rintro rfl; revert owned; decide) _, fun a other _ _ => others a other, ?_⟩
  · fin_cases owned <;> cases plain
    · exact place_field v (by decide)
    · exact place_field v (by decide)
    · exact place_field v (by decide)
    · rfl
    · exact (and_whole v).symm
    · rfl
    · exact (and_whole v).symm
    · exact (and_whole v).symm
  · fin_cases owned <;> exact ⟨rfl, rfl, rfl, rfl, rfl, rfl, rfl, rfl, rfl⟩

theorem Block.plainWrite_direct (owned : addr ∈ directRegisters) (plain : plainMask addr = some mask) :
    b.PlainWrite addr v mask (b.hostWrite addr v) := by
  have others : ∀ a : BitVec 6, a ≠ addr → (b.hostWrite addr v).decodedRead a = b.decodedRead a := by
    intro a other
    by_cases shown : a ∈ directRegisters
    · fin_cases owned <;> fin_cases shown <;> first | rfl | exact absurd rfl other
    · fin_cases owned <;> exact b.decodedRead_du _ shown
  refine ⟨plain_reads v ?_ (by rintro rfl; revert owned; decide) _, fun a other _ _ => others a other, ?_⟩
  · fin_cases owned <;> cases plain
    · exact (and_whole v).symm
    · exact place_field v (by decide)
    · exact place_field v (by decide)
    · rfl
    · exact (and_whole v).symm
  · fin_cases owned <;> exact ⟨rfl, rfl, rfl, rfl, rfl, rfl, rfl, rfl, rfl⟩

/-- AUCF shows the setting written beside its read-only fields (R140). -/
theorem aucf_reads (setting : BitVec 8) (state : BitVec 2) (atn : Bool) :
    place (v.field 0 8) 0 ||| place state 8 ||| bitAt atn 15 =
      (v &&& 0x00FF) ||| ((place setting 0 ||| place state 8 ||| bitAt atn 15) &&& 0xFF00) := by
  have low : place setting 0 &&& 0xFF00 = 0#16 := by
    refine BitVec.eq_of_getLsbD_eq fun i inside => ?_
    interval_cases i <;> simp [place]
  have high : (place state 8 ||| bitAt atn 15) &&& 0xFF00 = place state 8 ||| bitAt atn 15 := by
    revert state atn
    decide
  rw [place_field v (by decide), BitVec.or_assoc, BitVec.or_assoc, BitVec.and_or_distrib_right, low, high, BitVec.zero_or]
  rfl

theorem Block.plainWrite_attention (owned : addr ∈ attentionRegisters) (plain : plainMask addr = some mask) :
    b.PlainWrite addr v mask (b.hostWrite addr v) := by
  have others : ∀ a : BitVec 6, a ≠ addr → (b.hostWrite addr v).decodedRead a = b.decodedRead a := by
    intro a other
    by_cases shown : a ∈ attentionRegisters
    · by_cases halves : addr = 0x30#6 ∧ a = 0x31#6 ∨ addr = 0x31#6 ∧ a = 0x30#6
      · rcases halves with ⟨rfl, rfl⟩ | ⟨rfl, rfl⟩
        · exact highHalf_maskLow b.au.mask v
        · exact lowHalf_maskHigh b.au.mask v
      · fin_cases owned <;> fin_cases shown <;> first | rfl | exact absurd rfl other | exact absurd (by decide) halves
    · fin_cases owned <;> exact b.decodedRead_au _ shown
  refine ⟨?_, fun a other _ _ => others a other, ?_⟩
  · fin_cases owned <;> cases plain
    · exact aucf_reads v b.au.setting b.au.state.code b.au.atn
    · exact plain_reads v (lowHalf_maskLow b.au.mask v) (by decide) _
    · exact plain_reads v (highHalf_maskHigh b.au.mask v) (by decide) _
  · fin_cases owned <;> exact ⟨rfl, rfl, rfl, rfl, rfl, rfl, rfl, rfl, rfl⟩

theorem Block.plainWrite_single (owned : addr ∈ [0x05#6, 0x1B#6, 0x1D#6, 0x2B#6]) (plain : plainMask addr = some mask) :
    b.PlainWrite addr v mask (b.hostWrite addr v) := by
  fin_cases owned <;> cases plain
  · exact ⟨plain_reads v ((tim1_fields v).trans (and_whole v).symm) (by decide) _,
      fun a other _ _ => b.decodedRead_tim1 _ _ other, rfl, rfl, rfl, rfl, rfl, rfl, rfl, rfl, rfl⟩
  · exact ⟨plain_reads v (place_field v (by decide)) (by decide) _,
      fun a other notLdat _ => b.decodedRead_lptr _ (by simp_all), rfl, rfl, rfl, rfl, rfl, rfl, rfl, rfl, rfl⟩
  · exact ⟨plain_reads v (place_field v (by decide)) (by decide) _,
      fun a other _ _ => b.decodedRead_lsta _ other, rfl, rfl, rfl, rfl, rfl, rfl, rfl, rfl, rfl⟩
  · exact ⟨plain_reads v (place_field v (by decide)) (by decide) _,
      fun a other _ notSpan => b.decodedRead_sel _ (by simp_all), rfl, rfl, rfl, rfl, rfl, rfl, rfl, rfl, rfl⟩

end Writes

/-- Settles O9: the write by the unit that owns the register. -/
theorem plainRegistersStoreTheirFields : Obligations.PlainRegistersStoreTheirFields := by
  intro b q addr v mask operates plain
  have write : b.PlainWrite addr v mask (b.hostWrite addr v) := by
    rcases plainMask_owner addr.toFin (by rw [show (⟨addr.toFin⟩ : BitVec 6) = addr from rfl, plain]; rfl) with
      (owned | owned | owned) | owned
    · exact b.plainWrite_booking v owned plain
    · exact b.plainWrite_direct v owned plain
    · exact b.plainWrite_attention v owned plain
    · exact b.plainWrite_single v owned plain
  have notLdat : addr ≠ 0x1C#6 := by
    rintro rfl
    cases plain
  obtain ⟨reads, others, sm, ru, fp, hp, kept⟩ := write
  have operates' : (b.hostWrite addr v).operating = true := by
    rw [Block.operating, hp]
    exact operates
  refine ⟨_, answers_registerWrite q v operates notLdat, ?_, fun a other ldat span => ?_, sm, ru, fp, hp, kept⟩
  · rw [Block.hostRead_operating operates', Block.hostRead_operating operates, reads]
  · rw [Block.hostRead_operating operates', Block.hostRead_operating operates, others a other ldat span]

end Sys2Proof.Machine

/-! The Attention Unit (chapter 8): what ATN, the end of the holdoff and a soft reset make it ask for. -/

namespace Sys2Proof.Machine

/-- A census asked for while SEGEN is 1, as the claims write it (R134). -/
theorem Block.requestCensus_eq {b : Block} (segen : b.sm.segen = true) : b.requestCensus = b.censusAsked := by
  unfold Block.requestCensus Block.censusAsked Block.arbitrate
  by_cases idle : b.sm.phase = .idle
  · rw [if_pos ⟨idle, segen⟩, if_pos rfl, if_pos idle]
    rfl
  · rw [if_neg fun ready => idle ready.1, if_neg idle]

theorem Block.attentionDue_iff (b : Block) :
    b.attentionDue = true ↔ b.au.state = .quiet ∧ b.sm.segen = true ∧ b.au.atn = true := by
  simp [Block.attentionDue, and_assoc]

theorem Block.lookAtn_of_due {b : Block} (quiet : b.au.state = .quiet) (segen : b.sm.segen = true) (atn : b.au.atn = true) :
    b.lookAtn = b.censusAsked := by
  rw [Block.lookAtn, if_pos ((b.attentionDue_iff).2 ⟨quiet, segen, atn⟩), Block.requestCensus_eq segen]

theorem Block.lookAtn_of_not {b : Block} (not : ¬ (b.au.state = .quiet ∧ b.sm.segen = true ∧ b.au.atn = true)) :
    b.lookAtn = b := if_neg fun due => not ((b.attentionDue_iff).1 due)

/-- Settles O22: the Attention Unit by its state, SEGEN and ATN. -/
theorem attentionUnitActsOnAtn : Obligations.AttentionUnitActsOnAtn := by
  intro b q operates
  have asserted : Answers .atnAsserted ⟨b, q⟩ (Block.lookAtn { b with au := { b.au with atn := true } }) := by
    have answer : Answers .atnAsserted ⟨b, q⟩ (Block.tellAtn { b with au := { b.au with atn := true } }) :=
      answers_become (f := fun b => Block.tellAtn { b with au := { b.au with atn := true } }) rfl
    rwa [Block.tellAtn, if_pos (by exact operates)] at answer
  refine ⟨fun quiet segen => ?asks, fun elsewhere => ?tracks,
    answers_become (f := fun b => { b with au := { b.au with atn := false } }) rfl, fun n holdoff runs => ?holdoff⟩
  case asks => rwa [Block.lookAtn_of_due (by exact quiet) (by exact segen) rfl] at asserted
  case tracks =>
    have not : ¬ (b.au.state = .quiet ∧ b.sm.segen = true ∧ true = true) := fun ⟨quiet, segen, _⟩ =>
      elsewhere.elim (· quiet) fun off => by simp only [off, Bool.false_eq_true] at segen
    rwa [Block.lookAtn_of_not (by exact not)] at asserted
  case holdoff =>
    have expiry := answers_operating (c := .holdoffExpiry) (q := q) (f := fun b => b.expireHoldoff) operates rfl
    rw [Block.expireHoldoff, if_pos ⟨holdoff, by simp [runs]⟩, Block.endHoldoff] at expiry
    refine ⟨fun atn segen => ?asks, fun not => ?quiet⟩
    case asks =>
      rw [if_pos ⟨atn, segen⟩, Block.requestCensus_eq (by exact segen)] at expiry
      exact expiry
    case quiet =>
      rwa [if_neg fun ⟨atn, segen⟩ => by simp [atn, segen] at not] at expiry

/-! ### The soft reset (R184) -/

/-- The blocks that a soft reset leaves, before the Attention Unit looks at ATN. -/
def Block.softCleared (b : Block) : Block :=
  { b with
      hp := { b.hp with rsn := .noRefusal }
      sm := b.sm.softReset
      du := { b.du with word := 0, outcome := .noOutcome, run := Run.fresh }
      le := { Le.reset with store := b.le.store, lsta := b.le.lsta }
      fp := { b.fp with out := Fifo.reset, inb := Fifo.reset }
      au := { b.au with state := .quiet, attention := 0, presence := 0, timer := none }
      bu := { b.bu with table := b.bu.table.map Booking.softReset, queue := [], ctx := .idle, station := 0,
                        outcome := .done, value := none }
      ru := { b.ru with flags := 0, spills := 0, nq := [] } }

/-- What an Attention Unit that asks for a census leaves of the two units that it changes. -/
structure Block.CensusFrame (b b' : Block) : Prop where
  rest : b' = { b with sm := b'.sm, au := b'.au }
  segen : b'.sm.segen = b.sm.segen
  timing : b'.sm.tim0Rate = b.sm.tim0Rate ∧ b'.sm.tim0Timeout = b.sm.tim0Timeout
  requests : ∀ c, b'.sm.request c = b.sm.request c
  pointer : b'.sm.pointer = b.sm.pointer
  patterns : b'.au.attention = b.au.attention ∧ b'.au.presence = b.au.presence
  settings : b'.au.mask = b.au.mask ∧ b'.au.setting = b.au.setting ∧ b'.au.atn = b.au.atn
  timer : b.au.timer = none → b'.au.timer = none

theorem Block.censusAsked_frame (b : Block) : b.CensusFrame b.censusAsked := by
  unfold Block.censusAsked
  split
  · exact ⟨rfl, rfl, ⟨rfl, rfl⟩, fun c => by cases c <;> rfl, rfl, ⟨rfl, rfl⟩, ⟨rfl, rfl, rfl⟩, fun _ => rfl⟩
  · exact ⟨rfl, rfl, ⟨rfl, rfl⟩, fun c => by cases c <;> rfl, rfl, ⟨rfl, rfl⟩, ⟨rfl, rfl, rfl⟩, fun _ => rfl⟩

theorem Block.lookAtn_frame (b : Block) : b.CensusFrame b.lookAtn := by
  by_cases due : b.au.state = .quiet ∧ b.sm.segen = true ∧ b.au.atn = true
  · rw [Block.lookAtn_of_due due.1 due.2.1 due.2.2]
    exact b.censusAsked_frame
  · rw [Block.lookAtn_of_not due]
    exact ⟨rfl, rfl, ⟨rfl, rfl⟩, fun _ => rfl, rfl, ⟨rfl, rfl⟩, ⟨rfl, rfl, rfl⟩, id⟩

/-- A census asked for, by the state of the Segment Master. -/
theorem Block.censusAsked_of_idle {b : Block} (idle : b.sm.phase = .idle) :
    b.censusAsked.au.state = .census ∧ b.censusAsked.sm.phase = .send ∧ b.censusAsked.sm.tx = some (.census []) := by
  rw [Block.censusAsked, if_pos idle]
  exact ⟨rfl, rfl, rfl⟩

theorem Block.censusAsked_of_busy {b : Block} (busy : b.sm.phase ≠ .idle) : b.censusAsked =
    { b with sm := { b.sm with pendCensus := true }, au := { b.au with state := .requested, timer := none } } := if_neg busy

theorem Sm.softReset_kept (s : Sm) : s.softReset.segen = s.segen ∧ s.softReset.tim0Rate = s.tim0Rate ∧
    s.softReset.tim0Timeout = s.tim0Timeout ∧ s.softReset.rate = s.rate := by
  unfold Sm.softReset
  cases s.phase <;> exact ⟨rfl, rfl, rfl, rfl⟩

theorem Sm.softReset_ended (s : Sm) : s.softReset.tx = none ∧ s.softReset.pendCensus = false ∧
    (∀ c, s.softReset.request c = none) ∧ s.softReset.pointer = .list := by
  unfold Sm.softReset
  cases s.phase <;> exact ⟨rfl, rfl, fun c => by cases c <;> rfl, rfl⟩

theorem Sm.softReset_resting {s : Sm} (rests : s.phase = .off ∨ s.phase = .idle) : s.softReset.phase = s.phase := by
  unfold Sm.softReset
  rcases rests with rests | rests <;> rw [rests]

theorem Sm.softReset_busy {s : Sm} (busy : s.phase = .send ∨ s.phase = .await ∨ s.phase = .gap) :
    s.softReset.phase = .gap ∧ s.softReset.gap = some .recovery ∧ s.softReset.after = .rest := by
  unfold Sm.softReset
  rcases busy with busy | busy | busy <;> rw [busy] <;> exact ⟨rfl, rfl, rfl⟩

theorem Sm.softReset_not_idle {s : Sm} (notIdle : s.phase ≠ .idle) : s.softReset.phase ≠ .idle := by
  cases phase : s.phase with
  | idle => exact absurd phase notIdle
  | off => rw [Sm.softReset_resting (.inl phase), phase]; decide
  | send => rw [(Sm.softReset_busy (.inl phase)).1]; decide
  | await => rw [(Sm.softReset_busy (.inr (.inl phase))).1]; decide
  | gap => rw [(Sm.softReset_busy (.inr (.inr phase))).1]; decide

/-- A Segment Master that is not IDLE takes a census request as pending at most. -/
theorem Block.lookAtn_of_busy {b : Block} (busy : b.sm.phase ≠ .idle) :
    b.lookAtn.sm = { b.sm with pendCensus := b.lookAtn.sm.pendCensus } := by
  by_cases due : b.au.state = .quiet ∧ b.sm.segen = true ∧ b.au.atn = true
  · rw [Block.lookAtn_of_due due.1 due.2.1 due.2.2, Block.censusAsked_of_busy busy]
  · rw [Block.lookAtn_of_not due]

/-- What a soft reset makes of a Booking Table entry, as the claims write it (R166). -/
theorem Booking.softReset_eq (e : Booking) : e.softReset = { e with
    mark := .noMark
    state := match e.state, e.mark with
      | .queued, _ => .armed
      | .inService, .noMark => .armed
      | .inService, .disarm => .disarmed
      | .inService, .unbook => .unbooked
      | st, _ => st } := by
  unfold Booking.softReset
  cases e.state <;> cases e.mark <;> rfl

/-- Settles O5: what the reset leaves, and the Attention Unit's look at ATN as it enters QUIET. -/
theorem softResetEndsTheWorkAndKeepsTheSetup : Obligations.SoftResetEndsTheWorkAndKeepsTheSetup := by
  intro b q operates
  have answer : Answers .softReset ⟨b, q⟩ b.softCleared.lookAtn := answers_softReset q operates
  obtain ⟨rest, segen, timing, requests, pointer, patterns, settings, timer⟩ := b.softCleared.lookAtn_frame
  obtain ⟨keptSegen, keptRate, keptTimeout, rate⟩ := b.sm.softReset_kept
  obtain ⟨noTx, noCensus, noRequest, atList⟩ := b.sm.softReset_ended
  have entries : ∀ k, b.softCleared.bu.entry k = (b.bu.entry k).softReset := Bu.entry_softReset (u := b.bu) rfl
  have locked : b.softCleared.lookAtn.lockedGroup = b.lockedGroup := by
    rw [rest]
    simp only [Block.lockedGroup, timing.1, timing.2]
    exact congrArg₂ (fun x y => LockedGroup.mk x y _ _ _ _) keptRate keptTimeout
  have off : ¬ (b.sm.segen = true ∧ b.au.atn = true) → b.softCleared.lookAtn = b.softCleared := fun not =>
    Block.lookAtn_of_not fun ⟨_, segen, atn⟩ => not ⟨keptSegen.symm.trans segen, atn⟩
  have on : b.sm.segen = true → b.au.atn = true → b.softCleared.lookAtn = b.softCleared.censusAsked := fun segen atn =>
    Block.lookAtn_of_due rfl (keptSegen.trans segen) atn
  refine ⟨_, answer, segen.trans keptSegen, locked, by rw [rest]; rfl, by rw [rest]; rfl, by rw [rest]; rfl, by rw [rest]; rfl,
    by rw [rest]; rfl, by rw [rest]; rfl, by rw [rest]; rfl, by rw [rest]; rfl, by rw [rest]; rfl, fun k => ?entries,
    by rw [rest]; rfl, (requests .service).trans (noRequest .service), (requests .direct).trans (noRequest .direct),
    (requests .list).trans (noRequest .list), pointer.trans atList, fun phase => ?rests, fun busy => ?gap, patterns.1,
    patterns.2, settings.1, settings.2.1, timer rfl, settings.2.2, fun not => ?quiet, fun segen atn => ⟨fun idle => ?idle,
    fun notIdle => ?waits⟩⟩
  case entries =>
    rw [rest]
    exact (entries k).trans (Booking.softReset_eq _)
  case rests =>
    have same := Sm.softReset_resting (.inl phase)
    rw [Block.lookAtn_of_busy (b := b.softCleared) (by rw [show b.softCleared.sm.phase = _ from same, phase]; decide)]
    exact ⟨same.trans phase, noTx⟩
  case gap =>
    obtain ⟨phase, gap, after⟩ := Sm.softReset_busy busy
    rw [Block.lookAtn_of_busy (b := b.softCleared) (by rw [show b.softCleared.sm.phase = _ from phase]; decide)]
    exact ⟨phase, gap, after, rate, noTx⟩
  case quiet =>
    rw [off not]
    exact ⟨rfl, noCensus, fun idle => (Sm.softReset_resting (.inr idle)).trans idle⟩
  case idle =>
    rw [on segen atn]
    exact Block.censusAsked_of_idle ((Sm.softReset_resting (.inr idle)).trans idle)
  case waits =>
    rw [on segen atn, Block.censusAsked_of_busy (Sm.softReset_not_idle notIdle)]
    exact ⟨rfl, rfl⟩

end Sys2Proof.Machine

/-! The end of a census (chapters 8 and 9): the patterns, the holdoff, the hand-over of the selected stations. -/

namespace Sys2Proof.Machine

/-- What the arbiter can do: nothing, the grant of a pending census, or without one the grant of a request (R22). -/
theorem Block.arbitrate_cases (b : Block) : b.arbitrate = b ∨
    (b.sm.phase = .idle ∧ b.sm.pendCensus = true ∧ b.arbitrate = b.grantCensus) ∨
    ∃ c r, b.sm.phase = .idle ∧ b.sm.pendCensus = false ∧ b.sm.request c = some r ∧ b.arbitrate = b.grantClient c r := by
  unfold Block.arbitrate
  split
  · next ready =>
    split
    · next census => exact .inr (.inl ⟨ready.1, census, rfl⟩)
    · next census =>
      split
      · exact .inl rfl
      · next c _ =>
        cases request : b.sm.request c with
        | none => exact .inl rfl
        | some r => exact .inr (.inr ⟨c, r, ready.1, by simpa using census, request, rfl⟩)
  · exact .inl rfl

theorem Block.grantClient_frame (b : Block) (c : Client) (r : Request) :
    (b.grantClient c r).ru = b.ru ∧ (b.grantClient c r).sm.segen = b.sm.segen ∧ (b.grantClient c r).au = b.au ∧
      (b.grantClient c r).sm.pendCensus = b.sm.pendCensus := by
  cases c <;> exact ⟨rfl, rfl, rfl, rfl⟩

theorem Block.arbitrate_frame (b : Block) : b.arbitrate.ru = b.ru ∧ b.arbitrate.sm.segen = b.sm.segen := by
  rcases b.arbitrate_cases with same | ⟨-, -, census⟩ | ⟨c, r, -, -, -, grants⟩
  · rw [same]; exact ⟨rfl, rfl⟩
  · rw [census]; exact ⟨rfl, rfl⟩
  · rw [grants]
    obtain ⟨ru, segen, -, -⟩ := b.grantClient_frame c r
    exact ⟨ru, segen⟩

/-! ### What serving stations can change -/

/-- The changes that the start of services is made of: the Booking Unit, the slots of the Notification Queue and the choices
taken; an event of SVFLT or UNBK; a service's post. -/
inductive Block.Serves : Block → Block → Prop where
  | refl (b : Block) : Serves b b
  | trans {a b c : Block} : Serves a b → Serves b c → Serves a c
  | books (b : Block) (u : Bu) (slots : List Slot) (n : Nat) :
      Serves b { b with bu := u, ru := { b.ru with nq := slots }, choices := n }
  | reports (b : Block) (c : Condition) (own : c = .svflt ∨ c = .unbk) : Serves b (b.setCondition c)
  | posts (b : Block) (r : Request) : Serves b (b.post .service r)

theorem Block.Serves.finishService (b : Block) (e : Ending) : b.Serves (b.finishService e) := by
  unfold Block.finishService Block.postService
  dsimp only
  split
  · exact .trans (.books b _ _ b.choices) (.reports _ .svflt (.inl rfl))
  · exact .books b _ _ b.choices

theorem Block.Serves.postAction (b : Block) (ctx : SvcState) (a : Action) : b.Serves (b.postAction ctx a) := by
  unfold Block.postAction
  dsimp only
  have inCtx := Block.Serves.books b { b.bu with ctx := ctx } b.ru.nq b.choices
  split
  · exact .trans inCtx (.posts _ _)
  · exact .trans inCtx (.finishService _ _)

theorem Block.Serves.tryReserve (b : Block) : b.Serves b.tryReserve := by
  unfold Block.tryReserve Block.beginActions
  dsimp only
  have reserved := Block.Serves.books b b.bu (b.ru.nq ++ [.reserved]) b.choices
  split
  · split
    · exact .trans reserved (.finishService _ _)
    · exact .trans reserved (.postAction _ _ _)
    · exact .trans reserved (.postAction _ _ _)
  · exact .refl b

theorem Block.Serves.takeHead (b : Block) : b.Serves b.takeHead := by
  unfold Block.takeHead
  split
  · exact .refl b
  · exact .books b _ b.ru.nq b.choices

theorem Block.Serves.startUpTo (n : Nat) (b : Block) : b.Serves (b.startUpTo n) := by
  induction n generalizing b with
  | zero => exact .refl b
  | succ n ih =>
    unfold Block.startUpTo
    split
    · exact .trans (.trans (.takeHead b) (.tryReserve _)) (ih _)
    · exact .refl b

theorem Block.Serves.startServices (b : Block) : b.Serves b.startServices := .startUpTo _ b

theorem Block.Serves.startWithUnbk (n : Nat) (b : Block) : b.Serves (b.startWithUnbk n) := by
  induction n generalizing b with
  | zero => exact .reports b .unbk (.inr rfl)
  | succ n ih =>
    unfold Block.startWithUnbk
    dsimp only
    have chosen := Block.Serves.books b b.bu b.ru.nq (b.choices + 1)
    have reported := fun x : Block => Block.Serves.trans (.reports x .unbk (.inr rfl)) (.startUpTo (n + 1) _)
    split
    · split
      · exact .trans chosen (reported _)
      · exact .trans chosen (.trans (.trans (.takeHead _) (.tryReserve _)) (ih _))
    · exact reported b

theorem Block.Serves.handOver (b : Block) (stations : List Nat) : b.Serves (b.handOver stations) := by
  unfold Block.handOver
  dsimp only
  have selected := Block.Serves.books b (Bu.selectAll stations b.bu).1 b.ru.nq b.choices
  split
  · exact .trans selected (.startWithUnbk _ _)
  · exact .trans selected (.startServices _)

/-- The condition flags that no service touches. -/
theorem Block.Serves.flag {b b' : Block} (serves : b.Serves b') {c : Condition} (other : c ≠ .svflt) (notUnbk : c ≠ .unbk) :
    b'.ru.flag c = b.ru.flag c := by
  induction serves with
  | refl | books => rfl
  | trans _ _ first second => exact second.trans first
  | reports b d own =>
    refine (Ru.setCondition_flag b.ru d c).trans ?_
    have different : c ≠ d := fun same => own.elim (fun h => other (same.trans h)) fun h => notUnbk (same.trans h)
    simp [different]
  | posts b r => exact congrArg (Ru.flag · c) (Block.arbitrate_frame _).1

/-- Behind a gap or a frame, services leave of the rest of the part only their own request. -/
theorem Block.Serves.busy {b b' : Block} (serves : b.Serves b') (busy : b.sm.phase ≠ .idle) :
    b' = { b with sm := { b.sm with pendService := b'.sm.pendService }, bu := b'.bu, ru := b'.ru, choices := b'.choices } := by
  induction serves with
  | refl | books | reports => rfl
  | trans _ _ first second =>
    have one := first busy
    have two := second (by rw [one]; exact busy)
    rw [one] at two
    exact two
  | posts b r =>
    rw [Block.post, Block.arbitrate, if_neg fun ready => busy (by exact ready.1)]
    rfl

theorem Block.Serves.segen {b b' : Block} (serves : b.Serves b') : b'.sm.segen = b.sm.segen := by
  induction serves with
  | refl | books | reports => rfl
  | trans _ _ first second => exact second.trans first
  | posts b r => exact (Block.arbitrate_frame _).2.trans (by rfl)

/-! ### The holdoff behind a census (R140, R141) -/

section Holdoff

variable {b : Block}

theorem Block.enterHoldoff_of_setting (setting : b.au.setting ≠ 0) :
    b.enterHoldoff = { b with au := { b.au with state := .holdoff, timer := some b.au.setting.toNat } } := by
  rw [Block.enterHoldoff, if_neg setting, limitOf, if_neg setting]

theorem Block.enterHoldoff_of_asked (setting : b.au.setting = 0) (atn : b.au.atn = true) (segen : b.sm.segen = true)
    (busy : b.sm.phase ≠ .idle) : b.enterHoldoff =
      { b with sm := { b.sm with pendCensus := true }, au := { b.au with state := .requested, timer := none } } := by
  rw [Block.enterHoldoff, if_pos setting, Block.endHoldoff, if_pos ⟨atn, segen⟩, Block.requestCensus_eq (by exact segen),
    Block.censusAsked_of_busy (by exact busy)]

theorem Block.enterHoldoff_of_quiet (setting : b.au.setting = 0) (not : ¬ (b.au.atn = true ∧ b.sm.segen = true)) :
    b.enterHoldoff = { b with au := { b.au with state := .quiet, timer := none } } := by
  rw [Block.enterHoldoff, if_pos setting, Block.endHoldoff, if_neg (by exact not)]

/-- Behind a gap, the holdoff concerns the Attention Unit and its request alone. -/
theorem Block.enterHoldoff_frame (busy : b.sm.phase ≠ .idle) : b.enterHoldoff =
    { b with
      sm := { b.sm with pendCensus := b.enterHoldoff.sm.pendCensus }
      au := { b.au with state := b.enterHoldoff.au.state, timer := b.enterHoldoff.au.timer } } := by
  by_cases setting : b.au.setting = 0
  · by_cases asked : b.au.atn = true ∧ b.sm.segen = true
    · rw [Block.enterHoldoff_of_asked setting asked.1 asked.2 busy]
    · rw [Block.enterHoldoff_of_quiet setting asked]
  · rw [Block.enterHoldoff_of_setting setting]

end Holdoff

/-! ### The slots of a census (R7, R137) -/

section Slots

variable {slots : List (BitVec 3)} {k : Nat}

theorem judgeSlots_getD (below : k < 30) : (judgeSlots slots).getD k .absent = judgeSlot (slots.getD k 7) := by
  simp [judgeSlots, below]

theorem hasStation_stationsOf (p : SlotResult → Bool) (station : isStation k) :
    hasStation (stationsOf (judgeSlots slots) p) k = p (judgeSlot (slots.getD (k - 1) 7)) := by
  obtain ⟨low, high⟩ := station
  have below : k - 1 < 30 := by omega
  rw [← judgeSlots_getD below]
  simp [hasStation, stationsOf, low, below]

theorem judgeSlot_attention (levels : BitVec 3) : judgeSlot levels = .attention ↔ levels = 0b001#3 := by
  revert levels; decide

theorem judgeSlot_absent (levels : BitVec 3) : judgeSlot levels = .absent ↔ levels = 0b111#3 := by
  revert levels; decide

theorem judgeSlot_garbled (levels : BitVec 3) :
    judgeSlot levels = .garbled ↔ levels ∉ [0b111#3, 0b011#3, 0b001#3] := by
  revert levels; decide

theorem judgeSlots_garbled : (judgeSlots slots).any (· = .garbled) = true ↔
    ∃ k, 1 ≤ k ∧ k ≤ 30 ∧ slots.getD (k - 1) 7 ∉ [0b111#3, 0b011#3, 0b001#3] := by
  simp only [judgeSlots, List.any_map, List.any_eq_true, List.mem_range, Function.comp, decide_eq_true_eq, judgeSlot_garbled]
  constructor
  · rintro ⟨k, below, garbled⟩
    exact ⟨k + 1, by omega, by omega, garbled⟩
  · rintro ⟨k, low, high, garbled⟩
    exact ⟨k - 1, by omega, garbled⟩

end Slots

/-! ### The end of slot 30 -/

/-- The block to whose Attention Unit the slot results have come: the gap entered, both patterns replaced, CNFLT reported
for a garbled slot (R7, R13, R137, R138). -/
def Block.censusTaken (b : Block) (slots : List (BitVec 3)) : Block :=
  let results := judgeSlots slots
  let b1 := { b with
    sm := { b.sm.enterGap .interFrame .rest with tx := some (.census results) }
    au := { b.au with attention := stationsOf results (· = .attention), presence := stationsOf results (· ≠ .absent) } }
  if results.any (· = .garbled) then b1.setCondition .cnflt else b1

/-- What an event of CNFLT leaves of the rest of the part. -/
theorem Block.censusTaken_frame (b : Block) (slots : List (BitVec 3)) : b.censusTaken slots = { b with
    sm := { b.sm.enterGap .interFrame .rest with tx := some (.census (judgeSlots slots)) }
    au := { b.au with attention := stationsOf (judgeSlots slots) (· = .attention)
                      presence := stationsOf (judgeSlots slots) (· ≠ .absent) }
    ru := (b.censusTaken slots).ru } := by
  unfold Block.censusTaken
  dsimp only
  split <;> rfl

theorem Block.censusTaken_ru (b : Block) (slots : List (BitVec 3)) : (b.censusTaken slots).ru =
    if (judgeSlots slots).any (· = .garbled) then b.ru.setCondition .cnflt else b.ru := by
  unfold Block.censusTaken
  dsimp only
  split <;> rfl

/-- The selected stations are handed over, and the holdoff begins (R139, R140, R158). -/
theorem answers_censusSlotsEnd {b : Block} {q : List Instr} (slots : List (BitVec 3)) {l : List SlotResult}
    (operates : b.operating = true) (phase : b.sm.phase = .await) (tx : b.sm.tx = some (.census l)) :
    Answers (.censusSlotsEnd slots) ⟨b, q⟩
      ((b.censusTaken slots).handOver (b.censusTaken slots).au.selected).enterHoldoff := by
  have ends : b.censusSlotsEnd slots =
      ((b.censusTaken slots).handOver (b.censusTaken slots).au.selected).enterHoldoff := by
    simp only [Block.censusSlotsEnd, phase, tx]
    rfl
  rw [← ends]
  exact answers_operating (f := fun b => b.censusSlotsEnd slots) operates rfl

/-- Settles O23. -/
theorem censusReplacesThePatterns : Obligations.CensusReplacesThePatterns := by
  intro b q slots l operates phase tx
  have taken := b.censusTaken_frame slots
  have flags := b.censusTaken_ru slots
  have answer := answers_censusSlotsEnd (q := q) slots operates phase tx
  generalize b.censusTaken slots = c at taken flags answer
  have serves := Block.Serves.handOver c c.au.selected
  have kept := serves.busy (by rw [taken]; exact fun h => SmPhase.noConfusion h)
  have cnflt := serves.flag (c := .cnflt) (by decide) (by decide)
  generalize c.handOver c.au.selected = d at kept cnflt answer
  have au : d.au = c.au := by rw [kept]
  have sm : d.sm = { c.sm with pendService := d.sm.pendService } := by rw [kept]
  have inGap : d.sm.phase ≠ .idle := by rw [sm, taken]; exact fun h => SmPhase.noConfusion h
  have frame := d.enterHoldoff_frame inGap
  have setting : d.au.setting = b.au.setting := by rw [au, taken]
  refine ⟨_, answer, fun k low high => ?patterns, ?cnflt, by rw [frame, au, taken], by rw [frame, au, taken],
    by rw [frame, au, taken], fun nonzero => ?holdoff, fun zero => ?decides, by rw [frame, sm, taken]; rfl,
    by rw [frame, sm, taken]; rfl, by rw [frame, kept, taken], by rw [frame, kept, taken], by rw [frame, kept, taken]⟩
  case patterns =>
    rw [frame, au, taken, hasStation_stationsOf _ ⟨low, high⟩, hasStation_stationsOf _ ⟨low, high⟩, decide_eq_true_iff,
      decide_eq_true_iff, judgeSlot_attention, Ne, judgeSlot_absent]
    exact ⟨.rfl, .rfl⟩
  case cnflt =>
    rw [frame, ← judgeSlots_garbled]
    refine (iff_of_eq (congrArg (· = true) cnflt)).trans ?_
    rw [flags]
    split
    · next garbled => simp [Ru.setCondition_flag, garbled]
    · next none => simp [none]
  case holdoff =>
    rw [Block.enterHoldoff_of_setting (by rwa [setting]), setting]
    exact ⟨rfl, rfl, by rw [sm, taken]; rfl⟩
  case decides =>
    have zeroNow : d.au.setting = 0 := setting.trans zero
    have atn : d.au.atn = b.au.atn := by rw [au, taken]
    have segen : d.sm.segen = b.sm.segen := by rw [sm, taken]; rfl
    have pending : d.sm.pendCensus = b.sm.pendCensus := by rw [sm, taken]; rfl
    refine ⟨?timer, fun asserted on => ?asks, fun not => ?quiet⟩
    case timer =>
      by_cases asked : d.au.atn = true ∧ d.sm.segen = true
      · rw [Block.enterHoldoff_of_asked zeroNow asked.1 asked.2 inGap]
      · rw [Block.enterHoldoff_of_quiet zeroNow asked]
    case asks =>
      rw [Block.enterHoldoff_of_asked zeroNow (atn.trans asserted) (segen.trans on) inGap]
      exact ⟨rfl, rfl⟩
    case quiet =>
      rw [Block.enterHoldoff_of_quiet zeroNow fun asked => by simp [← atn, ← segen, asked] at not]
      exact ⟨rfl, pending⟩

/-! ### The selected stations join the Service Queue (R158) -/

theorem Bu.select_frame (u : Bu) (k : Nat) : ∃ table queue, (u.select k).1 = { u with table := table, queue := queue } := by
  unfold Bu.select
  split
  · cases k <;> exact ⟨_, _, rfl⟩
  all_goals exact ⟨_, _, rfl⟩

/-- The hand-over touches the Booking Table and the Service Queue alone. -/
theorem Bu.selectAll_frame (l : List Nat) (u : Bu) :
    ∃ table queue, (Bu.selectAll l u).1 = { u with table := table, queue := queue } := by
  induction l generalizing u with
  | nil => exact ⟨_, _, rfl⟩
  | cons k rest ih =>
    obtain ⟨_, _, one⟩ := u.select_frame k
    obtain ⟨table, queue, others⟩ := ih (u.select k).1
    exact ⟨table, queue, others.trans (by rw [one])⟩

/-- One station of the selected set, by its entry's state. -/
theorem Bu.select_spec (u : Bu) {k : Nat} (station : isStation k) :
    (u.select k).1.queue = (if (u.entry k).state = .armed then u.queue ++ [k] else u.queue) ∧
    (∀ j, (u.select k).1.entry j = { u.entry j with
      state := if j = k ∧ (u.entry j).state = .armed then .queued else (u.entry j).state }) ∧
    ((u.select k).2 = true ↔ (u.entry k).state = .unbooked ∨ (u.entry k).state = .disarmed) := by
  unfold Bu.select
  have same : ∀ state, (u.entry k).state = state → state ≠ .armed → ∀ j, u.entry j = { u.entry j with
      state := if j = k ∧ (u.entry j).state = .armed then .queued else (u.entry j).state } := fun state at' other j => by
    rw [if_neg]
    rintro ⟨rfl, armed⟩
    exact other (at'.symm.trans armed)
  cases state : (u.entry k).state with
  | armed =>
    refine ⟨by simp, fun j => ?_, by simp⟩
    have queued : ∀ q, Bu.entry { u.setState k .queued with queue := q } j = (u.setState k .queued).entry j := fun q => by
      cases j <;> rfl
    rw [queued, Bu.setState]
    by_cases this : j = k
    · subst this
      rw [Bu.entry_setEntry_same _ _ _ station, if_pos ⟨rfl, state⟩]
    · rw [Bu.entry_setEntry_other _ _ _ _ this, if_neg fun both => this both.1]
  | queued => exact ⟨rfl, same _ state (by decide), by simp⟩
  | inService => exact ⟨rfl, same _ state (by decide), by simp⟩
  | unbooked => exact ⟨rfl, same _ state (by decide), by simp⟩
  | disarmed => exact ⟨rfl, same _ state (by decide), by simp⟩

/-- The selected set, by the states of its entries: the ARMED ones join the queue in order, and the answer tells of one that
is UNBOOKED or DISARMED. -/
theorem Bu.selectAll_spec (l : List Nat) (u : Bu) (stations : ∀ k ∈ l, isStation k) (distinct : l.Nodup) :
    (Bu.selectAll l u).1.queue = u.queue ++ l.filter (fun k => (u.entry k).state = .armed) ∧
    (∀ j, (Bu.selectAll l u).1.entry j = { u.entry j with
      state := if j ∈ l ∧ (u.entry j).state = .armed then .queued else (u.entry j).state }) ∧
    ((Bu.selectAll l u).2 = true ↔ ∃ k ∈ l, (u.entry k).state = .unbooked ∨ (u.entry k).state = .disarmed) := by
  induction l generalizing u with
  | nil => exact ⟨by simp [Bu.selectAll], fun j => by simp [Bu.selectAll], by simp [Bu.selectAll]⟩
  | cons k rest ih =>
    obtain ⟨fresh, distinct⟩ := List.nodup_cons.1 distinct
    obtain ⟨queue, entries, missed⟩ := u.select_spec (stations k (by simp))
    obtain ⟨queueRest, entriesRest, missedRest⟩ := ih (u.select k).1 (fun j mem => stations j (by simp [mem])) distinct
    have others : ∀ j ∈ rest, (u.select k).1.entry j = u.entry j := fun j mem => by
      rw [entries, if_neg]
      rintro ⟨rfl, -⟩
      exact fresh mem
    refine ⟨?queue, fun j => ?entry, ?missed⟩
    case queue =>
      have filtered : rest.filter (fun j => ((u.select k).1.entry j).state = .armed) =
          rest.filter (fun j => (u.entry j).state = .armed) := List.filter_congr fun j mem => by rw [others j mem]
      refine queueRest.trans ?_
      rw [filtered, queue, List.filter_cons]
      split <;> simp_all
    case entry =>
      refine (entriesRest j).trans ?_
      by_cases mem : j ∈ rest
      · simp [others j mem, mem]
      · rw [if_neg fun both => mem both.1, entries]
        simp [mem]
    case missed =>
      have answer : (Bu.selectAll (k :: rest) u).2 = ((u.select k).2 || (Bu.selectAll rest (u.select k).1).2) := rfl
      rw [answer, Bool.or_eq_true_iff, missed, missedRest]
      simp only [List.mem_cons, exists_eq_or_imp]
      exact or_congr_right (exists_congr fun j => and_congr_right fun mem => by rw [others j mem])

/-! ### Whom the hand-over serves (R159) -/

/-- No service starts: UNBK is reported alone. -/
theorem Block.startWithUnbk_stays {b : Block} (n : Nat) (stays : b.serviceReady = false) :
    b.startWithUnbk n = b.setCondition .unbk := by
  cases n with
  | zero => rfl
  | succ n =>
    rw [Block.startWithUnbk, if_neg (by simp [stays])]
    exact Block.startUpTo_stays (b := b.setCondition .unbk) _ stays

/-- With SEGEN at 0 the selected stations only wait. -/
theorem Block.handOver_off {b : Block} (l : List Nat) (off : b.sm.segen = false) : b.handOver l =
    if (Bu.selectAll l b.bu).2 then Block.setCondition { b with bu := (Bu.selectAll l b.bu).1 } .unbk
    else { b with bu := (Bu.selectAll l b.bu).1 } := by
  have stays : Block.serviceReady { b with bu := (Bu.selectAll l b.bu).1 } = false := by simp [Block.serviceReady, off]
  unfold Block.handOver
  dsimp only
  rw [Block.startWithUnbk_stays _ stays, Block.startServices, Block.startUpTo_stays _ stays]

/-- The entry of the station that is served is IN-SERVICE, and the others are kept. -/
theorem Block.serviceTaken_entries (b : Block) {k : Nat} (station : isStation k) (rest : List Nat) (j : Nat) :
    (b.serviceTaken k rest).bu.entry j =
      { b.bu.entry j with state := if j = k then .inService else (b.bu.entry j).state } := by
  have table : (b.serviceTaken k rest).bu.entry j =
      (b.bu.setEntry k { b.bu.entry k with state := .inService }).entry j := by
    rw [Bu.setEntry_eq]
    cases j <;> rfl
  rw [table]
  by_cases same : j = k
  · subst same
    rw [Bu.entry_setEntry_same _ _ _ station, if_pos rfl]
  · rw [Bu.entry_setEntry_other _ _ _ _ same, if_neg same]

/-- The head of the Service Queue is served: its slot is reserved, and its clear action waits for the arbiter. -/
structure Block.HeadServed (b : Block) (k : Nat) (rest : List Nat) (b' : Block) : Prop where
  bu : b'.bu = { (b.serviceTaken k rest).bu with ctx := .action1 }
  sm : b'.sm = { b.sm with pendService := some (serviceRequest b.bu.tim2 k (b.bu.entry k).clear) }
  reserved : .reserved ∈ b'.ru.nq

theorem Block.HeadServed.reported {b b' : Block} {k : Nat} {rest : List Nat} (served : b.HeadServed k rest b') (c : Condition) :
    b.HeadServed k rest (b'.setCondition c) := by
  refine ⟨served.bu, served.sm, ?_⟩
  rcases b'.ru.setCondition_nq c with same | ⟨-, joined⟩
  · exact same ▸ served.reserved
  · exact joined ▸ List.mem_append_left _ served.reserved

/-- A reserved service with an action posts it, where the Segment Master is not IDLE. -/
theorem Block.beginActions_waits {t : Block} (segen : t.sm.segen = true) (busy : t.sm.phase ≠ .idle)
    (acts : (t.bu.entry t.bu.station).cls ≠ .notify) : t.slotReserved.beginActions =
      { t.slotReserved with
        bu := { t.bu with ctx := .action1 }
        sm := { t.sm with
          pendService := some (serviceRequest t.bu.tim2 t.bu.station (t.bu.entry t.bu.station).clear) } } := by
  rw [Block.beginActions_acts t.slotReserved acts]
  exact Block.postAction_waits (b := t.slotReserved) segen busy

section FirstService

variable {b : Block} {k : Nat} {rest : List Nat} (idle : b.bu.ctx = .idle) (queue : b.bu.queue = k :: rest)
  (segen : b.sm.segen = true) (busy : b.sm.phase ≠ .idle) (acts : (b.bu.entry k).cls ≠ .notify)
include idle queue segen

theorem Block.serviceReady_of_queue : b.serviceReady = true := by
  simp [Block.serviceReady, idle, queue, segen]

include busy acts

omit idle in
theorem Block.tryReserve_headServed (free : b.ru.nq.length < 16) : b.HeadServed k rest b.takeHead.tryReserve := by
  obtain ⟨cls, clear⟩ := b.serviceTaken_entry k rest
  have begins : b.takeHead.tryReserve = (b.serviceTaken k rest).slotReserved.beginActions := by
    rw [Block.takeHead_eq queue]
    exact if_pos (decide_eq_true free)
  have station : (b.serviceTaken k rest).bu.station = k := rfl
  have tim2 : (b.serviceTaken k rest).bu.tim2 = b.bu.tim2 := by simp only [Block.serviceTaken, Bu.withEntry]
  have sm : (b.serviceTaken k rest).sm = b.sm := by simp only [Block.serviceTaken]
  rw [begins, Block.beginActions_waits (t := b.serviceTaken k rest) segen busy (by rwa [station, cls]), station, clear, tim2, sm]
  exact ⟨rfl, rfl, List.mem_append_right _ (List.mem_singleton.2 rfl)⟩

theorem Block.startUpTo_headServed (n : Nat) (free : b.ru.nq.length < 16) : b.HeadServed k rest (b.startUpTo (n + 1)) := by
  have served := Block.tryReserve_headServed queue segen busy acts free
  rw [Block.startUpTo, if_pos (Block.serviceReady_of_queue idle queue segen), Block.startUpTo_stays _
    (by simp [Block.serviceReady, served.bu])]
  exact served

theorem Block.startWithUnbk_headServed (n : Nat) (free : b.ru.nq.length ≤ 14) :
    b.HeadServed k rest (b.startWithUnbk (n + 1)) := by
  have room : (b.setCondition .unbk).ru.nq.length < 16 := by
    rcases b.ru.setCondition_nq .unbk with same | ⟨-, joined⟩
    · rw [show (b.setCondition .unbk).ru.nq = _ from same]; omega
    · rw [show (b.setCondition .unbk).ru.nq = _ from joined]; simp; omega
  rw [Block.startWithUnbk]
  split
  · dsimp only
    split
    · obtain ⟨bu, sm, reserved⟩ :=
        Block.startUpTo_headServed (b := b.chosen.setCondition .unbk) idle queue segen busy acts n room
      exact ⟨bu, sm, reserved⟩
    · have served := Block.tryReserve_headServed (b := b.chosen) queue segen busy acts
        (Nat.lt_of_le_of_lt free (by decide))
      have stays := Block.startWithUnbk_stays n (show b.chosen.takeHead.tryReserve.serviceReady = false by
        simp [Block.serviceReady, served.bu])
      obtain ⟨bu, sm, reserved⟩ := served.reported .unbk
      exact stays ▸ ⟨bu, sm, reserved⟩
  · obtain ⟨bu, sm, reserved⟩ :=
      Block.startUpTo_headServed (b := b.setCondition .unbk) idle queue segen busy acts n room
    exact ⟨bu, sm, reserved⟩

end FirstService

/-- With SEGEN at 1, no service under way and slots free, the first selected station is served. -/
theorem Block.handOver_headServed {b : Block} {l : List Nat} {k : Nat} {rest : List Nat} {u : Bu}
    (selected : u = (Bu.selectAll l b.bu).1) (idle : u.ctx = .idle) (queue : u.queue = k :: rest) (segen : b.sm.segen = true)
    (busy : b.sm.phase ≠ .idle) (acts : (u.entry k).cls ≠ .notify) (free : b.ru.nq.length ≤ 14) :
    Block.HeadServed { b with bu := u } k rest (b.handOver l) := by
  subst selected
  have waiting : (Bu.selectAll l b.bu).1.queue.length = rest.length + 1 := by rw [queue]; rfl
  unfold Block.handOver Block.startServices
  dsimp only
  rw [waiting]
  split
  · exact Block.startWithUnbk_headServed (b := { b with bu := (Bu.selectAll l b.bu).1 }) idle queue segen busy acts _ free
  · exact Block.startUpTo_headServed (b := { b with bu := (Bu.selectAll l b.bu).1 }) idle queue segen busy acts _
      (Nat.lt_of_le_of_lt free (by decide))

/-- The selected set in the terms of the slots (R139). -/
theorem Block.mem_selected (b : Block) (slots : List (BitVec 3)) (k : Nat) : k ∈ (b.censusTaken slots).au.selected ↔
    1 ≤ k ∧ k ≤ 30 ∧ slots.getD (k - 1) 7 = 0b001#3 ∧ hasStation b.au.mask k = true := by
  rw [b.censusTaken_frame slots, Au.selected, List.mem_filter, List.mem_range'_1, Bool.and_eq_true]
  constructor
  · rintro ⟨⟨low, high⟩, attention, mask⟩
    rw [hasStation_stationsOf _ ⟨low, by omega⟩, decide_eq_true_iff, judgeSlot_attention] at attention
    exact ⟨low, by omega, attention, mask⟩
  · rintro ⟨low, high, attention, mask⟩
    rw [hasStation_stationsOf _ ⟨low, high⟩, decide_eq_true_iff, judgeSlot_attention]
    exact ⟨⟨low, by omega⟩, attention, mask⟩

/-- The selected stations whose entries are ARMED, in order. -/
theorem Block.selected_armed (b : Block) (slots : List (BitVec 3)) :
    (b.censusTaken slots).au.selected.filter (fun k => (b.bu.entry k).state = .armed) =
      (List.range' 1 30).filter (fun k =>
        slots.getD (k - 1) 7 = 0b001#3 ∧ hasStation b.au.mask k = true ∧ (b.bu.entry k).state = .armed) := by
  rw [b.censusTaken_frame slots, Au.selected, List.filter_filter]
  refine List.filter_congr fun k mem => ?_
  obtain ⟨low, high⟩ := List.mem_range'_1.1 mem
  rw [hasStation_stationsOf _ ⟨low, by omega⟩, Bool.eq_iff_iff]
  simp only [Bool.and_eq_true, decide_eq_true_iff, judgeSlot_attention]
  tauto

/-- The entries and the queue behind the selection of a census (R158). -/
theorem Block.selectAll_census (b : Block) (slots : List (BitVec 3)) :
    (Bu.selectAll (b.censusTaken slots).au.selected b.bu).1.queue = b.bu.queue ++ (List.range' 1 30).filter (fun k =>
        slots.getD (k - 1) 7 = 0b001#3 ∧ hasStation b.au.mask k = true ∧ (b.bu.entry k).state = .armed) ∧
    (∀ k, (Bu.selectAll (b.censusTaken slots).au.selected b.bu).1.entry k = { b.bu.entry k with
        state := if 1 ≤ k ∧ k ≤ 30 ∧ slots.getD (k - 1) 7 = 0b001#3 ∧ hasStation b.au.mask k = true ∧
          (b.bu.entry k).state = .armed then .queued else (b.bu.entry k).state }) ∧
    ((Bu.selectAll (b.censusTaken slots).au.selected b.bu).2 = true ↔ ∃ k, 1 ≤ k ∧ k ≤ 30 ∧
      slots.getD (k - 1) 7 = 0b001#3 ∧ hasStation b.au.mask k = true ∧
        ((b.bu.entry k).state = .unbooked ∨ (b.bu.entry k).state = .disarmed)) := by
  have stations : ∀ k ∈ (b.censusTaken slots).au.selected, isStation k := fun k mem => by
    obtain ⟨low, high, -⟩ := (b.mem_selected slots k).1 mem
    exact ⟨low, high⟩
  have distinct : (b.censusTaken slots).au.selected.Nodup := List.Nodup.filter _ List.nodup_range'
  obtain ⟨queue, entries, missed⟩ := Bu.selectAll_spec _ b.bu stations distinct
  refine ⟨by rw [queue, b.selected_armed slots], fun k => ?_, by simp only [missed, b.mem_selected slots, and_assoc]⟩
  simp only [entries k, b.mem_selected slots, and_assoc]

/-- Settles O24: the selected set by its entries, with no service, or with that of its lowest ARMED station. -/
theorem censusHandsOverTheSelectedSet : Obligations.CensusHandsOverTheSelectedSet := by
  refine ⟨fun b q slots l operates phase tx off => ?off,
    fun b q slots l k rest e operates phase tx segen idle noQueue free isEntry acts first => ?served⟩
  case off =>
    have answer := answers_censusSlotsEnd (q := q) slots operates phase tx
    obtain ⟨queue, entries, missed⟩ := b.selectAll_census slots
    have taken := b.censusTaken_frame slots
    have flags := b.censusTaken_ru slots
    generalize b.censusTaken slots = c at taken flags answer queue entries missed
    have books : c.bu = b.bu := by rw [taken]
    have inGap : c.sm.phase ≠ .idle := by rw [taken]; exact fun h => SmPhase.noConfusion h
    have unbk : c.ru.flag .unbk = b.ru.flag .unbk := by
      rw [flags]
      split
      · simp [Ru.setCondition_flag]
      · rfl
    have handed := Block.handOver_off (b := c) c.au.selected (by rw [taken]; exact off)
    have frame := (c.handOver c.au.selected).enterHoldoff_frame (by
      rw [handed]
      split <;> exact inGap)
    rw [handed, books] at frame answer
    refine ⟨_, answer, ?_⟩
    rw [frame]
    cases unready : (Bu.selectAll c.au.selected b.bu).2 with
    | true =>
      rw [if_pos rfl]
      refine ⟨queue, entries, fun _ => .inr (missed.1 unready), fun _ => ?_⟩
      exact (Ru.setCondition_flag c.ru .unbk .unbk).trans (by simp)
    | false =>
      rw [if_neg (by decide)]
      refine ⟨queue, entries, (iff_of_eq (congrArg (· = true) unbk)).trans (or_iff_left fun found => ?_).symm⟩
      exact absurd (missed.2 found) (by simp [unready])
  case served =>
    have answer := answers_censusSlotsEnd (q := q) slots operates phase tx
    obtain ⟨queue, entries, -⟩ := b.selectAll_census slots
    have taken := b.censusTaken_frame slots
    have flags := b.censusTaken_ru slots
    generalize b.censusTaken slots = c at taken flags answer queue entries
    have books : c.bu = b.bu := by rw [taken]
    have inGap : c.sm.phase ≠ .idle := by rw [taken]; exact fun h => SmPhase.noConfusion h
    have room : c.ru.nq.length ≤ 14 := by
      rw [flags]
      split
      · rcases b.ru.setCondition_nq .cnflt with same | ⟨-, joined⟩
        · rw [same]; omega
        · rw [joined]; simp; omega
      · omega
    obtain ⟨table, line, selected⟩ := Bu.selectAll_frame c.au.selected b.bu
    have clear : ((Bu.selectAll c.au.selected b.bu).1.entry k).cls = e.cls ∧
        ((Bu.selectAll c.au.selected b.bu).1.entry k).clear = e.clear := by
      rw [entries k, isEntry]
      exact ⟨rfl, rfl⟩
    rw [first, noQueue] at queue
    have ctx : (Bu.selectAll c.au.selected b.bu).1.ctx = .idle := (Bu.selectAll_ctx _ _).trans idle
    have tim2 : (Bu.selectAll c.au.selected b.bu).1.tim2 = b.bu.tim2 := by rw [selected]
    have head := Block.handOver_headServed (b := c) (congrArg (fun u => (Bu.selectAll c.au.selected u).1) books.symm) ctx
      queue (by rw [taken]; exact segen) inGap (by rw [clear.1]; exact acts) room
    have chosen : ∀ j, j ∈ k :: rest ↔ 1 ≤ j ∧ j ≤ 30 ∧ slots.getD (j - 1) 7 = 0b001#3 ∧ hasStation b.au.mask j = true ∧
        (b.bu.entry j).state = .armed := fun j => by
      rw [← first, List.mem_filter, List.mem_range'_1, decide_eq_true_iff, and_assoc]
      exact ⟨fun ⟨low, high, rest⟩ => ⟨low, by omega, rest⟩, fun ⟨low, high, rest⟩ => ⟨low, by omega, rest⟩⟩
    obtain ⟨low, high, -⟩ := (chosen k).1 (by simp)
    generalize (Bu.selectAll c.au.selected b.bu).1 = u at entries queue ctx tim2 clear head
    generalize c.handOver c.au.selected = d at answer head
    have frame := d.enterHoldoff_frame (by rw [head.sm]; exact inGap)
    refine ⟨_, answer, by rw [frame, head.bu]; rfl, by rw [frame, head.bu], by rw [frame, head.bu]; rfl, fun j => ?entry,
      by rw [frame]; exact head.reserved, by rw [frame, head.sm, taken]; rfl, ?request⟩
    case entry =>
      have served : d.enterHoldoff.bu.entry j = (Block.serviceTaken { c with bu := u } k rest).bu.entry j := by
        rw [frame, head.bu]
        cases j <;> rfl
      rw [served, Block.serviceTaken_entries _ ⟨low, high⟩, entries j]
      by_cases same : j = k
      · simp [same]
      · have others : j ∈ rest ↔ _ := ((List.mem_cons.trans (or_iff_right same)).symm.trans (chosen j))
        simp only [same, if_false, others]
    case request =>
      rw [frame, head.sm, tim2, clear.2]

end Sys2Proof.Machine

/-! The set and the clear of SEGEN, and CENSUS-NOW (chapters 1 and 8). -/

namespace Sys2Proof.Machine

/-! ### With SEGEN at 0 no unit reaches the Segment Master (R18, R20) -/

/-- The Segment Master and the Attention Unit are as they were. -/
structure Block.SegmentKept (b b' : Block) : Prop where
  sm : b'.sm = b.sm
  au : b'.au = b.au

theorem Block.SegmentKept.refl (b : Block) : b.SegmentKept b := ⟨rfl, rfl⟩

theorem Block.SegmentKept.trans {a b c : Block} (first : a.SegmentKept b) (second : b.SegmentKept c) : a.SegmentKept c :=
  ⟨second.sm.trans first.sm, second.au.trans first.au⟩

theorem Block.SegmentKept.setRun (b : Block) (o : Owner) (r : Run) : b.SegmentKept (b.setRun o r) := by
  cases o <;> exact ⟨rfl, rfl⟩

/-- The block whose entry's run starts, its claim being held (R121). -/
theorem Block.listRunStart_eq_progress (b : Block) : ∃ x : Block, x = { b with le := { b.le with
      activity := .running, stallTimer := none, run := { b.le.run with sub := .preparing, stall := .noStall } } } ∧
    (b.listRunStart = (x.startRun .list).1 ∨ ∃ res, b.listRunStart = (x.startRun .list).1.listHalt res) := by
  refine ⟨_, rfl, ?_⟩
  unfold Block.listRunStart
  dsimp only
  generalize Block.startRun _ .list = p
  obtain ⟨c, none | res⟩ := p
  · exact .inl rfl
  · exact .inr ⟨res, rfl⟩

section Off

variable {b : Block} (off : b.sm.segen = false)
include off

theorem Block.postWord_of_off (o : Owner) : b.postWord o = (b, some .offline) := if_neg (by simp [off])

theorem Block.testData_of_off (o : Owner) : b.SegmentKept (b.testData o).1 := by
  have stalls := fun reason full => Block.SegmentKept.setRun b o
    { b.run o with sub := .stalled, stall := reason, fullSeen := full, stallTimer := limitOf b.stallLimit }
  have posts : b.SegmentKept (b.postWord o).1 := by rw [Block.postWord_of_off off]; exact .refl b
  unfold Block.testData
  dsimp only
  split
  · exact posts
  · split
    · exact stalls _ _
    · exact posts
  · split
    · split
      · rw [Block.postWord_of_off (by rw [(Block.SegmentKept.setRun b o _).sm]; exact off)]
        exact .setRun b o _
      · exact stalls _ _
    · split
      · exact posts
      · exact stalls _ _

theorem Block.startRun_of_off (o : Owner) : b.SegmentKept (b.startRun o).1 := by
  unfold Block.startRun Block.prepare
  dsimp only
  split
  · exact .refl b
  · split
    · exact .refl b
    · next station cell _ =>
      have found := Block.SegmentKept.setRun b o
        { b.run o with sub := .preparing, lastStation := station, lastCell := cell }
      exact found.trans (Block.testData_of_off (by rw [found.sm]; exact off) o)

theorem Block.listRunStart_of_off : b.SegmentKept b.listRunStart := by
  obtain ⟨x, running, starts⟩ := b.listRunStart_eq_progress
  have started := Block.startRun_of_off (b := x) (by rw [running]; exact off) .list
  rw [running] at started
  rw [running] at starts
  rcases starts with same | ⟨res, halts⟩
  · rw [same]
    exact ⟨started.sm, started.au⟩
  · rw [halts]
    exact ⟨started.sm, started.au⟩

/-- Also where a claim passes to the List Engine, whose run cannot post its word. -/
theorem Block.directEnd_of_off (res : Result) : b.SegmentKept (b.directEnd res) := by
  unfold Block.directEnd
  dsimp only
  split
  · exact ⟨rfl, rfl⟩
  · next side _ =>
    have passed : b.SegmentKept (((b.directResults res).releaseDirect).setClaim side .list) := by
      cases side <;> exact ⟨rfl, rfl⟩
    generalize ((b.directResults res).releaseDirect).setClaim side .list = p at passed
    have starts : ∀ x : Block, x.sm = p.sm → x.au = p.au → b.SegmentKept x.listRunStart := fun x sm au =>
      Block.SegmentKept.trans (b := x) ⟨sm.trans passed.sm, au.trans passed.au⟩
        (Block.listRunStart_of_off (by rw [sm, passed.sm]; exact off))
    split
    · split
      · exact starts _ rfl rfl
      · have started := starts p.choose.2 rfl rfl
        exact ⟨started.sm, started.au⟩
    · exact starts _ rfl rfl

theorem Block.serviceReady_of_off : b.serviceReady = false := by simp [Block.serviceReady, off]

theorem Block.startServices_of_off : b.startServices = b := Block.startUpTo_stays _ (Block.serviceReady_of_off off)

end Off

/-- OFFLINE ends a run, or an ABORTING one ABORTED (R39, R46). -/
theorem Block.applyOutcome_offline (b : Block) (o : Owner) (v : Word) :
    b.applyOutcome o .offline v = (b, some (if (b.run o).sub = .aborting then .aborted else .offline)) := by
  unfold Block.applyOutcome Block.applyAborting
  split <;> rfl

theorem Block.applyOutcome_offline_requesting {b : Block} {o : Owner} {v : Word} (sub : (b.run o).sub = .requesting) :
    b.applyOutcome o .offline v = (b, some .offline) := by
  rw [Block.applyOutcome_offline, sub]
  rfl

theorem Block.SegmentKept.finishService (b : Block) (e : Ending) : b.SegmentKept (b.finishService e) := by
  unfold Block.finishService Block.postService
  dsimp only
  split <;> exact ⟨rfl, rfl⟩

/-- OFFLINE ends a service that is at an action (R161). -/
theorem Block.applyAction_offline {b : Block} (v : Word) : b.applyAction .offline v =
    if b.bu.ctx = .action1 ∨ b.bu.ctx = .action2 then b.finishService .offline else b := by
  unfold Block.applyAction
  cases ctx : b.bu.ctx <;> simp

theorem Block.serviceOutcome_of_off {b : Block} (off : b.sm.segen = false) (v : Word) :
    b.serviceOutcome .offline v =
      if b.bu.ctx = .action1 ∨ b.bu.ctx = .action2 then b.finishService .offline else b := by
  rw [Block.serviceOutcome, Block.applyAction_offline]
  split
  · exact Block.startServices_of_off (by rw [(Block.SegmentKept.finishService b .offline).sm]; exact off)
  · exact Block.startServices_of_off off

/-- A requester that gets OFFLINE at SEGEN 0 leaves the Segment Master and the Attention Unit alone. -/
theorem Block.deliver_of_off {b : Block} (off : b.sm.segen = false) (c : Client) (v : Word) :
    b.SegmentKept (b.deliver c .offline v) := by
  cases c with
  | service =>
    show b.SegmentKept (b.serviceOutcome .offline v)
    rw [Block.serviceOutcome_of_off off]
    split
    · exact .finishService b _
    · exact .refl b
  | direct =>
    show b.SegmentKept (Block.directProgress (b.applyOutcome .direct .offline v))
    rw [Block.applyOutcome_offline]
    exact Block.directEnd_of_off off _
  | list =>
    show b.SegmentKept (Block.listProgress (b.applyOutcome .list .offline v))
    rw [Block.applyOutcome_offline]
    split <;> exact ⟨rfl, rfl⟩

/-- A Booking Table in which the entry of one station is another. -/
theorem Bu.withEntry_spec {u v : Bu} {k : Nat} {e : Booking} (written : u.withEntry k e = v) :
    v = { u with table := v.table } ∧ ∀ {x : Bu}, isStation k → x.table = v.table →
      x.entry k = e ∧ ∀ j, j ≠ k → x.entry j = u.entry j := by
  subst written
  refine ⟨by simp only [Bu.withEntry], fun {x} station table => ?_⟩
  rw [← Bu.setEntry_eq] at table
  have entries : ∀ j, x.entry j = (u.setEntry k e).entry j := fun j => by cases j <;> simp only [Bu.entry, table]
  exact ⟨(entries k).trans (Bu.entry_setEntry_same u k e station),
    fun j other => (entries j).trans (Bu.entry_setEntry_other u k j e other)⟩

/-! ### The clear of SEGEN (R18) -/

theorem Sm.setRequest_same (s : Sm) (c : Client) : s.setRequest c (s.request c) = s := by cases c <;> rfl

/-- The answer of one requester: its request is gone. -/
theorem Block.offlineClient_segment {b : Block} (off : b.sm.segen = false) (c : Client) :
    (b.offlineClient c).sm = b.sm.setRequest c none ∧ (b.offlineClient c).au = b.au := by
  unfold Block.offlineClient
  cases request : b.sm.request c with
  | none =>
    rw [if_neg (by simp), ← request, Sm.setRequest_same]
    exact ⟨rfl, rfl⟩
  | some r =>
    rw [if_pos (by rfl)]
    obtain ⟨sm, au⟩ := Block.deliver_of_off (b := b.withdraw c) (by cases c <;> exact off) c 0
    exact ⟨sm, au⟩

theorem Block.offlineClient_of_none {b : Block} {c : Client} (none : b.sm.request c = none) : b.offlineClient c = b :=
  if_neg (by simp [none])

theorem Block.offlineClient_of_some {b : Block} {c : Client} (pending : (b.sm.request c).isSome) :
    b.offlineClient c = (b.withdraw c).deliver c .offline 0 := if_pos pending

theorem Block.offlineCensus_segment (b : Block) : b.offlineCensus =
    { b with sm := { b.sm with pendCensus := false }
             au := { b.au with state := if b.sm.pendCensus then .quiet else b.au.state } } := by
  unfold Block.offlineCensus
  cases pending : b.sm.pendCensus
  · rw [if_neg (by decide), if_neg (by decide), ← pending]
  · rfl

theorem Sm.disable_kept (s : Sm) : s.disable.segen = false ∧ s.disable.pendCensus = s.pendCensus ∧
    (∀ c, s.disable.request c = s.request c) ∧ s.disable.pointer = s.pointer ∧
    s.disable.phase = (if s.phase = .idle then .off else s.phase) ∧
    (s.phase = .gap → s.disable.after = (if s.after = .retry then .deliver else s.after) ∧ s.disable.tx = s.tx) ∧
    (s.phase = .send ∨ s.phase = .await → s.disable.tx = s.tx.map Tx.markFinal) := by
  unfold Sm.disable
  cases phase : s.phase <;>
    exact ⟨rfl, rfl, fun c => by cases c <;> rfl, rfl, by simp, by simp, by simp⟩

/-- The segment that the clear leaves: no request is pending, and an Attention Unit that waited for a census is in QUIET. -/
theorem Block.lowerSegen_segment (b : Block) :
    b.lowerSegen.sm = { b.sm.disable with pendCensus := false, pendService := none, pendDirect := none, pendList := none } ∧
    b.lowerSegen.au = { b.au with state := if b.sm.pendCensus then .quiet else b.au.state } := by
  obtain ⟨segen, census, -⟩ := b.sm.disable_kept
  have cleared := Block.offlineCensus_segment { b with sm := b.sm.disable }
  dsimp only at cleared
  rw [census] at cleared
  have first := Block.offlineClient_segment (b := Block.offlineCensus { b with sm := b.sm.disable })
    (by rw [cleared]; exact segen) .service
  unfold Block.lowerSegen
  rw [cleared] at first ⊢
  generalize Block.offlineClient _ .service = x at first ⊢
  obtain ⟨sm, au⟩ := first
  have two : ∀ y : Block, y.sm = x.sm → y.au = x.au → ∀ c d, ((y.offlineClient c).offlineClient d).sm =
      (x.sm.setRequest c none).setRequest d none ∧ ((y.offlineClient c).offlineClient d).au = x.au := fun y ySm yAu c d => by
    have off : y.sm.segen = false := by rw [ySm, sm]; exact segen
    obtain ⟨sm1, au1⟩ := Block.offlineClient_segment off c
    obtain ⟨sm2, au2⟩ := Block.offlineClient_segment (b := y.offlineClient c) (by rw [sm1]; cases c <;> exact off) d
    exact ⟨by rw [sm2, sm1, ySm], by rw [au2, au1, yAu]⟩
  dsimp only
  split
  · split
    · obtain ⟨sm', au'⟩ := two x.choose.2 rfl rfl .direct .list
      rw [sm', au', sm, au]
      exact ⟨rfl, rfl⟩
    · obtain ⟨sm', au'⟩ := two x.choose.2 rfl rfl .list .direct
      rw [sm', au', sm, au]
      exact ⟨rfl, rfl⟩
  · obtain ⟨sm', au'⟩ := two x rfl rfl .direct .list
    rw [sm', au', sm, au]
    exact ⟨rfl, rfl⟩

theorem answers_segenClear {b : Block} {q : List Instr} (operates : b.operating = true) (segen : b.sm.segen = true) :
    Answers .segenClear ⟨b, q⟩ b.lowerSegen := by
  have answer := answers_operating (c := .segenClear) (q := q) (f := fun b => b.setSegen false false) operates rfl
  simpa only [Block.setSegen, segen, Bool.false_eq_true, false_and, if_false, if_true, and_self] using answer

/-- SEGEN has gone to 0, and no requester has been answered yet. -/
def Block.disabled (b : Block) : Block := { b with sm := b.sm.disable }

theorem Block.disabled_off (b : Block) : b.disabled.sm.segen = false := b.sm.disable_kept.1

theorem Block.disabled_request (b : Block) (c : Client) : b.disabled.sm.request c = b.sm.request c :=
  b.sm.disable_kept.2.2.1 c

theorem Sm.request_setRequest_other (s : Sm) {c d : Client} (other : d ≠ c) (r : Option Request) :
    (s.setRequest c r).request d = s.request d := by
  revert other
  cases c <;> cases d <;> simp [Sm.request, Sm.setRequest]

/-- The answer of one requester leaves the requests of the others. -/
theorem Block.offlineClient_request {b : Block} (off : b.sm.segen = false) {c d : Client} (other : d ≠ c) :
    (b.offlineClient c).sm.request d = b.sm.request d := by
  rw [(Block.offlineClient_segment off c).1, Sm.request_setRequest_other _ other]

/-- Without a pending census, and with one run at most that requests a word, the requesters are answered in turn. -/
theorem Block.lowerSegen_of_one {b : Block} (noCensus : b.sm.pendCensus = false)
    (one : b.sm.request .direct = none ∨ b.sm.request .list = none) :
    b.lowerSegen = ((b.disabled.offlineClient .service).offlineClient .direct).offlineClient .list := by
  have stays : Block.offlineCensus b.disabled = b.disabled :=
    if_neg (by rw [show b.disabled.sm.pendCensus = _ from b.sm.disable_kept.2.1, noCensus]; decide)
  have request : ∀ c, c ≠ .service → (b.disabled.offlineClient .service).sm.request c = b.sm.request c := fun c other =>
    (Block.offlineClient_request b.disabled_off other).trans (b.disabled_request c)
  unfold Block.lowerSegen
  rw [show Block.offlineCensus { b with sm := b.sm.disable } = b.disabled from stays]
  refine if_neg fun ⟨direct, list, _⟩ => one.elim (fun nothing => ?_) fun nothing => ?_
  · exact absurd direct (by simp [show Sm.pendDirect _ = none from (request .direct (by decide)).trans nothing])
  · exact absurd list (by simp [show Sm.pendList _ = none from (request .list (by decide)).trans nothing])

/-- Settles O20: the segment that the clear leaves, and a lone requester's answer. -/
theorem segenClearStopsNewWork : Obligations.SegenClearStopsNewWork := by
  intro b q operates segen
  obtain ⟨sm, au⟩ := b.lowerSegen_segment
  obtain ⟨off, census, requests, pointer, phase, gap, onWire⟩ := b.sm.disable_kept
  refine ⟨_, answers_segenClear operates segen, by rw [sm]; exact off, by rw [sm], fun c => by rw [sm]; cases c <;> rfl,
    by rw [sm]; exact pointer, by rw [sm]; exact phase, fun inGap => by rw [sm]; exact gap inGap,
    fun w wire tx => by rw [sm]; exact (onWire wire).trans (by rw [tx]; rfl), by rw [au], by rw [au], by rw [au],
    fun unasked => ?unasked, fun noCensus noService => ⟨fun direct noList sub => ?direct, fun noDirect list sub => ?list⟩,
    fun e n before after noCensus service noDirect noList ctx low high isEntry count slots fresh => ?service⟩
  case unasked =>
    obtain ⟨noCensus, none⟩ := unasked
    rw [Block.lowerSegen_of_one noCensus (.inl (none .direct))]
    have stays : ∀ c, b.disabled.offlineClient c = b.disabled := fun c =>
      Block.offlineClient_of_none ((b.disabled_request c).trans (none c))
    rw [stays, stays, stays]
    exact ⟨rfl, rfl, rfl, rfl, rfl⟩
  case direct =>
    have ends : b.lowerSegen = (b.disabled.withdraw .direct).directEnd .offline := by
      have answered : b.disabled.offlineClient .direct = (b.disabled.withdraw .direct).directEnd .offline := by
        rw [Block.offlineClient_of_some (by rw [b.disabled_request]; exact direct)]
        show Block.directProgress _ = _
        rw [Block.applyOutcome_offline_requesting (by exact sub)]
        rfl
      rw [Block.lowerSegen_of_one noCensus (.inr noList),
        Block.offlineClient_of_none (c := .service) ((b.disabled_request _).trans noService), ← answered]
      exact Block.offlineClient_of_none ((Block.offlineClient_request b.disabled_off (by decide)).trans
        ((b.disabled_request _).trans noList))
    have kept := Block.directEnd_of_off (b := b.disabled.withdraw .direct) b.disabled_off .offline
    rw [ends, kept.sm]
    exact Block.directEnd_ends (b.disabled.withdraw .direct) .offline
  case list =>
    have ends : b.lowerSegen = (b.disabled.withdraw .list).listHalt .offline := by
      rw [Block.lowerSegen_of_one noCensus (.inl noDirect),
        Block.offlineClient_of_none (c := .service) ((b.disabled_request _).trans noService),
        Block.offlineClient_of_none (c := .direct) ((b.disabled_request _).trans noDirect),
        Block.offlineClient_of_some (by rw [b.disabled_request]; exact list)]
      show Block.listProgress _ = _
      rw [Block.applyOutcome_offline_requesting (by exact sub)]
      rfl
    rw [ends, Block.listHalt_eq]
    rfl
  case service =>
    have ends : b.lowerSegen = (b.disabled.withdraw .service).finishService .offline := by
      have answered : b.disabled.offlineClient .service = (b.disabled.withdraw .service).finishService .offline := by
        rw [Block.offlineClient_of_some (by rw [b.disabled_request]; exact service)]
        show Block.serviceOutcome _ _ _ = _
        rw [Block.serviceOutcome_of_off (b := b.disabled.withdraw .service) b.disabled_off, if_pos (by exact ctx)]
      have direct := (Block.offlineClient_request b.disabled_off (c := .service) (d := .direct) (by decide)).trans
        ((b.disabled_request _).trans noDirect)
      have list := (Block.offlineClient_request b.disabled_off (c := .service) (d := .list) (by decide)).trans
        ((b.disabled_request _).trans noList)
      rw [Block.lowerSegen_of_one noCensus (.inl noDirect), Block.offlineClient_of_none (c := .direct) direct,
        Block.offlineClient_of_none (c := .list) list, answered]
    have posts := Block.finishService_posts (b.disabled.withdraw .service) .offline e n before after _ isEntry count slots
      fresh rfl
    rw [if_neg fun fault => fault.2.2 rfl] at posts
    generalize written : Bu.withEntry _ _ _ = v at posts
    obtain ⟨frame, entries⟩ := Bu.withEntry_spec written
    obtain ⟨same, others⟩ := entries ⟨low, high⟩ rfl
    rw [ends, posts, frame]
    exact ⟨rfl, same.trans (by cases e.mark <;> rfl), others⟩

end Sys2Proof.Machine

/-! CENSUS-NOW and the set of SEGEN (chapters 1, 8 and 9): the census that is asked for and the service that starts. -/

namespace Sys2Proof.Machine

/-! ### CENSUS-NOW (R135) -/

section Command

variable {b : Block}

theorem Block.censusCommand_asks (segen : b.sm.segen = true) (free : b.au.state = .quiet ∨ b.au.state = .holdoff) :
    b.censusCommand = b.censusAsked := by
  unfold Block.censusCommand
  rw [if_pos segen]
  rcases free with state | state <;> simp only [state, Block.requestCensus_eq segen]

theorem Block.censusCommand_waits (segen : b.sm.segen = true) (comes : b.au.state = .requested ∨ b.au.state = .census) :
    b.censusCommand = b := by
  unfold Block.censusCommand
  rw [if_pos segen]
  rcases comes with state | state <;> simp only [state]

theorem Block.censusCommand_refused (off : b.sm.segen = false) : b.censusCommand = b.refuse .segmentOff :=
  if_neg (by simp [off])

theorem Block.censusAsked_state (b : Block) : b.censusAsked.au.state = .requested ∨ b.censusAsked.au.state = .census := by
  by_cases idle : b.sm.phase = .idle
  · exact .inr (Block.censusAsked_of_idle idle).1
  · rw [Block.censusAsked_of_busy idle]
    exact .inl rfl

/-- The Attention Unit's part of a set of SEGEN: one census is asked for at most. -/
theorem Block.attentionAtEnable_eq (segen : b.sm.segen = true) (now : Bool) : b.attentionAtEnable now =
    if (b.au.state = .quiet ∧ b.au.atn = true) ∨ (now = true ∧ (b.au.state = .quiet ∨ b.au.state = .holdoff))
    then b.censusAsked else b := by
  have asksOnce : b.censusAsked.censusCommand = b.censusAsked :=
    Block.censusCommand_waits (b.censusAsked_frame.segen.trans segen) b.censusAsked_state
  unfold Block.attentionAtEnable
  dsimp only
  by_cases calling : b.au.state = .quiet ∧ b.au.atn = true
  · rw [Block.lookAtn_of_due calling.1 segen calling.2, asksOnce, ite_self, if_pos (.inl calling)]
  · rw [Block.lookAtn_of_not fun due => calling ⟨due.1, due.2.2⟩]
    by_cases command : now = true ∧ (b.au.state = .quiet ∨ b.au.state = .holdoff)
    · rw [if_pos command.1, if_pos (.inr command), Block.censusCommand_asks segen command.2]
    · rw [if_neg (not_or.2 ⟨calling, command⟩)]
      cases now with
      | false => rfl
      | true =>
        rw [if_pos rfl]
        refine Block.censusCommand_waits segen ?_
        cases state : b.au.state with
        | quiet => exact absurd ⟨rfl, .inl state⟩ command
        | holdoff => exact absurd ⟨rfl, .inr state⟩ command
        | requested => exact .inl rfl
        | census => exact .inr rfl

theorem Block.enabled_segen (b : Block) : b.enabled.sm.segen = true := rfl

theorem Block.enabled_unasked (noCensus : b.sm.pendCensus = false) (none : ∀ c, b.sm.request c = none) :
    b.enabled.arbitrate = b.enabled :=
  Block.arbitrate_unasked ⟨noCensus, fun c => by
    cases c
    · exact none .service
    · exact none .direct
    · exact none .list⟩

/-- With no service to start, the set of SEGEN is the Segment Master's and the Attention Unit's. -/
theorem Block.raiseSegen_of_noService (noCensus : b.sm.pendCensus = false) (none : ∀ c, b.sm.request c = none)
    (noService : b.bu.ctx = .idle → b.bu.queue = []) (now : Bool) :
    b.raiseSegen now = b.enabled.attentionAtEnable now := by
  have same : ∀ x : Block, x.bu = b.bu → x.serviceReady = false := fun x bu => by
    by_cases idle : b.bu.ctx = .idle
    · simp [Block.serviceReady, bu, noService idle]
    · simp [Block.serviceReady, bu, idle]
  have books : (b.enabled.attentionAtEnable now).bu = b.bu := by
    rw [Block.attentionAtEnable_eq b.enabled_segen]
    split
    · rw [b.enabled.censusAsked_frame.rest]
      rfl
    · rfl
  unfold Block.raiseSegen
  rw [show ({ b with sm := b.sm.enable } : Block) = b.enabled from rfl, Block.enabled_unasked noCensus none]
  dsimp only
  rw [if_neg fun ready => by simp [same b.enabled rfl] at ready]
  exact Block.startUpTo_stays _ (same _ books)

end Command

/-- A census has been asked for, and has not ended. -/
def Block.CensusComing (b : Block) : Prop := (b.au.state = .requested ∧ b.sm.pendCensus = true) ∨ b.au.state = .census

/-- The Attention Unit would ask for a census at a CENSUS-NOW, or one comes. -/
def Block.CensusFree (b : Block) : Prop := b.au.state = .quiet ∨ b.au.state = .holdoff ∨ b.CensusComing

theorem Block.arbitrate_census (b : Block) : (b.arbitrate.au = b.au ∧ b.arbitrate.sm.pendCensus = b.sm.pendCensus) ∨
    b.arbitrate.au.state = .census := by
  rcases b.arbitrate_cases with same | ⟨-, -, census⟩ | ⟨c, r, -, -, -, grants⟩
  · rw [same]; exact .inl ⟨rfl, rfl⟩
  · rw [census]; exact .inr rfl
  · rw [grants]
    obtain ⟨-, -, au, pending⟩ := b.grantClient_frame c r
    exact .inl ⟨au, pending⟩

/-- Where only a grant of the census touches the Attention Unit, a census that comes goes on coming. -/
theorem Block.CensusFree.of_kept {b b' : Block}
    (kept : (b'.au = b.au ∧ b'.sm.pendCensus = b.sm.pendCensus) ∨ b'.au.state = .census) :
    (b.CensusComing → b'.CensusComing) ∧ (b.CensusFree → b'.CensusFree) := by
  unfold Block.CensusFree Block.CensusComing
  rcases kept with ⟨au, pending⟩ | census
  · rw [au, pending]; exact ⟨id, id⟩
  · exact ⟨fun _ => .inr census, fun _ => .inr (.inr (.inr census))⟩

theorem Block.Serves.censusComing {b b' : Block} (serves : b.Serves b') :
    (b.CensusComing → b'.CensusComing) ∧ (b.CensusFree → b'.CensusFree) := by
  induction serves with
  | refl | books | reports => exact ⟨id, id⟩
  | trans _ _ first second => exact ⟨fun h => second.1 (first.1 h), fun h => second.2 (first.2 h)⟩
  | posts b r => exact Block.CensusFree.of_kept (Block.arbitrate_census { b with sm := b.sm.setRequest .service (some r) })

theorem Block.CensusFree.attends {b : Block} (free : b.CensusFree) (segen : b.sm.segen = true) :
    (b.attentionAtEnable true).CensusComing := by
  have asked : b.censusAsked.CensusComing := by
    by_cases idle : b.sm.phase = .idle
    · exact .inr (Block.censusAsked_of_idle idle).1
    · rw [Block.censusAsked_of_busy idle]
      exact .inl ⟨rfl, rfl⟩
  rw [Block.attentionAtEnable_eq segen]
  split
  · exact asked
  · next not =>
    rcases free with quiet | holdoff | comes
    · exact absurd (.inr ⟨rfl, .inl quiet⟩) not
    · exact absurd (.inr ⟨rfl, .inr holdoff⟩) not
    · exact comes

theorem Block.attentionAtEnable_segen {b : Block} (segen : b.sm.segen = true) (now : Bool) :
    (b.attentionAtEnable now).sm.segen = true := by
  rw [Block.attentionAtEnable_eq segen]
  split
  · exact b.censusAsked_frame.segen.trans segen
  · exact segen

/-- A set of SEGEN with CENSUS-NOW leaves SEGEN at 1 and a census coming. -/
theorem Block.raiseSegen_census (b : Block) : (b.raiseSegen true).sm.segen = true ∧
    (b.au.state = .quiet ∨ b.au.state = .holdoff → (b.raiseSegen true).CensusComing) := by
  have segen : b.enabled.arbitrate.sm.segen = true := (Block.arbitrate_frame _).2
  have free : b.au.state = .quiet ∨ b.au.state = .holdoff → b.enabled.arbitrate.CensusFree := fun state =>
    (Block.CensusFree.of_kept b.enabled.arbitrate_census).2 (state.imp_right .inl)
  unfold Block.raiseSegen
  rw [show ({ b with sm := b.sm.enable } : Block) = b.enabled from rfl]
  dsimp only
  generalize b.enabled.arbitrate = x at segen free
  have attendFirst : ∀ y : Block, y.sm = x.sm → y.au = x.au →
      (y.attentionAtEnable true).startServices.sm.segen = true ∧
      (b.au.state = .quiet ∨ b.au.state = .holdoff → (y.attentionAtEnable true).startServices.CensusComing) := by
    intro y sm au
    have serves := Block.Serves.startServices (y.attentionAtEnable true)
    have on : y.sm.segen = true := by rw [sm]; exact segen
    refine ⟨serves.segen.trans (Block.attentionAtEnable_segen on true), fun state => serves.censusComing.1 ?_⟩
    exact Block.CensusFree.attends ((Block.CensusFree.of_kept (.inl ⟨au, by rw [sm]⟩)).2 (free state)) on
  split
  · split
    · exact attendFirst _ rfl rfl
    · have serves := Block.Serves.startServices x.chosen
      have on : x.chosen.startServices.sm.segen = true := serves.segen.trans segen
      exact ⟨Block.attentionAtEnable_segen on true,
        fun state => Block.CensusFree.attends (serves.censusComing.2 (free state)) on⟩
  · exact attendFirst x rfl rfl

/-- Settles O21: CENSUS-NOW by SEGEN and the state of the Attention Unit, and where its write changes SEGEN. -/
theorem censusNowAsksForACensus : Obligations.CensusNowAsksForACensus := by
  intro b q operates
  have answer := fun segen => answers_operating (c := .censusNow segen) (q := q) (f := fun b => b.setSegen segen true)
    operates rfl
  have atOne : b.sm.segen = true → b.setSegen true true = b.censusCommand := fun segen => by simp [Block.setSegen, segen]
  have sets : b.sm.segen = false → b.setSegen true true = b.raiseSegen true := fun off => by simp [Block.setSegen, off]
  refine ⟨fun segen free => ?asks, fun segen comes => ?waits, fun off => ?refused, fun off => ⟨fun noCensus none noService =>
    ⟨fun free => ?enables, fun comes => ?onlyEnables⟩, ⟨_, answer true, ?sets⟩⟩,
    fun segen => ⟨_, answers_segenClear operates segen, ?clears⟩⟩
  case asks => simpa only [atOne segen, Block.censusCommand_asks segen free] using answer true
  case waits => simpa only [atOne segen, Block.censusCommand_waits segen comes] using answer true
  case refused =>
    have atZero : b.setSegen false true = b.censusCommand := by simp [Block.setSegen, off]
    simpa only [atZero, Block.censusCommand_refused off] using answer false
  case enables =>
    have asked : b.setSegen true true = b.enabled.censusAsked := by
      rw [sets off, Block.raiseSegen_of_noService noCensus none noService, Block.attentionAtEnable_eq b.enabled_segen,
        if_pos (.inr ⟨rfl, free⟩)]
    exact asked ▸ answer true
  case onlyEnables =>
    have stays : b.setSegen true true = b.enabled := by
      rw [sets off, Block.raiseSegen_of_noService noCensus none noService, Block.attentionAtEnable_eq b.enabled_segen,
        if_neg]
      have state : b.enabled.au.state = b.au.state := rfl
      rcases comes with comes | comes <;> simp [state, comes]
    exact stays ▸ answer true
  case sets =>
    rw [sets off]
    exact b.raiseSegen_census
  case clears =>
    have cleared : b.setSegen false true = b.lowerSegen.refuse .segmentOff := by
      have off : b.lowerSegen.sm.segen = false := by
        rw [b.lowerSegen_segment.1]
        exact b.sm.disable_kept.1
      rw [← Block.censusCommand_refused off]
      simp [Block.setSegen, segen]
    exact cleared ▸ answer false

end Sys2Proof.Machine

/-! The set of SEGEN with a station waiting in the Service Queue (R19, R159 to R163). -/

namespace Sys2Proof.Machine

/-- `table` is the Booking Table of `u` with `e` for the entry of one station. -/
def Bu.TableHas (u : Bu) (k : Nat) (e : Booking) (table : Vector Booking 30) : Prop :=
  ∀ v : Bu, v.table = table → v.entry k = e ∧ ∀ j, j ≠ k → v.entry j = u.entry j

theorem Bu.withEntry_has (u : Bu) {k : Nat} (station : isStation k) (e : Booking) :
    ∃ table, u.withEntry k e = { u with table := table } ∧ u.TableHas k e table := by
  obtain ⟨frame, entries⟩ := Bu.withEntry_spec (u := u) (k := k) (e := e) rfl
  exact ⟨_, frame, fun v table => entries station table⟩

theorem Block.serviceTaken_has (b : Block) {k : Nat} (station : isStation k) (rest : List Nat) :
    ∃ table, b.serviceTaken k rest = { b with bu := { b.bu with
        table := table, queue := rest, ctx := .reserving, station := k, outcome := .done, value := none } } ∧
      b.bu.TableHas k { b.bu.entry k with state := .inService } table := by
  obtain ⟨table, taken, has⟩ := b.bu.withEntry_has station { b.bu.entry k with state := .inService }
  exact ⟨table, by rw [Block.serviceTaken, taken], has⟩

/-! ### The services that start, by the head of the queue -/

theorem Block.ServicesStart.of_empty {b b' : Block} (starts : b.ServicesStart b') (empty : b.bu.queue = []) : b' = b := by
  cases starts with
  | rests => rfl
  | waits _ queue | acts _ queue | notifies _ queue => exact absurd (queue.symm.trans empty) (List.cons_ne_nil _ _)

theorem Block.ServicesStart.of_head {b b' : Block} {k : Nat} {rest : List Nat} (starts : b.ServicesStart b')
    (idle : b.bu.ctx = .idle) (queue : b.bu.queue = k :: rest) (segen : b.sm.segen = true) :
    (16 ≤ b.ru.nq.length → b' = b.serviceTaken k rest) ∧
    (b.ru.nq.length < 16 → (b.bu.entry k).cls ≠ .notify →
      (b.serviceTaken k rest).slotReserved.ActionPosted .action1 (b.bu.entry k).clear b') ∧
    (b.ru.nq.length < 16 → (b.bu.entry k).cls = .notify →
      ∃ posted, (b.serviceTaken k rest).slotReserved.ServicePosts .done none posted ∧ posted.ServicesStart b') := by
  have same : ∀ {j : Nat} {others : List Nat}, b.bu.queue = j :: others → k = j ∧ rest = others := fun at' =>
    List.cons.inj (queue.symm.trans at')
  cases starts with
  | rests stays => exact absurd (stays idle (by simp [queue])) (by simp [segen])
  | waits _ at' _ full =>
    obtain ⟨rfl, rfl⟩ := same at'
    exact ⟨fun _ => rfl, fun free => absurd full (Nat.not_le.2 free), fun free => absurd full (Nat.not_le.2 free)⟩
  | acts _ at' _ free acts posted =>
    obtain ⟨rfl, rfl⟩ := same at'
    exact ⟨fun full => absurd full (Nat.not_le.2 free), fun _ _ => posted, fun _ notify => absurd notify acts⟩
  | notifies _ at' _ free notify posted others =>
    obtain ⟨rfl, rfl⟩ := same at'
    exact ⟨fun full => absurd full (Nat.not_le.2 free), fun _ acts => absurd notify acts, fun _ _ => ⟨_, posted, others⟩⟩

section Head

variable {b : Block} {k : Nat} {rest : List Nat} (station : isStation k) (idle : b.bu.ctx = .idle)
  (queue : b.bu.queue = k :: rest) (segen : b.sm.segen = true)
include station idle queue segen

/-- Without a free slot the service waits for one. -/
theorem Block.startServices_waits (full : 16 ≤ b.ru.nq.length) : ∃ table,
    b.startServices = { b with bu := { b.bu with
      table := table, queue := rest, ctx := .reserving, station := k, outcome := .done, value := none } } ∧
    b.bu.TableHas k { b.bu.entry k with state := .inService } table := by
  obtain ⟨table, taken, has⟩ := b.serviceTaken_has station rest
  exact ⟨table, (((b.startServices_starts.of_head idle queue segen).1 full).trans taken), has⟩

/-- A NOTIFY service posts its record; no other station waits behind it. -/
theorem Block.startServices_notifies (free : b.ru.nq.length < 16) (notify : (b.bu.entry k).cls = .notify)
    (lone : rest = []) (noReserved : .reserved ∉ b.ru.nq) {n : BitVec 8}
    (count : n = if (b.bu.entry k).count = 255 then 255 else (b.bu.entry k).count + 1) : ∃ table,
    b.startServices = { b with
      bu := { b.bu with table := table, queue := [], ctx := .idle, station := 0, outcome := .done, value := none }
      ru := { b.ru with nq := b.ru.nq ++ [.occupied (.service k (b.bu.entry k).tag .done n none)] } } ∧
    b.bu.TableHas k { b.bu.entry k with
      count := n, mark := .noMark
      state := if (b.bu.entry k).mark = .unbook then .unbooked else .disarmed } table := by
  subst lone
  obtain ⟨posted, posts, others⟩ := (b.startServices_starts.of_head idle queue segen).2.2 free notify
  obtain ⟨served, taken, has⟩ := b.serviceTaken_has station []
  rw [taken] at posts
  obtain ⟨same, kept⟩ := has { b.bu with
    table := served, queue := [], ctx := .reserving, station := k, outcome := .done, value := none } rfl
  have record := posts { b.bu.entry k with state := .inService } n b.ru.nq [] _ same.symm count rfl noReserved rfl
  rw [if_neg fun fault => fault.2.1 rfl] at record
  generalize written : Bu.withEntry _ _ _ = v at record
  obtain ⟨frame, entries⟩ := Bu.withEntry_spec written
  have ends := others.of_empty (by rw [record, frame]; rfl)
  refine ⟨v.table, by rw [ends, record, frame]; rfl, fun x table => ?_⟩
  obtain ⟨own, rest⟩ := entries station table
  refine ⟨own.trans ?_, fun j other => (rest j other).trans (kept j other)⟩
  cases (b.bu.entry k).mark <;> simp [notify]

/-- A service with an action has its slot, and its clear action goes to the arbiter. -/
theorem Block.startServices_acts (free : b.ru.nq.length < 16) (acts : (b.bu.entry k).cls ≠ .notify) : ∃ table,
    b.bu.TableHas k { b.bu.entry k with state := .inService } table ∧
    Block.Judged { b with
      bu := { b.bu with table := table, queue := rest, ctx := .action1, station := k, outcome := .done, value := none }
      ru := { b.ru with nq := b.ru.nq ++ [.reserved] }
      sm := { b.sm with pendService := some (serviceRequest b.bu.tim2 k (b.bu.entry k).clear) } } b.startServices := by
  obtain ⟨table, taken, has⟩ := b.serviceTaken_has station rest
  have posted := (b.startServices_starts.of_head idle queue segen).2.1 free acts
  rw [taken] at posted
  exact ⟨table, has, posted⟩

end Head

/-! ### The set of SEGEN -/

/-- What the Attention Unit makes of the set of SEGEN (R134). -/
theorem Block.attentionAtEnable_look {b : Block} (segen : b.sm.segen = true) : b.attentionAtEnable false =
    if (decide (b.au.state = .quiet) && b.au.atn) = true then b.censusAsked else b := by
  rw [Block.attentionAtEnable_eq segen]
  simp

/-- The order of a census request and a service that find the Segment Master OFF is free; elsewhere the Attention Unit
comes first (R21, log entry 2). -/
theorem Block.raiseSegen_cases {b : Block} (noCensus : b.sm.pendCensus = false) (nothing : ∀ c, b.sm.request c = none) :
    (∃ n, b.raiseSegen false = (Block.attentionAtEnable { b.enabled with choices := n } false).startServices) ∨
    (b.enabled.sm.phase = .idle ∧ (decide (b.au.state = .quiet) && b.au.atn) = true ∧
      ∃ n, b.raiseSegen false = Block.attentionAtEnable (Block.startServices { b.enabled with choices := n }) false) := by
  unfold Block.raiseSegen
  rw [show ({ b with sm := b.sm.enable } : Block) = b.enabled from rfl, Block.enabled_unasked noCensus nothing]
  dsimp only
  split
  · next ready =>
    have calling : (decide (b.au.state = .quiet) && b.au.atn) = true := by
      have asks := ready.2.1
      rw [Block.censusAtEnable, Bool.false_and, Bool.or_false] at asks
      obtain ⟨quiet, -, atn⟩ := b.enabled.attentionDue_iff.1 asks
      rw [Bool.and_eq_true, decide_eq_true_iff]
      exact ⟨quiet, atn⟩
    split
    · exact .inl ⟨b.choices + 1, rfl⟩
    · exact .inr ⟨ready.1, calling, b.choices + 1, rfl⟩
  · exact .inl ⟨b.choices, rfl⟩

theorem Block.censusAsked_choices (b : Block) (n : Nat) :
    Block.censusAsked { b with choices := n } = { b.censusAsked with choices := n } := by
  unfold Block.censusAsked
  dsimp only
  split <;> rfl

/-- The one request that is pending is granted to the service, wherever the pointer stands (R22). -/
theorem Block.Judged.lone_service {b b' : Block} (judged : b.Judged b') (idle : b.sm.phase = .idle)
    (noCensus : b.sm.pendCensus = false) {r : Request} (request : b.sm.pendService = some r)
    (noDirect : b.sm.pendDirect = none) (noList : b.sm.pendList = none) : b' = b.granted .service r := by
  refine judged.2.2 .service r idle noCensus request ?_
  cases pointer : b.sm.pointer with
  | list => exact .inl rfl
  | direct => exact .inr (.inl ⟨rfl, noList⟩)
  | service => exact .inr (.inr ⟨rfl, noDirect, noList⟩)

/-- What the set of SEGEN comes to with the station `k` at the head of the Service Queue, as the claim puts it. -/
structure Block.HeadStarts (b : Block) (calling : Bool) (asked : Block) (k : Nat) (rest : List Nat) (b' : Block) : Prop where
  waits : 16 ≤ b.ru.nq.length →
    b' = { asked with
      bu := { b.bu with table := b'.bu.table, queue := rest, ctx := .reserving, station := k, outcome := .done, value := none }
      choices := b'.choices } ∧
    b.bu.TableHas k { b.bu.entry k with state := .inService } b'.bu.table
  notifies : ∀ n : BitVec 8, b.ru.nq.length < 16 → (b.bu.entry k).cls = .notify → rest = [] → .reserved ∉ b.ru.nq →
    n = (if (b.bu.entry k).count = 255 then 255 else (b.bu.entry k).count + 1) →
    b' = { asked with
      bu := { b.bu with table := b'.bu.table, queue := [], ctx := .idle, station := 0, outcome := .done, value := none }
      ru := { b.ru with nq := b.ru.nq ++ [.occupied (.service k (b.bu.entry k).tag .done n none)] }
      choices := b'.choices } ∧
    b.bu.TableHas k { b.bu.entry k with
      count := n, mark := .noMark, state := if (b.bu.entry k).mark = .unbook then .unbooked else .disarmed } b'.bu.table
  acts : b.ru.nq.length < 16 → (b.bu.entry k).cls ≠ .notify →
    b' = { b with
      sm := b'.sm
      au := b'.au
      bu := { b.bu with table := b'.bu.table, queue := rest, ctx := .action1, station := k, outcome := .done, value := none }
      ru := { b.ru with nq := b.ru.nq ++ [.reserved] }
      choices := b'.choices } ∧
    b.bu.TableHas k { b.bu.entry k with state := .inService } b'.bu.table ∧
    ((b.sm.phase ≠ .off ∨ calling = true) ∧ b'.au = asked.au ∧
        b'.sm = { asked.sm with pendService := some (serviceRequest b.bu.tim2 k (b.bu.entry k).clear) } ∨
      b.sm.phase = .off ∧
        b'.au = (if calling then { b.au with state := .requested, timer := none } else b.au) ∧
        b'.sm = { (b.enabled.granted .service (serviceRequest b.bu.tim2 k (b.bu.entry k).clear)).sm with
          pendCensus := calling })

section Set

variable {b : Block} {k : Nat} {rest : List Nat} (station : isStation k) (idle : b.bu.ctx = .idle)
  (queue : b.bu.queue = k :: rest) (noCensus : b.sm.pendCensus = false) (nothing : ∀ c, b.sm.request c = none)
  (notIdle : b.sm.phase ≠ .idle)
include station idle queue noCensus nothing notIdle

/-- The Attention Unit first: the census that it may ask for has the Segment Master. -/
theorem Block.headStarts_behind_attention {calling : Bool} (n : Nat) {asked : Block}
    (isAsked : asked = if calling then b.enabled.censusAsked else b.enabled) :
    b.HeadStarts calling asked k rest (Block.startServices { asked with choices := n }) := by
  have segen : asked.sm.segen = true := by
    rw [isAsked]
    split
    · exact b.enabled.censusAsked_frame.segen
    · rfl
  have atRest : asked.sm.phase = .idle → calling = false ∧ b.sm.phase = .off ∧ asked = b.enabled := fun rests => by
    rw [isAsked] at rests ⊢
    cases calling with
    | true =>
      rw [if_pos rfl] at rests
      by_cases enabledIdle : b.enabled.sm.phase = .idle
      · exact SmPhase.noConfusion (rests.symm.trans (Block.censusAsked_of_idle enabledIdle).2.1)
      · rw [Block.censusAsked_of_busy enabledIdle] at rests
        exact absurd rests enabledIdle
    | false =>
      refine ⟨rfl, ?_, rfl⟩
      by_contra notOff
      exact notIdle ((if_neg notOff).symm.trans rests)
  obtain ⟨m, u, rfl⟩ : ∃ m u, asked = { b with sm := m, au := u } := by
    rw [isAsked]
    split
    · rw [b.enabled.censusAsked_frame.rest]
      exact ⟨_, _, rfl⟩
    · exact ⟨_, _, rfl⟩
  refine ⟨fun full => ?waits, fun count free notify lone noReserved isCount => ?notifies, fun free acts => ?acts⟩
  case waits =>
    obtain ⟨table, ends, has⟩ := Block.startServices_waits (b := { b with sm := m, au := u, choices := n }) station idle queue
      segen full
    rw [ends]
    exact ⟨rfl, has⟩
  case notifies =>
    obtain ⟨table, ends, has⟩ := Block.startServices_notifies (b := { b with sm := m, au := u, choices := n }) station idle
      queue segen free notify lone noReserved isCount
    rw [ends]
    exact ⟨rfl, has⟩
  case acts =>
    obtain ⟨table, has, judged⟩ := Block.startServices_acts (b := { b with sm := m, au := u, choices := n }) station idle queue
      segen free acts
    by_cases rests : m.phase = .idle
    · obtain ⟨rfl, off, enabled⟩ := atRest rests
      have sm : m = b.enabled.sm := congrArg Block.sm enabled
      have au : u = b.au := congrArg Block.au enabled
      subst sm au
      rw [judged.lone_service rests (by exact noCensus) rfl (by exact nothing .direct) (by exact nothing .list)]
      refine ⟨rfl, has, .inr ⟨off, rfl, ?_⟩⟩
      exact congrArg (fun pending => { (b.enabled.granted .service
        (serviceRequest b.bu.tim2 k (b.bu.entry k).clear)).sm with pendCensus := pending }) noCensus
    · rw [judged.1 rests]
      refine ⟨rfl, has, .inl ⟨?_, rfl, rfl⟩⟩
      by_contra neither
      obtain ⟨off, notCalling⟩ := not_or.1 neither
      rw [if_neg notCalling] at isAsked
      have sm : m = b.enabled.sm := congrArg Block.sm isAsked
      exact rests (sm ▸ if_pos (not_not.1 off))

/-- The service first: its action has the Segment Master, and the census waits. -/
theorem Block.headStarts_before_attention {n : Nat} (off : b.enabled.sm.phase = .idle)
    (calling : (decide (b.au.state = .quiet) && b.au.atn) = true) :
    b.HeadStarts true b.enabled.censusAsked k rest
      (Block.attentionAtEnable (Block.startServices { b.enabled with choices := n }) false) := by
  refine ⟨fun full => ?waits, fun count free notify lone noReserved isCount => ?notifies, fun free acts => ?acts⟩
  case waits =>
    obtain ⟨table, ends, has⟩ := Block.startServices_waits (b := { b.enabled with choices := n }) station idle queue rfl full
    rw [ends, Block.attentionAtEnable_look (by rfl), if_pos (by exact calling), Block.censusAsked, if_pos (by exact off),
      Block.censusAsked, if_pos off]
    exact ⟨rfl, has⟩
  case notifies =>
    obtain ⟨table, ends, has⟩ := Block.startServices_notifies (b := { b.enabled with choices := n }) station idle queue rfl free
      notify lone noReserved isCount
    rw [ends, Block.attentionAtEnable_look (by rfl), if_pos (by exact calling), Block.censusAsked, if_pos (by exact off),
      Block.censusAsked, if_pos off]
    exact ⟨rfl, has⟩
  case acts =>
    obtain ⟨table, has, judged⟩ := Block.startServices_acts (b := { b.enabled with choices := n }) station idle queue rfl free
      acts
    rw [judged.lone_service off (by exact noCensus) rfl (by exact nothing .direct) (by exact nothing .list),
      Block.attentionAtEnable_look (by rfl), if_pos (by exact calling),
      Block.censusAsked_of_busy (by exact fun h => SmPhase.noConfusion h)]
    have phase : b.sm.phase = .off := by
      by_contra notOff
      exact notIdle ((if_neg notOff).symm.trans off)
    exact ⟨rfl, has, .inr ⟨phase, rfl, rfl⟩⟩

end Set

/-- Settles O19. -/
theorem segenSetEnablesTheSegment : Obligations.SegenSetEnablesTheSegment := by
  rintro b q calling asked operates isCalling isAsked
  have answer := answers_operating (c := .segenSet) (q := q) (f := fun b => b.setSegen true false) operates rfl
  refine ⟨fun segen => ?stays, fun off noCensus nothing => ?sets⟩
  case stays => simpa [Block.setSegen, segen] using answer
  case sets =>
    have sets : b.setSegen true false = b.raiseSegen false := by simp [Block.setSegen, off]
    have calls : (decide (b.enabled.au.state = .quiet) && b.enabled.au.atn) = calling := isCalling.symm
    simp only [sets] at answer
    refine ⟨fun noService => ?alone, fun k rest e idle queue isEntry low high notIdle => ⟨_, answer, ?_⟩⟩
    case alone =>
      rwa [Block.raiseSegen_of_noService noCensus nothing noService, Block.attentionAtEnable_look b.enabled_segen,
        calls, ← isAsked] at answer
    have starts : b.HeadStarts calling asked k rest (b.raiseSegen false) := by
      rcases Block.raiseSegen_cases noCensus nothing with ⟨n, order⟩ | ⟨off, calls', n, order⟩
      · have attended : Block.attentionAtEnable { b.enabled with choices := n } false = { asked with choices := n } := by
          refine (Block.attentionAtEnable_look (by exact b.enabled_segen)).trans ?_
          rw [isAsked]
          cases calling with
          | true => exact (if_pos calls).trans (b.enabled.censusAsked_choices n)
          | false => exact if_neg fun calls' => Bool.noConfusion (calls.symm.trans calls')
        rw [order, attended]
        exact Block.headStarts_behind_attention ⟨low, high⟩ idle queue noCensus nothing notIdle n isAsked
      · rw [order]
        obtain rfl : calling = true := isCalling.trans calls'
        rw [if_pos rfl] at isAsked
        rw [isAsked]
        exact Block.headStarts_before_attention ⟨low, high⟩ idle queue noCensus nothing notIdle off calls'
    obtain ⟨waits, notifies, acts⟩ := starts
    subst isEntry
    refine ⟨fun full => ?waits, fun n free notify lone noReserved count => ?notifies, fun free acting => ?acts⟩
    case waits =>
      obtain ⟨frame, has⟩ := waits full
      exact ⟨frame, has _ rfl⟩
    case notifies =>
      obtain ⟨frame, has⟩ := notifies n free notify lone noReserved count
      exact ⟨frame, has _ rfl⟩
    case acts =>
      obtain ⟨frame, has, order⟩ := acts free acting
      obtain ⟨own, others⟩ := has _ rfl
      refine ⟨frame, own, others, order.imp_right fun ⟨off, au, sm⟩ => ⟨off, au, ?_⟩⟩
      rw [sm]
      refine ⟨rfl, rfl, rfl, rfl, fun c => ?_, _, rfl, rfl, rfl, rfl, rfl, rfl, rfl, ?_⟩
      · cases c
        · rfl
        · exact nothing .direct
        · exact nothing .list
      · by_cases store : (b.bu.entry k).clear.verb = .store
        · simp only [serviceRequest, store, if_true]
        · simp only [serviceRequest, store, if_false]

end Sys2Proof.Machine

/-! What the end of a last gap delivers (R15, R17, R18): a requester that takes its outcome while the Segment Master is
still in the gap, and the Segment Master at rest behind it, leave what the requester makes of the outcome with the Segment
Master at rest already. -/

namespace Sys2Proof.Machine

/-- The Segment Master is in a gap and no request is pending. -/
structure Block.InLastGap (b : Block) : Prop where
  phase : b.sm.phase = .gap
  unasked : b.sm.Unasked

theorem Block.InLastGap.of_sm_eq {b x : Block} (last : b.InLastGap) (sm : x.sm = b.sm) : x.InLastGap :=
  ⟨by rw [sm]; exact last.phase, by rw [sm]; exact last.unasked⟩

/-- With nothing pending nothing is granted. -/
theorem Block.InLastGap.comeToRest {b : Block} (last : b.InLastGap) : b.comeToRest = b.rested :=
  Block.arbitrate_unasked last.unasked.enterRest

/-- A request posted in the gap is judged at rest. -/
theorem Block.post_comeToRest {b : Block} (phase : b.sm.phase = .gap) (c : Client) (r : Request) :
    (b.post c r).comeToRest = b.rested.post c r := by
  have waits : b.post c r = { b with sm := b.sm.setRequest c (some r) } := by
    unfold Block.post Block.arbitrate
    exact if_neg fun ⟨idle, _⟩ => by cases c <;> simp [Sm.setRequest, phase] at idle
  rw [waits]
  cases c <;> rfl

theorem Block.arbitrate_setCondition (b : Block) (c : Condition) :
    (b.setCondition c).arbitrate = b.arbitrate.setCondition c := by
  unfold Block.arbitrate
  rw [show (b.setCondition c).sm = b.sm from rfl]
  by_cases ready : b.sm.phase = .idle ∧ b.sm.segen = true
  · rw [if_pos ready, if_pos ready]
    by_cases census : b.sm.pendCensus = true
    · rw [if_pos census, if_pos census]
      rfl
    · rw [if_neg census, if_neg census]
      cases next : b.sm.nextClient with
      | none => rfl
      | some client =>
        cases request : b.sm.request client with
        | none => simp only [request]
        | some r =>
          simp only [request]
          cases client <;> rfl
  · rw [if_neg ready, if_neg ready]

theorem Block.setCondition_comeToRest (b : Block) (c : Condition) :
    (b.setCondition c).comeToRest = b.comeToRest.setCondition c := b.rested.arbitrate_setCondition c

/-! ### Preparing a word -/

/-- `p'` is what an operation on a run comes to with the Segment Master at rest, where it comes to `p` in the gap. -/
inductive Progress.Rests : Progress → Progress → Prop where
  | goesOn {x y : Block} : x.comeToRest = y → Rests (x, none) (y, none)
  | ends {x : Block} (res : Result) : x.InLastGap → Rests (x, some res) (x.rested, some res)

theorem Block.rested_run (b : Block) (o : Owner) : b.rested.run o = b.run o := by cases o <;> rfl

theorem Block.rested_setRun (b : Block) (o : Owner) (r : Run) : (b.setRun o r).rested = b.rested.setRun o r := by
  cases o <;> rfl

theorem Block.InLastGap.setRun {b : Block} (last : b.InLastGap) (o : Owner) (r : Run) : (b.setRun o r).InLastGap :=
  last.of_sm_eq (Block.setRun_sm ..)

theorem Block.InLastGap.postWord {b : Block} (last : b.InLastGap) (o : Owner) :
    Progress.Rests (b.postWord o) (b.rested.postWord o) := by
  unfold Block.postWord
  by_cases segen : b.sm.segen = true
  · rw [if_pos segen, if_pos (show b.rested.sm.segen = true from segen)]
    refine .goesOn ?_
    rw [Block.post_comeToRest (last.setRun ..).phase, Block.rested_setRun, Block.rested_run]
    rfl
  · rw [if_neg segen, if_neg (show ¬ b.rested.sm.segen = true from segen)]
    exact .ends _ last

theorem Block.InLastGap.stallRun {b : Block} (last : b.InLastGap) (o : Owner) (reason : StallReason) (full : Bool) :
    Progress.Rests (b.stallRun o reason full, none) (b.rested.stallRun o reason full, none) := by
  refine .goesOn ?_
  rw [(last.of_sm_eq (Block.stallRun_sm b o reason full)).comeToRest]
  cases o <;> rfl

theorem Block.InLastGap.testData {b : Block} (last : b.InLastGap) (o : Owner) :
    Progress.Rests (b.testData o) (b.rested.testData o) := by
  unfold Block.testData
  rw [Block.rested_run, show b.rested.fp = b.fp from rfl]
  cases side : (b.run o).desc.fifoSide with
  | none =>
    simp only [side]
    exact last.postWord o
  | some side' =>
    cases side' with
    | outbound =>
      simp only [side]
      by_cases empty : b.fp.out.level = 0
      · rw [if_pos empty, if_pos empty]
        exact last.stallRun ..
      · rw [if_neg empty, if_neg empty]
        exact last.postWord o
    | inbound =>
      simp only [side]
      by_cases full : (b.run o).fullSeen = true
      · rw [if_pos full, if_pos full]
        by_cases room : b.fp.inb.level ≤ b.fp.resumeMark.toNat
        · rw [if_pos room, if_pos room, ← Block.rested_setRun]
          exact (last.setRun ..).postWord o
        · rw [if_neg room, if_neg room]
          exact last.stallRun ..
      · rw [if_neg full, if_neg full]
        by_cases room : b.fp.inb.level < 64
        · rw [if_pos room, if_pos room]
          exact last.postWord o
        · rw [if_neg room, if_neg room]
          exact last.stallRun ..

theorem Block.InLastGap.prepare {b : Block} (last : b.InLastGap) (o : Owner) :
    Progress.Rests (b.prepare o) (b.rested.prepare o) := by
  unfold Block.prepare
  rw [Block.rested_run, show b.rested.sd = b.sd from rfl]
  cases target : b.sd.target (b.run o).desc (b.run o).index with
  | error e =>
    simp only [target]
    exact .ends _ last
  | ok found =>
    simp only [target]
    rw [← Block.rested_setRun]
    exact (last.setRun ..).testData o

theorem Block.InLastGap.startRun {b : Block} (last : b.InLastGap) (o : Owner) :
    Progress.Rests (b.startRun o) (b.rested.startRun o) := by
  unfold Block.startRun
  rw [Block.rested_run]
  split
  · exact .ends _ last
  · exact last.prepare o

/-! ### The ends of runs -/

theorem Block.InLastGap.listHalt {b : Block} (last : b.InLastGap) (res : Result) :
    (b.listHalt res).comeToRest = b.rested.listHalt res :=
  (last.of_sm_eq (x := b.listHalt res) rfl).comeToRest

theorem Block.InLastGap.listEnd {b : Block} (last : b.InLastGap) (res : Result) :
    (b.listEnd res).comeToRest = b.rested.listEnd res :=
  (last.of_sm_eq (x := b.listEnd res) rfl).comeToRest

/-- The block whose entry's run starts, its claim being held (R121). -/
def Block.entryStarted (b : Block) : Block :=
  { b with le := { b.le with
    activity := .running, stallTimer := none, run := { b.le.run with sub := .preparing, stall := .noStall } } }

/-- The engine takes what the start of its entry's run comes to (R121). -/
def Block.takeStart : Progress → Block
  | (c, none) => c
  | (c, some res) => c.listHalt res

theorem Block.listRunStart_eq_takeStart (b : Block) : b.listRunStart = Block.takeStart (b.entryStarted.startRun .list) := by
  unfold Block.listRunStart
  dsimp only
  rw [show ({ b with le := _ } : Block) = b.entryStarted from rfl]
  generalize b.entryStarted.startRun .list = p
  obtain ⟨c, none | res⟩ := p <;> rfl

theorem Progress.Rests.takeStart {p p' : Progress} (rests : Progress.Rests p p') :
    (Block.takeStart p).comeToRest = Block.takeStart p' := by
  cases rests with
  | goesOn same => exact same
  | ends res last => exact last.listHalt res

theorem Block.InLastGap.listRunStart {b : Block} (last : b.InLastGap) :
    b.listRunStart.comeToRest = b.rested.listRunStart := by
  have started : b.entryStarted.InLastGap := last.of_sm_eq rfl
  rw [Block.listRunStart_eq_takeStart, Block.listRunStart_eq_takeStart, (started.startRun .list).takeStart]
  rfl

theorem Block.InLastGap.directEnd {b : Block} (last : b.InLastGap) (res : Result) :
    (b.directEnd res).comeToRest = b.rested.directEnd res := by
  unfold Block.directEnd
  dsimp only
  rw [show b.rested.passingClaim = b.passingClaim from rfl]
  cases passing : b.passingClaim with
  | none => exact (last.of_sm_eq (x := ((b.directResults res).releaseDirect).setCondition .ddone) rfl).comeToRest
  | some side =>
    dsimp only
    have rested : ((b.rested.directResults res).releaseDirect).setClaim side .list =
        (((b.directResults res).releaseDirect).setClaim side .list).rested := by cases side <;> rfl
    have gap : (((b.directResults res).releaseDirect).setClaim side .list).InLastGap :=
      last.of_sm_eq (by cases side <;> rfl)
    rw [rested]
    generalize ((b.directResults res).releaseDirect).setClaim side .list = p at gap
    rw [show p.rested.wouldPost .ddone = p.wouldPost .ddone from rfl,
      show p.rested.wouldPost .lhalt = p.wouldPost .lhalt from rfl, show p.rested.choose.1 = p.choose.1 from rfl]
    by_cases both : p.wouldPost .ddone = true ∧ p.wouldPost .lhalt = true
    · rw [if_pos both, if_pos both]
      have chosen : p.chosen.InLastGap := gap.of_sm_eq rfl
      by_cases first : p.choose.1 = true
      · rw [if_pos first, if_pos first]
        exact Block.InLastGap.listRunStart (b := p.chosen.setCondition .ddone) (chosen.of_sm_eq rfl)
      · rw [if_neg first, if_neg first]
        exact (p.chosen.listRunStart.setCondition_comeToRest .ddone).trans
          (congrArg (·.setCondition .ddone) chosen.listRunStart)
    · rw [if_neg both, if_neg both]
      exact Block.InLastGap.listRunStart (b := p.setCondition .ddone) (gap.of_sm_eq rfl)

/-! ### The services that start behind a record -/

theorem Block.ServicePosts.of_rested {b posted : Block} {outcome : Ending} {value : Option Word}
    (posts : b.ServicePosts outcome value posted) : b.rested.ServicePosts outcome value posted.rested := by
  intro e n before after record isEntry count slots fresh isRecord
  rw [posts e n before after _ isEntry count slots fresh rfl, isRecord]
  split <;> rfl

/-- A record that fills a reservation leaves the Segment Master alone. -/
theorem Block.ServicePosts.sm {b posted : Block} {outcome : Ending} {value : Option Word}
    (posts : b.ServicePosts outcome value posted) (reserved : .reserved ∈ b.ru.nq) : posted.sm = b.sm := by
  obtain ⟨before, after, slots, fresh⟩ := List.eq_append_cons_of_mem reserved
  have record := posts (b.bu.entry b.bu.station) _ before after _ rfl rfl slots fresh rfl
  generalize Bu.withEntry _ _ _ = v at record
  rw [record]
  split <;> rfl

/-- An action posted in the gap is judged at rest. -/
theorem Block.ActionPosted.of_rested {t b' : Block} {ctx : SvcState} {a : Action} (posted : t.ActionPosted ctx a b')
    (gap : t.sm.phase = .gap) (segen : t.sm.segen = true) : t.rested.ActionPosted ctx a b'.comeToRest := by
  rw [posted.1 fun idle => SmPhase.noConfusion (gap.symm.trans idle)]
  exact Block.arbitrate_judged segen

/-- The services that start in the gap start alike at rest. -/
theorem Block.ServicesStart.of_rested {b b' : Block} (starts : b.ServicesStart b') (last : b.InLastGap) :
    b.rested.ServicesStart b'.comeToRest := by
  induction starts with
  | rests stays =>
    rw [last.comeToRest]
    exact .rests stays
  | @waits b k rest idle queue segen full =>
    have taken : (b.serviceTaken k rest).InLastGap := last.of_sm_eq (by simp only [Block.serviceTaken])
    rw [taken.comeToRest]
    exact .waits idle queue segen full
  | @acts b b' k rest idle queue segen free acts posted =>
    have sm : (b.serviceTaken k rest).slotReserved.sm = b.sm := by simp only [Block.slotReserved, Block.serviceTaken]
    exact .acts idle queue segen free acts (posted.of_rested (by rw [sm]; exact last.phase) (by rw [sm]; exact segen))
  | @notifies b posted b' k rest idle queue segen free notify posts _ ih =>
    have reserved : (b.serviceTaken k rest).slotReserved.sm = b.sm := by simp only [Block.slotReserved, Block.serviceTaken]
    have sm := posts.sm (List.mem_append_right _ (List.mem_singleton.2 rfl))
    exact .notifies idle queue segen free notify posts.of_rested (ih (last.of_sm_eq (sm.trans reserved)))

/-- A record is posted alike at rest. -/
theorem Block.finishService_rested (b : Block) (e : Ending) : b.rested.finishService e = (b.finishService e).rested := by
  unfold Block.finishService Block.postService
  dsimp only
  by_cases fault : serviceFault (b.bu.entry b.bu.station).mark e = true
  · rw [if_pos (by exact fault), if_pos (by exact fault)]
    rfl
  · rw [if_neg (by exact fault), if_neg (by exact fault)]
    rfl

/-! ### The end of a gap -/

theorem Block.gapEnd_of_deliver {b : Block} {w : WordTx} {e : Ending} (phase : b.sm.phase = .gap)
    (after : b.sm.after = .deliver) (tx : b.sm.tx = some (.word w)) (latest : w.latest = some e) :
    b.gapEnd = (b.deliver w.client e 0).comeToRest := by
  unfold Block.gapEnd
  rw [if_pos phase]
  simp only [after, tx, latest]

/-- A final failure ends a run that is not ABORTING with its own result, and an ABORTING one ABORTED (R39, R46). -/
theorem Block.applyOutcome_failed {b : Block} {o : Owner} {e : Ending} (v : Word) (failure : e = .silent ∨ e = .corrupt) :
    b.applyOutcome o e v = (b, some (if (b.run o).sub = .aborting then .aborted else e.result)) := by
  unfold Block.applyOutcome Block.applyAborting
  rcases failure with rfl | rfl <;> split <;> rfl

/-- Settles O18: the retry, rest in OFF, and the delivery of a final failure, which the requester takes as at rest. -/
theorem gapEndRetriesDeliversOrRests : Obligations.GapEndRetriesDeliversOrRests := by
  intro b q operates phase
  have answer := answers_gapEnd q operates
  refine ⟨fun x after tx => ?retry, fun after off => ?rests,
    fun w e rested after tx latest failure noCensus nothing isRested => ?delivers⟩
  case retry =>
    have sends : b.gapEnd = { b with sm := b.sm.enterSend x } := by
      unfold Block.gapEnd
      rw [if_pos phase]
      simp only [after, tx]
    rw [sends, Sm.enterSend, ← tx] at answer
    exact answer
  case rests =>
    have toOff : b.rested.sm.phase = .off := if_neg (by simp [off])
    rw [Block.gapEnd_of_rest phase after, Block.arbitrate, if_neg fun ready => SmPhase.noConfusion (toOff.symm.trans ready.1),
      Block.rested, Sm.enterRest, if_neg (by simp [off])] at answer
    dsimp only
    rw [after]
    exact answer
  case delivers =>
    have last : b.InLastGap := ⟨phase, noCensus, nothing⟩
    obtain rfl : rested = b.rested := isRested
    rw [Block.gapEnd_of_deliver phase after tx latest] at answer
    refine ⟨fun client => ?direct, fun client => ?list, fun client ctx => ?service⟩
    case direct =>
      have ends : ∀ res, (b.applyOutcome .direct e 0) = (b, some res) →
          ∃ b', Answers .gapEnd ⟨b, q⟩ b' ∧ b.rested.DirectEnds res b' := fun res outcome => by
        rw [client, Block.deliver_eq (c := .direct) (o := .direct) rfl, outcome] at answer
        refine ⟨_, answer, ?_⟩
        rw [show (Block.takeProgress .direct (b, some res)).comeToRest = _ from last.directEnd res]
        exact Block.directEnd_ends b.rested res
      refine ⟨fun sub => ends _ ?_, fun sub => ends _ ?_⟩
      · rw [Block.applyOutcome_failed 0 failure, show (b.run .direct).sub = _ from sub]
        rfl
      · rw [Block.applyOutcome_failed 0 failure, show (b.run .direct).sub = _ from sub]
        rfl
    case list =>
      rw [client, Block.deliver_eq (c := .list) (o := .list) rfl, Block.applyOutcome_failed 0 failure] at answer
      refine ⟨fun sub => ?halts, fun sub => ?aborts⟩
      case halts =>
        have halts : (Block.takeProgress .list (b, some e.result)).comeToRest = b.rested.listHalted e.result true := by
          have resumable : e.result.resumable = true := by rcases failure with rfl | rfl <;> rfl
          have taken : Block.takeProgress .list (b, some e.result) = b.listHalt e.result := by
            rcases failure with rfl | rfl <;> rfl
          rw [taken, last.listHalt, Block.listHalt_eq, resumable]
        rw [show (b.run .list).sub = _ from sub, if_neg (by decide), halts] at answer
        exact answer
      case aborts =>
        have ends : (Block.takeProgress .list (b, some .aborted)).comeToRest = b.rested.listOver .aborted :=
          (last.listEnd .aborted).trans (Block.listEnd_eq ..)
        rw [show (b.run .list).sub = _ from sub, if_pos rfl, ends] at answer
        exact answer
    case service =>
      have notDone : e ≠ .done := by rcases failure with rfl | rfl <;> decide
      have finishes : b.applyAction e 0 = b.finishService e := Block.applyAction_ends (v := 0) (value := b.bu.value)
        (by simp [notDone]) (ctx.imp_left fun first => ⟨first, .inr notDone⟩)
      have delivers : b.deliver w.client e 0 = (b.finishService e).startServices := by
        rw [client]
        exact congrArg Block.startServices finishes
      rw [delivers] at answer
      refine ⟨_, answer, fun _ => ⟨_, b.rested.finishService_posts e, ?_⟩⟩
      rw [b.finishService_rested e]
      exact (Block.startServices_starts _).of_rested (last.of_sm_eq (Block.SegmentKept.finishService b e).sm)

end Sys2Proof.Machine
